-- ==== Sys2Proof/Word.lean ====
section
/-! DEFINITION. The word types of the Lomgar 2432 model: times, bytes, and the numbers the manual gives its items.

The manual numbers groups, detector channels, lamp channels, approaches, stages and stations from 1
(00_scope, "Numbering"). Inside the model item number `k` is index `k - 1` of a `Fin`, so that a record of
an item always exists; the operands of the commands keep the manual's own numbers (`Machine.item?`). -/

namespace Sys2Proof

/-- A junction time (ds) or a detector time (ms): an unsigned 32-bit count that wraps (00_scope, "Time"). -/
abbrev Time := BitVec 32

/-- One byte of a frame or of the configuration image. -/
abbrev Byte := BitVec 8

/-- A signal group; group `g` of the manual is index `g - 1`. -/
abbrev Group := Fin 24

/-- A lamp channel; channel `k` of the manual is index `k - 1`. -/
abbrev Lamp := Fin 72

/-- A detector channel; channel `k` of the manual is index `k - 1`. -/
abbrev Channel := Fin 32

/-- A tram approach; approach `a` of the manual is index `a - 1`. -/
abbrev Approach := Fin 8

/-- A stage of the stage list; stage `n` of the manual is index `n - 1`. -/
abbrev Stage := Fin 8

/-- A master station; station `n` of the manual is index `n - 1`. -/
abbrev Station := Fin 4

/-- A rank, 0 (strongest) to 3 (weakest). -/
abbrev Rank := Fin 4

/-- A set of groups as the group-set field of R189 carries it: bit `g - 1` is group `g`. -/
abbrev GroupSet := BitVec 24

/-- A set of event kinds: bit `n` is the kind at position `n` of the table of R180. -/
abbrev EventSet := BitVec 11

end Sys2Proof
end

