-- ==== Sys2Proof/Syntax.lean ====
section
/-! DEFINITION. The commands of the block: one constructor per row of spec/opcode_table.json.

The operands are what the manual says the event or the request carries. An item is named by the manual's own
number (group 1 to 24, lamp channel 1 to 72, detector channel 1 to 32, station 1 to 4), as a natural number.
Fields of a request that the link carries as bytes keep their width, so that a value outside its range can be
sent and is refused by the block that takes it. -/

namespace Sys2Proof

/-- One command of the block (the rows of spec/opcode_table.json, in the table's order). -/
inductive Instr where
  /-- Power-on or RST low. The operands are the levels of ADDR3..ADDR0 and of RATE1, RATE0, sampled at the end of
  reset (R183). -/
  | reset (addrPins : BitVec 4) (ratePins : BitVec 2)
  /-- The power-up CRC check completes (R164, R206). -/
  | powerUpCheckCompletion
  /-- The junction clock advances (R1). The operand is what ISNS measured on lamp channels 1 to 72 over the
  decisecond just ended, in mA, in channel order (R151). -/
  | junctionClockAdvance (currents : List Nat)
  /-- The dim boundary of the advance to a whole second (R150). -/
  | dimBoundary
  /-- The flash toggle of an advance (R149). -/
  | flashToggle
  /-- Group `g` starts (R8, R9). -/
  | groupStart (g : Nat)
  /-- The prepare time of group `g` runs out (R10). -/
  | prepareEnd (g : Nat)
  /-- The min proceed of group `g` runs out (R12). -/
  | minProceedEnd (g : Nat)
  /-- Group `g` meets the max-out condition (R15). -/
  | maxOut (g : Nat)
  /-- The clearance time of group `g` runs out (R16). -/
  | clearanceEnd (g : Nat)
  /-- The hold-until of one or more entries is reached (R133). -/
  | holdEnd
  /-- The recall inhibit ends (R134). -/
  | recallInhibitEnd
  /-- Entries whose X is not after now expire (R137). -/
  | expiry
  /-- The gap time of group `g`, a member of the current stage, runs out (R70). -/
  | gapOut (g : Nat)
  /-- The silence limit of a station runs out (R199). -/
  | silenceExpiry (station : Nat)
  /-- The start-up flash time runs out (R165). -/
  | suFlashEnd
  /-- The start-up all-red time runs out (R166). -/
  | suAllredEnd
  /-- The closing all-red runs out (R169). -/
  | clAllredEnd
  /-- The lamp switch interface reports an overcurrent on lamp channel `ch` (R155). -/
  | overcurrentTrip (ch : Nat)
  /-- The retry time of lamp channel `ch` is reached (R156). -/
  | tripRetry (ch : Nat)
  /-- Lamp channel `ch` has run 10 s since its last trip (R156). -/
  | tripCounterReset (ch : Nat)
  /-- The detector clock advances (R78). The operand says whether another cabinet unit pulls FLT low (R179). -/
  | detectorClockAdvance (fltPulledLow : Bool)
  /-- The external-low run has reached 100 (R179). -/
  | externalFault
  /-- LOOP channel `ch` completes a sample: the ticks that its 128 cycles took, or `none` when they did not
  complete (R81). -/
  | loopSample (ch : Nat) (period : Option Nat)
  /-- LOOP channel `ch` has been occupied beyond its max presence (R88). -/
  | loopLongPresence (ch : Nat)
  /-- CONTACT channel `ch` completes a sample (R94). -/
  | contactSample (ch : Nat) (pressed : Bool)
  /-- CONTACT channel `ch` has been pressed beyond its max presence (R95). -/
  | contactLongPresence (ch : Nat)
  /-- The error window of LOOP channel `ch` closes (R91). -/
  | windowClose (ch : Nat)
  /-- Armed-A times older than 10,000 ms lapse (R108). -/
  | armingLapse
  /-- The byte that completes a frame is received (R185, R186). -/
  | frameReceived (b : Byte)
  /-- More than 5 ms of silence on the link (R185, R187). -/
  | linkSilenceTimeout
  /-- A start byte is received in BUSY (R187). -/
  | frameOverrun
  /-- The last byte of the reply has been sent (R188). -/
  | replySent
  | readStatus (station : Nat)
  | readGroups (station : Nat) (group : Byte)
  | readDetectors (station : Nat) (channel : Byte)
  | readPriority (station : Nat) (part : Byte)
  | readFaults (station : Nat) (kind : Byte)
  | readEvents (station : Nat)
  | clearEvents (station : Nat) (kinds : BitVec 16) (maskGiven : Bool) (mask : BitVec 16)
  | takeSelector (station : Nat) (rank : Byte)
  | releaseSelector (station : Nat)
  | setStage (station : Nat) (groups : GroupSet)
  | selectStage (station : Nat) (stage : Byte)
  | callGroups (station : Nat) (groups : GroupSet)
  | modeRequestFlash (station : Nat)
  | modeRequestDark (station : Nat)
  | modeRequestResume (station : Nat)
  /-- The validation ordered by a RESUME completes (R209). -/
  | validationCompletion
  | clearFaults (station : Nat) (kinds : BitVec 16) (maskGiven : Bool) (mask : BitVec 16)
  | setDim (station : Nat) (value : Byte)
  | enablePriority (station : Nat) (enable : Byte)
  | readConfig (station : Nat) (block index : Byte)
  /-- The operand `record` holds the bytes after the block code and the index. -/
  | writeConfig (station : Nat) (block index : Byte) (record : List Byte)
  /-- The nonvolatile copy of an accepted record completes (R204). -/
  | nonvolatileCopyCompletion
  /-- `lateness` is in two's complement, in seconds (R112). -/
  | checkIn (station : Nat) (ident : BitVec 16) (route approach : Byte) (lateness : BitVec 16)
      (special : Bool) (distance : Option (BitVec 24)) (speed : Option (BitVec 16))
  | checkOut (station : Nat) (ident : BitVec 16) (approach : Byte)
  | cancelPriorityByNumber (station : Nat) (value : BitVec 16)
  | cancelPriorityByIdent (station : Nat) (ident : BitVec 16)
  /-- A byte that does not complete a frame is received, `framingError` when its stop bit is missing (R185). -/
  | byteReceived (b : Byte) (framingError : Bool)
  deriving DecidableEq, Repr

end Sys2Proof
end

