-- ==== Sys2Proof/Decode.lean ====
section
/-! DEFINITION. The commands of this block are events and requests, not words of an instruction memory:
spec/opcode_table.json gives no row any bits ("fields" is empty on every row, and none has "fixed"). -/

namespace Sys2Proof

/-- The command that a word spells by the bits of spec/opcode_table.json: none, since no row of the table gives bits.
(The bytes of the cabinet link are decoded in Machine/Link.lean.) -/
def decodeTableWord (_nbits _w : Nat) : Option Instr := none

end Sys2Proof
end

