-- ==== Sys2Proof/Machine/Bytes.lean ====
section
/-! DEFINITION. Numbers of items, byte order and the two cyclic redundancy checks. -/

namespace Sys2Proof.Machine

/-- The item with the manual's number `k`, one of 1 to `n`. -/
def item? (n k : Nat) : Option (Fin n) :=
  if h : 1 ≤ k ∧ k ≤ n then some ⟨k - 1, by omega⟩ else none

/-- The manual's number of an item. -/
def number {n : Nat} (i : Fin n) : Nat := i.val + 1

/-- A truth value as the flag byte of R189. -/
def flagByte (b : Bool) : Byte := if b then 1 else 0

/-- A number in `w` bytes, high byte first (R189). -/
def natBytes : Nat → Nat → List Byte
  | 0, _ => []
  | w + 1, n => BitVec.ofNat 8 (n / 256 ^ w) :: natBytes w n

/-- The number that bytes hold, high byte first. -/
def bytesNat (l : List Byte) : Nat := l.foldl (fun a b => a * 256 + b.toNat) 0

/-- A signed number in `w` bytes, in two's complement (R189). -/
def intBytes (w : Nat) (i : Int) : List Byte := natBytes w (i % (256 ^ w : Nat)).toNat

/-- An optional number: a presence byte, then the value, all zeros when absent (R189). -/
def optBytes (w : Nat) : Option Nat → List Byte
  | none => natBytes (w + 1) 0
  | some n => 1 :: natBytes w n

/-- A junction or detector time (R189). -/
def timeBytes (t : Time) : List Byte := natBytes 4 t.toNat

def optTimeBytes (t : Option Time) : List Byte := optBytes 4 (t.map BitVec.toNat)

/-- A group set in the group-set field of R189. -/
def groupSetBytes (s : GroupSet) : List Byte := natBytes 3 s.toNat

/-- `f` applied eight times. -/
def eightTimes {α : Type} (f : α → α) (x : α) : α := f (f (f (f (f (f (f (f x)))))))

/-- One bit of the link CRC: generator 0x1021, most significant bit first (R184). -/
def crc16Bit (c : BitVec 16) : BitVec 16 := if c.msb then (c <<< 1) ^^^ 0x1021#16 else c <<< 1

def crc16Byte (c : BitVec 16) (b : Byte) : BitVec 16 := eightTimes crc16Bit (c ^^^ (b.setWidth 16 <<< 8))

/-- The CRC of R184: preset 0xFFFF, no final inversion. -/
def crc16 (l : List Byte) : BitVec 16 := l.foldl crc16Byte 0xFFFF#16

/-- One bit of the image CRC: generator 0x04C11DB7 (R206). -/
def crc32Bit (c : BitVec 32) : BitVec 32 := if c.msb then (c <<< 1) ^^^ 0x04C11DB7#32 else c <<< 1

def crc32Byte (c : BitVec 32) (b : Byte) : BitVec 32 := eightTimes crc32Bit (c ^^^ (b.setWidth 32 <<< 24))

/-- The image CRC of `n` bytes that `read` gives from address `a` on (R206: preset all ones, not inverted). -/
def crc32From (read : Nat → Byte) : Nat → Nat → BitVec 32 → BitVec 32
  | 0, _, c => c
  | n + 1, a, c => crc32From read n (a + 1) (crc32Byte c (read a))

end Sys2Proof.Machine
end

