-- ==== Sys2Proof/Machine/State.lean ====
section
/-! DEFINITION. The state of the Lomgar 2432: the records each block owns (00_scope, "Block overview"), with the
reset values of R28, R30, R45, R66, R102, R104, R145, R162, R163, R173, R178 to R181, R185, R198 and R200.

INVENTORY.md lists every field with its rule and its reset value. Fields that are the model's own, not the
spec's, say so. -/

namespace Sys2Proof.Machine

/-! ## Signal group engine (R6) -/

inductive GroupState where
  | stop | prepare | proceedMin | proceedExt | clearance
  deriving DecidableEq, Repr

/-- Why a group last left proceed (R6, R14). -/
inductive Cause where
  | target | max | priorityTruncate | closing | fault
  deriving DecidableEq, Repr

/-- The live group record (R6). Credit and bonus are in ds. -/
structure GroupRec where
  state : GroupState
  stateEntry : Time
  proceedStart : Time
  proceedEnd : Time
  stopEntry : Time
  demand : Bool
  maxedOut : Bool
  inhibited : Bool
  credit : Nat
  bonus : Nat
  cause : Option Cause
  deriving DecidableEq, Repr

structure Sge where
  clock : Time
  groups : Vector GroupRec 24
  deriving DecidableEq, Repr

/-! ## Intergreen matrix (R29) -/

/-- The working copy: row `c`, column `g` holds IG(c,g) in ds, or nothing for a compatible pair. -/
structure Igm where
  entry : Vector (Vector (Option Nat) 24) 24
  deriving DecidableEq, Repr

/-! ## Stage selector (R45) and fallback sequencer (R66) -/

inductive Owner where
  | controller | manual | central | fallback
  deriving DecidableEq, Repr

structure Sel where
  owner : Owner
  rank : Rank
  target : GroupSet
  generation : BitVec 8
  reported : Bool
  lastChange : Time
  stages : Vector GroupSet 8
  deriving DecidableEq, Repr

structure Fbs where
  current : Option Stage
  lastGapExit : Vector (Option Time) 24
  deriving DecidableEq, Repr

/-! ## Detector unit (R78, R80) -/

inductive DetState where
  | tuning | vacant | occupied | longPresence | noisy | fault
  deriving DecidableEq, Repr

/-- The classification a NOISY channel keeps (R92). -/
inductive InnerState where
  | tuning | vacant | occupied
  deriving DecidableEq, Repr

inductive SampleResult where
  | valid | noOsc | range
  deriving DecidableEq, Repr

/-- The live fields of a detector record (R80). `level` and `sampled` are the model's own: the level of the last
contact sample, which R95 compares the next one with, and whether a sample completed at the present detector
count (log entries 7 and 2). -/
structure DetRec where
  state : DetState
  inner : Option InnerState
  baseline : Option Nat
  lastP : Option Nat
  lastResult : Option SampleResult
  lastDeviation : Option Int
  validRun : Nat
  invalidRun : Nat
  aboveRun : Nat
  belowRun : Nat
  tuningSum : Nat
  budget : Nat
  windowStart : Time
  entryCount : BitVec 16
  lastEntry : Option Time
  lastExit : Option Time
  presenceStart : Option Time
  forced : Bool
  level : Option Bool
  sampled : Bool
  deriving DecidableEq, Repr

/-- `sampleIn` is what R78 counts from the end of reset: the milliseconds to the next sample completion, 0 where the
present count is one. It runs 10 to 0 and from 0 to 9, also round the wrap of the clock. -/
structure Du where
  clock : Time
  sampleIn : Nat
  channels : Vector DetRec 32
  deriving DecidableEq, Repr

/-! ## Priority unit (R104, R120, R124, R134, R140) -/

inductive EntrySource where
  | loop | receiver
  deriving DecidableEq, Repr

inductive WaitReason where
  | disabled | rank | blocked | inhibited | noFit | mode
  deriving DecidableEq, Repr

/-- An entry's state; the wait reason is present only in WAITING (R120). -/
inductive EntryState where
  | waiting (reason : WaitReason)
  | noted | extending | recalling | serving | released
  deriving DecidableEq, Repr

/-- An entry of the priority list (R120). `state` is absent only between an entry's creation and the walk of the
same arrival (R116). `seq` is the model's own: the entry's place in creation order (R116). -/
structure Entry where
  number : BitVec 8
  source : EntrySource
  ident : Option (BitVec 16)
  route : Option (BitVec 8)
  approach : Approach
  rank : Rank
  ci : Time
  eta : Nat
  ea : Time
  la : Time
  need : Time
  expiry : Time
  state : Option EntryState
  holdUntil : Option Time
  projGreen : Option Time
  speedClamped : Bool
  singleLoop : Bool
  late : Bool
  merged : Bool
  seq : Nat
  deriving DecidableEq, Repr

/-- The overlay record of a group (R124). -/
structure Overlay where
  holdUntil : Option Time
  call : Bool
  block : Bool
  truncate : Bool
  deriving DecidableEq, Repr

/-- The runtime record of an approach (R104). -/
structure ApproachRec where
  armedA : Option Time
  dropped : BitVec 16
  unmatched : BitVec 16
  deriving DecidableEq, Repr

/-- `nextSeq` is the model's own: the place in creation order the next entry takes. -/
structure Pu where
  approaches : Vector ApproachRec 8
  nextEntry : BitVec 8
  list : List Entry
  overlay : Vector Overlay 24
  inhibitUntil : Option Time
  enabled : Bool
  nextSeq : Nat
  deriving DecidableEq, Repr

/-! ## Lamp output unit (R147, R150) -/

inductive LampCommand where
  | off | on | flash
  deriving DecidableEq, Repr

inductive DriveState where
  | enabled | tripped | lockedOff
  deriving DecidableEq, Repr

inductive ProvingResult where
  | lit | partly | dark
  deriving DecidableEq, Repr

/-- A mismatch kind of R152. -/
inductive Mismatch where
  | out | partly | uncommanded
  deriving DecidableEq, Repr

/-- A lamp channel record (R147). `run` is the run kind, absent for NONE. `rearmed` is the re-arming of the
present run by a CLEAR_FAULTS (R152). -/
structure LampRec where
  command : LampCommand
  drive : DriveState
  output : Bool
  settling : Bool
  sensed : Option Nat
  result : Option ProvingResult
  run : Option Mismatch
  mismatches : Nat
  litCount : Nat
  lastRaised : Option Mismatch
  trips : Nat
  lastTrip : Option Time
  retry : Option Time
  rearmed : Bool
  deriving DecidableEq, Repr

inductive Dim where
  | bright | dim
  deriving DecidableEq, Repr

/-- The flash phase is not stored: R149 makes it a function of the junction clock (`Machine.flashOnHalf`).
`boundaryDue` is the model's own: the dim boundary of the present count has not been taken (log entry 2). -/
structure Lou where
  channels : Vector LampRec 72
  redOut : GroupSet
  dim : Dim
  pendingDim : Option Dim
  boundaryDue : Bool
  deriving DecidableEq, Repr

/-! ## Mode and fault supervisor (R163, R173, R178 to R181) -/

inductive Mode where
  | powerUp | startUp | normal | closing | flash | dark
  deriving DecidableEq, Repr

inductive SubPhase where
  | suFlash | suAllred | clClearing | clAllred
  deriving DecidableEq, Repr

/-- A closing goal, and the two values of the fault aspect. -/
inductive Goal where
  | flash | dark
  deriving DecidableEq, Repr

/-- The fault kinds, in the order of the table of R173. -/
inductive FaultKind where
  | conflict | uncommandedProceed | redOut | redOutMultiple | lampOut | lampPartial | overcurrent
  | detectorFault | detectorNoisy | stationSilent | externalFault | configCrc
  deriving DecidableEq, Repr

/-- The event kinds, in the order of the table of R180. -/
inductive Event where
  | modeChanged | selectorChanged | stageReached | groupMaxedOut | priorityActed | priorityRemoved
  | priorityDropped | detectorChanged | faultRaised | stationSilent | stationResumed
  deriving DecidableEq, Repr

inductive RemovalCause where
  | served | cancelled | expired | flushed
  deriving DecidableEq, Repr

/-- A fault record (R173). Bit `k - 1` of `detail` is item `k` of the kind's own sort of item. -/
structure FaultRec where
  latched : Bool
  firstSet : Option Time
  detail : BitVec 72
  count : Nat
  masked : Bool
  deriving DecidableEq, Repr

/-- The supervisor's state. `fltPulledLow` is the pin: another unit holds FLT low (R178, R179). `attnLow` is the
drive of ATTN (R181). -/
structure Mfs where
  mode : Mode
  sub : Option SubPhase
  goal : Option Goal
  phaseStart : Time
  faults : Vector FaultRec 12
  fltDriven : Bool
  fltPulledLow : Bool
  externalRun : Nat
  pending : Vector EventSet 4
  masks : Vector EventSet 4
  lastRemoval : Option RemovalCause
  attnLow : Bool
  deriving DecidableEq, Repr

/-! ## Cabinet link port (R183 to R188, R198) -/

inductive Receiver where
  | hunt | header | payload | check | skip | busy
  deriving DecidableEq, Repr

/-- The live fields of a station record (R198). -/
structure StationRec where
  lastHeard : Time
  silent : Bool
  deriving DecidableEq, Repr

/-- A reply: its kind byte and its payload, the outcome first (R188). -/
structure Reply where
  kind : Byte
  payload : List Byte
  deriving DecidableEq, Repr

/-- The link port. `buffer` holds the bytes stored after the start byte. `ignoring`: an overrun frame is being
ignored (R187). `reply` is the reply of the last answered request; `ldir` is the pin LDIR. -/
structure Clp where
  receiver : Receiver
  buffer : List Byte
  lastByte : Time
  ignoring : Bool
  stations : Vector StationRec 4
  discarded : BitVec 16
  answered : BitVec 16
  partAddress : BitVec 4
  rate : BitVec 2
  reply : Option Reply
  ldir : Bool
  deriving DecidableEq, Repr

/-! ## Configuration store (R200) -/

/-- The image as a sparse byte memory in canonical form: addresses strictly rising, and no cell equal to what an
unlisted address reads as (`Machine.factoryByte`). -/
abbrev Image := List Host.Cell

/-- A nonvolatile copy in flight (R204): where the record stands, its bytes before the write, and the positions
of the fields that clamping changed, for the reply. -/
structure Copy where
  address : Nat
  old : List Byte
  clamped : List Nat
  deriving DecidableEq, Repr

structure Cs where
  image : Image
  storedCrc : BitVec 32
  edited : Bool
  mismatch : Bool
  copy : Option Copy
  validating : Bool
  deriving DecidableEq, Repr

/-! ## The machine -/

/-- The state of the part. `fbsDue` is the model's own: the fallback sequencer has not yet taken the present
advance (log entry 2). `freeIndex` is the model's own: the index of the next free value (log entry 4). `pending`
holds the commands that wait, first in, first out. -/
structure State where
  sge : Sge
  igm : Igm
  sel : Sel
  fbs : Fbs
  du : Du
  pu : Pu
  lou : Lou
  mfs : Mfs
  clp : Clp
  cs : Cs
  fbsDue : Bool
  freeIndex : Nat
  pending : List Instr
  deriving DecidableEq, Repr

/-- The faults that stop the part: none. The manual gives the block no event that stops it; every fault kind of
R173 is a record the part latches and goes on from. -/
inductive Fault : Type
  deriving DecidableEq, Repr

/-- Why a command has no meaning. -/
inductive Refusal where
  /-- Raised only by `exec` for a command whose meaning is not written. No arm of `exec` answers it. Safe: the
  model stops. -/
  | notModelled (mnemonic : String)
  deriving DecidableEq, Repr

/-! ## Reset -/

/-- R28. -/
def GroupRec.reset : GroupRec :=
  { state := .stop, stateEntry := 0, proceedStart := 0, proceedEnd := 0, stopEntry := 0, demand := false,
    maxedOut := false, inhibited := false, credit := 0, bonus := 0, cause := none }

/-- R30: every pair of distinct groups present with the value 250. -/
def Igm.default : Igm :=
  { entry := Vector.ofFn fun c => Vector.ofFn fun g => if c = g then none else some 250 }

/-- R45. -/
def Sel.reset : Sel :=
  { owner := .fallback, rank := 3, target := 0, generation := 0, reported := false, lastChange := 0,
    stages := Vector.replicate 8 0 }

/-- R66. -/
def Fbs.reset : Fbs := { current := none, lastGapExit := Vector.replicate 24 none }

/-- R102: the record of a channel of which the state, the forced-demand flag and the budget are given. -/
def DetRec.reset (state : DetState) (forced : Bool) (budget : Nat) : DetRec :=
  { state := state, inner := none, baseline := none, lastP := none, lastResult := none, lastDeviation := none,
    validRun := 0, invalidRun := 0, aboveRun := 0, belowRun := 0, tuningSum := 0, budget := budget,
    windowStart := 0, entryCount := 0, lastEntry := none, lastExit := none, presenceStart := none,
    forced := forced, level := none, sampled := false }

/-- R104. -/
def ApproachRec.reset : ApproachRec := { armedA := none, dropped := 0, unmatched := 0 }

/-- R124: no hold-until and all flags clear. -/
def Overlay.clear : Overlay := { holdUntil := none, call := false, block := false, truncate := false }

/-- R104 and R145, with the priority enable that the image gives. -/
def Pu.reset (enabled : Bool) : Pu :=
  { approaches := Vector.replicate 8 ApproachRec.reset, nextEntry := 0, list := [],
    overlay := Vector.replicate 24 Overlay.clear, inhibitUntil := none, enabled := enabled, nextSeq := 0 }

/-- R162. -/
def LampRec.reset : LampRec :=
  { command := .off, drive := .enabled, output := false, settling := false, sensed := none, result := none,
    run := none, mismatches := 0, litCount := 0, lastRaised := none, trips := 0, lastTrip := none, retry := none,
    rearmed := false }

/-- R162. -/
def Lou.reset : Lou :=
  { channels := Vector.replicate 72 LampRec.reset, redOut := 0, dim := .bright, pendingDim := none,
    boundaryDue := false }

/-- R173. -/
def FaultRec.reset : FaultRec := { latched := false, firstSet := none, detail := 0, count := 0, masked := false }

/-- R163, R173, R178 to R181, with the level of the FLT pin as given. -/
def Mfs.reset (fltPulledLow : Bool) : Mfs :=
  { mode := .powerUp, sub := none, goal := none, phaseStart := 0, faults := Vector.replicate 12 FaultRec.reset,
    fltDriven := false, fltPulledLow := fltPulledLow, externalRun := 0, pending := Vector.replicate 4 0,
    masks := Vector.replicate 4 0, lastRemoval := none, attnLow := false }

/-- R183, R186 to R188, R198, with the pins as sampled at the end of reset. The manual gives the time of the last byte
received no reset value; 0 is the model's (log entry 16). -/
def Clp.reset (partAddress : BitVec 4) (rate : BitVec 2) : Clp :=
  { receiver := .hunt, buffer := [], lastByte := 0, ignoring := false,
    stations := Vector.replicate 4 { lastHeard := 0, silent := false }, discarded := 0, answered := 0,
    partAddress := partAddress, rate := rate, reply := none, ldir := false }

/-- The machine right after reset, of a part whose image nothing has written (log entry 3): every byte of the
image reads as `Machine.factoryByte`, by which every detector channel is of kind LOOP with an error budget of 20
and priority is off at start. The address and rate pins and the stored CRC are DESIGN CHOICE (log entry 3). -/
def State.reset : State :=
  { sge := { clock := 0, groups := Vector.replicate 24 GroupRec.reset }
    igm := Igm.default
    sel := Sel.reset
    fbs := Fbs.reset
    du := { clock := 0, sampleIn := 10, channels := Vector.replicate 32 (DetRec.reset .tuning true 20) }
    pu := Pu.reset false
    lou := Lou.reset
    mfs := Mfs.reset false
    clp := Clp.reset 0 0
    cs := { image := [], storedCrc := 0, edited := false, mismatch := false, copy := none, validating := false }
    fbsDue := false
    freeIndex := 0
    pending := [] }

end Sys2Proof.Machine
end

