-- ==== Sys2Proof/Machine/Times.lean ====
section
/-! DEFINITION. Comparing times (00_scope "Comparing times", R1): differences modulo 2^32. -/

namespace Sys2Proof.Machine

/-- now − T, modulo 2^32, read as an unsigned number. -/
def elapsed (now t : Time) : Nat := (now - t).toNat

/-- A time a number of counts later, modulo 2^32. -/
def later (t : Time) (d : Nat) : Time := t + BitVec.ofNat 32 d

/-- R1: T is after now when T − now, modulo 2^32, is nonzero and below 2^31. -/
def isAfter (now t : Time) : Bool := decide (0 < (t - now).toNat) && decide ((t - now).toNat < 2 ^ 31)

/-- The offset of T from now: T − now, modulo 2^32, read as a signed number (R42, R119). -/
def offset (now t : Time) : Int := (t - now).toInt

/-- The later of two times, as offsets from now. -/
def laterOf (now a b : Time) : Time := if offset now a < offset now b then b else a

/-- The earlier of two times, as offsets from now. -/
def earlierOf (now a b : Time) : Time := if offset now b < offset now a then b else a

/-- R2: a stored time for which now − T would exceed 2^30 becomes now − 2^30. -/
def aged (now t : Time) : Time := if 2 ^ 30 < elapsed now t then now - BitVec.ofNat 32 (2 ^ 30) else t

/-- R1, R149: the flash phase is in its on half during counts whose value modulo 10 is 0 to 4. -/
def flashOnHalf (now : Time) : Bool := decide (now.toNat % 10 < 5)

/-- A number replaced by the nearest limit of its range. -/
def clamp (lo hi n : Nat) : Nat := if n < lo then lo else if hi < n then hi else n

/-- A quotient rounded up. -/
def ceilDiv (a b : Nat) : Nat := (a + (b - 1)) / b

/-- A count of at most `hi` raised by one. -/
def saturate (hi n : Nat) : Nat := if n < hi then n + 1 else hi

/-- A 16-bit counter raised by one, stopping at 65,535 (R104, R186). -/
def saturate16 (c : BitVec 16) : BitVec 16 := if c = 0xFFFF#16 then c else c + 1

end Sys2Proof.Machine
end

