-- ==== Sys2Proof/Machine/Image.lean ====
section
/-! DEFINITION. The configuration image (R200): its bytes, and the configured values the blocks read from it.

The blocks read the image as it stands. In an image that passed validation every field lies within its range;
from any other image the blocks read an undefined code and a number outside its range as R79, R103, R146 and R198
say. The model reads the DEVICE block and the group timings in the same way (log entry 6). -/

namespace Sys2Proof.Machine

/-! ## Bytes -/

/-- What a byte of the image reads as before anything has written it: the default values the manual states
(authority ranks 2, 1, 0, 1; thresholds 60 s; error budgets 20) and 0 elsewhere. DESIGN CHOICE, log entry 3. -/
def factoryByte (a : Nat) : Byte :=
  if a = 7 ∨ a = 9 then 60
  else if a = 11 then 2
  else if a = 14 ∨ a = 20 then 1
  else if 1079 ≤ a ∧ a < 1431 ∧ (a - 1079) % 11 = 4 then 20
  else 0

/-- The byte of the image at address `a`. -/
def imageByte : Image → Nat → Byte
  | [], a => factoryByte a
  | (k, v) :: rest, a => if k = a then v else imageByte rest a

/-- The image with byte `b` at address `a`; the canonical form is kept. -/
def imageWrite : Image → Nat → Byte → Image
  | [], a, b => if b = factoryByte a then [] else [(a, b)]
  | (k, v) :: rest, a, b =>
    if k < a then (k, v) :: imageWrite rest a b
    else if k = a then (if b = factoryByte a then rest else (a, b) :: rest)
    else if b = factoryByte a then (k, v) :: rest
    else (a, b) :: (k, v) :: rest

/-- Bytes written from address `a` on. -/
def imageWriteBytes (m : Image) (a : Nat) : List Byte → Image
  | [] => m
  | b :: bs => imageWriteBytes (imageWrite m a b) (a + 1) bs

/-- `n` bytes read from address `a` on. -/
def imageBytes (m : Image) (a : Nat) : Nat → List Byte
  | 0 => []
  | n + 1 => imageByte m a :: imageBytes m (a + 1) n

/-- Every cell stands at an address from `lo` on, the addresses rise strictly, and no cell holds what an unlisted
address reads as. -/
def imageWfFrom : Nat → Image → Bool
  | _, [] => true
  | lo, (k, v) :: rest => decide (lo ≤ k) && decide (v ≠ factoryByte k) && imageWfFrom (k + 1) rest

/-- The canonical form of the image. -/
def imageWf (m : Image) : Bool := imageWfFrom 0 m

/-- The number that `w` bytes from address `a` on hold, high byte first. -/
def imageNum (m : Image) (a w : Nat) : Nat := bytesNat (imageBytes m a w)

/-- The image CRC over all 8,192 bytes (R206). -/
def imageCrc (m : Image) : BitVec 32 := crc32From (imageByte m) 8192 0 0xFFFFFFFF#32

/-! ## Where the records stand (R200) -/

def stationBase (i : Station) : Nat := 11 + 3 * i.val
def groupBase (g : Group) : Nat := 23 + 19 * g.val
def matrixBase (c : Group) : Nat := 479 + 24 * c.val
def stageBase (n : Stage) : Nat := 1055 + 3 * n.val
def detectorBase (ch : Channel) : Nat := 1079 + 11 * ch.val
def approachBase (a : Approach) : Nat := 1431 + 33 * a.val

/-! ## DEVICE -/

inductive StartMode where
  | run | hold
  deriving DecidableEq, Repr

def startMode (m : Image) : StartMode := if imageByte m 0 = 0 then .run else .hold

/-- R176: "the DEVICE block's FLASH or DARK, reading any other value as DARK". -/
def faultAspect (m : Image) : Goal := if imageByte m 1 = 0 then .flash else .dark

def followEnabled (m : Image) : Bool := decide (imageByte m 2 = 1)
def startUpFlashTime (m : Image) : Nat := clamp 0 600 (imageNum m 3 2)
def startUpAllRedTime (m : Image) : Nat := clamp 30 120 (imageNum m 5 1)
def lateThreshold (m : Image) : Nat := clamp 0 600 (imageNum m 6 2)
def earlyThreshold (m : Image) : Nat := clamp 0 600 (imageNum m 8 2)
def priorityAtStart (m : Image) : Bool := decide (imageByte m 10 = 1)

/-! ## STATION -/

/-- A number read as a rank, a value above 3 as 3. -/
def rankOf (n : Nat) : Rank := if h : n < 4 then ⟨n, h⟩ else 3

def authorityRank (m : Image) (i : Station) : Rank := rankOf (imageNum m (stationBase i) 1)

/-- R198: 0, or 10 to 600; a limit from 1 to 9 is read as 10. -/
def silenceClamp (n : Nat) : Nat := if n = 0 then 0 else clamp 10 600 n

def silenceLimit (m : Image) (i : Station) : Nat := silenceClamp (imageNum m (stationBase i + 1) 2)

/-! ## GROUP -/

inductive GroupKind where
  | none | traffic | walk | tram
  deriving DecidableEq, Repr

/-- The group kind of a code; a code outside the defined set reads as NONE (R146). -/
def groupKindOf (b : Byte) : GroupKind :=
  if b = 1 then .traffic else if b = 2 then .walk else if b = 3 then .tram else .none

def groupKind (m : Image) (g : Group) : GroupKind := groupKindOf (imageByte m (groupBase g))

/-- The ranges of R4 by kind; a record of kind NONE takes the TRAFFIC ranges (R203). -/
def prepareRange : GroupKind → Nat × Nat
  | .walk => (0, 0)
  | _ => (0, 30)

def minProceedRange : GroupKind → Nat × Nat
  | .walk => (40, 600)
  | .tram => (30, 600)
  | _ => (50, 600)

def clearanceRange : GroupKind → Nat × Nat
  | .walk => (30, 300)
  | .tram => (20, 60)
  | _ => (30, 60)

def prepareTime (m : Image) (g : Group) : Nat :=
  let r := prepareRange (groupKind m g)
  clamp r.1 r.2 (imageNum m (groupBase g + 1) 1)

def minProceed (m : Image) (g : Group) : Nat :=
  let r := minProceedRange (groupKind m g)
  clamp r.1 r.2 (imageNum m (groupBase g + 2) 2)

def maxProceed (m : Image) (g : Group) : Nat := clamp 0 1200 (imageNum m (groupBase g + 4) 2)

def clearanceTime (m : Image) (g : Group) : Nat :=
  let r := clearanceRange (groupKind m g)
  clamp r.1 r.2 (imageNum m (groupBase g + 6) 2)

def minStop (m : Image) (g : Group) : Nat := clamp 10 600 (imageNum m (groupBase g + 8) 2)
def gapTime (m : Image) (g : Group) : Nat := clamp 10 100 (imageNum m (groupBase g + 10) 1)
def compensationCap (m : Image) (g : Group) : Nat := clamp 0 600 (imageNum m (groupBase g + 11) 2)

/-- The nominal current of channel `pos` of the group: 0 stop, 1 middle, 2 proceed. -/
def nominalCurrent (m : Image) (g : Group) (pos : Fin 3) : Nat :=
  clamp 10 2000 (imageNum m (groupBase g + 13 + 2 * pos.val) 2)

/-! ## MATRIX and STAGE: what the working copies load (R29, R56) -/

/-- The stored entry IG(c,g); 255 is absent. -/
def storedEntry (m : Image) (c g : Group) : Option Nat :=
  let v := imageNum m (matrixBase c + g.val) 1
  if v = 255 then none else some (clamp 0 250 v)

def storedStage (m : Image) (n : Stage) : GroupSet := BitVec.ofNat 24 (imageNum m (stageBase n) 3)

/-! ## DETECTOR (R79) -/

inductive ChannelKind where
  | loop | contact | unused
  deriving DecidableEq, Repr

inductive Role where
  | none | demand | extend | demandExtend
  deriving DecidableEq, Repr

def channelKindOf (b : Byte) : ChannelKind := if b = 0 then .loop else if b = 1 then .contact else .unused

def roleOf (b : Byte) : Role :=
  if b = 1 then .demand else if b = 2 then .extend else if b = 3 then .demandExtend else .none

def channelKind (m : Image) (ch : Channel) : ChannelKind := channelKindOf (imageByte m (detectorBase ch))
def onThreshold (m : Image) (ch : Channel) : Nat := clamp 5 500 (imageNum m (detectorBase ch + 1) 2)

/-- R86: the on-threshold less a quarter of it, the quarter truncated. -/
def offThreshold (m : Image) (ch : Channel) : Nat := onThreshold m ch - onThreshold m ch / 4

/-- The max presence in seconds; 0 is off. The stored value counts steps of 10 s (R201). -/
def maxPresence (m : Image) (ch : Channel) : Nat := 10 * clamp 0 60 (imageNum m (detectorBase ch + 3) 1)

def budgetStart (m : Image) (ch : Channel) : Nat := clamp 1 255 (imageNum m (detectorBase ch + 4) 1)
def channelRole (m : Image) (ch : Channel) : Role := roleOf (imageByte m (detectorBase ch + 5))

/-- The group references, a reference outside 1 to 24 being none (R79). R79 says that the list has no duplicates; in an
image that no validation has passed the model keeps a repeated reference, which READ_DETECTORS shows twice (log entry
29). -/
def groupRefs (m : Image) (ch : Channel) : List Group :=
  ((imageBytes m (detectorBase ch + 7) 4).take (clamp 0 4 (imageNum m (detectorBase ch + 6) 1))).filterMap
    fun b => item? 24 b.toNat

def Role.isDemand : Role → Bool
  | .demand | .demandExtend => true
  | _ => false

def Role.isExtend : Role → Bool
  | .extend | .demandExtend => true
  | _ => false

/-! ## APPROACH (R103) -/

/-- An optional channel: a presence byte of 1, then the channel number, read as its nearest limit. -/
def optChannel (m : Image) (a : Nat) : Option Channel :=
  if imageByte m a = 1 then item? 32 (clamp 1 32 (imageNum m (a + 1) 1)) else none

/-- The tram group of an approach in use: 1 to 24, and of kind TRAM. -/
def tramGroup (m : Image) (a : Approach) : Option Group :=
  match item? 24 (clamp 0 24 (imageNum m (approachBase a) 1)) with
  | some g => if groupKind m g = .tram then some g else none
  | none => none

def loopA (m : Image) (a : Approach) : Option Channel :=
  if (tramGroup m a).isSome then optChannel m (approachBase a + 1) else none

def loopB (m : Image) (a : Approach) : Option Channel :=
  if (tramGroup m a).isSome then optChannel m (approachBase a + 3) else none

def loopOut (m : Image) (a : Approach) : Option Channel :=
  if (tramGroup m a).isSome then optChannel m (approachBase a + 5) else none

def distanceCm (m : Image) (a : Approach) : Nat := clamp 500 100000 (imageNum m (approachBase a + 7) 3)
def spacingCm (m : Image) (a : Approach) : Nat := clamp 100 2000 (imageNum m (approachBase a + 10) 2)
def vMin (m : Image) (a : Approach) : Nat := clamp 100 1500 (imageNum m (approachBase a + 12) 2)
def vMax (m : Image) (a : Approach) : Nat := clamp 500 3000 (imageNum m (approachBase a + 14) 2)
def dwell (m : Image) (a : Approach) : Nat := clamp 0 600 (imageNum m (approachBase a + 16) 2)
def passAllowance (m : Image) (a : Approach) : Nat := clamp 0 100 (imageNum m (approachBase a + 18) 1)
def extensionLimit (m : Image) (a : Approach) : Nat := clamp 0 300 (imageNum m (approachBase a + 19) 2)
def compensation (m : Image) (a : Approach) : Nat := clamp 0 200 (imageNum m (approachBase a + 21) 1)
def recallInhibit (m : Image) (a : Approach) : Nat := clamp 0 1200 (imageNum m (approachBase a + 22) 2)
def expiryMargin (m : Image) (a : Approach) : Nat := clamp 50 1200 (imageNum m (approachBase a + 24) 2)
def etaFromA (m : Image) (a : Approach) : Nat := clamp 1 6000 (imageNum m (approachBase a + 26) 2)
def etaFromB (m : Image) (a : Approach) : Nat := clamp 1 6000 (imageNum m (approachBase a + 28) 2)
def etaFromReceiver (m : Image) (a : Approach) : Nat := clamp 1 6000 (imageNum m (approachBase a + 30) 2)
def loopRank (m : Image) (a : Approach) : Rank := rankOf (clamp 1 3 (imageNum m (approachBase a + 32) 1))

end Sys2Proof.Machine
end

