-- ==== Sys2Proof/Machine/Flags.lean ====
section
/-! DEFINITION. What the blocks read from each other: the conditions of the rules, each a function of the state
that changes nothing. -/

namespace Sys2Proof.Machine

/-- The junction time. -/
def jnow (s : State) : Time := s.sge.clock

/-- The detector time. -/
def dnow (s : State) : Time := s.du.clock

/-- The live record of a group. -/
def grp (s : State) (g : Group) : GroupRec := s.sge.groups[g]

/-- The record of a lamp channel. -/
def lamp (s : State) (ch : Lamp) : LampRec := s.lou.channels[ch]

/-- The record of a detector channel. -/
def det (s : State) (ch : Channel) : DetRec := s.du.channels[ch]

/-- The overlay record of a group. -/
def ovl (s : State) (g : Group) : Overlay := s.pu.overlay[g]

/-- The runtime record of an approach. -/
def apr (s : State) (a : Approach) : ApproachRec := s.pu.approaches[a]

def station (s : State) (i : Station) : StationRec := s.clp.stations[i]

/-- Membership of a group in a set. -/
def inSet (w : GroupSet) (g : Group) : Bool := w.getLsbD g.val

/-- The number of members of a set. -/
def setSize (w : GroupSet) : Nat := (List.finRange 24).countP (inSet w)

def allGroups : List Group := List.finRange 24

/-- A group is in one of the proceed states (R7). -/
def GroupState.proceeds : GroupState → Bool
  | .proceedMin | .proceedExt => true
  | _ => false

/-- A group has right of way: PREPARE, PROCEED_MIN or PROCEED_EXT (R9, R32). -/
def GroupState.underWay : GroupState → Bool
  | .prepare | .proceedMin | .proceedExt => true
  | _ => false

/-! ## Conflict and start eligibility (R31, R32) -/

/-- IG(c,g) of the working copy. -/
def intergreen (s : State) (c g : Group) : Option Nat := (s.igm.entry[c])[g]

/-- R31: two groups conflict when the working copy holds an entry for the pair. In a validated matrix presence is
symmetric; the model takes a one-sided entry for the pair as well (log entry 8). -/
def conflicts (s : State) (c g : Group) : Bool :=
  c != g && ((intergreen s c g).isSome || (intergreen s g c).isSome)

/-- The least time from the proceed end of c to the proceed start of g, 0 where the pair holds none. -/
def intergreenTime (s : State) (c g : Group) : Nat := (intergreen s c g).getD 0

/-- R32: own rest, conflicting groups out of proceed, intergreens met at green start (R33: modulo 2^32). -/
def eligible (s : State) (g : Group) : Bool :=
  decide (minStop s.cs.image g ≤ elapsed (jnow s) (grp s g).stopEntry) &&
  allGroups.all fun c =>
    !conflicts s c g ||
      (!(grp s c).state.underWay &&
        decide (intergreenTime s c g ≤
          elapsed (later (jnow s) (prepareTime s.cs.image g)) (grp s c).proceedEnd))

/-! ## Wanted, holds and termination (R13, R15, R17, R20) -/

/-- R20: a hold is running on the group. -/
def holdRunning (s : State) (g : Group) : Bool :=
  match (ovl s g).holdUntil with
  | some h => isAfter (jnow s) h
  | none => false

/-- R17: membership in the effective target. -/
def inEffectiveTarget (s : State) (g : Group) : Bool :=
  inSet s.sel.target g && decide (groupKind s.cs.image g ≠ .none) && !(grp s g).maxedOut && !(ovl s g).block

/-- R17: the group is wanted. -/
def wanted (s : State) (g : Group) : Bool :=
  inEffectiveTarget s g || ((ovl s g).call && decide (groupKind s.cs.image g ≠ .none))

/-- R71, R15: the maximum plus the bonus has run. -/
def maxHasRun (s : State) (g : Group) : Bool :=
  decide (maxProceed s.cs.image g ≠ 0) &&
  decide (maxProceed s.cs.image g + (grp s g).bonus ≤ elapsed (jnow s) (grp s g).proceedStart)

/-- A group that conflicts with this one has demand (R15). -/
def conflictingDemand (s : State) (g : Group) : Bool :=
  allGroups.any fun c => conflicts s c g && (grp s c).demand

/-- R15: the max-out condition. -/
def maxOutCondition (s : State) (g : Group) : Bool :=
  maxHasRun s g && conflictingDemand s g && !holdRunning s g && wanted s g

/-- R13, R14: the cause with which a group in PROCEED_EXT terminates, the first whose condition holds. -/
def terminationCause (s : State) (g : Group) : Option Cause :=
  if (grp s g).state ≠ .proceedExt then none
  else if (grp s g).inhibited then some .fault
  else if s.mfs.mode = .closing then some .closing
  else if !wanted s g && !holdRunning s g then some .target
  else if maxOutCondition s g then some .max
  else if (ovl s g).truncate then some .priorityTruncate
  else none

/-! ## Starting a group (R8, R9) -/

/-- R8: every condition of a start holds. -/
def mayStart (s : State) (g : Group) : Bool :=
  decide ((grp s g).state = .stop) && decide (s.mfs.mode = .normal) &&
  decide (groupKind s.cs.image g ≠ .none) && wanted s g && !(grp s g).inhibited && eligible s g

/-- R9: the order in which the start arbiter considers two groups: called groups first, then the oldest stop
entry, then the lower number. -/
def startsBefore (s : State) (a b : Group) : Bool :=
  let ca := (ovl s a).call
  let cb := (ovl s b).call
  let wa := elapsed (jnow s) (grp s a).stopEntry
  let wb := elapsed (jnow s) (grp s b).stopEntry
  if ca ≠ cb then ca else if wa ≠ wb then decide (wb < wa) else decide (a.val < b.val)

/-- A list with an element placed before the first that it comes before. -/
def insertBefore {α : Type} (before : α → α → Bool) (x : α) : List α → List α
  | [] => [x]
  | y :: ys => if before x y then x :: y :: ys else y :: insertBefore before x ys

/-- R9: of the groups in arbiter order, those that start: each that no group started before it conflicts with. -/
def arbiterPicks (s : State) : List Group :=
  ((allGroups.filter (mayStart s)).foldr (insertBefore (startsBefore s)) []).foldl
    (fun picked g => if picked.any (fun c => conflicts s c g) then picked else picked ++ [g]) []

/-! ## The fallback sequencer's judgements (R67, R69 to R72) -/

/-- R67: the sequencer acts. -/
def fbsActs (s : State) : Bool := decide (s.sel.owner = .fallback) && decide (s.mfs.mode = .normal)

/-- R69: the channel counts as occupied. -/
def countsOccupied (r : DetRec) : Bool := decide (r.state = .occupied) || r.forced

/-- R69: the channel is an extension detector of the group. -/
def isExtensionDetector (m : Image) (ch : Channel) (g : Group) : Bool :=
  decide (channelKind m ch ≠ .unused) && (channelRole m ch).isExtend && (groupRefs m ch).contains g &&
  (decide (groupKind m g ≠ .walk) || decide (channelKind m ch = .contact))

def extensionDetectors (m : Image) (g : Group) : List Channel :=
  (List.finRange 32).filter fun ch => isExtensionDetector m ch g

/-- R70: the group is gapped out. -/
def gappedOut (s : State) (g : Group) : Bool :=
  let ds := extensionDetectors s.cs.image g
  decide ((grp s g).state = .proceedExt) && ds.all (fun ch => !countsOccupied (det s ch)) &&
  (ds.isEmpty ||
    match s.fbs.lastGapExit[g] with
    | none => true
    | some t => decide (gapTime s.cs.image g ≤ elapsed (jnow s) t))

/-- R70: the group is gapped out from this very count on: its gap time has run just now. -/
def gapRunsOut (s : State) (g : Group) : Bool :=
  gappedOut s g && !(extensionDetectors s.cs.image g).isEmpty &&
  match s.fbs.lastGapExit[g] with
  | none => false
  | some t => decide (gapTime s.cs.image g = elapsed (jnow s) t)

/-- R71: a member of the current stage is finished. -/
def finished (s : State) (g : Group) : Bool :=
  match (grp s g).state with
  | .proceedExt => gappedOut s g || maxHasRun s g
  | .proceedMin => maxHasRun s g
  | .prepare => false
  | .stop | .clearance =>
    decide (groupKind s.cs.image g = .none) || (grp s g).inhibited || (ovl s g).block || (grp s g).maxedOut

/-- R72: every member of the stage is finished, and a group outside it has demand. -/
def stageEnds (s : State) (n : Stage) : Bool :=
  (allGroups.all fun g => !inSet s.sel.stages[n] g || finished s g) &&
  allGroups.any fun g => !inSet s.sel.stages[n] g && (grp s g).demand

/-- R73: the other seven stages in cyclic order after `n`. -/
def stagesAfter (n : Stage) : List Stage :=
  (List.range 7).map fun k => ⟨(n.val + 1 + k) % 8, Nat.mod_lt _ (by decide)⟩

/-- R73: the first stage after `n` with a member that has demand (an empty stage has none). -/
def nextStage (s : State) (n : Stage) : Option Stage :=
  (stagesAfter n).find? fun k => allGroups.any fun g => inSet s.sel.stages[k] g && (grp s g).demand

/-- R68: how many members of a stage proceed. -/
def proceedingMembers (s : State) (n : Stage) : Nat :=
  allGroups.countP fun g => inSet s.sel.stages[n] g && (grp s g).state.proceeds

/-- R68: of the non-empty stages the one with the most proceeding members, the lowest number among equals. -/
def takeoverStage (s : State) : Option Stage :=
  (List.finRange 8).foldl (fun best n =>
    if s.sel.stages[n] = 0 then best
    else match best with
      | none => some n
      | some b => if proceedingMembers s b < proceedingMembers s n then some n else best) none

/-! ## Stage reached (R63) -/

/-- R63: a counting member of the present target. -/
def counting (s : State) (g : Group) : Bool :=
  inSet s.sel.target g && decide (groupKind s.cs.image g ≠ .none) && !(grp s g).inhibited &&
  !(ovl s g).block && !(grp s g).maxedOut

/-- R63: the generation is reached. -/
def reached (s : State) : Bool :=
  if allGroups.any (counting s) then allGroups.all fun g => !counting s g || (grp s g).state.proceeds
  else allGroups.all fun g => !(grp s g).state.underWay

/-! ## Lamps (R146, R148) -/

/-- The group that owns a lamp channel, and the channel's place in it: 0 stop, 1 middle, 2 proceed. -/
def lampGroup (ch : Lamp) : Group := ⟨ch.val / 3, by omega⟩
def lampPos (ch : Lamp) : Fin 3 := ⟨ch.val % 3, by omega⟩

def stopLamp (g : Group) : Lamp := ⟨3 * g.val, by omega⟩
def proceedLamp (g : Group) : Lamp := ⟨3 * g.val + 2, by omega⟩

/-- R146: the channel is used, and so proved. -/
def lampUsed (k : GroupKind) (pos : Fin 3) : Bool :=
  match k with
  | .none => false
  | .walk => decide (pos ≠ 1)
  | _ => true

/-- R148: the command by group state, of modes and phases that follow it. -/
def commandByState (k : GroupKind) (st : GroupState) (pos : Fin 3) : LampCommand :=
  if !lampUsed k pos then .off
  else if k = .walk then
    match st with
    | .stop | .prepare => if pos = 0 then .on else .off
    | .proceedMin | .proceedExt => if pos = 2 then .on else .off
    | .clearance => if pos = 2 then .flash else .off
  else
    match st with
    | .stop => if pos = 0 then .on else .off
    | .prepare => if pos = 2 then .off else .on
    | .proceedMin | .proceedExt => if pos = 2 then .on else .off
    | .clearance => if pos = 1 then .on else .off

/-- R148: the command of a channel under the device mode. -/
def commandFor (mode : Mode) (sub : Option SubPhase) (k : GroupKind) (st : GroupState) (pos : Fin 3) :
    LampCommand :=
  match mode with
  | .powerUp | .dark => .off
  | .flash => if k = .traffic ∧ pos = 1 then .flash else .off
  | .startUp =>
    if sub = some .suFlash then (if k = .traffic ∧ pos = 1 then .flash else .off) else commandByState k st pos
  | .normal | .closing => commandByState k st pos

/-- The command the LOU derives for a channel in the present state. -/
def derivedCommand (s : State) (ch : Lamp) : LampCommand :=
  commandFor s.mfs.mode s.mfs.sub (groupKind s.cs.image (lampGroup ch)) (grp s (lampGroup ch)).state (lampPos ch)

/-- R149: the drive output a channel has. -/
def outputFor (now : Time) (d : DriveState) (c : LampCommand) : Bool :=
  match d, c with
  | .enabled, .on => true
  | .enabled, .flash => flashOnHalf now
  | _, _ => false

/-! ## Stations and the selector (R46, R51) -/

def ownerStation : Owner → Option Station
  | .controller => some 0
  | .manual => some 2
  | .central => some 3
  | .fallback => none

def stationOwner : Station → Owner
  | 0 => .controller
  | 2 => .manual
  | 3 => .central
  | _ => .fallback

/-- R51, R55: the owner and rank that stand when no other rule names one: the timing controller while it is not
silent (and is not the station that leaves), else FALLBACK. -/
def defaultOwner (s : State) (leaving : Option Station) : Owner × Rank :=
  if (station s 0).silent = false ∧ leaving ≠ some 0 then (.controller, authorityRank s.cs.image 0)
  else (.fallback, 3)

/-- The number of the kind in the table of R173. -/
def FaultKind.code : FaultKind → Fin 12
  | .conflict => 0 | .uncommandedProceed => 1 | .redOut => 2 | .redOutMultiple => 3 | .lampOut => 4
  | .lampPartial => 5 | .overcurrent => 6 | .detectorFault => 7 | .detectorNoisy => 8 | .stationSilent => 9
  | .externalFault => 10 | .configCrc => 11

/-- R173: whether the kind at a place of the table is critical. -/
def criticalCode (k : Fin 12) : Bool := k == 0 || k == 1 || k == 3 || k == 10 || k == 11

def FaultKind.critical (k : FaultKind) : Bool := criticalCode k.code

/-- The number of the kind in the table of R180. -/
def Event.code : Event → Fin 11
  | .modeChanged => 0 | .selectorChanged => 1 | .stageReached => 2 | .groupMaxedOut => 3 | .priorityActed => 4
  | .priorityRemoved => 5 | .priorityDropped => 6 | .detectorChanged => 7 | .faultRaised => 8
  | .stationSilent => 9 | .stationResumed => 10

/-- The set of latched kinds, a bit for each place of the table of R173. -/
def latchedKinds (s : State) : BitVec 16 :=
  (List.finRange 12).foldl (fun w k => if (s.mfs.faults[k]).latched then w ||| (1#16 <<< k.val) else w) 0

def criticalMask : BitVec 16 := 0x0C0B#16

/-- A critical flag is latched (R171). -/
def criticalLatched (s : State) : Bool := decide (latchedKinds s &&& criticalMask ≠ 0)

/-- R181: the unmasked summary of a station. -/
def unmaskedSummary (m : Mfs) (i : Station) : Bool := decide (m.pending[i] &&& ~~~ m.masks[i] ≠ 0)

/-- Every group is in STOP (R168). -/
def allStopped (s : State) : Bool := allGroups.all fun g => decide ((grp s g).state = .stop)

end Sys2Proof.Machine
end

