-- ==== Sys2Proof/Machine/Ops.lean ====
section
/-! DEFINITION. The named operations over the records: one writer per kind of record, the posting of events, the
latching of faults, and the lamp commands' following of the group states. -/

namespace Sys2Proof.Machine

/-! ## One writer per record -/

def setGrp (s : State) (g : Group) (r : GroupRec) : State :=
  { s with sge := { s.sge with groups := s.sge.groups.set g.val r } }

/-- Every group record replaced by a function of its number. -/
def setGroups (s : State) (f : Group → GroupRec) : State :=
  { s with sge := { s.sge with groups := Vector.ofFn f } }

def setLamp (s : State) (ch : Lamp) (r : LampRec) : State :=
  { s with lou := { s.lou with channels := s.lou.channels.set ch.val r } }

def setLamps (s : State) (f : Lamp → LampRec) : State :=
  { s with lou := { s.lou with channels := Vector.ofFn f } }

def setDet (s : State) (ch : Channel) (r : DetRec) : State :=
  { s with du := { s.du with channels := s.du.channels.set ch.val r } }

def setApr (s : State) (a : Approach) (r : ApproachRec) : State :=
  { s with pu := { s.pu with approaches := s.pu.approaches.set a.val r } }

def setStation (s : State) (i : Station) (r : StationRec) : State :=
  { s with clp := { s.clp with stations := s.clp.stations.set i.val r } }

def setFault (s : State) (k : Fin 12) (r : FaultRec) : State :=
  { s with mfs := { s.mfs with faults := s.mfs.faults.set k.val r } }

/-! ## Events and faults -/

/-- R181: ATTN is low while station 1 has a kind pending unmasked. -/
def updateAttn (m : Mfs) : Mfs := { m with attnLow := unmaskedSummary m 0 }

/-- R180: the kind is added to all four pending sets, and ATTN follows. -/
def post (e : Event) (s : State) : State :=
  { s with mfs := updateAttn { s.mfs with pending := s.mfs.pending.map fun p => p ||| (1#11 <<< e.code.val) } }

/-- The event is posted when the condition holds. -/
def postIf (b : Bool) (e : Event) (s : State) : State := if b then post e s else s

/-- The detail item with number `k` of its own sort. -/
def detailItem (k : Nat) : BitVec 72 := 1#72 <<< (k - 1)

/-- R174: what a detection does to the fault record. -/
def detected (now : Time) (detail : BitVec 72) (r : FaultRec) : FaultRec :=
  { r with
    latched := true
    firstSet := if r.latched then r.firstSet else some now
    detail := r.detail ||| detail
    count := saturate 255 r.count }

/-- R174, less the action of a critical kind: the record is latched and FAULT_RAISED posted unless masked. -/
def latch (k : FaultKind) (detail : BitVec 72) (s : State) : State :=
  let r := s.mfs.faults[k.code]
  postIf (!r.masked) .faultRaised (setFault s k.code (detected (jnow s) detail r))

/-! ## Lamp commands -/

/-- A channel under a command: one whose command does not change is not touched (R148); a change of the drive
output sets settling (R149). -/
def recommand (now : Time) (c : LampCommand) (r : LampRec) : LampRec :=
  if r.command = c then r
  else
    let o := outputFor now r.drive c
    { r with command := c, output := o, settling := r.settling || (o != r.output) }

/-- R148: the commands of the channels of the groups that `p` holds of are derived again. -/
def lampsFollow (p : Group → Bool) (s : State) : State :=
  setLamps s fun ch =>
    if p (lampGroup ch) then recommand (jnow s) (derivedCommand s ch) (lamp s ch) else lamp s ch

/-- R158: the groups, among those `p` holds of, that a new command of ON to a TRIPPED or LOCKED_OFF stop channel
makes red-out. To be asked before `lampsFollow`. -/
def commandRedOuts (p : Group → Bool) (s : State) : List Group :=
  allGroups.filter fun g =>
    p g && decide (derivedCommand s (stopLamp g) = .on) && decide ((lamp s (stopLamp g)).command ≠ .on) &&
    decide ((lamp s (stopLamp g)).drive ≠ .enabled) && !inSet s.lou.redOut g

/-- R149: a channel with a new drive state, its output following its command; a change sets settling. -/
def redrive (now : Time) (d : DriveState) (r : LampRec) : LampRec :=
  let o := outputFor now d r.command
  { r with drive := d, output := o, settling := r.settling || (o != r.output) }

/-! ## Group records -/

/-- R11: the entry to PROCEED_MIN. -/
def enterProceedMin (now : Time) (r : GroupRec) : GroupRec :=
  { r with
    state := .proceedMin
    stateEntry := now
    proceedStart := now
    demand := false
    bonus := r.credit
    credit := 0
    maxedOut := false }

/-- R16: the entry to STOP at the end of CLEARANCE. -/
def enterStop (now : Time) (r : GroupRec) : GroupRec :=
  { r with state := .stop, stateEntry := now, stopEntry := now }

/-- R14: the termination with a cause; `amount` is the priority unit's answer (R24), `cap` the group's cap. -/
def terminated (now : Time) (c : Cause) (amount cap : Nat) (r : GroupRec) : GroupRec :=
  { r with
    state := .clearance
    stateEntry := now
    proceedEnd := now
    cause := some c
    maxedOut := r.maxedOut || decide (c = .max)
    credit := if c = .priorityTruncate then min (r.credit + amount) cap else r.credit }

/-- R27: what fault entry does to a group record. -/
def stoppedByFault (now : Time) (r : GroupRec) : GroupRec :=
  if r.state = .stop then r
  else
    { r with
      state := .stop
      stateEntry := now
      stopEntry := now
      proceedEnd := now
      cause := if r.state = .clearance then r.cause else some .fault }

/-- R26: what the start of the start-up all-red does to a group record. -/
def allRedStarted (now : Time) (r : GroupRec) : GroupRec :=
  { r with stopEntry := now, proceedEnd := now, maxedOut := false }

/-- R2: ageing. -/
def agedGroup (now : Time) (r : GroupRec) : GroupRec :=
  { r with
    stateEntry := aged now r.stateEntry
    proceedStart := aged now r.proceedStart
    proceedEnd := aged now r.proceedEnd
    stopEntry := aged now r.stopEntry }

/-- R23: every inhibited flag, from the red-out set. -/
def recomputeInhibits (s : State) : State :=
  setGroups s fun g =>
    { grp s g with inhibited := allGroups.any fun c => conflicts s c g && inSet s.lou.redOut c }

end Sys2Proof.Machine
end

