-- ==== Sys2Proof/Machine/Priority.lean ====
section
/-! DEFINITION. The priority unit's own work: the projection it asks of the intergreen matrix (R39 to R42), the
evaluation walk (R126 to R130), the overlay table (R124, R125), the recall inhibit (R134), admission (R116, R122)
and removal (R136). None of these moves a group: what the signal group engine does with a changed overlay is
Machine/Engine.lean. -/

namespace Sys2Proof.Machine

/-! ## Projected earliest green -/

/-- R40: the projected proceed end of a conflicting group. A running hold is what R20 says, the hold-until of the overlay
table: within a walk the table is the one from before the walk, which is formed again at the walk's end (R126), so that
a hold which this walk has withdrawn still counts (log entry 28). -/
def projectedEnd (s : State) (c : Group) : Time :=
  let r := grp s c
  let held (t : Time) : Time :=
    match (ovl s c).holdUntil with
    | some h => if isAfter (jnow s) h then laterOf (jnow s) t h else t
    | none => t
  match r.state with
  | .stop | .clearance => r.proceedEnd
  | .proceedExt =>
    match (ovl s c).holdUntil with
    | some h => if isAfter (jnow s) h then h else jnow s
    | none => jnow s
  | .proceedMin => held (later r.proceedStart (minProceed s.cs.image c))
  | .prepare => held (later r.stateEntry (prepareTime s.cs.image c + minProceed s.cs.image c))

/-- R41, R44: the tram group's own rest. -/
def ownRest (s : State) (t : Group) : Time :=
  let r := grp s t
  if r.state = .clearance then later r.proceedEnd (clearanceTime s.cs.image t + minStop s.cs.image t)
  else later r.stopEntry (minStop s.cs.image t)

/-- R42: an offset below 0 counts as 0. -/
def positiveOffset (now t : Time) : Nat := (offset now t).toNat

/-- R41, R42: the offset of P from now, the largest of the terms. -/
def projectionOffset (s : State) (t : Group) : Nat :=
  allGroups.foldl (fun best c =>
      if conflicts s c t then
        let e := projectedEnd s c
        let i := later e (intergreenTime s c t) - BitVec.ofNat 32 (prepareTime s.cs.image t)
        max best (max (positiveOffset (jnow s) e) (positiveOffset (jnow s) i))
      else best)
    (positiveOffset (jnow s) (ownRest s t))

/-- R41: the projected earliest green, P + p_t. -/
def projectedGreen (s : State) (t : Group) : Time :=
  later (jnow s) (projectionOffset s t + prepareTime s.cs.image t)

/-! ## Entries -/

/-- The tram group of an entry's approach. -/
def entryGroup (s : State) (e : Entry) : Option Group := tramGroup s.cs.image e.approach

def EntryState.acting : EntryState → Bool
  | .extending | .recalling | .serving => true
  | _ => false

/-- R121: the entry is committed. -/
def committed (s : State) (e : Entry) : Bool :=
  match e.state with
  | some .extending | some .serving => true
  | some .recalling =>
    match entryGroup s e with
    | some t => (grp s t).state.underWay
    | none => false
  | _ => false

/-- R129, R132: the bound G_t + M_t + b_t + x. -/
def holdBound (s : State) (t : Group) (a : Approach) : Time :=
  let r := grp s t
  let m := s.cs.image
  if r.state = .prepare then
    later r.stateEntry (prepareTime m t + maxProceed m t + r.credit + extensionLimit m a)
  else later r.proceedStart (maxProceed m t + r.bonus + extensionLimit m a)

/-- R129: the extension fits. -/
def extensionFits (s : State) (t : Group) (e : Entry) : Bool :=
  decide (offset (jnow s) e.need ≤ offset (jnow s) (holdBound s t e.approach)) && isAfter (jnow s) e.need

/-- R127, R128: the gate, the first reason that holds. -/
def gate (s : State) (e : Entry) : Option WaitReason :=
  if s.mfs.mode ≠ .normal then some .mode
  else if s.pu.enabled = false then some .disabled
  else if s.sel.rank < e.rank then some .rank
  else none

/-- The entry held back; it keeps no hold-until (log entry 9). -/
def waitFor (r : WaitReason) (e : Entry) : Entry := { e with state := some (.waiting r), holdUntil := none }

def noted (e : Entry) : Entry := { e with state := some .noted, holdUntil := none }

/-- R133: the entry's hold has ended. -/
def released (e : Entry) : Entry := { e with state := some .released, holdUntil := none }

/-! ## The recall inhibit (R134) -/

def inhibitRunning (now : Time) (i : Option Time) : Bool :=
  match i with
  | some u => isAfter now u
  | none => false

/-- R134: the inhibit-until after a SERVING entry of the approach has ended its hold or left the list. -/
def raiseInhibit (m : Image) (now : Time) (a : Approach) (i : Option Time) : Option Time :=
  if recallInhibit m a = 0 then i
  else
    let v := later now (recallInhibit m a)
    match i with
    | some u => if isAfter now u && decide (offset now v < offset now u) then some u else some v
    | none => some v

/-- The inhibit is raised where the entry was SERVING. -/
def raiseFor (s : State) (e : Entry) (i : Option Time) : Option Time :=
  if e.state = some .serving then raiseInhibit s.cs.image (jnow s) e.approach i else i

/-! ## The evaluation walk -/

/-- R127 step 4: the refreshed hold-until of an EXTENDING or SERVING entry. -/
def refreshedHold (s : State) (t : Group) (e : Entry) : Option Time :=
  if e.state = some .serving then some (earlierOf (jnow s) e.need (holdBound s t e.approach))
  else if extensionFits s t e then some e.need
  else e.holdUntil

/-- R133: an EXTENDING or SERVING entry whose hold-until is not after now. -/
def holdDue (s : State) (e : Entry) : Bool :=
  (decide (e.state = some .extending) || decide (e.state = some .serving)) &&
    match e.holdUntil with
    | some h => !isAfter (jnow s) h
    | none => false

/-- R131: a SERVING entry whose hold-until has been reached, which the walk of the end of the recall inhibit leaves to the
hold end of the same count (log entry 35). -/
def leftToHoldEnd (s : State) (e : Entry) : Bool := decide (e.state = some .serving) && holdDue s e

/-- R127: the first pass on one entry; the inhibit-until is threaded. `leave` says that the walk is that of the end of the
recall inhibit, which by R131 comes before a hold end that is still to be taken; any other walk ends a hold whose
refreshed hold-until is not after now (log entry 35). -/
def firstPassEntry (s : State) (leave : Bool) (i : Option Time) (e : Entry) : Entry × Option Time :=
  if !committed s e then (e, i)
  else if e.rank = 3 then (noted e, i)
  else
    match gate s e with
    | some r => (waitFor r e, i)
    | none =>
      if e.state = some .recalling then (e, i)
      else
        match entryGroup s e with
        | none => (released e, raiseFor s e i)
        | some t =>
          if !(grp s t).state.underWay then (released e, raiseFor s e i)
          else
            match refreshedHold s t e with
            | none => (released e, raiseFor s e i)
            | some h =>
              if isAfter (jnow s) h || (leave && leftToHoldEnd s e) then ({ e with holdUntil := some h }, i)
              else (released e, raiseFor s e i)

def firstPass (s : State) (leave : Bool) : Option Time → List Entry → List Entry × Option Time
  | i, [] => ([], i)
  | i, e :: es =>
    let r := firstPassEntry s leave i e
    let rest := firstPass s leave r.2 es
    (r.1 :: rest.1, rest.2)

/-- R130: an entry recalled, with its projected green and LATE. -/
def recalled (s : State) (t : Group) (e : Entry) : Entry :=
  let g := projectedGreen s t
  { e with
    state := some .recalling
    holdUntil := none
    projGreen := some g
    late := decide (offset (jnow s) e.la < offset (jnow s) g) }

/-- R128 to R130: the second pass on one entry. `taken` holds the tram groups of the committed entries and of the
entries granted earlier in this pass. -/
def secondPassEntry (s : State) (i : Option Time) (taken : List Group) (e : Entry) : Entry × List Group :=
  if committed s e || decide (e.state = some .released) then (e, taken)
  else if e.rank = 3 then (noted e, taken)
  else
    match gate s e with
    | some r => (waitFor r e, taken)
    | none =>
      match entryGroup s e with
      | none => (waitFor .noFit e, taken)
      | some t =>
        if taken.any (fun c => conflicts s c t) then (waitFor .blocked e, taken)
        else if (grp s t).state.underWay then
          if extensionFits s t e then
            ({ e with state := some .extending, holdUntil := some e.need }, t :: taken)
          else (waitFor .noFit e, taken)
        else if inhibitRunning (jnow s) i && decide (e.rank ≠ 0) then (waitFor .inhibited e, taken)
        else (recalled s t e, t :: taken)

def secondPass (s : State) (i : Option Time) : List Group → List Entry → List Entry
  | _, [] => []
  | taken, e :: es =>
    let r := secondPassEntry s i taken e
    r.1 :: secondPass s i r.2 es

/-- The tram groups of the committed entries of a list. -/
def committedGroups (s : State) (l : List Entry) : List Group :=
  l.filterMap fun e => if committed s e then entryGroup s e else none

/-! ## The overlay table (R124) -/

/-- The entry is in state `st` and its tram group meets `p`. -/
def actsOn (s : State) (st : EntryState) (p : Group → Bool) (e : Entry) : Bool :=
  decide (e.state = some st) &&
    match entryGroup s e with
    | some t => p t
    | none => false

/-- The hold that an acting entry places on the group. -/
def holdOn (s : State) (g : Group) (e : Entry) : Option Time :=
  if actsOn s .extending (· == g) e || actsOn s .serving (· == g) e then e.holdUntil else none

/-- The later of two optional holds. -/
def latestHold (now : Time) (a b : Option Time) : Option Time :=
  match a, b with
  | some x, some y => some (laterOf now x y)
  | some x, none => some x
  | none, y => y

/-- R124: the overlay record that the entries of a list place on a group. -/
def overlayFor (s : State) (l : List Entry) (g : Group) : Overlay :=
  { holdUntil := l.foldl (fun h e => latestHold (jnow s) h (holdOn s g e)) none
    call := l.any (actsOn s .recalling (· == g))
    block := l.any fun e =>
      (actsOn s .recalling (fun t => conflicts s t g) e && !(grp s g).state.underWay) ||
        actsOn s .serving (fun t => conflicts s t g) e
    truncate := l.any fun e =>
      actsOn s .recalling (fun t => conflicts s t g) e && (grp s g).state.underWay }

/-- R125: the overlay table is formed again from the list. -/
def reformOverlay (s : State) : State :=
  { s with pu := { s.pu with overlay := Vector.ofFn (overlayFor s s.pu.list) } }

/-- R143: some entry has entered an acting state. -/
def someActed (before after : List Entry) : Bool :=
  (before.zip after).any fun p =>
    decide (p.1.state ≠ p.2.state) &&
      match p.2.state with
      | some st => st.acting
      | none => false

/-- R126: one evaluation walk; `leave` says that it leaves the holds that have been reached to the hold end (R131). -/
def walkWith (leave : Bool) (s : State) : State :=
  let p := firstPass s leave s.pu.inhibitUntil s.pu.list
  let l := secondPass s p.2 (committedGroups s p.1) p.1
  postIf (someActed s.pu.list l) .priorityActed
    (reformOverlay { s with pu := { s.pu with list := l, inhibitUntil := p.2 } })

/-- R126: the evaluation walk of every arrival but the end of the recall inhibit. -/
def walk (s : State) : State := walkWith false s

/-! ## Recall into service (R132) -/

/-- R132: a RECALLING entry of a tram group that has just entered PROCEED_MIN. -/
def intoService (s : State) (t : Group) (e : Entry) : Entry :=
  if actsOn s .recalling (· == t) e then
    { e with state := some .serving, holdUntil := some (earlierOf (jnow s) e.need (holdBound s t e.approach)) }
  else e

def recallIntoService (t : Group) (s : State) : State :=
  let l := s.pu.list.map (intoService s t)
  postIf (someActed s.pu.list l) .priorityActed { s with pu := { s.pu with list := l } }

/-- R125, R126, R132: what the priority unit does when the engine hands it a group's new state. -/
def puOnChange (s : State) (g : Group) : State :=
  let s := if (grp s g).state = .proceedMin then recallIntoService g s else s
  if s.pu.list.any (fun e => entryGroup s e == some g) then walk s
  else if s.pu.list.any (actsOn s .recalling fun t => conflicts s t g) then reformOverlay s
  else s

/-! ## Hold end, removal and flush -/

/-- R133: every entry whose hold is due is released, and a SERVING one sets the recall inhibit. -/
def endHolds (s : State) : State :=
  { s with pu := { s.pu with
      list := s.pu.list.map fun e => if holdDue s e then released e else e
      inhibitUntil := (s.pu.list.filter (holdDue s)).foldl (fun i e => raiseFor s e i) s.pu.inhibitUntil } }

/-- R143, R180: PRIORITY_REMOVED with its cause. -/
def postRemoved (c : RemovalCause) (s : State) : State :=
  post .priorityRemoved { s with mfs := { s.mfs with lastRemoval := some c } }

/-- R136, less the walk: the entries that `p` holds of leave the list. -/
def removeEntries (p : Entry → Bool) (c : RemovalCause) (s : State) : State :=
  postRemoved c { s with pu := { s.pu with
    list := s.pu.list.filter fun e => !p e
    inhibitUntil := (s.pu.list.filter p).foldl (fun i e => raiseFor s e i) s.pu.inhibitUntil } }

/-- R139: the list is flushed. -/
def flush (s : State) : State :=
  let t := { s with pu := { s.pu with
    list := [], overlay := Vector.replicate 24 Overlay.clear, inhibitUntil := none } }
  if s.pu.list = [] then t else postRemoved .flushed t

/-! ## Admission (R116, R119, R122) -/

/-- R119: the order of the list. -/
def entryBefore (now : Time) (a b : Entry) : Bool :=
  if a.rank ≠ b.rank then decide (a.rank < b.rank)
  else if offset now a.ci ≠ offset now b.ci then decide (offset now a.ci < offset now b.ci)
  else decide (a.seq < b.seq)

def insertEntry (now : Time) (e : Entry) (l : List Entry) : List Entry := insertBefore (entryBefore now) e l

/-- R116: the lowest number, counting upward from the next-entry number, that no entry holds. -/
def freeNumber (start : BitVec 8) (l : List Entry) : BitVec 8 :=
  match (List.range 256).find? (fun k => !(l.any fun e => e.number == start + BitVec.ofNat 8 k)) with
  | some k => start + BitVec.ofNat 8 k
  | none => start

/-- R116: a new entry takes its number and its place. -/
def placeEntry (e : Entry) (s : State) : State :=
  let n := freeNumber s.pu.nextEntry s.pu.list
  { s with pu := { s.pu with
    list := insertEntry (jnow s) { e with number := n, seq := s.pu.nextSeq } s.pu.list
    nextEntry := n + 1
    nextSeq := s.pu.nextSeq + 1 } }

/-- R122: the last entry is displaced. -/
def displace (last : Entry) (s : State) : State :=
  post .priorityDropped { s with pu := { s.pu with
    list := s.pu.list.dropLast
    inhibitUntil := raiseFor s last s.pu.inhibitUntil } }

/-- R122: a new entry is admitted, or refused by a full list (`none`). The walk is left to the caller. -/
def admitEntry (e : Entry) (s : State) : Option State :=
  if s.pu.list.length < 8 then some (placeEntry e s)
  else
    match s.pu.list.getLast? with
    | none => some (placeEntry e s)
    | some last => if e.rank < last.rank then some (placeEntry e (displace last s)) else none

/-! ## The figures of a check-in (R110, R111) -/

/-- R110: the ETA clamped to 1 to 6,000 ds. -/
def clampEta (n : Nat) : Nat := clamp 1 6000 n

/-- R111: the window and the derived times of an entry from CI and the ETA. -/
def withFigures (m : Image) (ci : Time) (eta : Nat) (e : Entry) : Entry :=
  let w := max 5 (eta / 8)
  { e with
    ci := ci
    eta := eta
    ea := later ci (eta - w)
    la := later ci (eta + w)
    need := later ci (eta + w + passAllowance m e.approach)
    expiry := later ci (eta + w + expiryMargin m e.approach) }

/-- R116: a new entry, before its number, its place and its state. -/
def newEntry (m : Image) (src : EntrySource) (ident : Option (BitVec 16)) (route : Option (BitVec 8))
    (a : Approach) (rank : Rank) (ci : Time) (eta : Nat) (clamped single : Bool) : Entry :=
  withFigures m ci eta
    { number := 0, source := src, ident := ident, route := route, approach := a, rank := rank, ci := ci,
      eta := eta, ea := ci, la := ci, need := ci, expiry := ci, state := none, holdUntil := none,
      projGreen := none, speedClamped := clamped, singleLoop := single, late := false, merged := false, seq := 0 }

end Sys2Proof.Machine
end

