-- ==== Sys2Proof/Machine/Engine.lean ====
section
/-! DEFINITION. What follows inside one arrival, whichever command brought it: the reached condition (R64), the
setting of a target (R58, R62), the fallback sequencer's evaluation (R72, R73) and takeover (R68), and the rounds of
terminations at the signal group engine (R13, R14) until no group in PROCEED_EXT has a condition left that holds.
The order in which the blocks evaluate one arrival is the model's choice where the manual leaves it open (log entries
11, 12 and 28).

A start is a step of its own in the table (GROUP_START); no arrival here starts a group (log entry 2). -/

namespace Sys2Proof.Machine

/-! ## Selector and sequencer -/

/-- R64: in NORMAL, while the reported flag is clear, the reached condition is evaluated. -/
def evalReached (s : State) : State :=
  if s.mfs.mode = .normal ∧ s.sel.reported = false ∧ reached s = true then
    post .stageReached { s with sel := { s.sel with reported := true } }
  else s

/-- R18: every maxed-out flag is cleared. -/
def clearMaxedOut (s : State) : State := setGroups s fun g => { grp s g with maxedOut := false }

/-- R58, R62, R55: a setting of the target that begins a new generation, less the terminations it brings. -/
def setTarget (w : GroupSet) (s : State) : State :=
  evalReached (clearMaxedOut { s with sel := { s.sel with
    target := w, generation := s.sel.generation + 1, reported := false } })

/-- R67: the sequencer stops acting. -/
def fbsStop (s : State) : State := { s with fbs := { s.fbs with current := none } }

/-- R68: the takeover. It is no arrival of R72's list, so the end of the stage that it chooses is not evaluated at it,
unless a flag of a member changes (log entry 34). -/
def takeover (s : State) : State :=
  let n := takeoverStage s
  setTarget (match n with | some k => s.sel.stages[k] | none => 0)
    { s with fbs := { s.fbs with current := n } }

/-- R72, R73: the sequencer evaluates the end of the current stage, and writes the next stage's set. -/
def evalStage (s : State) : State :=
  if fbsActs s then
    match s.fbs.current with
    | some n =>
      if stageEnds s n then
        match nextStage s n with
        | some k => setTarget s.sel.stages[k] { s with fbs := { s.fbs with current := some k } }
        | none => s
      else s
    | none => s
  else s

/-! ## Terminations -/

/-- The groups in PROCEED_EXT for which a condition of R13 holds. -/
def terminating (s : State) : List Group := allGroups.filter fun g => (terminationCause s g).isSome

/-- R135: the priority unit's answer to a truncation. -/
def compensationFor (s : State) (g : Group) : Nat :=
  match s.pu.list.find? (actsOn s .recalling fun t => conflicts s t g) with
  | some e => compensation s.cs.image e.approach
  | none => 0

/-- R13, R14: a group record after the engine has evaluated the termination conditions. -/
def afterEvaluation (s : State) (g : Group) : GroupRec :=
  match terminationCause s g with
  | some c => terminated (jnow s) c (compensationFor s g) (compensationCap s.cs.image g) (grp s g)
  | none => grp s g

/-- R13 to R15: every group whose conditions hold terminates, each on the state as this arrival found it, and
GROUP_MAXED_OUT is posted for a max-out. -/
def endProceeds (s : State) : State :=
  postIf (allGroups.any fun g => decide (terminationCause s g = some .max)) .groupMaxedOut
    (setGroups s (afterEvaluation s))

/-- One round of the engine: the terminations, and what the lamp unit and the priority unit do with the new states. -/
def engineRound (s : State) : State :=
  let gs := terminating s
  gs.foldl puOnChange (lampsFollow gs.contains (endProceeds s))

/-- R72: between two states the inhibited, the block or the maxed-out flag of a member of the current stage changes. -/
def memberFlagChanged (before s : State) : Bool :=
  match s.fbs.current with
  | some n => allGroups.any fun g => inSet s.sel.stages[n] g &&
      ((grp before g).inhibited != (grp s g).inhibited || (ovl before g).block != (ovl s g).block ||
        (grp before g).maxedOut != (grp s g).maxedOut)
  | none => false

/-- What follows inside one arrival, round by round, until no condition of R13 holds and neither the selector nor the
sequencer has anything left to evaluate. The order is the model's choice where the manual leaves it open (log entry
28): the engine's terminations come first, all of them, with the walks that they bring, so that a member whose maximum
has run ends by max-out at the demand that also ends its stage (R15, R75), and a truncated one by its truncation (R14,
R76); then comes the selector's reached condition (R64), then the sequencer (R72), and what it writes is an arrival at
the engine again. `sel` and `fbs` say that the selector and the sequencer have an arrival of R64 and of R72 to
evaluate; a termination is one for both, and a setting of the sequencer's own that clears the maxed-out flag of a
member is one for it.

A round of terminations takes at least one group out of PROCEED_EXT, and the sequencer is due again only after such a
round or after clearing a flag that one had set, so that 80 rounds are enough (`settleRounds_settles`). -/
def settleRounds : Nat → Bool → Bool → State → State
  | 0, _, _, s => s
  | n + 1, sel, fbs, s =>
    if terminating s = [] then
      let s1 := if sel then evalReached s else s
      if fbs then
        let t := evalStage s1
        settleRounds n false (memberFlagChanged s1 t) t
      else s1
    else settleRounds n true true (engineRound s)

/-- An arrival at the engine alone, and what its terminations bring. -/
def settle (s : State) : State := settleRounds 80 false false s

/-- An arrival that the engine, the selector and the sequencer all evaluate at: a state change of a group, or a
demand posting. -/
def react (s : State) : State := settleRounds 80 true true s

/-- An arrival that the engine and the selector evaluate at, and the sequencer where a flag of a member of its current
stage differs from what it was in `before` (R72). -/
def settleSince (before : State) (s : State) : State := settleRounds 80 true (memberFlagChanged before s) s

/-- An arrival at the sequencer alone: it evaluates first, and the engine takes what it has written. -/
def settleStage (s : State) : State :=
  let t := evalStage s
  settleRounds 80 false (memberFlagChanged s t) t

/-- R125: when a re-forming has changed the overlay, the change is handed to the engine. -/
def overlayArrival (before : State) (s : State) : State :=
  if s.pu.overlay = before.pu.overlay then s else settleSince before s

/-- The walk, and the overlay change it may bring. -/
def walkArrival (before : State) (s : State) : State := overlayArrival before (walk s)

/-- R22: demand posted for each group of a list. A NONE slot takes none (R3), nor a WALK group from a LOOP
channel. The model sets every flag of a list at once, a channel's references or the members of a CALL_GROUPS (R60),
and the engine and the sequencer then evaluate once (R13, R72); whether they evaluate after each member is left open
(log entry 28). They evaluate too where the posting sets no flag, which R72's list of arrivals does not name (log entry
34). -/
def postDemand (fromLoop : Bool) (gs : List Group) (s : State) : State :=
  react (setGroups s fun g =>
    if gs.contains g && decide (groupKind s.cs.image g ≠ .none) &&
        !(fromLoop && decide (groupKind s.cs.image g = .walk)) then
      { grp s g with demand := true }
    else grp s g)

/-- R7: a group's new state, other than STOP, is handed to the lamp unit and the priority unit, whose walk comes first;
then the terminations that follow are taken, the reached condition is evaluated (R64), and last the sequencer's stage.
The manual gives no order between these (log entry 28). -/
def groupMoved (g : Group) (s : State) : State :=
  react (puOnChange (lampsFollow (· == g) s) g)

/-! ## Selector changes -/

/-- R48: the owner and rank become the given ones. A change is posted, handed to the priority unit, which runs its
walk, and to the sequencer, which begins with a takeover or stops; the engine takes what the two have written. A
takeover that changes no flag of a member of its stage brings no evaluation of R72 (log entry 34). -/
def changeOwner (o : Owner) (r : Rank) (s : State) : State :=
  if s.sel.owner = o ∧ s.sel.rank = r then s
  else
    let s1 := post .selectorChanged { s with sel := { s.sel with
      owner := o
      rank := r
      lastChange := if s.sel.owner = o then s.sel.lastChange else jnow s } }
    let s2 := walk s1
    let s3 := if fbsActs s2 then (if fbsActs s then s2 else takeover s2) else fbsStop s2
    settleSince s s3

/-- R51: the selector passes from the leaving station under the default-owner rule. -/
def passSelector (leaving : Station) (s : State) : State :=
  changeOwner (defaultOwner s (some leaving)).1 (defaultOwner s (some leaving)).2 s

end Sys2Proof.Machine
end

