-- ==== Sys2Proof/Machine/Supervisor.lean ====
section
/-! DEFINITION. The mode and fault supervisor: detections and fault entry (R174 to R176), the red-out set
(R158, R160), and the entries to the device modes (R163 to R172), each with what it brings at the other blocks. -/

namespace Sys2Proof.Machine

def Goal.mode : Goal → Mode
  | .flash => .flash
  | .dark => .dark

/-- R163: a change of mode or sub-phase: the record is written and MODE_CHANGED posted. -/
def setMode (m : Mode) (sub : Option SubPhase) (goal : Option Goal) (s : State) : State :=
  post .modeChanged { s with mfs := { s.mfs with mode := m, sub := sub, goal := goal, phaseStart := jnow s } }

/-- Entry to FLASH or DARK: the list is flushed (R139), the sequencer stops (R67), the lamps follow (R148). -/
def enterResting (g : Goal) (s : State) : State :=
  lampsFollow (fun _ => true) (fbsStop (flush (setMode g.mode none none s)))

/-- R176, R27: fault entry. -/
def faultEntry (s : State) : State :=
  enterResting (faultAspect s.cs.image) (setGroups s fun g => stoppedByFault (jnow s) (grp s g))

/-- The modes in which a critical detection brings fault entry (R175). -/
def Mode.faultEnters : Mode → Bool
  | .startUp | .normal | .closing => true
  | _ => false

/-- R178, R179: FLT is driven, and the external-low run is set to 0. -/
def driveFlt (s : State) : State := { s with mfs := { s.mfs with fltDriven := true, externalRun := 0 } }

/-- R174, R175: a detection. A critical one drives FLT, and in START_UP, NORMAL and CLOSING brings fault entry. -/
def detect (k : FaultKind) (detail : BitVec 72) (s : State) : State :=
  let s1 := latch k detail s
  if k.critical then
    let s2 := driveFlt s1
    if s2.mfs.mode.faultEnters then faultEntry s2 else s2
  else s1

/-! ## Red-out -/

def setBit (w : GroupSet) (g : Group) : GroupSet := w ||| (1#24 <<< g.val)
def clearBit (w : GroupSet) (g : Group) : GroupSet := w &&& ~~~(1#24 <<< g.val)

/-- R23: the inhibited flags are computed again, and what follows from a change of them is taken. -/
def reportRedOut (s : State) : State := settleSince s (recomputeInhibits s)

/-- R158: RED_OUT_MULTIPLE is raised while two or more groups stand in the red-out set. -/
def raiseMultiple (s : State) : State :=
  if 2 ≤ setSize s.lou.redOut then detect .redOutMultiple (s.lou.redOut.setWidth 72) s else s

/-- R158: a group not in the red-out set becomes red-out. -/
def becomeRedOut (g : Group) (s : State) : State :=
  if inSet s.lou.redOut g then s
  else
    let s1 := setLamp s (stopLamp g) { lamp s (stopLamp g) with litCount := 0 }
    let s2 := { s1 with lou := { s1.lou with redOut := setBit s1.lou.redOut g } }
    raiseMultiple (reportRedOut (detect .redOut (detailItem (number g)) s2))

/-- R160, R161: a group leaves the red-out set. -/
def leaveRedOut (g : Group) (s : State) : State :=
  if inSet s.lou.redOut g then
    reportRedOut { s with lou := { s.lou with redOut := clearBit s.lou.redOut g } }
  else s

/-- The lamps of the groups `p` holds of follow, and the groups that a new command makes red-out become so. R158 gives no
order between several tripped stop lamps at the start of one all-red: the model takes the groups in number order, and
those after the second join the red-out set and raise again although its RED_OUT_MULTIPLE has brought fault entry and
turned the stop commands OFF (log entry 11). -/
def followAndRedOut (p : Group → Bool) (s : State) : State :=
  (commandRedOuts p s).foldl (fun t g => becomeRedOut g t) (lampsFollow p s)

/-! ## CLOSING -/

/-- R168: the first arrival with every group in STOP begins CL_ALLRED. -/
def checkClosing (s : State) : State :=
  if s.mfs.mode = .closing ∧ s.mfs.sub = some .clClearing ∧ allStopped s = true then
    setMode .closing (some .clAllred) s.mfs.goal s
  else s

/-- R168, R65, R139, R67, R26: CLOSING is entered from NORMAL. -/
def enterClosing (g : Goal) (s : State) : State :=
  let s1 := setMode .closing (some .clClearing) (some g) s
  let s2 := flush { s1 with sel := { s1.sel with target := 0 } }
  checkClosing (settle (lampsFollow (fun _ => true) (fbsStop s2)))

/-- R16: what follows when a group has entered STOP. The walk, the reached condition and the sequencer's evaluation come
first, as at any other state change (`groupMoved`); the red-out of a tripped stop lamp that is newly commanded ON
(R158) and the end of a clearing (R168) come after them. The manual gives no order here (log entry 28). -/
def groupStopped (g : Group) (s : State) : State :=
  let rs := commandRedOuts (· == g) s
  let s1 := groupMoved g s
  checkClosing (rs.foldl (fun t g => becomeRedOut g t) s1)

/-! ## START_UP and NORMAL -/

/-- R26, R166: the start of the start-up all-red, the mode record being written. -/
def beginAllRed (s : State) : State :=
  followAndRedOut (fun _ => true) (setGroups s fun g => allRedStarted (jnow s) (grp s g))

/-- R55: the start-up default. -/
def startUpDefault (s : State) : State :=
  changeOwner (defaultOwner s none).1 (defaultOwner s none).2 (setTarget 0 s)

/-- R165: START_UP entry. -/
def enterStartUp (s : State) : State :=
  if startUpFlashTime s.cs.image = 0 then
    beginAllRed (walk (startUpDefault (setMode .startUp (some .suAllred) none s)))
  else
    lampsFollow (fun _ => true) (walk (startUpDefault (setMode .startUp (some .suFlash) none s)))

/-- R166: the entry to NORMAL: the reached condition (R64), the sequencer's takeover (R68), the walk (R126), the lamps,
and what the engine takes of them, in this order (log entry 11). -/
def enterNormal (s : State) : State :=
  let s1 := evalReached (setMode .normal none none s)
  let s2 := if s1.sel.owner = .fallback then takeover s1 else s1
  settleSince s (lampsFollow (fun _ => true) (walk s2))

/-! ## RESUME -/

/-- R157: a locked channel is enabled again. -/
def unlocked (now : Time) (r : LampRec) : LampRec :=
  if r.drive = .lockedOff then { redrive now .enabled r with trips := 0, lastTrip := none } else r

/-- R157: every lock is lifted. -/
def liftLocks (s : State) : State := setLamps s fun ch => unlocked (jnow s) (lamp s ch)

/-- R172: a successful RESUME. -/
def startResume (s : State) : State :=
  let s1 := { s with mfs := { s.mfs with fltDriven := false } }
  enterStartUp (liftLocks s1)

/-! ## Working copies (R29, R56) -/

/-- The intergreen matrix and the stage list are loaded from the image, and the inhibits computed again (R23). -/
def loadWorkingCopies (s : State) : State :=
  let m := s.cs.image
  let s1 := { s with
    igm := { entry := Vector.ofFn fun c => Vector.ofFn fun g => if c = g then none else storedEntry m c g }
    sel := { s.sel with stages := Vector.ofFn (storedStage m) } }
  reportRedOut s1

end Sys2Proof.Machine
end

