-- ==== Sys2Proof/Machine/Groups.lean ====
section
/-! DEFINITION. The commands of the signal group engine's phases and of the priority unit's times: a start, the ends
of PREPARE, PROCEED_MIN and CLEARANCE, the max-out, the gap-out, the hold end, the end of the recall inhibit and the
expiry. Each acts when its own condition holds at the present junction time and changes nothing otherwise (log
entries 1 and 2). -/

namespace Sys2Proof.Machine

/-- The command about an item, for a number that names one; any other number changes nothing. -/
def withItem {n : Nat} (k : Nat) (f : Fin n → State → State) (s : State) : State :=
  match item? n k with
  | some i => f i s
  | none => s

/-! ## Start (R8, R9, R11) -/

/-- R8: the record of a group at its start. -/
def started (s : State) (g : Group) : GroupRec :=
  if prepareTime s.cs.image g = 0 then enterProceedMin (jnow s) (grp s g)
  else { grp s g with state := .prepare, stateEntry := jnow s }

/-- R8, R9: the group starts where the start arbiter picks it. -/
def startGroup (g : Group) (s : State) : State :=
  if (arbiterPicks s).contains g then groupMoved g (setGrp s g (started s g)) else s

def execGroupStart (g : Nat) (s : State) : Host.Outcome State Fault Refusal := .next (withItem g startGroup s)

/-! ## The ends of the phases -/

/-- R10: the prepare time has run. -/
def prepareRun (s : State) (g : Group) : Bool :=
  decide ((grp s g).state = .prepare) &&
  decide (prepareTime s.cs.image g ≤ elapsed (jnow s) (grp s g).stateEntry)

/-- R10, R11. -/
def endPrepare (g : Group) (s : State) : State :=
  if prepareRun s g then groupMoved g (setGrp s g (enterProceedMin (jnow s) (grp s g))) else s

def execPrepareEnd (g : Nat) (s : State) : Host.Outcome State Fault Refusal := .next (withItem g endPrepare s)

/-- R12: the min proceed has run. -/
def minProceedRun (s : State) (g : Group) : Bool :=
  decide ((grp s g).state = .proceedMin) &&
  decide (minProceed s.cs.image g ≤ elapsed (jnow s) (grp s g).proceedStart)

/-- R13, R14: one group in PROCEED_EXT evaluates its termination. -/
def evaluateGroup (g : Group) (s : State) : State :=
  postIf (decide (terminationCause s g = some .max)) .groupMaxedOut (setGrp s g (afterEvaluation s g))

/-- R12: PROCEED_EXT is entered and the termination conditions are evaluated at once; the state handed on is the
one in which that leaves the group. -/
def endMinProceed (g : Group) (s : State) : State :=
  if minProceedRun s g then
    groupMoved g (evaluateGroup g
      (setGrp s g { grp s g with state := .proceedExt, stateEntry := jnow s }))
  else s

def execMinProceedEnd (g : Nat) (s : State) : Host.Outcome State Fault Refusal := .next (withItem g endMinProceed s)

/-- R15: the group terminates by max-out where that is what its evaluation finds. A group in PROCEED_EXT for which
an earlier condition of R14 holds terminates with that cause. -/
def maxOut (g : Group) (s : State) : State :=
  if (grp s g).state = .proceedExt && maxOutCondition s g then groupMoved g (evaluateGroup g s) else s

def execMaxOut (g : Nat) (s : State) : Host.Outcome State Fault Refusal := .next (withItem g maxOut s)

/-- R16: the clearance time has run. -/
def clearanceRun (s : State) (g : Group) : Bool :=
  decide ((grp s g).state = .clearance) &&
  decide (clearanceTime s.cs.image g ≤ elapsed (jnow s) (grp s g).proceedEnd)

/-- R16, R158, R168. -/
def endClearance (g : Group) (s : State) : State :=
  if clearanceRun s g then groupStopped g (setGrp s g (enterStop (jnow s) (grp s g))) else s

def execClearanceEnd (g : Nat) (s : State) : Host.Outcome State Fault Refusal := .next (withItem g endClearance s)

/-! ## The priority unit's times -/

/-- R133: a hold of some entry is due. -/
def someHoldDue (s : State) : Bool := s.pu.list.any (holdDue s)

/-- R133: every entry whose hold is due is released and one walk runs. -/
def holdEnd (s : State) : State := if someHoldDue s then walkArrival s (endHolds s) else s

def execHoldEnd (s : State) : Host.Outcome State Fault Refusal := .next (holdEnd s)

/-- R134: the inhibit-until has been reached. -/
def inhibitReached (s : State) : Bool :=
  match s.pu.inhibitUntil with
  | some u => !isAfter (jnow s) u
  | none => false

/-- R134: the inhibit-until becomes absent and the walk runs. By R131 this walk may place recalls although a hold end of
the same count is still to set a new inhibit, so it leaves a SERVING entry whose hold-until has been reached to that hold
end (log entry 35). -/
def recallInhibitEnd (s : State) : State :=
  if inhibitReached s then
    overlayArrival s (walkWith true { s with pu := { s.pu with inhibitUntil := none } })
  else s

def execRecallInhibitEnd (s : State) : Host.Outcome State Fault Refusal := .next (recallInhibitEnd s)

/-- R137: the entry's X is not after now. -/
def expired (s : State) (e : Entry) : Bool := !isAfter (jnow s) e.expiry

/-- R137, R136: the expired entries are removed and one walk runs. -/
def expire (s : State) : State :=
  if s.pu.list.any (expired s) then walkArrival s (removeEntries (expired s) .expired s) else s

def execExpiry (s : State) : Host.Outcome State Fault Refusal := .next (expire s)

/-! ## Gap-out (R70, R72) -/

/-- R70: the sequencer acts, the group is a member of its current stage, and it is gapped out. -/
def memberGapsOut (s : State) (g : Group) : Bool :=
  fbsActs s && gappedOut s g &&
    match s.fbs.current with
    | some n => inSet s.sel.stages[n] g
    | none => false

/-- The sequencer's evaluation at the present advance (R72), and the terminations that a new target brings. -/
def fbsEvaluate (s : State) : State := settleStage { s with fbsDue := false }

def gapOut (g : Group) (s : State) : State := if memberGapsOut s g then fbsEvaluate s else s

/-- The group is a member of stage `n`, and a row of its own brings the stage's evaluation at this count: its gap-out
where its gap time runs out at this count (GAP_OUT), its max-out (MAX_OUT), or the end of its min proceed
(MIN_PROCEED_END). A member that stands gapped out since an earlier count has no such row. -/
def memberHasRow (s : State) (n : Stage) (g : Group) : Bool :=
  inSet s.sel.stages[n] g &&
    (gapRunsOut s g || (decide ((grp s g).state = .proceedExt) && maxOutCondition s g) || minProceedRun s g)

/-- R72: the advance itself ends the current stage, by a maximum that no other row takes (R75) or by members that are
finished without a row; with a row of a member left at this count, that row brings the evaluation (log entry 2). -/
def endsAtAdvance (s : State) : Bool :=
  fbsActs s &&
    match s.fbs.current with
    | some n => stageEnds s n && !(allGroups.any (memberHasRow s n))
    | none => false

/-- R72: the sequencer's part of an advance of the junction clock. -/
def advanceStage (s : State) : State := if endsAtAdvance s then fbsEvaluate s else s

def execGapOut (g : Nat) (s : State) : Host.Outcome State Fault Refusal := .next (withItem g gapOut s)

end Sys2Proof.Machine
end

