-- ==== Sys2Proof/Machine/Operands.lean ====
section
/-! DEFINITION. What requests and replies carry: the codes of enumerations (R189), the outcomes (R190), the request
kinds with their stations and payload lengths (R189), and the forming of a reply (R187, R188). -/

namespace Sys2Proof.Machine

/-! ## Enumerations (R189): the position in the list of values where the manual defines them -/

def GroupState.byte : GroupState → Byte
  | .stop => 0 | .prepare => 1 | .proceedMin => 2 | .proceedExt => 3 | .clearance => 4

def Cause.byte : Cause → Byte
  | .target => 0 | .max => 1 | .priorityTruncate => 2 | .closing => 3 | .fault => 4

def Owner.byte : Owner → Byte
  | .controller => 0 | .manual => 1 | .central => 2 | .fallback => 3

def DetState.byte : DetState → Byte
  | .tuning => 0 | .vacant => 1 | .occupied => 2 | .longPresence => 3 | .noisy => 4 | .fault => 5

def InnerState.byte : InnerState → Byte
  | .tuning => 0 | .vacant => 1 | .occupied => 2

def SampleResult.byte : SampleResult → Byte
  | .valid => 0 | .noOsc => 1 | .range => 2

def EntrySource.byte : EntrySource → Byte
  | .loop => 0 | .receiver => 1

def WaitReason.byte : WaitReason → Byte
  | .disabled => 0 | .rank => 1 | .blocked => 2 | .inhibited => 3 | .noFit => 4 | .mode => 5

def EntryState.byte : EntryState → Byte
  | .waiting _ => 0 | .noted => 1 | .extending => 2 | .recalling => 3 | .serving => 4 | .released => 5

def LampCommand.byte : LampCommand → Byte
  | .off => 0 | .on => 1 | .flash => 2

def DriveState.byte : DriveState → Byte
  | .enabled => 0 | .tripped => 1 | .lockedOff => 2

/-- R147 lists the drive output's values as on, off (log entry 18). -/
def outputByte (on : Bool) : Byte := if on then 0 else 1

def ProvingResult.byte : ProvingResult → Byte
  | .lit => 0 | .partly => 1 | .dark => 2

/-- The run kind: NONE, OUT, PARTIAL, UNCOMMANDED. -/
def runKindByte : Option Mismatch → Byte
  | none => 0 | some .out => 1 | some .partly => 2 | some .uncommanded => 3

/-- The last raised field: OUT, PARTIAL, UNCOMMANDED. -/
def Mismatch.byte : Mismatch → Byte
  | .out => 0 | .partly => 1 | .uncommanded => 2

def Dim.byte : Dim → Byte
  | .bright => 0 | .dim => 1

def Mode.byte : Mode → Byte
  | .powerUp => 0 | .startUp => 1 | .normal => 2 | .closing => 3 | .flash => 4 | .dark => 5

def SubPhase.byte : SubPhase → Byte
  | .suFlash => 0 | .suAllred => 1 | .clClearing => 2 | .clAllred => 3

def Goal.byte : Goal → Byte
  | .flash => 0 | .dark => 1

def RemovalCause.byte : RemovalCause → Byte
  | .served => 0 | .cancelled => 1 | .expired => 2 | .flushed => 3

def ChannelKind.byte : ChannelKind → Byte
  | .loop => 0 | .contact => 1 | .unused => 2

def Role.byte : Role → Byte
  | .none => 0 | .demand => 1 | .extend => 2 | .demandExtend => 3

def rankByte (r : Rank) : Byte := BitVec.ofNat 8 r.val

/-- A field of one byte. -/
def oneByte (n : Nat) : List Byte := [BitVec.ofNat 8 n]

/-- An optional field of one byte that stands for a value. -/
def optByte {α : Type} (f : α → Byte) : Option α → List Byte
  | none => [0, 0]
  | some x => [1, f x]

/-! ## Outcomes (R190) -/

inductive Verdict where
  | done | accepted | refusedRole | refusedRank | refusedMode | refusedNotOwner | refusedConflict | refusedFault
  | refusedInvalid | listFull | noMatch | configInvalid | badLength | unknownKind
  deriving DecidableEq, Repr

def Verdict.byte : Verdict → Byte
  | .done => 0x00 | .accepted => 0x01 | .refusedRole => 0x10 | .refusedRank => 0x11 | .refusedMode => 0x12
  | .refusedNotOwner => 0x13 | .refusedConflict => 0x14 | .refusedFault => 0x15 | .refusedInvalid => 0x16
  | .listFull => 0x20 | .noMatch => 0x21 | .configInvalid => 0x22 | .badLength => 0x30 | .unknownKind => 0x31

/-! ## Request kinds (R189) -/

inductive RequestKind where
  | readStatus | readGroups | readDetectors | readPriority | readFaults | readEvents | clearEvents | takeSelector
  | releaseSelector | setStage | selectStage | callGroups | modeRequest | clearFaults | setDim | enablePriority
  | readConfig | writeConfig | checkIn | checkOut | cancelPriority
  deriving DecidableEq, Repr

def allKinds : List RequestKind :=
  [.readStatus, .readGroups, .readDetectors, .readPriority, .readFaults, .readEvents, .clearEvents, .takeSelector,
   .releaseSelector, .setStage, .selectStage, .callGroups, .modeRequest, .clearFaults, .setDim, .enablePriority,
   .readConfig, .writeConfig, .checkIn, .checkOut, .cancelPriority]

def RequestKind.byte : RequestKind → Byte
  | .readStatus => 0x01 | .readGroups => 0x02 | .readDetectors => 0x03 | .readPriority => 0x04
  | .readFaults => 0x05 | .readEvents => 0x06 | .clearEvents => 0x07 | .takeSelector => 0x10
  | .releaseSelector => 0x11 | .setStage => 0x12 | .selectStage => 0x13 | .callGroups => 0x14
  | .modeRequest => 0x18 | .clearFaults => 0x19 | .setDim => 0x20 | .enablePriority => 0x21
  | .readConfig => 0x28 | .writeConfig => 0x29 | .checkIn => 0x30 | .checkOut => 0x31 | .cancelPriority => 0x32

/-- The request kind with a code, if the table holds it. -/
def kindOf (b : Byte) : Option RequestKind := allKinds.find? fun k => k.byte == b

/-- The stations allowed the kind: the receiver (station 2) is index 1. -/
def RequestKind.allows : RequestKind → Station → Bool
  | .readStatus, _ | .readGroups, _ | .readDetectors, _ | .readPriority, _ | .readFaults, _ | .readEvents, _
  | .clearEvents, _ => true
  | .takeSelector, i | .releaseSelector, i | .setStage, i | .selectStage, i | .callGroups, i | .modeRequest, i
  | .clearFaults, i => decide (i ≠ 1)
  | .setDim, i | .enablePriority, i | .readConfig, i | .writeConfig, i => decide (i = 0) || decide (i = 3)
  | .checkIn, i | .checkOut, i => decide (i = 1)
  | .cancelPriority, i => decide (i = 0) || decide (i = 1)

/-- The payload length that the kind asks for, WRITE_CONFIG excepted. -/
def RequestKind.payload : RequestKind → Nat
  | .readStatus | .readEvents | .releaseSelector => 0
  | .readGroups | .readDetectors | .readPriority | .readFaults | .takeSelector | .selectStage | .modeRequest
  | .setDim | .enablePriority => 1
  | .readConfig | .writeConfig => 2
  | .setStage | .callGroups | .checkOut | .cancelPriority => 3
  | .clearEvents | .clearFaults => 5
  | .checkIn => 14

/-- R192 step 3. -/
def RequestKind.lengthOk (k : RequestKind) (n : Nat) : Bool :=
  if k = .writeConfig then decide (2 ≤ n) else decide (n = k.payload)

/-! ## Replies (R187, R188) -/

/-- R187, R188: a request with kind byte `k` is answered. The receiver is in BUSY and the reply is formed: the
outcome, then the fields. LDIR is high until the reply has been sent (log entry 16). -/
def answerByte (k : Byte) (v : Verdict) (fields : List Byte) (s : State) : State :=
  { s with clp := { s.clp with
    receiver := .busy, buffer := [], reply := some { kind := k + 0x80, payload := v.byte :: fields }, ldir := true } }

/-- The answer to a request of a kind of the table. -/
def answer (k : RequestKind) (v : Verdict) (fields : List Byte) (s : State) : State := answerByte k.byte v fields s

/-- R187: the request is taken and is answered at a later arrival; until then no reply is sent. -/
def await (s : State) : State :=
  { s with clp := { s.clp with receiver := .busy, buffer := [], reply := none, ldir := false } }

/-- R187: a request is in flight whose effect is not complete, a nonvolatile write or a validation. -/
def inFlight (s : State) : Bool := s.cs.copy.isSome || s.cs.validating

/-- R192 step 2 and the hand-over of step 5: a request of a station, taken by the block that `f` stands for. While
another request is in flight the part takes none (log entry 15). -/
def asked (k : RequestKind) (n : Nat) (f : Station → State → State) (s : State) : State :=
  match item? 4 n with
  | none => s
  | some i =>
    if inFlight s then s
    else if k.allows i then f i s
    else answer k .refusedRole [] s

end Sys2Proof.Machine
end

