-- ==== Sys2Proof/Machine/Approaches.lean ====
section
/-! DEFINITION. The tram approaches: arming, pairing and check-in from the loops (R105 to R109), the estimates (R110),
check-in from the receiver (R112 to R115), check-out (R117, R118), cancelling (R138) and the priority enable (R140). -/

namespace Sys2Proof.Machine

/-! ## Loops (R105 to R109) -/

/-- R105: the state of an available loop. -/
def DetState.availableState : DetState → Bool
  | .vacant | .occupied => true
  | _ => false

/-- R105: a loop is available when its approach names it and its channel is in VACANT or OCCUPIED. -/
def loopAvailable (s : State) (c : Option Channel) : Bool :=
  match c with
  | some ch => (det s ch).state.availableState
  | none => false

/-- R109: the modes in which check-ins are taken. -/
def checkInMode (m : Mode) : Bool := decide (m = .startUp) || decide (m = .normal)

/-- R109: a loop check-in that is dropped or refused is counted. -/
def dropLoopCheckIn (a : Approach) (s : State) : State :=
  setApr s a { apr s a with dropped := saturate16 (apr s a).dropped }

/-- R113: the rank of an entry made by the loops. -/
def loopEntryRank (m : Image) (a : Approach) : Rank := max (loopRank m a) 1

/-- R109, R116: a check-in made by the loops, with its ETA before the clamp and its two flags. -/
def loopCheckIn (a : Approach) (eta : Nat) (clamped single : Bool) (s : State) : State :=
  let m := s.cs.image
  let e := newEntry m .loop none none a (loopEntryRank m a) (jnow s) (clampEta eta) clamped single
  if checkInMode s.mfs.mode then
    match admitEntry e s with
    | some t => walkArrival s t
    | none => dropLoopCheckIn a s
  else dropLoopCheckIn a s

/-- R108: the armed-A time is cleared. -/
def disarm (a : Approach) (s : State) : State := setApr s a { apr s a with armedA := none }

/-- R106: an entry on the check-in A loop. -/
def entryOnA (a : Approach) (stamp : Time) (s : State) : State :=
  if loopAvailable s (loopB s.cs.image a) then
    match (apr s a).armedA with
    | none => setApr s a { apr s a with armedA := some stamp }
    | some _ => s
  else loopCheckIn a (etaFromA s.cs.image a + dwell s.cs.image a) false true s

/-- R110: the least and the greatest plausible interval, in ms. -/
def pairMin (m : Image) (a : Approach) : Nat := ceilDiv (spacingCm m a * 1000) (vMax m a)
def pairMax (m : Image) (a : Approach) : Nat := spacingCm m a * 1000 / vMin m a

/-- R110: the interval after the clamp. Two speeds close together can leave the greatest interval below the least; the
interval is then compared with the least first (log entry 30). -/
def pairClamped (m : Image) (a : Approach) (dt : Nat) : Nat := clamp (pairMin m a) (pairMax m a) dt

/-- R110: the ETA of a paired check-in, before the clamp to 1 to 6,000. -/
def pairedEta (m : Image) (a : Approach) (dt : Nat) : Nat :=
  ceilDiv (distanceCm m a * pairClamped m a dt) (spacingCm m a * 100) + dwell m a

/-- R107: the interval from the armed-A time, where the B entry pairs. -/
def pairInterval (s : State) (a : Approach) (stamp : Time) : Option Nat :=
  match (apr s a).armedA with
  | some t =>
    if loopAvailable s (loopA s.cs.image a) && decide (elapsed stamp t ≤ 10000) then some (elapsed stamp t)
    else none
  | none => none

/-- R107: an entry on the check-in B loop. -/
def entryOnB (a : Approach) (stamp : Time) (s : State) : State :=
  let m := s.cs.image
  match pairInterval s a stamp with
  | some dt => loopCheckIn a (pairedEta m a dt) (pairClamped m a dt != dt) false (disarm a s)
  | none => loopCheckIn a (etaFromB m a + dwell m a) false true (disarm a s)

/-! ## Check-out by the loop (R118) -/

/-- The older of two entries in creation order. -/
def older (a : Option Entry) (b : Entry) : Option Entry :=
  match a with
  | none => some b
  | some x => if b.seq < x.seq then some b else some x

/-- The oldest entry, in creation order, that `p` holds of. -/
def oldest (p : Entry → Bool) (l : List Entry) : Option Entry := (l.filter p).foldl older none

/-- R118: EXTENDING, SERVING or RELEASED. -/
def hadItsGroup (e : Entry) : Bool :=
  decide (e.state = some .extending) || decide (e.state = some .serving) || decide (e.state = some .released)

/-- R118: the earliest time Ea is not after now. -/
def isDue (now : Time) (e : Entry) : Bool := decide ((now - e.ea).toNat < 2 ^ 31)

/-- R118: the entry that a loop check-out of the approach ends. -/
def loopCheckOutEntry (s : State) (a : Approach) : Option Entry :=
  match oldest (fun e => decide (e.approach = a) && hadItsGroup e) s.pu.list with
  | some e => some e
  | none => oldest (fun e => decide (e.approach = a) && isDue (jnow s) e) s.pu.list

/-- R136: one entry is removed with a cause, and the walk runs. -/
def removeEntry (x : Entry) (c : RemovalCause) (s : State) : State :=
  walkArrival s (removeEntries (fun e => decide (e = x)) c s)

/-- R118: an entry on the check-out loop. -/
def loopCheckOut (a : Approach) (s : State) : State :=
  match loopCheckOutEntry s a with
  | some e => removeEntry e .served s
  | none => setApr s a { apr s a with unmatched := saturate16 (apr s a).unmatched }

/-! ## What the detector unit hands over (R105) -/

/-- R105: an entry on channel `ch` at one approach, by the channel's role in it. In an image that no validation has passed
one channel may have several roles; they are taken in the order A, B, check-out, which is the model's choice (log
entry 30). -/
def entryAtApproach (ch : Channel) (stamp : Time) (a : Approach) (s : State) : State :=
  let m := s.cs.image
  let s1 := if loopA m a = some ch then entryOnA a stamp s else s
  let s2 := if loopB m a = some ch then entryOnB a stamp s1 else s1
  if loopOut m a = some ch then loopCheckOut a s2 else s2

/-- R105: an entry on a channel, with its last entry time as the stamp. Where an unvalidated image names the channel at
several approaches, they take it in number order (log entry 30). -/
def loopEntered (ch : Channel) (s : State) : State :=
  match (det s ch).lastEntry with
  | some stamp => (List.finRange 8).foldl (fun t a => entryAtApproach ch stamp a t) s
  | none => s

/-- R108: the B loop of an approach is lost while it is armed. -/
def loseB (a : Approach) (s : State) : State :=
  match (apr s a).armedA with
  | some t =>
    let m := s.cs.image
    loopCheckIn a (etaFromA m a + dwell m a - elapsed (dnow s) t / 100) false true (disarm a s)
  | none => s

/-- R108: a channel has become unavailable, at one approach; its role A is taken before its role B (log entry 30). -/
def loseAtApproach (ch : Channel) (a : Approach) (s : State) : State :=
  let m := s.cs.image
  let s1 := if loopA m a = some ch then disarm a s else s
  if loopB m a = some ch then loseB a s1 else s1

/-- R105, R108: a channel's state has changed to `st`. The model takes every change to an unavailable state as the loss of
the loop, also one from another unavailable state; with an armed approach that can come about only through a write
that takes the approach out of use and another that restores it (log entry 30). -/
def loopStateChanged (ch : Channel) (st : DetState) (s : State) : State :=
  if st.availableState then s else (List.finRange 8).foldl (fun t a => loseAtApproach ch a t) s

/-- R108: the arming of an approach has run longer than 10,000 ms. -/
def lapsed (now : Time) (r : ApproachRec) : ApproachRec :=
  match r.armedA with
  | some t => if 10000 < elapsed now t then { r with armedA := none } else r
  | none => r

/-- R108: the lapse of the armings, at a sample completion. -/
def armingLapse (s : State) : State :=
  if s.du.sampleIn = 0 then { s with pu := { s.pu with approaches := s.pu.approaches.map (lapsed (dnow s)) } } else s

def execArmingLapse (s : State) : Host.Outcome State Fault Refusal := .next (armingLapse s)

/-! ## CHECK_IN (R112 to R116) -/

/-- The figures and marks of a report of the receiver. -/
structure Report where
  ident : BitVec 16
  route : Byte
  lateness : BitVec 16
  special : Bool
  distance : Option (BitVec 24)
  speed : Option (BitVec 16)
  deriving DecidableEq, Repr

/-- R113: the derived rank of a report. -/
def derivedRank (m : Image) (r : Report) : Rank :=
  let late : Int := max (-600) (min 600 r.lateness.toInt)
  if r.special then 0
  else if (lateThreshold m : Int) ≤ late then 1
  else if late ≤ -(earlyThreshold m : Int) then 3
  else 2

/-- R113: the final rank of a report. -/
def reportRank (m : Image) (r : Report) : Rank := max (derivedRank m r) (authorityRank m 1)

/-- R112: the ETA of a report, clamped, and whether the clamp of the speed changed it. -/
def reportEta (m : Image) (a : Approach) (r : Report) : Nat × Bool :=
  match r.distance, r.speed with
  | some d, some v =>
    let w := clamp (vMin m a) (vMax m a) v.toNat
    (clampEta (ceilDiv (min 200000 d.toNat * 10) w + dwell m a), w != v.toNat)
  | _, _ => (clampEta (etaFromReceiver m a + dwell m a), false)

/-- R114: the entry that a report updates. -/
def heldBy (ident : BitVec 16) (a : Approach) (e : Entry) : Bool :=
  decide (e.ident = some ident) && decide (e.approach = a)

/-- R115: an entry into which a report on the approach may merge. -/
def mergeable (now : Time) (a : Approach) (e : Entry) : Bool :=
  decide (e.source = .loop) && decide (e.ident = none) && decide (e.approach = a) &&
  decide (elapsed now e.ci ≤ 30) &&
    match e.state with
    | some (.waiting _) | some .noted | some .extending | some .recalling => true
    | _ => false

/-- R114: an entry after an in-place update. -/
def updatedEntry (s : State) (r : Report) (e : Entry) : Entry :=
  let m := s.cs.image
  let f := reportEta m e.approach r
  { withFigures m (jnow s) f.1 e with
    rank := reportRank m r, route := some r.route, speedClamped := f.2, singleLoop := false }

/-- R115: an entry after a merge. -/
def mergedEntry (s : State) (r : Report) (e : Entry) : Entry :=
  { e with ident := some r.ident, route := some r.route, rank := reportRank s.cs.image r, merged := true }

/-- An entry of the list replaced by its new self, moved to its place by R119. -/
def replaceEntry (old new : Entry) (s : State) : State :=
  { s with pu := { s.pu with list := insertEntry (jnow s) new (s.pu.list.filter fun e => decide (e ≠ old)) } }

/-- R116: the new entry of a report. -/
def reportEntry (s : State) (a : Approach) (r : Report) : Entry :=
  let m := s.cs.image
  let f := reportEta m a r
  newEntry m .receiver (some r.ident) (some r.route) a (reportRank m r) (jnow s) f.1 f.2 false

/-- The reply field of CHECK_IN and CHECK_OUT: an entry number, optional (R195). -/
def entryField (n : Option (BitVec 8)) : List Byte := optByte id n

/-- R112: a report on an approach in use, in a mode that takes it. -/
def takeReport (a : Approach) (r : Report) (s : State) : State :=
  match s.pu.list.find? (heldBy r.ident a) with
  | some e =>
    answer .checkIn .done (entryField (some e.number)) (walkArrival s (replaceEntry e (updatedEntry s r e) s))
  | none =>
    match oldest (mergeable (jnow s) a) s.pu.list with
    | some e =>
      answer .checkIn .done (entryField (some e.number)) (walkArrival s (replaceEntry e (mergedEntry s r e) s))
    | none =>
      match admitEntry (reportEntry s a r) s with
      | some t => answer .checkIn .accepted (entryField (some (t.pu.nextEntry - 1))) (walkArrival s t)
      | none => answer .checkIn .listFull (entryField none) s

/-- R112: the approach number names an approach in use. -/
def approachInUse (m : Image) (b : Byte) : Option Approach :=
  match item? 8 b.toNat with
  | some a => if (tramGroup m a).isSome then some a else none
  | none => none

/-- R112. -/
def checkIn (r : Report) (approach : Byte) (_i : Station) (s : State) : State :=
  if !checkInMode s.mfs.mode then answer .checkIn .refusedMode (entryField none) s
  else
    match approachInUse s.cs.image approach with
    | some a => takeReport a r s
    | none => answer .checkIn .refusedInvalid (entryField none) s

def execCheckIn (station : Nat) (ident : BitVec 16) (route approach : Byte) (lateness : BitVec 16)
    (special : Bool) (distance : Option (BitVec 24)) (speed : Option (BitVec 16)) (s : State) :
    Host.Outcome State Fault Refusal :=
  .next (asked .checkIn station (checkIn
    { ident := ident, route := route, lateness := lateness, special := special, distance := distance,
      speed := speed } approach) s)

/-! ## CHECK_OUT (R117) -/

def checkOut (ident : BitVec 16) (approach : Byte) (_i : Station) (s : State) : State :=
  match item? 8 approach.toNat with
  | none => answer .checkOut .refusedInvalid (entryField none) s
  | some a =>
    match s.pu.list.find? (heldBy ident a) with
    | some e => answer .checkOut .done (entryField (some e.number)) (removeEntry e .served s)
    | none => answer .checkOut .noMatch (entryField none) s

def execCheckOut (station : Nat) (ident : BitVec 16) (approach : Byte) (s : State) :
    Host.Outcome State Fault Refusal :=
  .next (asked .checkOut station (checkOut ident approach) s)

/-! ## CANCEL_PRIORITY (R138) -/

/-- R138: the entries that `p` holds of are removed with cause CANCELLED, and one walk runs. -/
def cancelEntries (p : Entry → Bool) (s : State) : State :=
  if s.pu.list.any p then
    answer .cancelPriority .done (oneByte (s.pu.list.countP p))
      (walkArrival s (removeEntries p .cancelled s))
  else answer .cancelPriority .noMatch (oneByte 0) s

/-- R138, R195: by entry number; a value above 255 is refused. -/
def cancelByNumber (value : BitVec 16) (_i : Station) (s : State) : State :=
  if 255 < value.toNat then answer .cancelPriority .refusedInvalid (oneByte 0) s
  else cancelEntries (fun e => decide (e.number.toNat = value.toNat)) s

def execCancelPriorityByNumber (station : Nat) (value : BitVec 16) (s : State) :
    Host.Outcome State Fault Refusal :=
  .next (asked .cancelPriority station (cancelByNumber value) s)

/-- R138: by vehicle ident, on whatever approach. -/
def cancelByIdent (ident : BitVec 16) (_i : Station) (s : State) : State :=
  cancelEntries (fun e => decide (e.ident = some ident)) s

def execCancelPriorityByIdent (station : Nat) (ident : BitVec 16) (s : State) :
    Host.Outcome State Fault Refusal :=
  .next (asked .cancelPriority station (cancelByIdent ident) s)

/-! ## ENABLE_PRIORITY (R140, R195) -/

/-- R140: the enable becomes `on`; a change runs the walk. -/
def setEnable (on : Bool) (s : State) : State :=
  if s.pu.enabled = on then s else walkArrival s { s with pu := { s.pu with enabled := on } }

def enablePriority (b : Byte) (_i : Station) (s : State) : State :=
  if 1 < b.toNat then answer .enablePriority .refusedInvalid [flagByte s.pu.enabled] s
  else answer .enablePriority .done [flagByte (decide (b = 1))] (setEnable (decide (b = 1)) s)

def execEnablePriority (station : Nat) (enable : Byte) (s : State) : Host.Outcome State Fault Refusal :=
  .next (asked .enablePriority station (enablePriority enable) s)

end Sys2Proof.Machine
end

