-- ==== Sys2Proof/Machine/Detectors.lean ====
section
/-! DEFINITION. The detector unit: loop samples (R81 to R93), contact samples (R94, R95), and what the unit hands
on (R96 to R100).

A sample is taken at the record first, as one function of the record, the configuration and the detector time; what
it hands on is then read off the record before and the record after. -/

namespace Sys2Proof.Machine

/-! ## Records -/

/-- R84: the entry to TUNING. -/
def enterTuning (r : DetRec) : DetRec := { r with state := .tuning, forced := true, validRun := 0, tuningSum := 0 }

/-- R83: the deviation of a period against a baseline. -/
def deviation (b p : Nat) : Int := max (-9999) (min 9999 ((((b : Int) - p) * 10000).tdiv b))

/-- R87: the step of the baseline. -/
def trackStep (b p : Nat) : Int :=
  let q := ((p : Int) - b).tdiv 64
  if q ≠ 0 then q else if b < p then 1 else if p < b then -1 else 0

/-- R87: the baseline after a tracked sample. -/
def tracked (b p : Nat) : Nat := clamp 16000 110000 ((b : Int) + trackStep b p).toNat

/-- R81: the result of a sample. -/
def sampleResult : Option Nat → SampleResult
  | none => .noOsc
  | some p => if 128000 ≤ p then .noOsc else if p < 16000 ∨ 110000 < p then .range else .valid

/-- R81: last P after a sample. -/
def lastPAfter (old : Option Nat) : Option Nat → Option Nat
  | none => old
  | some p => if 128000 ≤ p then old else some p

/-- R82, R83: stage 1 of a valid sample. -/
def validStage1 (p : Nat) (r : DetRec) : DetRec :=
  { r with
    lastP := some p
    lastResult := some .valid
    validRun := saturate 255 r.validRun
    invalidRun := 0
    lastDeviation := match r.baseline with
      | some b => some (deviation b p)
      | none => r.lastDeviation }

/-- R81, R82: stage 1 of an invalid sample. -/
def invalidStage1 (p : Option Nat) (r : DetRec) : DetRec :=
  { r with
    lastP := lastPAfter r.lastP p
    lastResult := some (sampleResult p)
    invalidRun := saturate 255 r.invalidRun
    validRun := 0
    aboveRun := 0
    belowRun := 0 }

/-- The deviation that a classification reads: that of this sample, 0 where the channel has no baseline. -/
def classified (r : DetRec) (p : Nat) : Int :=
  match r.baseline with
  | some b => deviation b p
  | none => 0

/-- R84: a valid sample in TUNING; `true` when the tuning ends. The baseline and the sums are set here, the state by
the caller. -/
def tuneSample (p : Nat) (r : DetRec) : DetRec × Bool :=
  let sum := r.tuningSum + p
  if r.validRun = 32 then
    ({ r with tuningSum := sum, baseline := some (sum / 32), aboveRun := 0, belowRun := 0 }, true)
  else ({ r with tuningSum := sum }, false)

/-- R85, R87: a valid sample in VACANT; `true` when it completes an entry. -/
def vacantSample (on : Nat) (p : Nat) (r : DetRec) : DetRec × Bool :=
  if (on : Int) ≤ classified r p then
    if 1 ≤ r.aboveRun then ({ r with aboveRun := 0, belowRun := 0 }, true)
    else ({ r with aboveRun := 1, baseline := r.baseline.map fun b => tracked b p }, false)
  else ({ r with aboveRun := 0, baseline := r.baseline.map fun b => tracked b p }, false)

/-- R86: a valid sample in OCCUPIED; `true` when it completes an exit. -/
def occupiedSample (off : Nat) (p : Nat) (r : DetRec) : DetRec × Bool :=
  if classified r p < (off : Int) then
    if 2 ≤ r.belowRun then ({ r with aboveRun := 0, belowRun := 0 }, true)
    else ({ r with belowRun := r.belowRun + 1 }, false)
  else ({ r with belowRun := 0 }, false)

/-- R85: the record of a channel that makes an entry. -/
def enteredRecord (now : Time) (r : DetRec) : DetRec :=
  { r with
    state := .occupied
    lastEntry := some now
    presenceStart := some now
    entryCount := r.entryCount + 1
    aboveRun := 0
    belowRun := 0 }

/-- R86: the record of a channel that makes an exit. -/
def exitedRecord (now : Time) (r : DetRec) : DetRec :=
  { r with state := .vacant, lastExit := some now, aboveRun := 0, belowRun := 0 }

/-- R88, R95: the presence duration exceeds the max presence. -/
def presenceExceeded (m : Image) (ch : Channel) (now : Time) (r : DetRec) : Bool :=
  decide (maxPresence m ch ≠ 0) &&
    match r.presenceStart with
    | some t => decide (1000 * maxPresence m ch < elapsed now t)
    | none => false

/-- R92: a valid sample of a NOISY channel moves its inner state; nothing is stamped or counted but the presence
start, which an inner entry sets to now and an inner exit keeps (log entry 31). `long` says that max presence is
exceeded at this sample. -/
def noisySample (on off : Nat) (now : Time) (long : Bool) (p : Nat) (r : DetRec) : DetRec :=
  match r.inner with
  | some .tuning =>
    let t := tuneSample p r
    if t.2 then { t.1 with inner := some .vacant } else t.1
  | some .vacant =>
    let t := vacantSample on p r
    if t.2 then { t.1 with inner := some .occupied, presenceStart := some now } else t.1
  | some .occupied =>
    let t := occupiedSample off p r
    if t.2 then { t.1 with inner := some .vacant }
    else if long then
      { t.1 with inner := some .tuning, baseline := some p, validRun := 0, tuningSum := 0 }
    else t.1
  | none => r

/-- R84 to R92: stage 2 of a valid sample, but for the long presence of R88. -/
def validStage2 (on off : Nat) (now : Time) (long : Bool) (p : Nat) (r : DetRec) : DetRec :=
  match r.state with
  | .tuning =>
    let t := tuneSample p r
    if t.2 then { t.1 with state := .vacant, forced := false } else t.1
  | .vacant =>
    let t := vacantSample on p r
    if t.2 then enteredRecord now t.1 else t.1
  | .occupied =>
    let t := occupiedSample off p r
    if t.2 then exitedRecord now t.1 else t.1
  | .longPresence => r
  | .noisy => noisySample on off now long p r
  | .fault => if r.validRun = 8 then enterTuning r else r

/-- R89: the entry to FAULT. -/
def faulted (r : DetRec) : DetRec :=
  { r with state := .fault, forced := true, inner := none, aboveRun := 0, belowRun := 0 }

/-- R84, R89: stage 2 of an invalid sample. -/
def invalidStage2 (r : DetRec) : DetRec :=
  if r.state ≠ .fault ∧ r.invalidRun = 8 then faulted r
  else if r.state = .tuning ∨ r.inner = some .tuning then { r with tuningSum := 0 }
  else r

/-- R92: the state a channel keeps behind NOISY. -/
def innerOf : DetState → Option InnerState
  | .tuning => some .tuning
  | .vacant => some .vacant
  | .occupied => some .occupied
  | _ => none

/-- R92: the entry to NOISY. -/
def noisyRecord (r : DetRec) : DetRec := { r with state := .noisy, inner := innerOf r.state, forced := true }

/-- R91 step 1: an invalid sample costs one of the budget; reaching 0 makes the channel NOISY. -/
def spendBudget (r : DetRec) : DetRec :=
  if r.state ≠ .fault ∧ 1 ≤ r.invalidRun ∧ r.invalidRun ≤ 7 then
    let n := r.budget - 1
    let t := { r with budget := n }
    if 0 < r.budget ∧ n = 0 ∧ (innerOf r.state).isSome then noisyRecord t else t
  else r

/-- R81 to R92: a loop sample at the record, up to the window close. -/
def loopSampled (on off : Nat) (now : Time) (long : Bool) (p : Option Nat) (r : DetRec) : DetRec :=
  match sampleResult p, p with
  | .valid, some q => validStage2 on off now long q (validStage1 q r)
  | _, _ => spendBudget (invalidStage2 (invalidStage1 p r))

/-- R93: the state that NOISY ends into. -/
def InnerState.outer : InnerState → DetState
  | .tuning => .tuning
  | .vacant => .vacant
  | .occupied => .occupied

/-- R93: NOISY ends. -/
def noisyEnded (r : DetRec) : DetRec :=
  match r.inner with
  | some i => { r with state := i.outer, inner := none, forced := decide (i = .tuning) }
  | none => r

/-- R91: the record of a channel whose window closes. -/
def windowClosed (now : Time) (start : Nat) (r : DetRec) : DetRec :=
  let t := if r.state = .noisy ∧ 0 < r.budget then noisyEnded r else r
  { t with budget := start, windowStart := now }

/-- R94, R95: the record of a contact after a sample, but for the long presence. -/
def contactSampled (now : Time) (pressed : Bool) (r : DetRec) : DetRec :=
  let t := { r with level := some pressed }
  match r.state with
  | .vacant =>
    if pressed then
      if 2 ≤ r.aboveRun then enteredRecord now t else { t with aboveRun := r.aboveRun + 1 }
    else { t with aboveRun := 0 }
  | .occupied =>
    if pressed then { t with belowRun := 0 }
    else if 2 ≤ r.belowRun then exitedRecord now t
    else { t with belowRun := r.belowRun + 1 }
  | .longPresence =>
    if pressed then { t with belowRun := 0 }
    else if 2 ≤ r.belowRun then { t with state := .vacant, forced := false, aboveRun := 0, belowRun := 0 }
    else { t with belowRun := r.belowRun + 1 }
  | .tuning =>
    let n := if r.level = some pressed then saturate 255 r.aboveRun else 1
    if n = 3 then
      { t with
        state := if pressed then .occupied else .vacant
        forced := false
        aboveRun := 0
        belowRun := 0
        presenceStart := if pressed then some now else r.presenceStart }
    else { t with aboveRun := n }
  | .noisy => t
  | .fault => t

/-! ## What a change of a channel hands on -/

/-- R22, R97: demand for the channel's references where its role asks for it. -/
def postChannelDemand (ch : Channel) (s : State) : State :=
  if (channelRole s.cs.image ch).isDemand then
    postDemand (decide (channelKind s.cs.image ch = .loop)) (groupRefs s.cs.image ch) s
  else s

/-- The groups whose extension detector the channel is (R69). -/
def extendedGroups (m : Image) (ch : Channel) : List Group := allGroups.filter (isExtensionDetector m ch)

/-- R69: the last gap exit of each of some groups becomes the present junction time. -/
def noteGapExit (gs : List Group) (s : State) : State :=
  { s with fbs := { s.fbs with
    lastGapExit := Vector.ofFn fun g => if gs.contains g then some (jnow s) else s.fbs.lastGapExit[g] } }

/-- R69, R72, R98: an extension detector starts or stops counting as occupied, or posts an exit; `old` is the record
before. The last gap exits are noted and the sequencer evaluates, also where the groups are no members of the current
stage and at an exit after which the channel still counts as occupied, which R72's list does not name (log entry 34). -/
def handToSequencer (ch : Channel) (old : DetRec) (exit : Bool) (s : State) : State :=
  let gs := extendedGroups s.cs.image ch
  let before := countsOccupied old
  let after := countsOccupied (det s ch)
  if gs.isEmpty then s
  else
    let s1 := if exit || (before && !after) then noteGapExit gs s else s
    if exit || before != after then settleStage s1 else s1

/-- R100: DETECTOR_CHANGED at every change of state but those between VACANT and OCCUPIED. -/
def reportedChange (a b : DetState) : Bool :=
  decide (a ≠ b) &&
    !(decide (a = .vacant ∨ a = .occupied) && decide (b = .vacant ∨ b = .occupied))

/-- R97, R99, R100: what a channel hands on when its record has become `new`: the event, the demand of an entry, the
sequencer's arrival, and the priority unit's. `exit` is a posted exit. -/
def handChange (ch : Channel) (old new : DetRec) (entry exit : Bool) (s : State) : State :=
  let s1 := postIf (reportedChange old.state new.state) .detectorChanged (setDet s ch new)
  let s2 := if entry then postChannelDemand ch s1 else s1
  let s3 := handToSequencer ch old exit s2
  let s4 := if channelKind s.cs.image ch = .loop ∧ old.state ≠ new.state then loopStateChanged ch new.state s3
    else s3
  if entry ∧ channelKind s.cs.image ch = .loop then loopEntered ch s4 else s4

/-- A posted entry: the channel has left VACANT for OCCUPIED (R85, R94). -/
def isEntry (old new : DetRec) : Bool := decide (old.state = .vacant) && decide (new.state = .occupied)

/-- A posted exit: the channel has left OCCUPIED for VACANT (R86, R94). -/
def isExit (old new : DetRec) : Bool := decide (old.state = .occupied) && decide (new.state = .vacant)

/-- R96: the demand of a channel whose forced-demand flag is set at a sample completion. -/
def forcedDemand (ch : Channel) (forced : Bool) (s : State) : State := if forced then postChannelDemand ch s else s

/-! ## LOOP_LONG_PRESENCE (R88) -/

/-- R88: the last sample of the channel was valid, left it in OCCUPIED, and finds max presence exceeded. -/
def longPresenceDue (s : State) (ch : Channel) : Bool :=
  decide ((det s ch).state = .occupied) && presenceExceeded s.cs.image ch (dnow s) (det s ch)

/-- R88: the record after the steps of a loop's long presence; `p` is the P of the sample. -/
def loopLongRecord (now : Time) (p : Option Nat) (r : DetRec) : DetRec :=
  enterTuning { r with
    lastExit := some now
    baseline := match p with
      | some q => some q
      | none => r.baseline }

def loopLongPresence (ch : Channel) (s : State) : State :=
  if channelKind s.cs.image ch = .loop ∧ longPresenceDue s ch = true ∧
      (det s ch).lastResult = some .valid ∧ (det s ch).sampled = true then
    let new := loopLongRecord (dnow s) (det s ch).lastP (det s ch)
    forcedDemand ch true (handChange ch (det s ch) new false true s)
  else s

def execLoopLongPresence (ch : Nat) (s : State) : Host.Outcome State Fault Refusal :=
  .next (withItem ch loopLongPresence s)

/-! ## WINDOW_CLOSE (R91, R93) -/

/-- R91: the window is due to close at the channel's sample. -/
def windowDue (s : State) (ch : Channel) : Bool :=
  decide (channelKind s.cs.image ch = .loop) && (det s ch).sampled &&
    decide (60000 ≤ elapsed (dnow s) (det s ch).windowStart)

/-- R91: the faults that a window close raises again. -/
def raiseAtClose (ch : Channel) (old : DetRec) (s : State) : State :=
  if old.state = .noisy ∧ old.budget = 0 then detect .detectorNoisy (detailItem (number ch)) s
  else if old.state = .fault then detect .detectorFault (detailItem (number ch)) s
  else s

/-- R91, R93. A long presence of the same sample that has not been taken is taken first (log entry 2). -/
def windowClose (ch : Channel) (s : State) : State :=
  if windowDue s ch then
    let s1 := loopLongPresence ch s
    let new := windowClosed (dnow s1) (budgetStart s1.cs.image ch) (det s1 ch)
    raiseAtClose ch (det s1 ch) (handChange ch (det s1 ch) new false false s1)
  else s

def execWindowClose (ch : Nat) (s : State) : Host.Outcome State Fault Refusal := .next (withItem ch windowClose s)

/-! ## LOOP_SAMPLE (R81 to R92) -/

/-- R89, R92: the faults that a sample raises. -/
def raiseAtSample (ch : Channel) (old new : DetRec) (s : State) : State :=
  if old.state ≠ .fault ∧ new.state = .fault then detect .detectorFault (detailItem (number ch)) s
  else if old.state ≠ .noisy ∧ new.state = .noisy then detect .detectorNoisy (detailItem (number ch)) s
  else s

/-- R81: the record of a LOOP channel after a sample, the window close left to WINDOW_CLOSE. -/
def loopRecord (s : State) (ch : Channel) (p : Option Nat) : DetRec :=
  let m := s.cs.image
  { loopSampled (onThreshold m ch) (offThreshold m ch) (dnow s)
      (presenceExceeded m ch (dnow s) (det s ch)) p (det s ch) with sampled := true }

/-- R81: one sample of a LOOP channel and what it hands on. -/
def takeLoopSample (ch : Channel) (p : Option Nat) (s : State) : State :=
  let old := det s ch
  let new := loopRecord s ch p
  forcedDemand ch (old.forced || new.forced)
    (handChange ch old new (isEntry old new) (isExit old new) (raiseAtSample ch old new s))

/-- R78: the channel has a sample to complete at the present count: the count is a sample completion, and the channel has
completed none at it. -/
def sampleDue (s : State) (ch : Channel) : Bool := decide (s.du.sampleIn = 0) && !(det s ch).sampled

/-- R78, R81: a LOOP channel completes a sample. -/
def loopSample (p : Option Nat) (ch : Channel) (s : State) : State :=
  if channelKind s.cs.image ch = .loop ∧ sampleDue s ch = true then takeLoopSample ch p s else s

def execLoopSample (ch : Nat) (period : Option Nat) (s : State) : Host.Outcome State Fault Refusal :=
  .next (withItem ch (loopSample period) s)

/-! ## CONTACT_SAMPLE and CONTACT_LONG_PRESENCE (R94, R95) -/

/-- R95: the record after a contact's long presence. -/
def contactLongRecord (now : Time) (r : DetRec) : DetRec :=
  { r with state := .longPresence, forced := true, lastExit := some now }

def contactLongPresence (ch : Channel) (s : State) : State :=
  if channelKind s.cs.image ch = .contact ∧ longPresenceDue s ch = true ∧ (det s ch).sampled = true then
    forcedDemand ch true (handChange ch (det s ch) (contactLongRecord (dnow s) (det s ch)) false true s)
  else s

def execContactLongPresence (ch : Nat) (s : State) : Host.Outcome State Fault Refusal :=
  .next (withItem ch contactLongPresence s)

/-- R94, R95: one sample of a CONTACT channel and what it hands on. -/
def takeContactSample (ch : Channel) (pressed : Bool) (s : State) : State :=
  let old := det s ch
  let new := { contactSampled (dnow s) pressed old with sampled := true }
  forcedDemand ch (old.forced || new.forced) (handChange ch old new (isEntry old new) (isExit old new) s)

/-- R78, R94: a CONTACT channel completes a sample. -/
def contactSample (pressed : Bool) (ch : Channel) (s : State) : State :=
  if channelKind s.cs.image ch = .contact ∧ sampleDue s ch = true then takeContactSample ch pressed s else s

def execContactSample (ch : Nat) (pressed : Bool) (s : State) : Host.Outcome State Fault Refusal :=
  .next (withItem ch (contactSample pressed) s)

/-! ## What a sample has left (R101) -/

/-- The long presence and the window close of a sample that the channel has completed at the present count. -/
def sampleLeft (ch : Channel) (s : State) : State :=
  contactLongPresence ch (windowClose ch (loopLongPresence ch s))

end Sys2Proof.Machine
end

