-- ==== Sys2Proof/Machine/Lamps.lean ====
section
/-! DEFINITION. The lamp output unit: the evaluation of an advance (R151 to R154, R158, R160), overcurrent, retries
and locks (R155, R156), the flash toggle (R149) and the dim boundary (R150). -/

namespace Sys2Proof.Machine

/-! ## Judging one channel (R151, R152) -/

/-- R151: the reference in percent of the nominal current. -/
def referencePercent : Dim → Nat
  | .bright => 100
  | .dim => 40

/-- R151: the class of a current against a nominal current, without truncating the reference. -/
def classify (current nominal percent : Nat) : ProvingResult :=
  if 75 * nominal * percent ≤ current * 10000 then .lit
  else if current * 10000 ≤ 10 * nominal * percent then .dark
  else .partly

/-- R152: the judgement of a result against the expected drive; `none` is a match. -/
def judgement (expected : Bool) (r : ProvingResult) : Option Mismatch :=
  match expected, r with
  | true, .lit => none
  | true, .partly => some .partly
  | true, .dark => some .out
  | false, .dark => none
  | false, _ => some .uncommanded

/-- R152: the length of run at which a mismatch is raised. -/
def threshold : Mismatch → Nat
  | .out => 3
  | .partly => 3
  | .uncommanded => 2

/-- R152: the counter of a run after a mismatch of kind `m`. -/
def runLength (m : Mismatch) (r : LampRec) : Nat := if r.run = some m then saturate 255 r.mismatches else 1

/-- R152: the counter reaches the threshold of its kind at this judgement. -/
def reachesThreshold (m : Mismatch) (r : LampRec) : Bool :=
  decide (runLength m r = threshold m) && decide (r.run = some m → r.mismatches ≠ threshold m)

/-- R152: the channel raises at this judgement. -/
def raises (m : Mismatch) (r : LampRec) : Bool :=
  reachesThreshold m r || (decide (r.run = some m) && r.rearmed)

/-- R152: the consecutive-lit counter after a result. -/
def litAfter (expected : Bool) (res : ProvingResult) (r : LampRec) : Nat :=
  if expected then (if res = .lit then saturate 255 r.litCount else 0) else r.litCount

/-- R152: the runs and counters of a channel after a judgement. -/
def judged (res : ProvingResult) (r : LampRec) : LampRec :=
  match judgement r.output res with
  | none => { r with run := none, mismatches := 0, litCount := litAfter r.output res r, rearmed := false }
  | some m =>
    { r with
      run := some m
      mismatches := runLength m r
      litCount := litAfter r.output res r
      lastRaised := if raises m r then some m else r.lastRaised
      rearmed := decide (r.run = some m) && r.rearmed && !raises m r }

/-- What the evaluation of a channel finds: its record afterwards, the mismatch it raises, whether its OUT run
reaches 3 under a command of ON (R158), whether its lit count reaches 10 (R160), and whether its lamp shows
(R154). -/
structure Evaluated where
  record : LampRec
  raised : Option Mismatch
  outReached : Bool
  litReached : Bool
  showing : Bool
  deriving DecidableEq, Repr

/-- R151: the evaluation of a used channel on a current against a nominal current. -/
def evaluateChannel (current nominal percent : Nat) (r : LampRec) : Evaluated :=
  let res := classify current nominal percent
  let noted := { r with sensed := some current, result := some res, settling := false }
  if r.settling then
    { record := noted, raised := none, outReached := false, litReached := false, showing := false }
  else
    let m := judgement r.output res
    { record := judged res noted
      raised := if m.any (fun k => raises k r) then m else none
      outReached := decide (m = some .out) && reachesThreshold .out r && decide (r.command = .on)
      litReached := r.output && decide (res = .lit) && decide (litAfter r.output res r = 10) &&
        decide (r.litCount ≠ 10)
      showing := decide (res ≠ .dark) }

/-- The current of a channel in a list of measured currents: one that is missing reads 0, one above 4,000 mA reads
4,000 (R147). -/
def currentAt (currents : List Nat) (ch : Lamp) : Nat := min 4000 (currents.getD ch.val 0)

/-- R146: the channel is used. -/
def usedLamp (m : Image) (ch : Lamp) : Bool := lampUsed (groupKind m (lampGroup ch)) (lampPos ch)

/-- R151: what the evaluation finds at a channel; an unused channel is not evaluated (R146). -/
def evaluateLamp (s : State) (currents : List Nat) (ch : Lamp) : Option Evaluated :=
  if usedLamp s.cs.image ch then
    some (evaluateChannel (currentAt currents ch)
      (nominalCurrent s.cs.image (lampGroup ch) (lampPos ch)) (referencePercent s.lou.dim) (lamp s ch))
  else none

/-- The lamp record of a channel after the evaluation. -/
def evaluatedRecord (s : State) (currents : List Nat) (ch : Lamp) : LampRec :=
  match evaluateLamp s currents ch with
  | some e => e.record
  | none => lamp s ch

/-! ## What an evaluation raises (R153, R154, R158, R160) -/

/-- R153: the fault and the detail of a raising. -/
def raiseMismatch (ch : Lamp) (m : Mismatch) (s : State) : State :=
  match m with
  | .out => detect .lampOut (detailItem (number ch)) s
  | .partly => detect .lampPartial (detailItem (number ch)) s
  | .uncommanded =>
    if lampPos ch = 2 then detect .uncommandedProceed (detailItem (number (lampGroup ch))) s
    else detect .lampOut (detailItem (number ch)) s

/-- R153, R158, R160: what one channel's evaluation brings, in that order. -/
def handOn (ch : Lamp) (e : Evaluated) (s : State) : State :=
  let s1 := match e.raised with
    | some m => raiseMismatch ch m s
    | none => s
  let s2 := if e.outReached && decide (lampPos ch = 0) then becomeRedOut (lampGroup ch) s1 else s1
  if e.litReached && decide (lampPos ch = 0) then leaveRedOut (lampGroup ch) s2 else s2

/-- R154: the group shows proceed at this evaluation. -/
def showsProceed (s : State) (currents : List Nat) (g : Group) : Bool :=
  (evaluateLamp s currents (proceedLamp g)).any Evaluated.showing

/-- R154: the conflicting pairs that show proceed together, the lower group number first. -/
def conflictPairs (s : State) (currents : List Nat) : List (Group × Group) :=
  let shown := allGroups.filter (showsProceed s currents)
  shown.flatMap fun c => (shown.filter fun g => decide (c < g) && conflicts s c g).map fun g => (c, g)

/-- R154: one detection per pair. -/
def raiseConflict (p : Group × Group) (s : State) : State :=
  detect .conflict (detailItem (number p.1) ||| detailItem (number p.2)) s

/-- R151 steps 1 and 2: every used channel is judged on what stood over the decisecond just ended; then what the
channels bring is handed on in channel order, and the conflicts are raised (log entry 10). -/
def evaluateLamps (currents : List Nat) (s : State) : State :=
  let found : List (Lamp × Evaluated) :=
    (List.finRange 72).filterMap fun ch => (evaluateLamp s currents ch).map fun e => (ch, e)
  let s1 := setLamps s (evaluatedRecord s currents)
  let s2 := found.foldl (fun t p => handOn p.1 p.2 t) s1
  (conflictPairs s currents).foldl (fun t p => raiseConflict p t) s2

/-! ## Dim (R150) -/

/-- R150: once at each advance to a count that is a multiple of 10, a pending state becomes the active one;
`boundaryDue` says that the boundary of the present count has not been taken. -/
def dimBoundary (s : State) : State :=
  if s.lou.boundaryDue then
    match s.lou.pendingDim with
    | some d => { s with lou := { s.lou with dim := d, pendingDim := none, boundaryDue := false } }
    | none => { s with lou := { s.lou with boundaryDue := false } }
  else s

def execDimBoundary (s : State) : Host.Outcome State Fault Refusal := .next (dimBoundary s)

/-! ## The flash toggle (R149) -/

/-- R149: the drive output of a flashing channel follows the flash phase; this change sets no settling flag. -/
def toggled (now : Time) (r : LampRec) : LampRec :=
  if r.command = .flash then { r with output := outputFor now r.drive r.command } else r

def flashToggle (s : State) : State := setLamps s fun ch => toggled (jnow s) (lamp s ch)

def execFlashToggle (s : State) : Host.Outcome State Fault Refusal := .next (flashToggle s)

/-! ## Overcurrent (R155, R156) -/

/-- R155, R156: a trip of an ENABLED channel; the fifth locks it. -/
def tripped (now : Time) (r : LampRec) : LampRec :=
  let n := saturate 5 r.trips
  { r with
    drive := if n = 5 then .lockedOff else .tripped
    output := false
    settling := true
    trips := n
    lastTrip := some now
    retry := if n = 5 then none else some (later now 20) }

/-- R155, R158. -/
def overcurrentTrip (ch : Lamp) (s : State) : State :=
  if (lamp s ch).drive = .enabled then
    let s1 := detect .overcurrent (detailItem (number ch)) (setLamp s ch (tripped (jnow s) (lamp s ch)))
    if lampPos ch = 0 ∧ (lamp s ch).command = .on then becomeRedOut (lampGroup ch) s1 else s1
  else s

def execOvercurrentTrip (ch : Nat) (s : State) : Host.Outcome State Fault Refusal :=
  .next (withItem ch overcurrentTrip s)

/-- R156: the retry time is reached. -/
def retryDue (s : State) (ch : Lamp) : Bool :=
  decide ((lamp s ch).drive = .tripped) &&
    match (lamp s ch).retry with
    | some t => !isAfter (jnow s) t
    | none => false

/-- R156: the channel is re-enabled. -/
def tripRetry (ch : Lamp) (s : State) : State :=
  if retryDue s ch then
    setLamp s ch { redrive (jnow s) .enabled (lamp s ch) with retry := none }
  else s

def execTripRetry (ch : Nat) (s : State) : Host.Outcome State Fault Refusal := .next (withItem ch tripRetry s)

/-- R156: the channel has run 10 s since its last trip. -/
def tripsForgiven (s : State) (ch : Lamp) : Bool :=
  decide ((lamp s ch).drive ≠ .lockedOff) && decide (0 < (lamp s ch).trips) &&
    match (lamp s ch).lastTrip with
    | some t => decide (100 ≤ elapsed (jnow s) t)
    | none => false

def tripCounterReset (ch : Lamp) (s : State) : State :=
  if tripsForgiven s ch then setLamp s ch { lamp s ch with trips := 0 } else s

def execTripCounterReset (ch : Nat) (s : State) : Host.Outcome State Fault Refusal :=
  .next (withItem ch tripCounterReset s)

end Sys2Proof.Machine
end

