-- ==== Sys2Proof/Machine/Layout.lean ====
section
/-! DEFINITION. The records of the configuration image as fields (R200 to R203): where each stands, what its fields
are, which bytes a field may hold, and what clamping makes of them. -/

namespace Sys2Proof.Machine

/-! ## Records -/

/-- A record of the image: a block and an index within it (R200). -/
inductive Place where
  | device
  | station (i : Station)
  | group (g : Group)
  | matrix (c : Group)
  | stage (n : Stage)
  | detector (ch : Channel)
  | approach (a : Approach)
  deriving DecidableEq, Repr

/-- R200: the record that a block code and an index name. -/
def placeOf (block index : Byte) : Option Place :=
  match block.toNat with
  | 0 => if index = 0 then some .device else none
  | 1 => (item? 4 index.toNat).map .station
  | 2 => (item? 24 index.toNat).map .group
  | 3 => (item? 24 index.toNat).map .matrix
  | 4 => (item? 8 index.toNat).map .stage
  | 5 => (item? 32 index.toNat).map .detector
  | 6 => (item? 8 index.toNat).map .approach
  | _ => none

/-- The address of a record's first byte. -/
def Place.base : Place → Nat
  | .device => 0
  | .station i => stationBase i
  | .group g => groupBase g
  | .matrix c => matrixBase c
  | .stage n => stageBase n
  | .detector ch => detectorBase ch
  | .approach a => approachBase a

/-- R200: the bytes of a record. -/
def Place.size : Place → Nat
  | .device => 11
  | .station _ => 3
  | .group _ => 19
  | .matrix _ => 24
  | .stage _ => 3
  | .detector _ => 11
  | .approach _ => 33

/-! ## Fields -/

/-- A field of a record (R201, section 11.2). -/
inductive Field where
  /-- A number of `w` bytes from `lo` to `hi`. -/
  | num (w lo hi : Nat)
  /-- One byte, a code below `n`. -/
  | code (n : Nat)
  | flag
  /-- The silence limit: 0, or 10 to 600. -/
  | silence
  | groups
  /-- A matrix entry: 0 to 250, or 255 for absent. -/
  | entry
  /-- An optional channel: a presence byte and 1 to 32. -/
  | channel
  /-- The group references: a count and four slots. -/
  | refs
  deriving DecidableEq, Repr

def Field.size : Field → Nat
  | .num w _ _ => w
  | .code _ => 1
  | .flag => 1
  | .silence => 2
  | .groups => 3
  | .entry => 1
  | .channel => 2
  | .refs => 5

/-- The fields of a GROUP record, by its kind (R203: a record of kind NONE takes the TRAFFIC ranges). -/
def groupFields (k : GroupKind) : List Field :=
  [.code 4, .num 1 (prepareRange k).1 (prepareRange k).2, .num 2 (minProceedRange k).1 (minProceedRange k).2,
   .num 2 0 1200, .num 2 (clearanceRange k).1 (clearanceRange k).2, .num 2 10 600, .num 1 10 100, .num 2 0 600,
   .num 2 10 2000, .num 2 10 2000, .num 2 10 2000]

/-- The fields of a record in table order; `first` is its first byte, the kind in a GROUP record. -/
def Place.fields (first : Byte) : Place → List Field
  | .device => [.code 2, .code 2, .flag, .num 2 0 600, .num 1 30 120, .num 2 0 600, .num 2 0 600, .flag]
  | .station _ => [.num 1 0 3, .silence]
  | .group _ => groupFields (groupKindOf first)
  | .matrix _ => List.replicate 24 .entry
  | .stage _ => [.groups]
  | .detector _ => [.code 3, .num 2 5 500, .num 1 0 60, .num 1 1 255, .code 4, .refs]
  | .approach _ =>
    [.num 1 0 24, .channel, .channel, .channel, .num 3 500 100000, .num 2 100 2000, .num 2 100 1500,
     .num 2 500 3000, .num 2 0 600, .num 1 0 100, .num 2 0 300, .num 1 0 200, .num 2 0 1200, .num 2 50 1200,
     .num 2 1 6000, .num 2 1 6000, .num 2 1 6000, .num 1 1 3]

/-- The bytes of a record cut into its fields. -/
def cutFields : List Field → List Byte → List (Field × List Byte)
  | [], _ => []
  | f :: fs, bs => (f, bs.take f.size) :: cutFields fs (bs.drop f.size)

/-- The fields of a record's bytes. -/
def recordFields (p : Place) (bs : List Byte) : List (Field × List Byte) := cutFields (p.fields (bs.headD 0)) bs

/-! ## Checks and clamping (R202, R203) -/

/-- R202 step 4: the flag or presence byte is 0 or 1. -/
def Field.encodingOk : Field → List Byte → Bool
  | .flag, b | .channel, b => decide (b.headD 0 = 0) || decide (b.headD 0 = 1)
  | _, _ => true

/-- R202 step 5: the code is one of those listed. -/
def Field.codeOk : Field → List Byte → Bool
  | .code n, b => decide ((b.headD 0).toNat < n)
  | _, _ => true

/-- R203: a repeated number is removed and the later ones move up. -/
def dropRepeats : List Byte → List Byte → List Byte
  | kept, [] => kept
  | kept, b :: bs => dropRepeats (if kept.contains b then kept else kept ++ [b]) bs

/-- R203: the group references clamped; the slots past the count hold 0 (R189). -/
def clampRefs (b : List Byte) : List Byte :=
  let n := min 4 (b.headD 0).toNat
  let kept := dropRepeats [] ((b.tail.take n).map fun x => BitVec.ofNat 8 (min 24 x.toNat))
  BitVec.ofNat 8 kept.length :: (kept ++ List.replicate (4 - kept.length) 0)

/-- R203: the bytes of a field after clamping. -/
def Field.clamped : Field → List Byte → List Byte
  | .num w lo hi, b => natBytes w (clamp lo hi (bytesNat b))
  | .silence, b => natBytes 2 (silenceClamp (bytesNat b))
  | .entry, b => if bytesNat b = 255 then b else natBytes 1 (clamp 0 250 (bytesNat b))
  | .channel, b => if b.headD 0 = 1 then 1 :: natBytes 1 (clamp 1 32 (bytesNat b.tail)) else [0, 0]
  | .refs, b => clampRefs b
  | .code _, b | .flag, b | .groups, b => b

/-- R203: the record after clamping. -/
def clampedRecord (p : Place) (bs : List Byte) : List Byte := (recordFields p bs).flatMap fun f => f.1.clamped f.2

/-- R203: the positions of the fields that clamping changed. -/
def clampedPositions (p : Place) (bs : List Byte) : List Nat :=
  (((recordFields p bs).zipIdx).filter fun f => f.1.1.clamped f.1.2 != f.1.2).map Prod.snd

/-- R208 check 8: the field lies within its range and holds listed codes only. -/
def Field.inRange : Field → List Byte → Bool
  | .refs, b =>
    decide ((b.headD 0).toNat ≤ 4) && b.tail.all (fun x => decide (x.toNat ≤ 24)) &&
      (b.tail.drop (b.headD 0).toNat).all (fun x => decide (x = 0))
  | f, b => f.encodingOk b && f.codeOk b && f.clamped b == b

/-! ## Validation (R207, R208) -/

/-- The bytes of a record as they stand in the image. -/
def recordBytes (m : Image) (p : Place) : List Byte := imageBytes m p.base p.size

/-- Every record of the image, in the order of the blocks. -/
def allPlaces : List Place :=
  [.device] ++ (List.finRange 4).map .station ++ allGroups.map .group ++ allGroups.map .matrix ++
    (List.finRange 8).map .stage ++ (List.finRange 32).map .detector ++ (List.finRange 8).map .approach

/-- The stored matrix entry as a byte. -/
def rawEntry (m : Image) (c g : Group) : Nat := imageNum m (matrixBase c + g.val) 1

def rawPresent (m : Image) (c g : Group) : Bool := decide (rawEntry m c g ≠ 255)

/-- Check 1, matrix form. -/
def matrixForm (m : Image) : Bool :=
  allGroups.all fun c => allGroups.all fun g =>
    if c = g then !rawPresent m c g
    else rawPresent m c g == rawPresent m g c &&
      (!rawPresent m c g || (decide (groupKind m c ≠ .none) && decide (groupKind m g ≠ .none)))

/-- Check 2, intergreen against clearance. -/
def intergreensCoverClearance (m : Image) : Bool :=
  allGroups.all fun c => allGroups.all fun g =>
    !rawPresent m c g || decide (imageNum m (groupBase c + 6) 2 ≤ rawEntry m c g)

/-- Check 3, group timings. -/
def groupTimings (m : Image) : Bool :=
  allGroups.all fun g =>
    let mx := imageNum m (groupBase g + 4) 2
    decide (groupKind m g = .none) ||
      ((decide (mx = 0) || decide (imageNum m (groupBase g + 2) 2 ≤ mx)) &&
        (decide (groupKind m g ≠ .tram) || decide (mx ≠ 0)))

/-- Check 4, stages. -/
def stagesCompatible (m : Image) : Bool :=
  (List.finRange 8).all fun n => allGroups.all fun c => allGroups.all fun g =>
    !(inSet (storedStage m n) c && inSet (storedStage m n) g && rawPresent m c g)

/-- R208: check 5 examines every approach but one whose stored tram group is 0 (log entry 22). -/
def approachExamined (m : Image) (a : Approach) : Bool := decide (imageNum m (approachBase a) 1 ≠ 0)

/-- The group that the approach names, where its tram group number is 1 to 24. -/
def approachNamed (m : Image) (a : Approach) : Option Group := item? 24 (imageNum m (approachBase a) 1)

/-- The channels, by number, that an approach names in its three loop roles. -/
def namedChannels (m : Image) (a : Approach) : List Nat :=
  [1, 3, 5].filterMap fun o =>
    if imageByte m (approachBase a + o) = 1 then some (imageNum m (approachBase a + o + 1) 1) else none

/-- The channel numbers that all examined approaches name. -/
def allNamedChannels (m : Image) : List Nat :=
  ((List.finRange 8).filter (approachExamined m)).flatMap (namedChannels m)

/-- R208, TRAM: the group that the approach names is of kind TRAM. A tram group of 25 to 255 names no group, and is out
of range in check 8 (log entry 22). -/
def tramRight (m : Image) (a : Approach) : Bool :=
  match approachNamed m a with
  | some g => decide (groupKind m g = .tram)
  | none => true

/-- R208, LOOP: each channel that the approach names is of kind LOOP. -/
def loopsRight (m : Image) (a : Approach) : Bool :=
  (namedChannels m a).all fun k =>
    match item? 32 k with
    | some ch => decide (channelKind m ch = .loop)
    | none => false

/-- Check 5, approaches. -/
def approachesRight (m : Image) : Bool :=
  ((List.finRange 8).all fun a => !approachExamined m a || (tramRight m a && loopsRight m a)) &&
  decide (allNamedChannels m).Nodup

/-- Check 6, speeds. -/
def speedsRight (m : Image) : Bool :=
  (List.finRange 8).all fun a =>
    (approachNamed m a).isNone ||
      decide (imageNum m (approachBase a + 12) 2 < imageNum m (approachBase a + 14) 2)

/-- Check 7, detector references. -/
def referencesRight (m : Image) : Bool :=
  (List.finRange 32).all fun ch =>
    decide (channelKind m ch = .unused) ||
      ((imageBytes m (detectorBase ch + 7) 4).take (imageNum m (detectorBase ch + 6) 1)).all fun b =>
        decide (b ≠ 0) &&
          match item? 24 b.toNat with
          | some g => decide (groupKind m g ≠ .none)
          | none => true

/-- Check 8, field ranges. -/
def fieldsInRange (m : Image) : Bool :=
  allPlaces.all fun p => (recordFields p (recordBytes m p)).all fun f => f.1.inRange f.2

/-- R208: the number of the first check that fails. -/
def failingCheck (m : Image) : Option Nat :=
  if !matrixForm m then some 1
  else if !intergreensCoverClearance m then some 2
  else if !groupTimings m then some 3
  else if !stagesCompatible m then some 4
  else if !approachesRight m then some 5
  else if !speedsRight m then some 6
  else if !referencesRight m then some 7
  else if !fieldsInRange m then some 8
  else none

end Sys2Proof.Machine
end

