-- ==== Sys2Proof/Machine/Selector.lean ====
section
/-! DEFINITION. The stage selector's requests (R49, R52, R57 to R60) and the silence expiry (R53, R199). -/

namespace Sys2Proof.Machine

/-- R49, R57: the modes in which the selector takes TAKE_SELECTOR, SET_STAGE and SELECT_STAGE. -/
def selectorMode (m : Mode) : Bool := decide (m = .startUp) || decide (m = .normal)

/-- The owner and rank of a reply (R193). -/
def ownerFields (s : State) : List Byte := [s.sel.owner.byte, rankByte s.sel.rank]

/-! ## TAKE_SELECTOR (R49) -/

/-- R49 step 3: the effective rank. -/
def effectiveRank (m : Image) (i : Station) (r : Byte) : Rank := max (rankOf r.toNat) (authorityRank m i)

/-- R49: the outcome, and whether the take succeeds. -/
def takeVerdict (i : Station) (r : Byte) (s : State) : Verdict :=
  if !selectorMode s.mfs.mode then .refusedMode
  else if 3 < r.toNat then .refusedInvalid
  else if s.sel.owner = stationOwner i then .done
  else if effectiveRank s.cs.image i r < s.sel.rank then .done
  else .refusedRank

def takeSelector (r : Byte) (i : Station) (s : State) : State :=
  answer .takeSelector (takeVerdict i r s) (ownerFields s)
    (if takeVerdict i r s = .done then changeOwner (stationOwner i) (effectiveRank s.cs.image i r) s else s)

def execTakeSelector (station : Nat) (rank : Byte) (s : State) : Host.Outcome State Fault Refusal :=
  .next (asked .takeSelector station (takeSelector rank) s)

/-! ## RELEASE_SELECTOR (R52) -/

def releaseSelector (i : Station) (s : State) : State :=
  if s.sel.owner = stationOwner i then
    let t := passSelector i s
    answer .releaseSelector .done (ownerFields t) t
  else answer .releaseSelector .refusedNotOwner (ownerFields s) s

def execReleaseSelector (station : Nat) (s : State) : Host.Outcome State Fault Refusal :=
  .next (asked .releaseSelector station releaseSelector s)

/-! ## SET_STAGE and SELECT_STAGE (R57 to R59) -/

/-- R57 step 4: the set has two members that conflict. -/
def conflictingSet (s : State) (w : GroupSet) : Bool :=
  allGroups.any fun c => allGroups.any fun g => inSet w c && inSet w g && conflicts s c g

/-- R57: the checks of mode, owner and conflict; a group-set field names groups 1 to 24 only (R189). -/
def stageVerdict (i : Station) (w : GroupSet) (s : State) : Verdict :=
  if !selectorMode s.mfs.mode then .refusedMode
  else if s.sel.owner ≠ stationOwner i then .refusedNotOwner
  else if conflictingSet s w then .refusedConflict
  else .accepted

/-- R58: an accepted target, and the terminations that it brings. -/
def acceptTarget (w : GroupSet) (s : State) : State := settle (setTarget w s)

/-- R58: the generation of a reply. -/
def generationField (s : State) : List Byte := [s.sel.generation]

def setStage (w : GroupSet) (i : Station) (s : State) : State :=
  let t := if stageVerdict i w s = .accepted then acceptTarget w s else s
  answer .setStage (stageVerdict i w s) (generationField t) t

def execSetStage (station : Nat) (groups : GroupSet) (s : State) : Host.Outcome State Fault Refusal :=
  .next (asked .setStage station (setStage groups) s)

/-- R59: the checks, with those of the stage number between the owner check and the conflict check. `none` stands
for a number outside 1 to 8. -/
def selectVerdict (i : Station) (n : Option Stage) (s : State) : Verdict :=
  if !selectorMode s.mfs.mode then .refusedMode
  else if s.sel.owner ≠ stationOwner i then .refusedNotOwner
  else match n with
    | none => .refusedInvalid
    | some k => if s.sel.stages[k] = 0 then .refusedInvalid else stageVerdict i s.sel.stages[k] s

/-- R59: the set of a stage of the stage list copy. -/
def stageSet (n : Option Stage) (s : State) : GroupSet :=
  match n with
  | some k => s.sel.stages[k]
  | none => 0

def selectStage (b : Byte) (i : Station) (s : State) : State :=
  let n := item? 8 b.toNat
  let t := if selectVerdict i n s = .accepted then acceptTarget (stageSet n s) s else s
  answer .selectStage (selectVerdict i n s) (generationField t) t

def execSelectStage (station : Nat) (stage : Byte) (s : State) : Host.Outcome State Fault Refusal :=
  .next (asked .selectStage station (selectStage stage) s)

/-! ## CALL_GROUPS (R60) -/

def callGroups (w : GroupSet) (_i : Station) (s : State) : State :=
  answer .callGroups .done [] (postDemand false (allGroups.filter (inSet w)) s)

def execCallGroups (station : Nat) (groups : GroupSet) (s : State) : Host.Outcome State Fault Refusal :=
  .next (asked .callGroups station (callGroups groups) s)

/-! ## Silence expiry (R199, R53) -/

/-- R199: the silence limit has run at a station that is tested. -/
def silenceRun (s : State) (i : Station) : Bool :=
  decide (silenceLimit s.cs.image i ≠ 0) && !(station s i).silent &&
  decide (silenceLimit s.cs.image i ≤ elapsed (jnow s) (station s i).lastHeard)

def silenceExpiry (i : Station) (s : State) : State :=
  if silenceRun s i then
    let s1 := setStation s i { station s i with silent := true }
    let s2 := post .stationSilent (detect .stationSilent (detailItem (number i)) s1)
    if ownerStation s2.sel.owner = some i then passSelector i s2 else s2
  else s

def execSilenceExpiry (station : Nat) (s : State) : Host.Outcome State Fault Refusal :=
  .next (withItem station silenceExpiry s)

end Sys2Proof.Machine
end

