-- ==== Sys2Proof/Machine/Modes.lean ====
section
/-! DEFINITION. The commands of the mode and fault supervisor: the power-up check (R164, R206), the timed phases
(R165, R166, R169), the mode requests and validation (R167, R168, R171, R209), the clearing of faults and events
(R177, R182), and the fault line (R179). -/

namespace Sys2Proof.Machine

/-! ## POWER_UP (R164, R206) -/

/-- R206: the image's CRC is the stored one. -/
def crcMatches (s : State) : Bool := decide (imageCrc s.cs.image = s.cs.storedCrc)

/-- R164: what follows a match, by the critical flags and the start mode. -/
def afterMatch (s : State) : State :=
  if criticalLatched s || decide (startMode s.cs.image = .hold) then enterResting (faultAspect s.cs.image) s
  else enterStartUp s

/-- R164, R206: what follows a mismatch: the marker, CONFIG_CRC, DARK. -/
def afterMismatch (s : State) : State :=
  enterResting .dark (detect .configCrc 0 { s with cs := { s.cs with mismatch := true } })

def powerUpCheck (s : State) : State :=
  if s.mfs.mode = .powerUp then
    if crcMatches s then afterMatch (loadWorkingCopies s) else afterMismatch s
  else s

def execPowerUpCheckCompletion (s : State) : Host.Outcome State Fault Refusal := .next (powerUpCheck s)

/-! ## Timed phases -/

/-- The present sub-phase is `p` and has run for `t`. -/
def phaseRun (s : State) (p : SubPhase) (t : Nat) : Bool :=
  decide (s.mfs.sub = some p) && decide (t ≤ elapsed (jnow s) s.mfs.phaseStart)

/-- R165: SU_FLASH ends and SU_ALLRED begins. -/
def suFlashEnd (s : State) : State :=
  if phaseRun s .suFlash (startUpFlashTime s.cs.image) then
    beginAllRed (setMode .startUp (some .suAllred) none s)
  else s

def execSuFlashEnd (s : State) : Host.Outcome State Fault Refusal := .next (suFlashEnd s)

/-- R166: SU_ALLRED ends, into fault entry where two or more groups are red-out, else into NORMAL. -/
def suAllredEnd (s : State) : State :=
  if phaseRun s .suAllred (startUpAllRedTime s.cs.image) then
    if 2 ≤ setSize s.lou.redOut then raiseMultiple s else enterNormal s
  else s

def execSuAllredEnd (s : State) : Host.Outcome State Fault Refusal := .next (suAllredEnd s)

/-- R169: CL_ALLRED ends into the closing goal. -/
def clAllredEnd (s : State) : State :=
  if phaseRun s .clAllred 20 then
    match s.mfs.goal with
    | some g => enterResting g s
    | none => s
  else s

def execClAllredEnd (s : State) : Host.Outcome State Fault Refusal := .next (clAllredEnd s)

/-! ## MODE_REQUEST (R167, R168, R194) -/

/-- R194: the reply fields of MODE_REQUEST, with a detail. -/
def modeFields (detail : Nat) (s : State) : List Byte :=
  [s.mfs.mode.byte] ++ optByte SubPhase.byte s.mfs.sub ++ optByte Goal.byte s.mfs.goal ++ natBytes 2 detail

/-- R167: the outcome of a request for FLASH or DARK. -/
def goalVerdict (m : Mode) : Verdict :=
  match m with
  | .powerUp => .refusedMode
  | .normal => .accepted
  | _ => .done

/-- R167: the effect of a request for FLASH or DARK. -/
def requestGoal (g : Goal) (s : State) : State :=
  match s.mfs.mode with
  | .powerUp => s
  | .startUp => enterResting g s
  | .normal => enterClosing g s
  | .closing =>
    if s.mfs.goal = some g then s
    else post .modeChanged { s with mfs := { s.mfs with goal := some g } }
  | .flash => if g = .dark then enterResting .dark s else s
  | .dark => if g = .flash then enterResting .flash s else s

/-- R167: MODE_REQUEST FLASH or DARK, answered. -/
def modeRequestGoal (g : Goal) (_i : Station) (s : State) : State :=
  answer .modeRequest (goalVerdict s.mfs.mode) (modeFields 0 (requestGoal g s)) (requestGoal g s)

def execModeRequestFlash (station : Nat) (s : State) : Host.Outcome State Fault Refusal :=
  .next (asked .modeRequest station (modeRequestGoal .flash) s)

def execModeRequestDark (station : Nat) (s : State) : Host.Outcome State Fault Refusal :=
  .next (asked .modeRequest station (modeRequestGoal .dark) s)

/-- R170: the resting modes. -/
def Mode.resting : Mode → Bool
  | .flash | .dark => true
  | _ => false

/-- R171 step 1: refused for a latched critical flag, with the set of latched critical kinds. -/
def refuseForFault (s : State) : State :=
  answer .modeRequest .refusedFault (modeFields (latchedKinds s &&& criticalMask).toNat s) s

/-- R172: the RESUME succeeds. -/
def resumeAccepted (s : State) : State :=
  answer .modeRequest .accepted (modeFields 0 (startResume s)) (startResume s)

/-- R171 step 2: the image needs validation. -/
def needsValidation (s : State) : Bool := s.cs.edited || s.cs.mismatch

/-- R171, R187: the validation is ordered; the request is answered at its completion. -/
def orderValidation (s : State) : State := await { s with cs := { s.cs with validating := true } }

/-- R167, R171. -/
def modeRequestResume (_i : Station) (s : State) : State :=
  if !s.mfs.mode.resting then answer .modeRequest .refusedMode (modeFields 0 s) s
  else if criticalLatched s then refuseForFault s
  else if needsValidation s then orderValidation s
  else resumeAccepted s

def execModeRequestResume (station : Nat) (s : State) : Host.Outcome State Fault Refusal :=
  .next (asked .modeRequest station modeRequestResume s)

/-! ## Validation (R207 to R209) -/

/-- R209: what a validation that passes leaves: the stored CRC, the working copies, the indicator and the marker. -/
def validated (s : State) : State :=
  loadWorkingCopies { s with cs := { s.cs with
    storedCrc := imageCrc s.cs.image, edited := false, mismatch := false } }

/-- R209, R171: the completion. -/
def completeValidation (s : State) : State :=
  match failingCheck s.cs.image with
  | some n => answer .modeRequest .configInvalid (modeFields n s) s
  | none =>
    if criticalLatched (validated s) then refuseForFault (validated s) else resumeAccepted (validated s)

def validationCompletion (s : State) : State :=
  if s.cs.validating then completeValidation { s with cs := { s.cs with validating := false } } else s

def execValidationCompletion (s : State) : Host.Outcome State Fault Refusal := .next (validationCompletion s)

/-! ## CLEAR_FAULTS (R177) -/

/-- R189: a set of fault kinds names the twelve kinds only. -/
def faultSetOk (w : BitVec 16) : Bool := decide (w &&& 0xF000#16 = 0)

/-- R177: a listed record cleared; the count and the mask are kept. -/
def clearedFault (r : FaultRec) : FaultRec := { r with latched := false, firstSet := none, detail := 0 }

/-- R177: the fault table after a clearing with a new report mask, if one is given. -/
def clearTable (kinds : BitVec 16) (mask : Option (BitVec 16)) (t : Vector FaultRec 12) : Vector FaultRec 12 :=
  Vector.ofFn fun k =>
    let r := if kinds.getLsbD k.val then clearedFault t[k] else t[k]
    match mask with
    | some w => { r with masked := w.getLsbD k.val }
    | none => r

/-- R153: the fault kind that a raised run of the channel raised. -/
def raisedKind (ch : Lamp) (m : Mismatch) : FaultKind :=
  match m with
  | .out => .lampOut
  | .partly => .lampPartial
  | .uncommanded => if lampPos ch = 2 then .uncommandedProceed else .lampOut

/-- R152: the run that has raised a kind that is cleared is re-armed. -/
def rearm (kinds : BitVec 16) (ch : Lamp) (r : LampRec) : LampRec :=
  match r.run with
  | some m =>
    if decide (threshold m ≤ r.mismatches) && kinds.getLsbD (raisedKind ch m).code.val then
      { r with rearmed := true }
    else r
  | none => r

/-- R177: what an accepted CLEAR_FAULTS does. -/
def clearFaultKinds (kinds : BitVec 16) (mask : Option (BitVec 16)) (s : State) : State :=
  let s1 := { s with mfs := { s.mfs with faults := clearTable kinds mask s.mfs.faults } }
  let s2 := setLamps s1 fun ch => rearm kinds ch (lamp s1 ch)
  if kinds.getLsbD FaultKind.overcurrent.code.val && s.mfs.mode.resting then liftLocks s2 else s2

/-- R177: the outcome. -/
def clearFaultsVerdict (kinds : BitVec 16) (s : State) : Verdict :=
  if !s.mfs.mode.resting && decide (kinds &&& criticalMask ≠ 0) then .refusedMode else .done

def clearFaults (kinds : BitVec 16) (given : Bool) (mask : BitVec 16) (_i : Station) (s : State) : State :=
  if !(faultSetOk kinds && faultSetOk mask) then answer .clearFaults .refusedInvalid [] s
  else
    let t := if clearFaultsVerdict kinds s = .done then
      clearFaultKinds kinds (if given then some mask else none) s else s
    answer .clearFaults (clearFaultsVerdict kinds s) (natBytes 2 (latchedKinds t).toNat) t

def execClearFaults (station : Nat) (kinds : BitVec 16) (maskGiven : Bool) (mask : BitVec 16) (s : State) :
    Host.Outcome State Fault Refusal :=
  .next (asked .clearFaults station (clearFaults kinds maskGiven mask) s)

/-! ## CLEAR_EVENTS (R182) -/

/-- R189: a set of event kinds names the eleven kinds only. -/
def eventSetOk (w : BitVec 16) : Bool := decide (w &&& 0xF800#16 = 0)

/-- R182: the caller's pending set and mask after the request, and ATTN (R181). -/
def clearStationEvents (i : Station) (kinds : EventSet) (mask : Option EventSet) (m : Mfs) : Mfs :=
  updateAttn { m with
    pending := m.pending.set i.val (m.pending[i] &&& ~~~kinds)
    masks := match mask with
      | some w => m.masks.set i.val w
      | none => m.masks }

/-- An event set as a 16-bit field (R189). -/
def eventSetBytes (w : EventSet) : List Byte := natBytes 2 w.toNat

def clearEvents (kinds : BitVec 16) (given : Bool) (mask : BitVec 16) (i : Station) (s : State) : State :=
  if !(eventSetOk kinds && eventSetOk mask) then answer .clearEvents .refusedInvalid [] s
  else
    let m := clearStationEvents i (kinds.setWidth 11) (if given then some (mask.setWidth 11) else none) s.mfs
    answer .clearEvents .done (eventSetBytes m.pending[i] ++ eventSetBytes m.masks[i]) { s with mfs := m }

def execClearEvents (station : Nat) (kinds : BitVec 16) (maskGiven : Bool) (mask : BitVec 16) (s : State) :
    Host.Outcome State Fault Refusal :=
  .next (asked .clearEvents station (clearEvents kinds maskGiven mask) s)

/-! ## The fault line (R178, R179) -/

/-- R178: the level of FLT is low: some unit pulls it low, this part or another. -/
def fltLow (s : State) : Bool := s.mfs.fltDriven || s.mfs.fltPulledLow

/-- R179: the run counts. -/
def followCounts (s : State) : Bool :=
  followEnabled s.cs.image && !s.mfs.fltDriven && decide (s.mfs.mode ≠ .powerUp)

/-- R179: the run after a sample of the line. -/
def sampledRun (s : State) (low : Bool) : Nat :=
  if followCounts s && low then saturate 100 s.mfs.externalRun else 0

/-- R179: the run has reached 100. EXTERNAL_FAULT is raised with an empty detail. -/
def externalFault (s : State) : State := if s.mfs.externalRun = 100 then detect .externalFault 0 s else s

def execExternalFault (s : State) : Host.Outcome State Fault Refusal := .next (externalFault s)

end Sys2Proof.Machine
end

