-- ==== Sys2Proof/Machine/Clock.lean ====
section
/-! DEFINITION. The two clocks (R1, R78). An advance of a clock first takes, at the old count, every timed step of
that count that no command has taken; then it advances the count. So no timed step is ever lost, and a sender that
commands the steps one by one chooses their order within the count (log entry 2). -/

namespace Sys2Proof.Machine

/-- An operation at each of `n` items, in number order. -/
def eachItem {n : Nat} (f : Fin n → State → State) (s : State) : State :=
  (List.finRange n).foldl (fun t i => f i t) s

/-! ## The junction clock (R1) -/

/-- R9: the starts at an advance: the arbiter's first pick starts, and it picks again. -/
def takeStarts : Nat → State → State
  | 0, s => s
  | n + 1, s =>
    match arbiterPicks s with
    | [] => s
    | g :: _ => takeStarts n (startGroup g s)

/-- The lamp unit's steps of the present count that stand after the evaluation (R149, R150, R156). -/
def takeDueLamps (s : State) : State :=
  let s1 := eachItem tripCounterReset (eachItem tripRetry s)
  flashToggle (dimBoundary s1)

/-- The supervisor's and the link port's timed steps of the present count (R165, R166, R169, R199). -/
def takeDuePhases (s : State) : State := eachItem silenceExpiry (clAllredEnd (suAllredEnd (suFlashEnd s)))

/-- The phase ends of the groups (R10, R12, R16) and the priority unit's times (R133, R134, R137). -/
def takeDueGroups (s : State) : State :=
  recallInhibitEnd (expire (holdEnd
    (eachItem endClearance (eachItem endMinProceed (eachItem endPrepare s)))))

/-- The evaluations of the present count: terminations (R13, R15), the current stage (R72), the starts (R8, R9). -/
def takeDueEvaluations (s : State) : State :=
  let s1 := settle s
  takeStarts 24 (if s1.fbsDue then fbsEvaluate s1 else s1)

/-- Every timed step of the present junction count that no command has taken. -/
def takeDue (s : State) : State := takeDueEvaluations (takeDueGroups (takeDuePhases (takeDueLamps s)))

/-- R1, R2, R66: the count advances, and the stored times are aged. -/
def advanceCount (s : State) : State :=
  let now := jnow s + 1
  { s with
    sge := { clock := now, groups := s.sge.groups.map (agedGroup now) }
    fbs := { s.fbs with lastGapExit := s.fbs.lastGapExit.map fun t => t.map (aged now) }
    lou := { s.lou with boundaryDue := decide (now.toNat % 10 = 0) }
    fbsDue := true }

/-- R1, R151, R72: the junction clock advances to the next count, the lamps are evaluated over the decisecond just
ended, and the current stage ends where the advance itself ends it. -/
def junctionAdvance (currents : List Nat) (s : State) : State :=
  advanceStage (evaluateLamps currents (advanceCount (takeDue s)))

def execJunctionClockAdvance (currents : List Nat) (s : State) : Host.Outcome State Fault Refusal :=
  .next (junctionAdvance currents s)

/-! ## The detector clock (R78, R179) -/

/-- Every timed step of the present detector count that no command has taken. -/
def takeDueSamples (s : State) : State :=
  let s1 := eachItem contactLongPresence (eachItem windowClose (eachItem loopLongPresence s))
  externalFault (armingLapse s1)

/-- R78: the milliseconds to the next sample completion after an advance; 0 stands for a completion at the present
count. -/
def nextSampleIn (n : Nat) : Nat := (if n = 0 then 10 else n) - 1

/-- R78, R179: the detector clock advances and FLT is sampled; `low` says that another unit pulls it low. -/
def advanceDetectors (low : Bool) (s : State) : State :=
  { s with
    du := { clock := s.du.clock + 1, sampleIn := nextSampleIn s.du.sampleIn
            channels := s.du.channels.map fun r => { r with sampled := false } }
    mfs := { s.mfs with fltPulledLow := low, externalRun := sampledRun s low } }

def detectorAdvance (low : Bool) (s : State) : State := advanceDetectors low (takeDueSamples s)

def execDetectorClockAdvance (fltPulledLow : Bool) (s : State) : Host.Outcome State Fault Refusal :=
  .next (detectorAdvance fltPulledLow s)

end Sys2Proof.Machine
end

