-- ==== Sys2Proof/Config.lean ====
section
/-! DEFINITION. What the manual leaves open: opaque constants, with no body, so that no proof sees a value.

Each is a free value of the model. A statement that holds of the model holds whatever these are. -/

namespace Sys2Proof.Config

/-- R204: "A reset during the copy leaves that record in nonvolatile memory either wholly old or wholly new".
`true` at index `n`: the new record. The index is the model's own counter `State.freeIndex`. DESIGN CHOICE
(form only), log entry 4. -/
opaque resetKeepsNewRecord : Nat → Bool

/-- R209: whether a reset during a validation that would pass finds the stored CRC already written.
`true` at index `n`: written. Log entry 4. -/
opaque resetFindsCrcWritten : Nat → Bool

/-- The byte that READ_STATUS sends for the FLT drive state (argument: driven). R189 codes an enumeration by its
place in the table that defines it, and no table of the manual lists this one. Log entry 5. -/
opaque fltDriveCode : Bool → Byte

/-- The byte that READ_STATUS sends for the FLT level (argument: low). Log entry 5. -/
opaque fltLevelCode : Bool → Byte

end Sys2Proof.Config
end

