-- ==== Sys2Proof/Machine/Reads.lean ====
section
/-! DEFINITION. The read requests (R197, R144, R182): what each reply holds, field by field, in the order of the table
of the record's own chapter, encoded under R189. -/

namespace Sys2Proof.Machine

/-! ## Records -/

/-- R6: the live group record. -/
def groupBytes (r : GroupRec) : List Byte :=
  [r.state.byte] ++ timeBytes r.stateEntry ++ timeBytes r.proceedStart ++ timeBytes r.proceedEnd ++
  timeBytes r.stopEntry ++ [flagByte r.demand, flagByte r.maxedOut, flagByte r.inhibited] ++
  natBytes 2 r.credit ++ natBytes 2 r.bonus ++ optByte Cause.byte r.cause

/-- R147: a lamp channel record. -/
def lampBytes (r : LampRec) : List Byte :=
  [r.command.byte, r.drive.byte, outputByte r.output, flagByte r.settling] ++ optBytes 2 r.sensed ++
  optByte ProvingResult.byte r.result ++ [runKindByte r.run] ++ oneByte r.mismatches ++ oneByte r.litCount ++
  optByte Mismatch.byte r.lastRaised ++ oneByte r.trips ++ optTimeBytes r.lastTrip ++ optTimeBytes r.retry

/-- The group references as the detector unit reads them: a count and four slots (R189). -/
def refsBytes (l : List Group) : List Byte :=
  oneByte l.length ++ l.flatMap (fun g => oneByte (number g)) ++ List.replicate (4 - l.length) 0

/-- R79: the configured fields of a detector record. -/
def detectorConfigBytes (m : Image) (ch : Channel) : List Byte :=
  [(channelKind m ch).byte] ++ natBytes 2 (onThreshold m ch) ++ natBytes 2 (maxPresence m ch) ++
  oneByte (budgetStart m ch) ++ [(channelRole m ch).byte] ++ refsBytes (groupRefs m ch)

/-- An optional signed number of two bytes. -/
def optIntBytes : Option Int → List Byte
  | none => [0, 0, 0]
  | some d => 1 :: intBytes 2 d

/-- R80: the live fields of a detector record. -/
def detectorBytes (r : DetRec) : List Byte :=
  [r.state.byte] ++ optByte InnerState.byte r.inner ++ optBytes 3 r.baseline ++ optBytes 3 r.lastP ++
  optByte SampleResult.byte r.lastResult ++ optIntBytes r.lastDeviation ++ oneByte r.validRun ++
  oneByte r.invalidRun ++ oneByte r.aboveRun ++ oneByte r.belowRun ++ natBytes 3 r.tuningSum ++
  oneByte r.budget ++ timeBytes r.windowStart ++ natBytes 2 r.entryCount.toNat ++ optTimeBytes r.lastEntry ++
  optTimeBytes r.lastExit ++ optTimeBytes r.presenceStart ++ [flagByte r.forced]

/-- R120: the state and the wait reason of an entry. A state that is absent, as it is only within an arrival, is
sent as WAITING. -/
def entryStateBytes : Option EntryState → List Byte
  | some (.waiting r) => [(EntryState.waiting r).byte, 1, r.byte]
  | some st => [st.byte, 0, 0]
  | none => [0, 0, 0]

/-- R120: an entry of the priority list. -/
def entryBytes (e : Entry) : List Byte :=
  [e.number, e.source.byte] ++ optBytes 2 (e.ident.map BitVec.toNat) ++ optByte id e.route ++
  oneByte (number e.approach) ++ [rankByte e.rank] ++ timeBytes e.ci ++ natBytes 2 e.eta ++ timeBytes e.ea ++
  timeBytes e.la ++ timeBytes e.need ++ timeBytes e.expiry ++ entryStateBytes e.state ++
  optTimeBytes e.holdUntil ++ optTimeBytes e.projGreen ++
  [flagByte e.speedClamped, flagByte e.singleLoop, flagByte e.late, flagByte e.merged]

/-- R104: the runtime record of an approach. -/
def approachBytes (r : ApproachRec) : List Byte :=
  optTimeBytes r.armedA ++ natBytes 2 r.dropped.toNat ++ natBytes 2 r.unmatched.toNat

/-- R124: the overlay record of a group. -/
def overlayBytes (o : Overlay) : List Byte :=
  optTimeBytes o.holdUntil ++ [flagByte o.call, flagByte o.block, flagByte o.truncate]

/-- R189: the bytes of a kind's detail set: groups 3, lamp channels 9, detector channels 4, stations 1, none 0. -/
def detailWidth (k : Fin 12) : Nat :=
  if k.val ≤ 3 then 3 else if k.val ≤ 6 then 9 else if k.val ≤ 8 then 4 else if k.val = 9 then 1 else 0

/-- R173: the fault record of a kind. -/
def faultBytes (k : Fin 12) (r : FaultRec) : List Byte :=
  [flagByte r.latched] ++ optTimeBytes r.firstSet ++ natBytes (detailWidth k) r.detail.toNat ++ oneByte r.count ++
  [flagByte r.masked]

/-- R198: the station record, the role being the station's place in the table. -/
def stationBytes (s : State) (i : Station) : List Byte :=
  oneByte i.val ++ [rankByte (authorityRank s.cs.image i)] ++ natBytes 2 (silenceLimit s.cs.image i) ++
  timeBytes (station s i).lastHeard ++ [flagByte (station s i).silent]

/-! ## READ_STATUS -/

/-- R197: the fields of READ_STATUS for a caller. -/
def statusBytes (i : Station) (s : State) : List Byte :=
  [s.mfs.mode.byte] ++ optByte SubPhase.byte s.mfs.sub ++ optByte Goal.byte s.mfs.goal ++
  timeBytes s.mfs.phaseStart ++ [Config.fltDriveCode s.mfs.fltDriven, Config.fltLevelCode (fltLow s)] ++
  natBytes 2 (latchedKinds s).toNat ++ [flagByte (unmaskedSummary s.mfs i)] ++
  [s.sel.owner.byte, rankByte s.sel.rank] ++ groupSetBytes s.sel.target ++
  [s.sel.generation, flagByte s.sel.reported] ++ timeBytes s.sel.lastChange ++
  optBytes 1 (s.fbs.current.map number) ++ timeBytes (jnow s) ++ timeBytes (dnow s) ++
  groupSetBytes s.lou.redOut ++ [s.lou.dim.byte] ++ optByte Dim.byte s.lou.pendingDim ++
  oneByte s.clp.partAddress.toNat ++ oneByte s.clp.rate.toNat ++ (List.finRange 4).flatMap (stationBytes s) ++
  natBytes 2 s.clp.discarded.toNat ++ natBytes 2 s.clp.answered.toNat

def readStatus (i : Station) (s : State) : State := answer .readStatus .done (statusBytes i s) s

def execReadStatus (station : Nat) (s : State) : Host.Outcome State Fault Refusal :=
  .next (asked .readStatus station readStatus s)

/-! ## The other reads -/

/-- A read answered with fields, or refused with the outcome alone (R197). -/
def answerRead (k : RequestKind) (fields : Option (List Byte)) (s : State) : State :=
  match fields with
  | some l => answer k .done l s
  | none => answer k .refusedInvalid [] s

/-- The fields of READ_GROUPS: the group record and its three lamp channel records. -/
def groupFieldsOf (s : State) (g : Group) : List Byte :=
  groupBytes (grp s g) ++ lampBytes (lamp s ⟨3 * g.val, by omega⟩) ++ lampBytes (lamp s ⟨3 * g.val + 1, by omega⟩) ++
  lampBytes (lamp s ⟨3 * g.val + 2, by omega⟩)

def readGroups (b : Byte) (_i : Station) (s : State) : State :=
  answerRead .readGroups ((item? 24 b.toNat).map (groupFieldsOf s)) s

def execReadGroups (station : Nat) (group : Byte) (s : State) : Host.Outcome State Fault Refusal :=
  .next (asked .readGroups station (readGroups group) s)

def readDetectors (b : Byte) (_i : Station) (s : State) : State :=
  answerRead .readDetectors
    ((item? 32 b.toNat).map fun ch => detectorConfigBytes s.cs.image ch ++ detectorBytes (det s ch)) s

def execReadDetectors (station : Nat) (channel : Byte) (s : State) : Host.Outcome State Fault Refusal :=
  .next (asked .readDetectors station (readDetectors channel) s)

/-- R197: part 0 of READ_PRIORITY. -/
def priorityHead (s : State) : List Byte :=
  oneByte s.pu.list.length ++ optTimeBytes s.pu.inhibitUntil ++ [flagByte s.pu.enabled, s.pu.nextEntry]

def readPriority (b : Byte) (_i : Station) (s : State) : State :=
  let n := b.toNat
  if n = 0 then answer .readPriority .done (priorityHead s) s
  else if n ≤ 8 then
    match s.pu.list[n - 1]? with
    | some e => answer .readPriority .done (entryBytes e) s
    | none => answer .readPriority .noMatch [] s
  else if n = 9 then
    answer .readPriority .done ((List.finRange 8).flatMap fun a => approachBytes (apr s a)) s
  else if n = 10 then
    answer .readPriority .done (allGroups.flatMap fun g => overlayBytes (ovl s g)) s
  else answer .readPriority .refusedInvalid [] s

def execReadPriority (station : Nat) (part : Byte) (s : State) : Host.Outcome State Fault Refusal :=
  .next (asked .readPriority station (readPriority part) s)

/-- The place of a fault kind in the table of R173. -/
def faultCode (b : Byte) : Option (Fin 12) := if h : b.toNat < 12 then some ⟨b.toNat, h⟩ else none

def readFaults (b : Byte) (_i : Station) (s : State) : State :=
  answerRead .readFaults
    ((faultCode b).map fun k => natBytes 2 (latchedKinds s).toNat ++ faultBytes k s.mfs.faults[k]) s

def execReadFaults (station : Nat) (kind : Byte) (s : State) : Host.Outcome State Fault Refusal :=
  .next (asked .readFaults station (readFaults kind) s)

/-- R182: the caller's pending set, mask and unmasked summary, and the last removal cause. -/
def eventFields (i : Station) (s : State) : List Byte :=
  eventSetBytes s.mfs.pending[i] ++ eventSetBytes s.mfs.masks[i] ++ [flagByte (unmaskedSummary s.mfs i)] ++
  optByte RemovalCause.byte s.mfs.lastRemoval

def readEvents (i : Station) (s : State) : State := answer .readEvents .done (eventFields i s) s

def execReadEvents (station : Nat) (s : State) : Host.Outcome State Fault Refusal :=
  .next (asked .readEvents station readEvents s)

end Sys2Proof.Machine
end

