-- ==== Sys2Proof/Machine/Store.lean ====
section
/-! DEFINITION. The configuration store's commands: WRITE_CONFIG with its effects at the other blocks (R202 to R204),
the completion of the nonvolatile copy, READ_CONFIG (R205), the reset, and two requests of one byte, SET_DIM (R150). -/

namespace Sys2Proof.Machine

/-! ## SET_DIM (R150, R196) -/

/-- R196: the reply fields of SET_DIM. -/
def dimFields (s : State) : List Byte := [s.lou.dim.byte] ++ optByte Dim.byte s.lou.pendingDim

/-- R150: the pending state of a request that is taken. -/
def setPendingDim (d : Dim) (s : State) : State := { s with lou := { s.lou with pendingDim := some d } }

def setDim (b : Byte) (_i : Station) (s : State) : State :=
  if b = 0 then answer .setDim .done (dimFields (setPendingDim .bright s)) (setPendingDim .bright s)
  else if b = 1 then answer .setDim .done (dimFields (setPendingDim .dim s)) (setPendingDim .dim s)
  else answer .setDim .refusedInvalid (dimFields s) s

def execSetDim (station : Nat) (value : Byte) (s : State) : Host.Outcome State Fault Refusal :=
  .next (asked .setDim station (setDim value) s)

/-! ## The effects of an accepted write (R204) -/

/-- R179: a write that leaves fault-line follow disabled holds the run at 0. -/
def deviceWritten (s : State) : State :=
  { s with mfs := { s.mfs with externalRun := if followEnabled s.cs.image then s.mfs.externalRun else 0 } }

/-- R47: the owner's rank rises to a raised authority rank. -/
def authorityWritten (i : Station) (s : State) : State :=
  if ownerStation s.sel.owner = some i ∧ s.sel.rank < authorityRank s.cs.image i then
    changeOwner s.sel.owner (authorityRank s.cs.image i) s
  else s

/-- R198, R47: the station's timer restarts; a silent station whose limit is now 0 is silent no longer. -/
def stationWritten (i : Station) (s : State) : State :=
  let wakes := decide (silenceLimit s.cs.image i = 0) && (station s i).silent
  authorityWritten i (postIf wakes .stationResumed
    (setStation s i { lastHeard := jnow s, silent := (station s i).silent && !wakes }))

/-- R5: a group record after a write. -/
def writtenGroup (m : Image) (g : Group) (r : GroupRec) : GroupRec :=
  if groupKind m g = .none then { r with demand := false, maxedOut := false, credit := 0, bonus := 0 }
  else { r with credit := min r.credit (compensationCap m g) }

/-- R161: the record of a channel whose use changes: the result is absent, the runs and the lit counter 0. R161 names
neither the last sensed current nor the last raised kind, and the model keeps both (log entry 24). -/
def useChanged (r : LampRec) : LampRec :=
  { r with result := none, run := none, mismatches := 0, litCount := 0, rearmed := false }

/-- R161: a channel of the written group; `old` is the image before the write. -/
def writtenLamp (old : Image) (s : State) (ch : Lamp) : LampRec :=
  if usedLamp old ch = usedLamp s.cs.image ch && usedLamp s.cs.image ch then lamp s ch else useChanged (lamp s ch)

/-- R5, R161: the effects of a GROUP write; `old` is the image before it. -/
def groupWritten (old : Image) (g : Group) (s : State) : State :=
  let s1 := setGrp s g (writtenGroup s.cs.image g (grp s g))
  let s2 := lampsFollow (· == g) s1
  let s3 := setLamps s2 fun ch => if lampGroup ch = g then writtenLamp old s2 ch else lamp s2 ch
  if groupKind s.cs.image g = .none then leaveRedOut g s3 else s3

/-- R101: the record of a channel after a write. A LOOP keeps its last P, last result and last deviation; a CONTACT
leaves these loop fields absent (R80). For UNUSED R101 states neither, and the model keeps them, as R79 keeps what an
UNUSED record last held (log entry 29). -/
def writtenChannel (m : Image) (ch : Channel) (now : Time) (r : DetRec) : DetRec :=
  let k := channelKind m ch
  { r with
    state := if k = .unused then .vacant else .tuning
    forced := decide (k ≠ .unused)
    baseline := none
    lastP := if k = .contact then none else r.lastP
    lastResult := if k = .contact then none else r.lastResult
    lastDeviation := if k = .contact then none else r.lastDeviation
    inner := none
    validRun := 0
    invalidRun := 0
    aboveRun := 0
    belowRun := 0
    tuningSum := 0
    budget := budgetStart m ch
    windowStart := now
    level := none }

/-- R101, R69: the groups that the channel extended before or extends after a write, `old` being the image before. At the
one write that makes a channel stop counting as occupied, a write of UNUSED, it extends no group afterwards (R69), and the
groups are those that it extended before; R101 takes new references from the write onward and does not say this (log
entry 29). -/
def writeExtends (old new : Image) (ch : Channel) : List Group :=
  allGroups.filter fun g => isExtensionDetector old ch g || isExtensionDetector new ch g

/-- R98: what the sequencer is handed at a write: the last gap exit is noted for the groups for which the channel
stops counting as occupied. -/
def writeToSequencer (old : Image) (ch : Channel) (before : DetRec) (s : State) : State :=
  if countsOccupied before && !countsOccupied (det s ch) then
    noteGapExit (writeExtends old s.cs.image ch) s
  else s

/-- R101: the effects of a DETECTOR write; `old` is the image before it. DETECTOR_CHANGED is posted whenever the write
changes the channel's state, by R101, also from OCCUPIED to VACANT at a write of UNUSED, which R100 leaves out of the
event (log entry 29). The priority unit is handed every change of state, as R101 says of a channel that an approach
names, whatever the kinds before and after; R99 and R105 speak of LOOP channels (log entry 30). -/
def detectorWritten (old : Image) (ch : Channel) (s : State) : State :=
  let r := det s ch
  let new := writtenChannel s.cs.image ch (dnow s) r
  let s1 := postIf (decide (r.state ≠ new.state)) .detectorChanged (setDet s ch new)
  let s2 := writeToSequencer old ch r s1
  if r.state ≠ new.state then loopStateChanged ch new.state s2 else s2

/-- R204: the effects at acceptance; `old` is the image before the write. -/
def writeEffects (old : Image) (p : Place) (s : State) : State :=
  match p with
  | .device => deviceWritten s
  | .station i => stationWritten i s
  | .group g => groupWritten old g s
  | .matrix _ => s
  | .stage _ => s
  | .detector ch => detectorWritten old ch s
  | .approach a => disarm a s

/-! ## WRITE_CONFIG (R202, R203, R204) -/

/-- R203: the reply fields of WRITE_CONFIG: the count and the positions of the fields that clamping changed. -/
def clampedFields (l : List Nat) : List Byte := oneByte l.length ++ l.flatMap oneByte

/-- R202 steps 3 to 5: the first failing check of a record's bytes. -/
def recordVerdict (p : Place) (bs : List Byte) : Verdict :=
  if bs.length ≠ p.size then .badLength
  else if !((recordFields p bs).all fun f => f.1.encodingOk f.2) then .refusedInvalid
  else if !((recordFields p bs).all fun f => f.1.codeOk f.2) then .refusedInvalid
  else .done

/-- R101: what a sample of the present count has left at a channel that a write is about to reset: all that follows from
the sample is taken first, under the old configuration. -/
def beforeWrite (p : Place) (s : State) : State :=
  match p with
  | .detector ch => sampleLeft ch s
  | _ => s

/-- R204: the record stands in the image, the indicator is set, and the effects at the other blocks are taken. -/
def storeRecord (p : Place) (bs : List Byte) (s : State) : State :=
  let s1 := beforeWrite p s
  writeEffects s1.cs.image p { s1 with cs := { s1.cs with
    image := imageWriteBytes s1.cs.image p.base (clampedRecord p bs), edited := true } }

/-- R204, R187: the record is accepted and its copy begins; the request is answered at the copy's completion. -/
def acceptRecord (p : Place) (bs : List Byte) (s : State) : State :=
  let t := storeRecord p bs s
  await { t with cs := { t.cs with
    copy := some { address := p.base, old := recordBytes s.cs.image p, clamped := clampedPositions p bs } } }

/-- R202: the refusal of a WRITE_CONFIG, with a clamped-field count of 0. -/
def refuseWrite (v : Verdict) (s : State) : State := answer .writeConfig v (clampedFields []) s

def writeConfig (block index : Byte) (bs : List Byte) (_i : Station) (s : State) : State :=
  if !s.mfs.mode.resting then refuseWrite .refusedMode s
  else
    match placeOf block index with
    | none => refuseWrite .refusedInvalid s
    | some p =>
      if recordVerdict p bs = .done then acceptRecord p bs s else refuseWrite (recordVerdict p bs) s

def execWriteConfig (station : Nat) (block index : Byte) (record : List Byte) (s : State) :
    Host.Outcome State Fault Refusal :=
  .next (asked .writeConfig station (writeConfig block index record) s)

/-- R204: the copy completes and the request is answered DONE. -/
def copyCompletion (s : State) : State :=
  match s.cs.copy with
  | some c => answer .writeConfig .done (clampedFields c.clamped) { s with cs := { s.cs with copy := none } }
  | none => s

def execNonvolatileCopyCompletion (s : State) : Host.Outcome State Fault Refusal := .next (copyCompletion s)

/-! ## READ_CONFIG (R205) -/

def readConfig (block index : Byte) (_i : Station) (s : State) : State :=
  if !s.mfs.mode.resting then answer .readConfig .refusedMode [] s
  else
    match placeOf block index with
    | none => answer .readConfig .refusedInvalid [] s
    | some p => answer .readConfig .done (flagByte s.cs.edited :: recordBytes s.cs.image p) s

def execReadConfig (station : Nat) (block index : Byte) (s : State) : Host.Outcome State Fault Refusal :=
  .next (asked .readConfig station (readConfig block index) s)

/-! ## RESET -/

/-- R204: the image that a reset finds. A copy in flight leaves the old record or the new one; which is free (log
entry 4). -/
def imageAfterReset (s : State) : Image :=
  match s.cs.copy with
  | some c =>
    if Config.resetKeepsNewRecord s.freeIndex then s.cs.image else imageWriteBytes s.cs.image c.address c.old
  | none => s.cs.image

/-- R209: the stored CRC that a reset finds. A validation in flight that would pass has written it or not; which is
free (log entry 4). -/
def storedCrcAfterReset (s : State) : BitVec 32 :=
  if s.cs.validating && decide (failingCheck s.cs.image = none) && Config.resetFindsCrcWritten s.freeIndex then
    imageCrc s.cs.image
  else s.cs.storedCrc

/-- R102: a detector record after reset, by the kind of the channel. -/
def resetChannel (m : Image) (ch : Channel) : DetRec :=
  match channelKind m ch with
  | .loop => DetRec.reset .tuning true (budgetStart m ch)
  | _ => DetRec.reset .vacant false (budgetStart m ch)

/-- Reset with an image, a stored CRC and the pins as sampled at its end. The level of FLT is the line's own and the
waiting commands stay (log entry 17). -/
def resetWith (m : Image) (crc : BitVec 32) (addr : BitVec 4) (rate : BitVec 2) (s : State) : State :=
  { sge := { clock := 0, groups := Vector.replicate 24 GroupRec.reset }
    igm := Igm.default
    sel := Sel.reset
    fbs := Fbs.reset
    du := { clock := 0, sampleIn := 10, channels := Vector.ofFn (resetChannel m) }
    pu := Pu.reset (priorityAtStart m)
    lou := Lou.reset
    mfs := Mfs.reset s.mfs.fltPulledLow
    clp := Clp.reset addr rate
    cs := { image := m, storedCrc := crc, edited := false, mismatch := false, copy := none, validating := false }
    fbsDue := false
    freeIndex := s.freeIndex + 1
    pending := s.pending }

def execReset (addrPins : BitVec 4) (ratePins : BitVec 2) (s : State) : Host.Outcome State Fault Refusal :=
  .next (resetWith (imageAfterReset s) (storedCrcAfterReset s) addrPins ratePins s)

end Sys2Proof.Machine
end

