-- ==== Sys2Proof/Machine/Link.lean ====
section
/-! DEFINITION. The cabinet link port: the receiver's states (R185 to R187), the judging of a frame (R186), hearing
(R191), the checks of a request and its hand-over (R189, R192), and the sending of a reply (R184, R188). -/

namespace Sys2Proof.Machine

/-! ## A frame's bytes (R184)

The buffer holds the bytes after the start byte: address, kind, length, payload, CRC. -/

/-- The length byte of the frame in the buffer. -/
def frameLength (buf : List Byte) : Nat := (buf.getD 2 0).toNat

/-- R186: the address byte has been received and addresses the part. -/
def addressed (c : Clp) : Bool :=
  match c.buffer.head? with
  | some a => decide (a.setWidth 4 = c.partAddress)
  | none => false

/-- R184: the source of a frame. -/
def sourceOf (buf : List Byte) : Nat := (buf.headD 0).toNat / 16

/-- R184: the CRC of the frame in the buffer is the one computed. -/
def crcRight (buf : List Byte) : Bool :=
  decide ((crc16 (buf.take (3 + frameLength buf))).toNat = bytesNat (buf.drop (3 + frameLength buf)))

/-- R186: a frame is discarded, counted where `count` says so; the receiver goes to `next`. -/
def discard (count : Bool) (next : Receiver) (s : State) : State :=
  { s with clp := { s.clp with
    receiver := next, buffer := [],
    discarded := if count then saturate16 s.clp.discarded else s.clp.discarded } }

/-! ## Hearing (R191) -/

/-- R191: the station is heard. -/
def hear (i : Station) (s : State) : State :=
  postIf (station s i).silent .stationResumed
    (setStation s i { lastHeard := jnow s, silent := false })

/-! ## A request's payload (R189) -/

/-- A field of two or three bytes. -/
def word16 (a b : Byte) : BitVec 16 := a ++ b
def word24 (a b c : Byte) : BitVec 24 := a ++ b ++ c

/-- R189: a flag or presence byte, if it is 0 or 1. -/
def flagOf (b : Byte) : Option Bool := if b = 0 then some false else if b = 1 then some true else none

/-- R189: an optional field: its presence byte and its value, which is all zeros when the field is absent. -/
def optionalOf {w : Nat} (p : Byte) (v : BitVec w) : Option (Option (BitVec w)) :=
  match flagOf p with
  | some true => some (some v)
  | some false => if v = 0 then some none else none
  | none => none

/-- The link port's own refusal of an encoding (R192 step 4). -/
def refuseEncoding (k : RequestKind) (s : State) : State := answer k .refusedInvalid [] s

/-- R194: CLEAR_EVENTS or CLEAR_FAULTS with its five bytes. -/
def serveClear (k : RequestKind) (f : BitVec 16 → Bool → BitVec 16 → Station → State → State)
    (a b given c d : Byte) (i : Station) (s : State) : State :=
  match flagOf given with
  | some g => f (word16 a b) g (word16 c d) i s
  | none => refuseEncoding k s

/-- R194: MODE_REQUEST with its goal byte; a goal above 2 is refused by the supervisor (R167). -/
def serveMode (g : Byte) (i : Station) (s : State) : State :=
  if g = 0 then modeRequestGoal .flash i s
  else if g = 1 then modeRequestGoal .dark i s
  else if g = 2 then modeRequestResume i s
  else answer .modeRequest .refusedInvalid (modeFields 0 s) s

/-- R195: CANCEL_PRIORITY with its "by" byte. -/
def serveCancel (b : Byte) (v : BitVec 16) (i : Station) (s : State) : State :=
  if b = 0 then cancelByNumber v i s
  else if b = 1 then cancelByIdent v i s
  else answer .cancelPriority .refusedInvalid (oneByte 0) s

/-- R195: CHECK_IN with its flag and its two optional fields. -/
def serveCheckIn (ident : BitVec 16) (route approach : Byte) (lateness : BitVec 16) (special : Byte)
    (dp : Byte) (d : BitVec 24) (vp : Byte) (v : BitVec 16) (i : Station) (s : State) : State :=
  match flagOf special, optionalOf dp d, optionalOf vp v with
  | some f, some dist, some speed =>
    checkIn { ident := ident, route := route, lateness := lateness, special := f, distance := dist,
              speed := speed } approach i s
  | _, _, _ => refuseEncoding .checkIn s

/-- R192 steps 4 and 5: a payload of the kind's length is handed to its block. -/
def serve (k : RequestKind) (payload : List Byte) (i : Station) (s : State) : State :=
  match k, payload with
  | .readStatus, [] => readStatus i s
  | .readGroups, [b] => readGroups b i s
  | .readDetectors, [b] => readDetectors b i s
  | .readPriority, [b] => readPriority b i s
  | .readFaults, [b] => readFaults b i s
  | .readEvents, [] => readEvents i s
  | .clearEvents, [a, b, g, c, d] => serveClear .clearEvents clearEvents a b g c d i s
  | .takeSelector, [r] => takeSelector r i s
  | .releaseSelector, [] => releaseSelector i s
  | .setStage, [a, b, c] => setStage (word24 a b c) i s
  | .selectStage, [n] => selectStage n i s
  | .callGroups, [a, b, c] => callGroups (word24 a b c) i s
  | .modeRequest, [g] => serveMode g i s
  | .clearFaults, [a, b, g, c, d] => serveClear .clearFaults clearFaults a b g c d i s
  | .setDim, [v] => setDim v i s
  | .enablePriority, [e] => enablePriority e i s
  | .readConfig, [b, n] => readConfig b n i s
  | .writeConfig, b :: n :: record => writeConfig b n record i s
  | .checkIn, [i1, i2, route, app, l1, l2, special, dp, d1, d2, d3, vp, v1, v2] =>
    serveCheckIn (word16 i1 i2) route app (word16 l1 l2) special dp (word24 d1 d2 d3) vp (word16 v1 v2) i s
  | .checkOut, [i1, i2, app] => checkOut (word16 i1 i2) app i s
  | .cancelPriority, [b, v1, v2] => serveCancel b (word16 v1 v2) i s
  | k, _ => answer k .badLength [] s

/-- R192: the checks of a valid frame's request, in order. -/
def takeRequest (kind : Byte) (payload : List Byte) (i : Station) (s : State) : State :=
  match kindOf kind with
  | none => answerByte kind .unknownKind [] s
  | some k =>
    if !k.allows i then answer k .refusedRole [] s
    else if !k.lengthOk payload.length then answer k .badLength [] s
    else serve k payload i s

/-! ## The receiver (R185, R186) -/

/-- R186: a completed frame is judged. `buf` holds the bytes after the start byte. -/
def judgeFrame (buf : List Byte) (s : State) : State :=
  if !crcRight buf then discard (addressed { s.clp with buffer := buf }) .hunt s
  else if !addressed { s.clp with buffer := buf } then discard false .hunt s
  else
    match item? 4 (sourceOf buf) with
    | none => discard true .hunt s
    | some i => takeRequest (buf.getD 1 0) ((buf.drop 3).take (frameLength buf)) i (hear i s)

/-- R185: the receiver's state when a frame's buffer has become `buf`, up to its CRC. -/
def receiverFor (buf : List Byte) : Receiver :=
  if buf.length < 3 then .header
  else if buf.length < 3 + frameLength buf then .payload
  else .check

/-- R185: a byte within a frame. -/
def storeByte (b : Byte) (s : State) : State :=
  let buf := s.clp.buffer ++ [b]
  if buf.length = 3 ∧ 200 < b.toNat then discard (addressed s.clp) .skip s
  else if 3 ≤ buf.length ∧ buf.length = 5 + frameLength buf then judgeFrame buf s
  else { s with clp := { s.clp with receiver := receiverFor buf, buffer := buf } }

/-- R187: a start byte in BUSY is an overrun, unless an overrun frame is being ignored already. -/
def overrun (s : State) : State :=
  if s.clp.ignoring then s
  else { s with clp := { s.clp with discarded := saturate16 s.clp.discarded, ignoring := true } }

/-- R185, R187: what a received byte does, by the receiver's state. A byte that arrives with a framing error is not
stored, an address byte too, so the frame of such an address byte is not one to the part's address (log entry 32). -/
def takeByte (b : Byte) (framingError : Bool) (s : State) : State :=
  match s.clp.receiver with
  | .hunt =>
    if b = 0xA6 ∧ framingError = false then
      { s with clp := { s.clp with receiver := .header, buffer := [] } }
    else s
  | .header | .payload | .check =>
    if framingError then discard (addressed s.clp) .skip s else storeByte b s
  | .skip => s
  | .busy => if b = 0xA6 ∧ framingError = false then overrun s else s

/-- R185: the time of the last byte received, in detector time (log entry 16). -/
def noteByte (s : State) : State := { s with clp := { s.clp with lastByte := dnow s } }

def receiveByte (b : Byte) (framingError : Bool) (s : State) : State := takeByte b framingError (noteByte s)

def execByteReceived (b : Byte) (framingError : Bool) (s : State) : Host.Outcome State Fault Refusal :=
  .next (receiveByte b framingError s)

/-- R185: the next byte stored completes the frame. -/
def frameCompletes (c : Clp) : Bool :=
  decide (c.receiver = .check) && decide (3 ≤ c.buffer.length) &&
    decide (c.buffer.length + 1 = 5 + frameLength c.buffer)

/-- R186: the byte that completes a frame. Where no frame is completed by the next byte this is no such event (log
entry 1). -/
def frameReceived (b : Byte) (s : State) : State := if frameCompletes s.clp then receiveByte b false s else s

def execFrameReceived (b : Byte) (s : State) : Host.Outcome State Fault Refusal := .next (frameReceived b s)

/-- R185, R187: more than 5 ms of silence since the last byte. -/
def silenceTimeout (s : State) : State :=
  match s.clp.receiver with
  | .hunt => s
  | .header | .payload | .check => discard (addressed s.clp) .hunt s
  | .skip => { s with clp := { s.clp with receiver := .hunt } }
  | .busy => { s with clp := { s.clp with ignoring := false } }

def execLinkSilenceTimeout (s : State) : Host.Outcome State Fault Refusal := .next (silenceTimeout s)

/-- R187: a start byte received in BUSY. -/
def frameOverrun (s : State) : State := if s.clp.receiver = .busy then receiveByte 0xA6 false s else s

def execFrameOverrun (s : State) : Host.Outcome State Fault Refusal := .next (frameOverrun s)

/-! ## The reply (R184, R187, R188) -/

/-- R184, R188: the bytes of a reply's frame. -/
def replyFrame (partAddress : BitVec 4) (r : Reply) : List Byte :=
  let body : List Byte := [partAddress.setWidth 8, r.kind] ++ oneByte r.payload.length ++ r.payload
  [0xA6] ++ body ++ natBytes 2 (crc16 body).toNat

/-- R187: the last byte of the reply has been sent. An overrun frame still being ignored is skipped to the next
silence. -/
def replySent (s : State) : State :=
  if s.clp.receiver = .busy ∧ s.clp.reply.isSome = true then
    { s with clp := { s.clp with
      receiver := if s.clp.ignoring then .skip else .hunt
      ignoring := false
      answered := s.clp.answered + 1
      ldir := false } }
  else s

def execReplySent (s : State) : Host.Outcome State Fault Refusal := .next (replySent s)

end Sys2Proof.Machine
end

