-- ==== Sys2Proof/Machine/Dispatch.lean ====
section
/-! DEFINITION. The dispatch: one arm per command, each one call of its meaning. -/

namespace Sys2Proof.Machine

/-- The effect of a command on everything but the queue. -/
def exec (i : Instr) (s : State) : Host.Outcome State Fault Refusal :=
  match i with
  | .reset addrPins ratePins => Sys2Proof.Machine.execReset addrPins ratePins s
  | .powerUpCheckCompletion => Sys2Proof.Machine.execPowerUpCheckCompletion s
  | .junctionClockAdvance currents => Sys2Proof.Machine.execJunctionClockAdvance currents s
  | .dimBoundary => Sys2Proof.Machine.execDimBoundary s
  | .flashToggle => Sys2Proof.Machine.execFlashToggle s
  | .groupStart g => Sys2Proof.Machine.execGroupStart g s
  | .prepareEnd g => Sys2Proof.Machine.execPrepareEnd g s
  | .minProceedEnd g => Sys2Proof.Machine.execMinProceedEnd g s
  | .maxOut g => Sys2Proof.Machine.execMaxOut g s
  | .clearanceEnd g => Sys2Proof.Machine.execClearanceEnd g s
  | .holdEnd => Sys2Proof.Machine.execHoldEnd s
  | .recallInhibitEnd => Sys2Proof.Machine.execRecallInhibitEnd s
  | .expiry => Sys2Proof.Machine.execExpiry s
  | .gapOut g => Sys2Proof.Machine.execGapOut g s
  | .silenceExpiry station => Sys2Proof.Machine.execSilenceExpiry station s
  | .suFlashEnd => Sys2Proof.Machine.execSuFlashEnd s
  | .suAllredEnd => Sys2Proof.Machine.execSuAllredEnd s
  | .clAllredEnd => Sys2Proof.Machine.execClAllredEnd s
  | .overcurrentTrip ch => Sys2Proof.Machine.execOvercurrentTrip ch s
  | .tripRetry ch => Sys2Proof.Machine.execTripRetry ch s
  | .tripCounterReset ch => Sys2Proof.Machine.execTripCounterReset ch s
  | .detectorClockAdvance fltPulledLow => Sys2Proof.Machine.execDetectorClockAdvance fltPulledLow s
  | .externalFault => Sys2Proof.Machine.execExternalFault s
  | .loopSample ch period => Sys2Proof.Machine.execLoopSample ch period s
  | .loopLongPresence ch => Sys2Proof.Machine.execLoopLongPresence ch s
  | .contactSample ch pressed => Sys2Proof.Machine.execContactSample ch pressed s
  | .contactLongPresence ch => Sys2Proof.Machine.execContactLongPresence ch s
  | .windowClose ch => Sys2Proof.Machine.execWindowClose ch s
  | .armingLapse => Sys2Proof.Machine.execArmingLapse s
  | .frameReceived b => Sys2Proof.Machine.execFrameReceived b s
  | .linkSilenceTimeout => Sys2Proof.Machine.execLinkSilenceTimeout s
  | .frameOverrun => Sys2Proof.Machine.execFrameOverrun s
  | .replySent => Sys2Proof.Machine.execReplySent s
  | .readStatus station => Sys2Proof.Machine.execReadStatus station s
  | .readGroups station group => Sys2Proof.Machine.execReadGroups station group s
  | .readDetectors station channel => Sys2Proof.Machine.execReadDetectors station channel s
  | .readPriority station part => Sys2Proof.Machine.execReadPriority station part s
  | .readFaults station kind => Sys2Proof.Machine.execReadFaults station kind s
  | .readEvents station => Sys2Proof.Machine.execReadEvents station s
  | .clearEvents station kinds maskGiven mask => Sys2Proof.Machine.execClearEvents station kinds maskGiven mask s
  | .takeSelector station rank => Sys2Proof.Machine.execTakeSelector station rank s
  | .releaseSelector station => Sys2Proof.Machine.execReleaseSelector station s
  | .setStage station groups => Sys2Proof.Machine.execSetStage station groups s
  | .selectStage station stage => Sys2Proof.Machine.execSelectStage station stage s
  | .callGroups station groups => Sys2Proof.Machine.execCallGroups station groups s
  | .modeRequestFlash station => Sys2Proof.Machine.execModeRequestFlash station s
  | .modeRequestDark station => Sys2Proof.Machine.execModeRequestDark station s
  | .modeRequestResume station => Sys2Proof.Machine.execModeRequestResume station s
  | .validationCompletion => Sys2Proof.Machine.execValidationCompletion s
  | .clearFaults station kinds maskGiven mask => Sys2Proof.Machine.execClearFaults station kinds maskGiven mask s
  | .setDim station value => Sys2Proof.Machine.execSetDim station value s
  | .enablePriority station enable => Sys2Proof.Machine.execEnablePriority station enable s
  | .readConfig station block index => Sys2Proof.Machine.execReadConfig station block index s
  | .writeConfig station block index record => Sys2Proof.Machine.execWriteConfig station block index record s
  | .nonvolatileCopyCompletion => Sys2Proof.Machine.execNonvolatileCopyCompletion s
  | .checkIn station ident route approach lateness special distance speed => Sys2Proof.Machine.execCheckIn station ident route approach lateness special distance speed s
  | .checkOut station ident approach => Sys2Proof.Machine.execCheckOut station ident approach s
  | .cancelPriorityByNumber station value => Sys2Proof.Machine.execCancelPriorityByNumber station value s
  | .cancelPriorityByIdent station ident => Sys2Proof.Machine.execCancelPriorityByIdent station ident s
  | .byteReceived b framingError => Sys2Proof.Machine.execByteReceived b framingError s

end Sys2Proof.Machine
end

