-- ==== Sys2Proof/Safety.lean ====
section
/-! DEFINITION. What statements about the machine say: what may follow inside one arrival beyond the arrival's own
effect (`Follows`, `Shuts`), and the laws that every step keeps (`Orderly` and the rest). -/

namespace Sys2Proof.Machine

/-! ## What follows inside an arrival

R7, R13, R58, R64, R72, R125 and R126 make one arrival bring others at the blocks beside it: terminations, a walk of
the priority list, a new target of the fallback sequencer, the reached condition. `Follows` says all that these can
do, and so all that they leave alone. -/

/-- An entry less the fields that a walk decides: its state, hold-until, projected green and LATE. -/
def Entry.core (e : Entry) : Entry := { e with state := none, holdUntil := none, projGreen := none, late := false }

/-- A group record after what follows: as it was but for a maxed-out flag that a new target cleared (R18), or, from
PROCEED_EXT only, terminated now with some cause (R14), its credit raised by a truncation alone and to its cap at
most (R24). -/
inductive GroupFollows (now : Time) (cap : Nat) (a b : GroupRec) : Prop where
  | kept (same : b = { a with maxedOut := b.maxedOut }) (cleared : b.maxedOut = true → a.maxedOut = true)
  | ended (c : Cause) (n : Nat) (ext : a.state = .proceedExt)
      (record : b = { a with state := .clearance, stateEntry := now, proceedEnd := now, cause := some c,
                             maxedOut := b.maxedOut, credit := b.credit })
      (credit : b.credit = if c = .priorityTruncate then min (a.credit + n) cap else a.credit)
      (max : b.maxedOut = true → a.maxedOut = true ∨ c = .max)

/-- The kinds that what follows may post: STAGE_REACHED, GROUP_MAXED_OUT, PRIORITY_ACTED. -/
def followingEvents : EventSet := 0x1C#11

/-- `t` is `s` after what follows inside an arrival. `own` holds of the groups whose lamps the arrival itself
commands anew. -/
structure Follows (own : Group → Bool) (s t : State) : Prop where
  clock : t.sge.clock = s.sge.clock
  igm : t.igm = s.igm
  du : t.du = s.du
  clp : t.clp = s.clp
  cs : t.cs = s.cs
  fbsDue : t.fbsDue = s.fbsDue
  freeIndex : t.freeIndex = s.freeIndex
  pending : t.pending = s.pending
  /-- The owner, its rank and the stage list stand; the target is set by the fallback sequencer alone. -/
  sel : t.sel = { s.sel with target := t.sel.target, generation := t.sel.generation, reported := t.sel.reported }
  target : fbsActs s = false →
    t.sel = { s.sel with reported := t.sel.reported } ∧ (t.fbs = s.fbs ∨ t.fbs.current = none)
  fbs : t.fbs = { s.fbs with current := t.fbs.current }
  pu : t.pu = { s.pu with list := t.pu.list, overlay := t.pu.overlay, inhibitUntil := t.pu.inhibitUntil }
  /-- No entry joins or leaves the list; a walk decides its own four fields only. -/
  entries : t.pu.list.map Entry.core = s.pu.list.map Entry.core
  lou : t.lou = { s.lou with channels := t.lou.channels }
  mfs : t.mfs = { s.mfs with pending := t.mfs.pending, attnLow := t.mfs.attnLow }
  events : ∃ w : EventSet, w &&& ~~~followingEvents = 0 ∧ t.mfs.pending = s.mfs.pending.map (· ||| w)
  attn : t.mfs = s.mfs ∨ t.mfs.attnLow = unmaskedSummary t.mfs 0
  groups : ∀ g, GroupFollows (jnow s) (compensationCap s.cs.image g) (grp s g) (grp t g)
  /-- A maxed-out flag is cleared by a setting of the fallback sequencer alone (R18). -/
  flags : fbsActs s = false → ∀ g, (grp s g).maxedOut = true → (grp t g).maxedOut = true
  /-- The lamps of a group that does not move are untouched, those of one that terminates are commanded anew. -/
  lamps : ∀ ch, own (lampGroup ch) = false →
    lamp t ch = if (grp t (lampGroup ch)).state = (grp s (lampGroup ch)).state then lamp s ch
      else recommand (jnow s) (derivedCommand t ch) (lamp s ch)
  /-- The lamps of the arrival's own groups show the command derived for them; only command, output and settling
  change. -/
  ownLamps : ∀ ch, own (lampGroup ch) = true →
    lamp t ch = { lamp s ch with command := derivedCommand t ch, output := (lamp t ch).output,
                                 settling := (lamp t ch).settling }

/-- No group's lamps are commanded by the arrival itself. -/
def noGroup (_ : Group) : Bool := false

/-- The lamps of every group are commanded by the arrival itself. -/
def everyGroup (_ : Group) : Bool := true

/-! ## Laws of the state

Each holds at reset and is kept by every step. -/

/-- R181: ATTN is low exactly while station 1 has a kind pending unmasked. -/
def AttnLaw (s : State) : Prop := s.mfs.attnLow = unmaskedSummary s.mfs 0

/-- R148: every channel's command is the one derived from its group's state, kind and the device mode. -/
def CommandLaw (s : State) : Prop := ∀ ch, (lamp s ch).command = derivedCommand s ch

/-- R24: every group's credit lies within its compensation cap. -/
def CreditLaw (s : State) : Prop := ∀ g, (grp s g).credit ≤ compensationCap s.cs.image g

/-- R46, the selector's part of the seventh law: the owner rank is no stronger than the authority of the owner's
station, and FALLBACK holds rank 3. -/
def RankLaw (s : State) : Prop :=
  match ownerStation s.sel.owner with
  | some i => authorityRank s.cs.image i ≤ s.sel.rank
  | none => s.sel.rank = 3

/-- R119, the fifth law but for the order, which is `OrderLaw`: at most 8 entries, no two with one number, none two with
the same vehicle ident and approach. R111, the eleventh law: the window around the ETA. -/
structure ListLaw (l : List Entry) : Prop where
  length : l.length ≤ 8
  numbers : (l.map Entry.number).Nodup
  idents : l.Pairwise fun a b => a.ident.isSome = true → ¬(a.ident = b.ident ∧ a.approach = b.approach)
  figures : ∀ e ∈ l, 1 ≤ e.eta ∧ e.eta ≤ 6000 ∧ e.ea = later e.ci (e.eta - max 5 (e.eta / 8)) ∧
    e.la = later e.ci (e.eta + max 5 (e.eta / 8))

/-- R119: the order of the list: by rank, then by check-in time as an offset from now, then by creation. -/
def StandsBefore (now : Time) (a b : Entry) : Prop :=
  a.rank < b.rank ∨ a.rank = b.rank ∧
    (offset now a.ci < offset now b.ci ∨ offset now a.ci = offset now b.ci ∧ a.seq < b.seq)

/-- R119, R122, R123: the list `m` is the list `l` with the entry `e` placed after entries that it does not stand before,
and directly before one that it does stand before or at the end. Where `l` is in the order of R119, so is `m`. -/
def PlacedIn (now : Time) (e : Entry) (l m : List Entry) : Prop :=
  ∃ before after, l = before ++ after ∧ m.map Entry.core = (before ++ e :: after).map Entry.core ∧
    (∀ x ∈ before, ¬StandsBefore now e x) ∧ ∀ x, after.head? = some x → StandsBefore now e x

/-- R119, the order that the fifth law adds to `ListLaw`, with what it rests on: no two entries have one place in
creation order, the next one is later than all of them (both kept in fields of the model's own, log entry 27), and every
entry checked in at most 6,000 + 750 + 1,200 ds before now, and no longer before now than its X lies after its CI. -/
structure OrderLaw (s : State) : Prop where
  order : s.pu.list.Pairwise (StandsBefore (jnow s))
  created : (s.pu.list.map Entry.seq).Nodup ∧ ∀ e ∈ s.pu.list, e.seq < s.pu.nextSeq
  recent : ∀ e ∈ s.pu.list, ∃ d, d ≤ 6000 + 750 + 1200 ∧ e.expiry = later e.ci d ∧ elapsed (jnow s) e.ci ≤ d

/-- R84, R87 for one channel: the baseline lies within 16,000 to 110,000 (the eighth law); so does the period of a
last sample that was valid; and a tuning has summed as many such periods as its valid run counts. -/
structure ChannelLaw (r : DetRec) : Prop where
  baseline : ∀ b, r.baseline = some b → 16000 ≤ b ∧ b ≤ 110000
  last : r.lastResult = some .valid → ∃ p, r.lastP = some p ∧ 16000 ≤ p ∧ p ≤ 110000
  tuning : r.state = .tuning ∨ r.state = .noisy ∧ r.inner = some .tuning →
    r.validRun ≤ 31 ∧ 16000 * r.validRun ≤ r.tuningSum ∧ r.tuningSum ≤ 110000 * r.validRun

def DetectorLaw (s : State) : Prop := ∀ ch, ChannelLaw (det s ch)

/-- R163: the sub-phase and the closing goal that a mode has. -/
def modeLegal (m : Mfs) : Bool :=
  match m.mode with
  | .startUp => (decide (m.sub = some .suFlash) || decide (m.sub = some .suAllred)) && m.goal.isNone
  | .closing => (decide (m.sub = some .clClearing) || decide (m.sub = some .clAllred)) && m.goal.isSome
  | _ => m.sub.isNone && m.goal.isNone

/-- The first law (R9) with what it rests on: the mode record is legal (R163), groups are out of STOP only in NORMAL
and in the clearing of CLOSING (R26), and a request in flight, one at a time, finds the part in FLASH or DARK with the
receiver in BUSY and no reply formed (R171, R187, R204). -/
structure Orderly (s : State) : Prop where
  mode : modeLegal s.mfs = true
  first : ∀ c g, conflicts s c g = true → ¬((grp s c).state.underWay = true ∧ (grp s g).state.underWay = true)
  rest : s.mfs.mode = .normal ∨ s.mfs.sub = some .clClearing ∨ ∀ g, (grp s g).state = .stop
  flight : inFlight s = true → s.mfs.mode.resting = true ∧ s.clp.receiver = .busy ∧ s.clp.reply = none
  single : s.cs.copy = none ∨ s.cs.validating = false

/-! ## Entry to FLASH or DARK, and replies -/

/-- R163, R139, R67, R148: what an entry to FLASH or DARK writes. -/
structure EntersResting (g : Goal) (s t : State) : Prop where
  sge : t.sge = s.sge
  igm : t.igm = s.igm
  sel : t.sel = s.sel
  fbs : t.fbs = { s.fbs with current := none }
  du : t.du = s.du
  pu : t.pu = { s.pu with list := [], overlay := Vector.replicate 24 Overlay.clear, inhibitUntil := none }
  lou : t.lou = { s.lou with channels := t.lou.channels }
  clp : t.clp = s.clp
  cs : t.cs = s.cs
  fbsDue : t.fbsDue = s.fbsDue
  freeIndex : t.freeIndex = s.freeIndex
  pending : t.pending = s.pending
  mfs : t.mfs = { s.mfs with mode := g.mode, sub := none, goal := none, phaseStart := jnow s,
                             pending := t.mfs.pending, attnLow := t.mfs.attnLow, lastRemoval := t.mfs.lastRemoval }
  lastRemoval : t.mfs.lastRemoval = if s.pu.list = [] then s.mfs.lastRemoval else some .flushed
  attn : t.mfs.attnLow = unmaskedSummary t.mfs 0
  events : t.mfs.pending = s.mfs.pending.map
    (fun p => p ||| (1#11 ||| if s.pu.list = [] then 0#11 else 0x20#11))
  lamps : ∀ ch, lamp t ch = recommand (jnow s) (derivedCommand t ch) (lamp s ch)

/-- R187, R188: the link port once a request of kind `k` has been answered: BUSY, the buffer empty, the reply formed
with the outcome first, LDIR high until it is sent (log entry 16). -/
def answered (k : RequestKind) (v : Verdict) (fields : List Byte) (c : Clp) : Clp :=
  { c with receiver := .busy, buffer := [], reply := some { kind := k.byte + 0x80, payload := v.byte :: fields },
           ldir := true }

/-- R187: the link port once a request that takes time has been taken: BUSY, with no reply yet. -/
def awaiting (c : Clp) : Clp := { c with receiver := .busy, buffer := [], reply := none, ldir := false }

/-- R189, R194, R195: the request row that a frame's kind byte and payload spell from a station, for a payload of the
kind's length whose flag and presence bytes are 0 or 1 and whose goal or "by" byte is one of those listed. -/
def requestOf (i : Station) (kind : Byte) (payload : List Byte) : Option Instr :=
  let n := number i
  match kindOf kind, payload with
  | some .readStatus, [] => some (.readStatus n)
  | some .readGroups, [g] => some (.readGroups n g)
  | some .readDetectors, [ch] => some (.readDetectors n ch)
  | some .readPriority, [part] => some (.readPriority n part)
  | some .readFaults, [k] => some (.readFaults n k)
  | some .readEvents, [] => some (.readEvents n)
  | some .clearEvents, [a, b, given, c, d] => (flagOf given).map fun f => .clearEvents n (a ++ b) f (c ++ d)
  | some .takeSelector, [r] => some (.takeSelector n r)
  | some .releaseSelector, [] => some (.releaseSelector n)
  | some .setStage, [a, b, c] => some (.setStage n (a ++ b ++ c))
  | some .selectStage, [k] => some (.selectStage n k)
  | some .callGroups, [a, b, c] => some (.callGroups n (a ++ b ++ c))
  | some .modeRequest, [goal] =>
    if goal = 0 then some (.modeRequestFlash n) else if goal = 1 then some (.modeRequestDark n)
    else if goal = 2 then some (.modeRequestResume n) else none
  | some .clearFaults, [a, b, given, c, d] => (flagOf given).map fun f => .clearFaults n (a ++ b) f (c ++ d)
  | some .setDim, [v] => some (.setDim n v)
  | some .enablePriority, [e] => some (.enablePriority n e)
  | some .readConfig, [b, k] => some (.readConfig n b k)
  | some .writeConfig, b :: k :: record => some (.writeConfig n b k record)
  | some .checkIn, [i1, i2, route, approach, l1, l2, special, dp, d1, d2, d3, vp, v1, v2] =>
    match flagOf special, optionalOf dp (d1 ++ d2 ++ d3 : BitVec 24), optionalOf vp (v1 ++ v2 : BitVec 16) with
    | some f, some d, some v => some (.checkIn n (i1 ++ i2) route approach (l1 ++ l2) f d v)
    | _, _, _ => none
  | some .checkOut, [i1, i2, approach] => some (.checkOut n (i1 ++ i2) approach)
  | some .cancelPriority, [sel, v1, v2] =>
    if sel = 0 then some (.cancelPriorityByNumber n (v1 ++ v2))
    else if sel = 1 then some (.cancelPriorityByIdent n (v1 ++ v2)) else none
  | _, _ => none

/-- The station number and the request kind of a request row; `none` for a row that is no request. -/
def requestRow : Instr → Option (Nat × RequestKind)
  | .readStatus n => some (n, .readStatus)
  | .readGroups n _ => some (n, .readGroups)
  | .readDetectors n _ => some (n, .readDetectors)
  | .readPriority n _ => some (n, .readPriority)
  | .readFaults n _ => some (n, .readFaults)
  | .readEvents n => some (n, .readEvents)
  | .clearEvents n _ _ _ => some (n, .clearEvents)
  | .takeSelector n _ => some (n, .takeSelector)
  | .releaseSelector n => some (n, .releaseSelector)
  | .setStage n _ => some (n, .setStage)
  | .selectStage n _ => some (n, .selectStage)
  | .callGroups n _ => some (n, .callGroups)
  | .modeRequestFlash n | .modeRequestDark n | .modeRequestResume n => some (n, .modeRequest)
  | .clearFaults n _ _ _ => some (n, .clearFaults)
  | .setDim n _ => some (n, .setDim)
  | .enablePriority n _ => some (n, .enablePriority)
  | .readConfig n _ _ => some (n, .readConfig)
  | .writeConfig n _ _ _ => some (n, .writeConfig)
  | .checkIn n _ _ _ _ _ _ _ => some (n, .checkIn)
  | .checkOut n _ _ => some (n, .checkOut)
  | .cancelPriorityByNumber n _ | .cancelPriorityByIdent n _ => some (n, .cancelPriority)
  | .reset .. | .powerUpCheckCompletion | .junctionClockAdvance .. | .dimBoundary | .flashToggle | .groupStart ..
  | .prepareEnd .. | .minProceedEnd .. | .maxOut .. | .clearanceEnd .. | .holdEnd | .recallInhibitEnd | .expiry
  | .gapOut .. | .silenceExpiry .. | .suFlashEnd | .suAllredEnd | .clAllredEnd | .overcurrentTrip .. | .tripRetry ..
  | .tripCounterReset .. | .detectorClockAdvance .. | .externalFault | .loopSample .. | .loopLongPresence ..
  | .contactSample .. | .contactLongPresence .. | .windowClose .. | .armingLapse | .frameReceived ..
  | .linkSilenceTimeout | .frameOverrun | .replySent | .validationCompletion | .nonvolatileCopyCompletion
  | .byteReceived .. => none

/-! ## What a walk decides (R124 to R130) -/

/-- R127, R128: the gate is open to an entry. -/
def GateOpen (m : State) (e : Entry) : Prop :=
  m.mfs.mode = .normal ∧ m.pu.enabled = true ∧ e.rank ≤ m.sel.rank

/-- R128 step 3: the tram group `t` of the entry at place `k` conflicts with that of an entry that acts after the walk,
and that stands before it or was committed before the walk. `l` is the list after the walk. -/
def Crossed (m : State) (l : List Entry) (k : Nat) (t : Group) : Prop :=
  ∃ (j : Nat) (x y : Entry) (st : EntryState) (c : Group), m.pu.list[j]? = some x ∧ l[j]? = some y ∧
    y.state = some st ∧ st.acting = true ∧ (j < k ∨ committed m x = true) ∧ entryGroup m x = some c ∧
    conflicts m c t = true

/-- R41, R42: `off` is the offset of P from now, the largest of the terms, none below 0. -/
def IsProjection (m : State) (t : Group) (off : Nat) : Prop :=
  let term (x : Time) : Nat := (x - jnow m).toInt.toNat
  let clear (c : Group) : Time :=
    projectedEnd m c + BitVec.ofNat 32 (intergreenTime m c t) - BitVec.ofNat 32 (prepareTime m.cs.image t)
  (term (ownRest m t) ≤ off ∧
    ∀ c, conflicts m c t = true → term (projectedEnd m c) ≤ off ∧ term (clear c) ≤ off) ∧
  (off = term (ownRest m t) ∨
    ∃ c, conflicts m c t = true ∧ (off = term (projectedEnd m c) ∨ off = term (clear c)))

/-- What a walk at `m` makes of the entry `e` at place `k`: the entry `f`. `l` is the list and `i` the inhibit-until
after the walk, and `leave` says that it is the walk of the end of the recall inhibit. That the hold-until is absent in
WAITING, NOTED, RECALLING and RELEASED is log entry 9. -/
structure WalkDecides (leave : Bool) (m : State) (l : List Entry) (i : Option Time) (k : Nat) (e f : Entry) : Prop where
  /-- R126: a RELEASED entry is skipped. -/
  skipped : e.state = some .released → f = e
  /-- R127, R128 step 1. -/
  rank3 : e.state ≠ some .released → e.rank = 3 → f = { e with state := some .noted, holdUntil := none }
  /-- R127 step 2, R128 step 2: the first reason that holds. -/
  gated : e.state ≠ some .released → e.rank ≠ 3 → ¬GateOpen m e →
    f = { e with holdUntil := none, state := some (.waiting
      (if m.mfs.mode ≠ .normal then .mode else if m.pu.enabled = false then .disabled else .rank)) }
  /-- R127 step 4: a committed recall stands. -/
  recalling : e.rank ≠ 3 → GateOpen m e → e.state = some .recalling → committed m e = true → f = e
  /-- R127 step 3: the group is lost; an entry whose approach names none has lost it (log entry 33). -/
  lost : e.rank ≠ 3 → GateOpen m e → e.state = some .extending ∨ e.state = some .serving →
    (∀ t, entryGroup m e = some t → (grp m t).state.underWay = false) →
    f = { e with state := some .released, holdUntil := none }
  /-- R127 step 4, R129, R132: the hold refreshed, or ended where it is not after now and is not left to a hold end. -/
  refreshed : ∀ t h, e.rank ≠ 3 → GateOpen m e → entryGroup m e = some t → (grp m t).state.underWay = true →
    e.state = some .serving ∧ h = some (earlierOf (jnow m) e.need (holdBound m t e.approach)) ∨
      e.state = some .extending ∧ h = (if extensionFits m t e then some e.need else e.holdUntil) →
    (∀ u, h = some u → isAfter (jnow m) u = true → f = { e with holdUntil := some u }) ∧
    ((∀ u, h = some u → isAfter (jnow m) u = false) →
      (leave = true → e.state = some .serving → ∀ x, e.holdUntil = some x → isAfter (jnow m) x = true) →
      f = { e with state := some .released, holdUntil := none })
  /-- R131: the walk of the end of the recall inhibit leaves a SERVING entry whose hold-until has been reached to the hold
  end of the same count (log entry 35). -/
  left : ∀ t x, leave = true → e.rank ≠ 3 → GateOpen m e → entryGroup m e = some t → (grp m t).state.underWay = true →
    e.state = some .serving → e.holdUntil = some x → isAfter (jnow m) x = false →
    f = { e with holdUntil := some (earlierOf (jnow m) e.need (holdBound m t e.approach)) }
  /-- An entry whose approach names no tram group waits with NO_FIT, which is the model's own: no rule says it, and no
  write brings it about with the list not empty (log entry 33). -/
  groupless : e.rank ≠ 3 → GateOpen m e → entryGroup m e = none → e.state ≠ some .released → e.state ≠ some .extending →
    e.state ≠ some .serving → f = { e with state := some (.waiting .noFit), holdUntil := none }
  /-- R128 step 3. -/
  crossed : ∀ t, e.rank ≠ 3 → GateOpen m e → e.state ≠ some .released → committed m e = false →
    entryGroup m e = some t → Crossed m l k t → f = { e with state := some (.waiting .blocked), holdUntil := none }
  /-- R129. -/
  underWay : ∀ t, e.rank ≠ 3 → GateOpen m e → e.state ≠ some .released → committed m e = false →
    entryGroup m e = some t → ¬Crossed m l k t → (grp m t).state.underWay = true →
    f = if isAfter (jnow m) e.need = true ∧ offset (jnow m) e.need ≤ offset (jnow m) (holdBound m t e.approach) then
        { e with state := some .extending, holdUntil := some e.need }
      else { e with state := some (.waiting .noFit), holdUntil := none }
  /-- R130: the inhibit, or the recall with its projected green and LATE. -/
  resting : ∀ t, e.rank ≠ 3 → GateOpen m e → e.state ≠ some .released → committed m e = false →
    entryGroup m e = some t → ¬Crossed m l k t → (grp m t).state.underWay = false →
    ((∃ u, i = some u ∧ isAfter (jnow m) u = true) → e.rank ≠ 0 →
      f = { e with state := some (.waiting .inhibited), holdUntil := none }) ∧
    ((∀ u, i = some u → isAfter (jnow m) u = false) ∨ e.rank = 0 → ∀ off g, IsProjection m t off →
      g = jnow m + BitVec.ofNat 32 (off + prepareTime m.cs.image t) →
      f = { e with state := some .recalling, holdUntil := none, projGreen := some g
                   late := decide (offset (jnow m) e.la < offset (jnow m) g) })

/-- R124: the overlay record that the acting entries of the list place on a group. -/
structure OverlayFormed (t : State) (g : Group) : Prop where
  call : (ovl t g).call = true ↔ ∃ e ∈ t.pu.list, e.state = some .recalling ∧ entryGroup t e = some g
  truncate : (ovl t g).truncate = true ↔ (grp t g).state.underWay = true ∧
    ∃ e ∈ t.pu.list, ∃ c, e.state = some .recalling ∧ entryGroup t e = some c ∧ conflicts t c g = true
  block : (ovl t g).block = true ↔ ∃ e ∈ t.pu.list, ∃ c, entryGroup t e = some c ∧ conflicts t c g = true ∧
    (e.state = some .recalling ∧ (grp t g).state.underWay = false ∨ e.state = some .serving)
  hold : ∀ h, (ovl t g).holdUntil = some h →
    ∃ e ∈ t.pu.list, (e.state = some .extending ∨ e.state = some .serving) ∧ entryGroup t e = some g ∧
      e.holdUntil = some h
  latest : ∀ e ∈ t.pu.list, ∀ u, e.state = some .extending ∨ e.state = some .serving → entryGroup t e = some g →
    e.holdUntil = some u → ∃ h, (ovl t g).holdUntil = some h ∧ offset (jnow t) u ≤ offset (jnow t) h

/-! ## Gap exits (R69, R98) -/

/-- R69: the channel is an extension detector of the group, its conditions written out. -/
def Extends (m : Image) (ch : Channel) (g : Group) : Prop :=
  channelKind m ch ≠ .unused ∧ (channelRole m ch = .extend ∨ channelRole m ch = .demandExtend) ∧ g ∈ groupRefs m ch ∧
    (groupKind m g = .walk → channelKind m ch = .contact)

/-- R69, R98: what an arrival from `s` to `t` at the channel leaves of the last gap exits. Where the channel posts an exit
or stops counting as occupied (`noted`), that of each group whose extension detector it is becomes the present junction
time; every other one stands. -/
def GapNoted (ch : Channel) (noted : Prop) (s t : State) : Prop :=
  ∀ g : Group, (Extends s.cs.image ch g → noted → t.fbs.lastGapExit[g] = some (jnow s)) ∧
    (¬Extends s.cs.image ch g ∨ ¬noted → t.fbs.lastGapExit[g] = s.fbs.lastGapExit[g])

/-! ## Validation (R208) -/

/-- R208 check 8, R201: the bytes of a field lie outside what the field may hold. The slots of a group reference past its
count hold 0 (log entry 21). -/
def Field.Outside : Field → List Byte → Prop
  | .num _ lo hi, b => bytesNat b < lo ∨ hi < bytesNat b
  | .code n, b => n ≤ (b.headD 0).toNat
  | .flag, b => 1 < (b.headD 0).toNat
  | .silence, b => bytesNat b ≠ 0 ∧ (bytesNat b < 10 ∨ 600 < bytesNat b)
  | .groups, _ => False
  | .entry, b => 250 < bytesNat b ∧ bytesNat b ≠ 255
  | .channel, b => 1 < (b.headD 0).toNat ∨ (b.headD 0 = 1 ∧ (bytesNat b.tail < 1 ∨ 32 < bytesNat b.tail)) ∨
      (b.headD 0 = 0 ∧ bytesNat b.tail ≠ 0)
  | .refs, b => 4 < (b.headD 0).toNat ∨ (∃ x ∈ b.tail, 24 < x.toNat) ∨ ∃ x ∈ b.tail.drop (b.headD 0).toNat, x ≠ 0

/-- R208: the image fails the check of a number. `entry c g` is IG(c,g) as stored, 255 for absent; `tram a` is the tram
group of an approach as stored; `role a o` is the channel that an approach whose tram group is not 0 names in the role
whose presence byte is byte `o` of its record: 1, 3 or 5. Kinds are read as the blocks read them and numbers as stored
(log entry 22, DEDUCED). -/
def FailsCheck (m : Image) : Nat → Prop :=
  let entry (c g : Group) : Nat := imageNum m (matrixBase c + g.val) 1
  let tram (a : Approach) : Nat := imageNum m (approachBase a) 1
  let role (a : Approach) (o : Nat) (n : Nat) : Prop := tram a ≠ 0 ∧ (o = 1 ∨ o = 3 ∨ o = 5) ∧
    imageByte m (approachBase a + o) = 1 ∧ imageNum m (approachBase a + o + 1) 1 = n
  fun
  | 1 => (∃ c g, c ≠ g ∧ entry c g ≠ 255 ∧ entry g c = 255) ∨ (∃ g, entry g g ≠ 255) ∨
      ∃ c g, entry c g ≠ 255 ∧ (groupKind m c = .none ∨ groupKind m g = .none)
  | 2 => ∃ c g, entry c g ≠ 255 ∧ entry c g < imageNum m (groupBase c + 6) 2
  | 3 => ∃ g, groupKind m g ≠ .none ∧ (groupKind m g = .tram ∧ imageNum m (groupBase g + 4) 2 = 0 ∨
      imageNum m (groupBase g + 4) 2 ≠ 0 ∧ imageNum m (groupBase g + 4) 2 < imageNum m (groupBase g + 2) 2)
  | 4 => ∃ (n : Stage) (c g : Group), inSet (storedStage m n) c = true ∧ inSet (storedStage m n) g = true ∧
      entry c g ≠ 255
  | 5 => (∃ (a : Approach) (g : Group), tram a = number g ∧ groupKind m g ≠ .tram) ∨
      (∃ a o n, role a o n ∧ ∀ ch : Channel, number ch = n → channelKind m ch ≠ .loop) ∨
      ∃ a b o q n, role a o n ∧ role b q n ∧ (a ≠ b ∨ o ≠ q)
  | 6 => ∃ a : Approach, 1 ≤ tram a ∧ tram a ≤ 24 ∧
      imageNum m (approachBase a + 14) 2 ≤ imageNum m (approachBase a + 12) 2
  | 7 => ∃ (ch : Channel) (k : Nat), channelKind m ch ≠ .unused ∧ k < 4 ∧ k < imageNum m (detectorBase ch + 6) 1 ∧
      (imageByte m (detectorBase ch + 7 + k) = 0 ∨
        ∃ g : Group, (imageByte m (detectorBase ch + 7 + k)).toNat = number g ∧ groupKind m g = .none)
  | 8 => ∃ p ∈ allPlaces, ∃ f ∈ recordFields p (recordBytes m p), f.1.Outside f.2
  | _ => False

/-! ## A check-in made by the loops (R109 to R111, R116, R122) -/

/-- What a check-in made by the loops of approach `a` at `s` leaves in `t`, with its ETA before the clamp of R110, its
flags, and the armed-A time that the approach has afterwards. A full list takes it by a displacement (R122), at the rank
of R113, and it stands where R119 places it; `seq`, its place in creation order, is the model's own (log entry 27). -/
structure LoopCheckedIn (a : Approach) (eta : Nat) (clamped single : Bool) (armed : Option Time) (s t : State) : Prop where
  admitted : s.mfs.mode = .startUp ∨ s.mfs.mode = .normal → s.pu.list.length < 8 → ∀ n,
    n = freeNumber s.pu.nextEntry s.pu.list →
    t.pu.nextEntry = n + 1 ∧ apr t a = { apr s a with armedA := armed } ∧
    PlacedIn (jnow s) { newEntry s.cs.image .loop none none a (max (loopRank s.cs.image a) 1) (jnow s)
      (max 1 (min 6000 eta)) clamped single with number := n, seq := s.pu.nextSeq } s.pu.list t.pu.list
  displaced : s.mfs.mode = .startUp ∨ s.mfs.mode = .normal → 8 ≤ s.pu.list.length → ∀ n last,
    s.pu.list.getLast? = some last → max (loopRank s.cs.image a) 1 < last.rank →
    n = freeNumber s.pu.nextEntry s.pu.list.dropLast →
    t.pu.nextEntry = n + 1 ∧ apr t a = { apr s a with armedA := armed } ∧
    (∀ j : Station, (t.mfs.pending[j]).getLsbD Event.priorityDropped.code.val = true) ∧
    PlacedIn (jnow s) { newEntry s.cs.image .loop none none a (max (loopRank s.cs.image a) 1) (jnow s)
      (max 1 (min 6000 eta)) clamped single with number := n, seq := s.pu.nextSeq } s.pu.list.dropLast t.pu.list
  refused : (s.mfs.mode ≠ .startUp ∧ s.mfs.mode ≠ .normal) ∨
      (8 ≤ s.pu.list.length ∧ ∀ last, s.pu.list.getLast? = some last → last.rank ≤ max (loopRank s.cs.image a) 1) →
    t.pu.list.map Entry.core = s.pu.list.map Entry.core ∧ t.pu.nextEntry = s.pu.nextEntry ∧
    apr t a = { apr s a with
      armedA := armed
      dropped := if (apr s a).dropped = 0xFFFF#16 then (apr s a).dropped else (apr s a).dropped + 1 }

/-! ## What a detection may bring

A fault detection, a red-out or a recovery may bring fault entry and changed inhibits on top of what follows an
arrival (R23, R158, R175, R176). `Shuts` says what these leave alone. -/

/-- A lamp record but for the fields that commands, drive changes and red-out write: command, output, settling and
the consecutive-lit counter. -/
def LampRec.core (r : LampRec) : LampRec := { r with command := .off, output := false, settling := false, litCount := 0 }

/-- A group record after what a detection may bring: no group comes under way, and a group in STOP keeps its
times. -/
structure GroupShuts (now : Time) (a b : GroupRec) : Prop where
  underWay : b.state.underWay = true → b.state = a.state
  clearance : b.state = .clearance → a.state = .clearance ∨ a.state = .proceedExt
  stopped : a.state = .stop → b.state = .stop ∧ b.stateEntry = a.stateEntry ∧ b.stopEntry = a.stopEntry ∧
    b.proceedEnd = a.proceedEnd ∧ b.cause = a.cause ∧ b.credit = a.credit
  entered : b.state = a.state ∧ b.stateEntry = a.stateEntry ∧ b.stopEntry = a.stopEntry ∨
    b.state ≠ a.state ∧ b.stateEntry = now ∧ (b.state = .clearance ∨ b.state = .stop ∧ b.stopEntry = now)
  demand : b.demand = a.demand
  proceedStart : b.proceedStart = a.proceedStart
  bonus : b.bonus = a.bonus

/-- `t` is `s` after detections, red-outs, recoveries and all that follows them. -/
structure Shuts (s t : State) : Prop where
  clock : t.sge.clock = s.sge.clock
  igm : t.igm = s.igm
  du : t.du = s.du
  clp : t.clp = s.clp
  cs : t.cs = s.cs
  fbsDue : t.fbsDue = s.fbsDue
  freeIndex : t.freeIndex = s.freeIndex
  pending : t.pending = s.pending
  sel : t.sel = { s.sel with target := t.sel.target, generation := t.sel.generation, reported := t.sel.reported }
  fbs : t.fbs.lastGapExit = s.fbs.lastGapExit
  pu : t.pu = { s.pu with list := t.pu.list, overlay := t.pu.overlay, inhibitUntil := t.pu.inhibitUntil }
  entries : t.pu.list.map Entry.core = s.pu.list.map Entry.core ∨ t.pu.list = []
  lou : t.lou = { s.lou with channels := t.lou.channels, redOut := t.lou.redOut }
  lamps : ∀ ch, (lamp t ch).core = (lamp s ch).core
  pin : t.mfs.fltPulledLow = s.mfs.fltPulledLow
  masks : t.mfs.masks = s.mfs.masks
  /-- The mode stands, or fault entry has taken the part to its fault aspect with every group in STOP. -/
  mode : (t.mfs.mode = s.mfs.mode ∧ t.mfs.sub = s.mfs.sub ∧ t.mfs.goal = s.mfs.goal ∧
      t.mfs.phaseStart = s.mfs.phaseStart) ∨
    (s.mfs.mode.faultEnters = true ∧ t.mfs.mode = (faultAspect s.cs.image).mode ∧ t.mfs.sub = none ∧
      t.mfs.goal = none ∧ t.mfs.fltDriven = true ∧ t.pu.list = [] ∧ ∀ g, (grp t g).state = .stop)
  /-- A latched flag stays latched. -/
  latched : ∀ k : Fin 12, (s.mfs.faults[k]).latched = true → (t.mfs.faults[k]).latched = true
  events : ∀ i : Station, s.mfs.pending[i] &&& ~~~t.mfs.pending[i] = 0
  attn : t.mfs.pending = s.mfs.pending ∧ t.mfs.attnLow = s.mfs.attnLow ∨ t.mfs.attnLow = unmaskedSummary t.mfs 0
  driven : s.mfs.fltDriven = true → t.mfs.fltDriven = true
  groups : ∀ g, GroupShuts (jnow s) (grp s g) (grp t g)
  /-- Every credit that stood within its cap does so again. -/
  credits : CreditLaw s → CreditLaw t
  /-- Where every lamp showed the command derived for it, it does so again. -/
  commands : CommandLaw s → CommandLaw t

end Sys2Proof.Machine
end

