-- ==== Sys2Proof/Certificates/Slice0/Obligations.lean ====
section
/-! DEFINITION. The statements for the provers. `number i` is the manual's number of item `i`, so that a statement
about `number i` covers every item. `Follows own m t` and `Shuts m t` (Safety.lean) say what the rest of an arrival may
do to the record `m` that a command writes, and so give the frame. `answered` (Safety.lean) has LDIR high from the
answering on (log entry 16, DESIGN CHOICE). Log entry numbers stand where a statement rests on a choice of the model. -/

open Sys2Proof Sys2Proof.Machine

/-! ## The step and the queue -/

/-- The command at the front of the queue is run on the state with the queue's rest; an empty queue idles, which is the
model's choice (log entry 1). -/
def Obligations.StepRunsFrontCommandOrIdles : Prop :=
  (∀ (c : Instr) (s : State), step { s with pending := c :: s.pending } = exec c s) ∧
  (∀ s : State, s.pending = [] → step s = .next s)

/-- No command faults or is refused: the manual gives the part no event that stops it. No command touches the queue
either. The queue is the model's own, and that a RESET keeps the commands that stand behind it is the model's choice (log
entry 17). -/
def Obligations.CommandsCompleteAndLeaveQueue : Prop :=
  ∀ (c : Instr) (s : State), ∃ t, exec c s = .next t ∧ t.pending = s.pending

/-! ## Reset -/

/-- R28: the junction clock, every group record and the mode after reset, and the image where no write is in flight. -/
def Obligations.ResetStopsEveryGroup : Prop :=
  ∀ (addr : BitVec 4) (rate : BitVec 2) (s : State), ∃ t, exec (.reset addr rate) s = .next t ∧
    t.sge.clock = 0 ∧
    (∀ g, grp t g = { state := .stop, stateEntry := 0, proceedStart := 0, proceedEnd := 0, stopEntry := 0,
                      demand := false, maxedOut := false, inhibited := false, credit := 0, bonus := 0,
                      cause := none }) ∧
    t.mfs.mode = .powerUp ∧ (∀ g, mayStart t g = false) ∧ (s.cs.copy = none → t.cs.image = s.cs.image)

/-- R30, R45, R66, R78, R102, R104, R145, R162, R163, R173, R178 to R181, R183 to R188, R198, R200: the other blocks after
reset. The level of the FLT pin and the queue stand (log entry 17). The time of the last byte is 0, which is the model's
choice (log entry 16); that no byte is stored and no frame ignored in HUNT follows from R185 and R187. The fields `level`,
`sampled`, `sampleIn`, `nextSeq`, `boundaryDue`, `rearmed` and `fbsDue` are how the model keeps R95, R78, R119, R150, R152
and the advance (log entries 2, 7 and 27). -/
def Obligations.ResetClearsOtherBlocks : Prop :=
  ∀ (addr : BitVec 4) (rate : BitVec 2) (s : State), ∃ t, exec (.reset addr rate) s = .next t ∧
    (∀ c g, intergreen t c g = if c = g then none else some 250) ∧
    (t.sel.owner = .fallback ∧ t.sel.rank = 3 ∧ t.sel.target = 0 ∧ t.sel.generation = 0 ∧ t.sel.reported = false ∧
      t.sel.lastChange = 0 ∧ ∀ n : Stage, t.sel.stages[n] = 0) ∧
    (t.fbs.current = none ∧ ∀ g : Group, t.fbs.lastGapExit[g] = none) ∧
    (t.du.clock = 0 ∧ t.du.sampleIn = 10 ∧ ∀ ch, det t ch =
      { state := if channelKind t.cs.image ch = .loop then .tuning else .vacant, inner := none, baseline := none,
        lastP := none, lastResult := none, lastDeviation := none, validRun := 0, invalidRun := 0, aboveRun := 0,
        belowRun := 0, tuningSum := 0, budget := budgetStart t.cs.image ch, windowStart := 0, entryCount := 0,
        lastEntry := none, lastExit := none, presenceStart := none,
        forced := decide (channelKind t.cs.image ch = .loop), level := none, sampled := false }) ∧
    (t.pu.list = [] ∧ t.pu.nextEntry = 0 ∧ t.pu.inhibitUntil = none ∧ t.pu.enabled = priorityAtStart t.cs.image ∧
      (∀ a, apr t a = { armedA := none, dropped := 0, unmatched := 0 }) ∧ t.pu.nextSeq = 0 ∧
      ∀ g, ovl t g = { holdUntil := none, call := false, block := false, truncate := false }) ∧
    ((∀ ch, lamp t ch = { command := .off, drive := .enabled, output := false, settling := false, sensed := none,
                          result := none, run := none, mismatches := 0, litCount := 0, lastRaised := none, trips := 0,
                          lastTrip := none, retry := none, rearmed := false }) ∧
      t.lou.redOut = 0 ∧ t.lou.dim = .bright ∧ t.lou.pendingDim = none ∧ t.lou.boundaryDue = false ∧ t.fbsDue = false) ∧
    (t.mfs.mode = .powerUp ∧ t.mfs.sub = none ∧ t.mfs.goal = none ∧ t.mfs.phaseStart = 0 ∧
      (∀ k : Fin 12, t.mfs.faults[k] = { latched := false, firstSet := none, detail := 0, count := 0,
                                         masked := false }) ∧
      t.mfs.fltDriven = false ∧ t.mfs.externalRun = 0 ∧ (∀ i : Station, t.mfs.pending[i] = 0 ∧ t.mfs.masks[i] = 0) ∧
      t.mfs.lastRemoval = none ∧ t.mfs.attnLow = false) ∧
    (t.clp.receiver = .hunt ∧ t.clp.buffer = [] ∧ t.clp.ignoring = false ∧ t.clp.lastByte = 0 ∧
      (∀ i, station t i = { lastHeard := 0, silent := false }) ∧ t.clp.discarded = 0 ∧
      t.clp.answered = 0 ∧ t.clp.partAddress = addr ∧ t.clp.rate = rate ∧ t.clp.reply = none ∧ t.clp.ldir = false) ∧
    (t.cs.edited = false ∧ t.cs.mismatch = false ∧ t.cs.copy = none ∧ t.cs.validating = false) ∧
    t.mfs.fltPulledLow = s.mfs.fltPulledLow ∧ t.pending = s.pending

/-- R204: a reset during the nonvolatile copy of a write leaves the record wholly old or wholly new, and every other
byte as it was; which of the two is free (log entry 4). -/
def Obligations.ResetDuringCopyKeepsOldOrNewRecord : Prop :=
  ∀ (n : Nat) (block index : Byte) (bs : List Byte) (addr : BitVec 4) (rate : BitVec 2) (s t u : State),
    imageWf s.cs.image = true → s.cs.copy = none →
    exec (.writeConfig n block index bs) s = .next t → t.cs.copy.isSome = true →
    exec (.reset addr rate) t = .next u →
    u.cs.storedCrc = s.cs.storedCrc ∧
    ((∀ a, imageByte u.cs.image a = imageByte s.cs.image a) ∨ ∀ a, imageByte u.cs.image a = imageByte t.cs.image a)

/-! ## The power-up check -/

/-- R164, R165, R206, R29, R56, R55: a match with start mode RUN and no critical flag. The stop lamps are taken to be
ENABLED where the all-red starts at once, for a stop lamp that is not makes its group red-out (R158). -/
def Obligations.PowerUpMatchStartsUp : Prop :=
  ∀ s : State, s.mfs.mode = .powerUp → imageCrc s.cs.image = s.cs.storedCrc → criticalLatched s = false →
    startMode s.cs.image = .run →
    (startUpFlashTime s.cs.image = 0 → ∀ g, (lamp s (stopLamp g)).drive = .enabled) →
    ∃ t, exec .powerUpCheckCompletion s = .next t ∧
      t.mfs.mode = .startUp ∧ t.mfs.goal = none ∧ t.mfs.phaseStart = jnow s ∧
      t.mfs.sub = some (if startUpFlashTime s.cs.image = 0 then .suAllred else .suFlash) ∧
      (∀ c g, intergreen t c g = if c = g then none else storedEntry s.cs.image c g) ∧
      (∀ n : Stage, t.sel.stages[n] = storedStage s.cs.image n) ∧
      (t.sel.owner, t.sel.rank) =
        (if (station s 0).silent = false then (Owner.controller, authorityRank s.cs.image 0) else (Owner.fallback, 3)) ∧
      t.sel.target = 0 ∧ t.sel.generation = s.sel.generation + 1 ∧ t.sel.reported = false ∧
      t.mfs.faults = s.mfs.faults ∧ t.mfs.fltDriven = s.mfs.fltDriven ∧ t.cs = s.cs ∧ t.du = s.du ∧ t.clp = s.clp ∧
      t.sge.clock = s.sge.clock ∧ t.lou.redOut = s.lou.redOut

/-- R164, R206: a mismatch goes to DARK with CONFIG_CRC raised, FLT driven and the marker set, and loads nothing.
R164: a match with start mode HOLD, or with a critical flag latched, enters the fault aspect with the working copies
loaded; no flag is raised and FLT stands. -/
def Obligations.PowerUpMismatchOrHoldRests : Prop :=
  (∀ s : State, s.mfs.mode = .powerUp → imageCrc s.cs.image ≠ s.cs.storedCrc →
      ∃ t, exec .powerUpCheckCompletion s = .next t ∧
        t.mfs.mode = .dark ∧ t.mfs.sub = none ∧ t.mfs.goal = none ∧ t.mfs.phaseStart = jnow s ∧
        t.mfs.fltDriven = true ∧ t.mfs.faults[FaultKind.configCrc.code].latched = true ∧
        (∀ k : Fin 12, k ≠ FaultKind.configCrc.code → t.mfs.faults[k] = s.mfs.faults[k]) ∧
        t.cs = { s.cs with mismatch := true } ∧ t.igm = s.igm ∧ t.sel = s.sel ∧ t.sge = s.sge ∧ t.du = s.du ∧
        t.clp = s.clp ∧ (∀ ch, (lamp t ch).command = .off)) ∧
  (∀ s : State, s.mfs.mode = .powerUp → imageCrc s.cs.image = s.cs.storedCrc →
      criticalLatched s = true ∨ startMode s.cs.image = .hold →
      ∃ t, exec .powerUpCheckCompletion s = .next t ∧
        t.mfs.mode = (faultAspect s.cs.image).mode ∧ t.mfs.sub = none ∧ t.mfs.goal = none ∧
        t.mfs.phaseStart = jnow s ∧ t.mfs.faults = s.mfs.faults ∧ t.mfs.fltDriven = s.mfs.fltDriven ∧
        (∀ c g, intergreen t c g = if c = g then none else storedEntry s.cs.image c g) ∧
        (∀ n : Stage, t.sel.stages[n] = storedStage s.cs.image n) ∧
        t.cs = s.cs ∧ t.du = s.du ∧ t.clp = s.clp ∧ t.sge.clock = s.sge.clock)

/-! ## Group starts and phases -/

/-- R9: the start arbiter picks groups that meet every condition of R8, no two of which conflict, and passes over a
group that meets them only for one that it considers earlier and that conflicts with it.
R8, R11: a group that the arbiter picks starts, into PREPARE, or into PROCEED_MIN where its prepare time is 0; a
group that does not meet R8 is not started. -/
def Obligations.GroupStartByArbiter : Prop :=
  (∀ s : State,
      (∀ g ∈ arbiterPicks s, mayStart s g = true) ∧
      (∀ c ∈ arbiterPicks s, ∀ g ∈ arbiterPicks s, conflicts s c g = false) ∧
      (∀ g, mayStart s g = true → g ∉ arbiterPicks s →
        ∃ c ∈ arbiterPicks s, conflicts s c g = true ∧ startsBefore s c g = true)) ∧
  (∀ (g : Group) (s : State),
      (g ∈ arbiterPicks s → ∃ t, exec (.groupStart (number g)) s = .next t ∧
        Follows (· == g) (setGrp s g
          (if prepareTime s.cs.image g = 0 then
            { grp s g with state := .proceedMin, stateEntry := jnow s, proceedStart := jnow s, demand := false,
                           bonus := (grp s g).credit, credit := 0, maxedOut := false }
          else { grp s g with state := .prepare, stateEntry := jnow s })) t) ∧
      ((grp s g).state ≠ .stop ∨ s.mfs.mode ≠ .normal ∨ groupKind s.cs.image g = .none ∨ wanted s g = false ∨
          (grp s g).inhibited = true ∨ eligible s g = false →
        exec (.groupStart (number g)) s = .next s))

/-- R10, R11: PREPARE ends into PROCEED_MIN when the prepare time has run.
R12 to R14, R24: PROCEED_MIN ends when the min proceed has run, into PROCEED_EXT, or into CLEARANCE at once where
a termination condition holds then, with the first such cause. With no cause then, no entry on the list and the
sequencer not acting, the group stays in PROCEED_EXT. -/
def Obligations.PrepareAndMinProceedEnd : Prop :=
  (∀ (g : Group) (s : State), (grp s g).state = .prepare →
    prepareTime s.cs.image g ≤ elapsed (jnow s) (grp s g).stateEntry →
    ∃ t, exec (.prepareEnd (number g)) s = .next t ∧
      Follows (· == g) (setGrp s g
        { grp s g with state := .proceedMin, stateEntry := jnow s, proceedStart := jnow s, demand := false,
                       bonus := (grp s g).credit, credit := 0, maxedOut := false }) t) ∧
  ∀ (g : Group) (s m : State), (grp s g).state = .proceedMin →
    minProceed s.cs.image g ≤ elapsed (jnow s) (grp s g).proceedStart →
    m = setGrp s g { grp s g with state := .proceedExt, stateEntry := jnow s } →
    ∃ t, exec (.minProceedEnd (number g)) s = .next t ∧
      (terminationCause m g = none → Follows (· == g) m t ∧
        (fbsActs s = false → s.pu.list = [] → (grp t g).state = .proceedExt)) ∧
      ∀ c, terminationCause m g = some c →
        Follows (· == g) (postIf (decide (c = .max)) .groupMaxedOut (setGrp s g
          { grp s g with
            state := .clearance, stateEntry := jnow s, proceedEnd := jnow s, cause := some c
            maxedOut := (grp s g).maxedOut || decide (c = .max)
            credit := if c = .priorityTruncate then
              min ((grp s g).credit + compensationFor m g) (compensationCap s.cs.image g) else (grp s g).credit })) t

/-- R13 to R15: a group in PROCEED_EXT that meets the five conditions of the max-out, with no earlier cause of R14,
terminates with cause MAX, is maxed out, and GROUP_MAXED_OUT is posted. The maxed-out flag stands at the end of the
arrival, but where the fallback sequencer acts, whose new target of the same arrival may clear it (R18, R75). -/
def Obligations.MaxOutEndsProceed : Prop :=
  ∀ (g : Group) (s : State), (grp s g).state = .proceedExt → (grp s g).inhibited = false → s.mfs.mode ≠ .closing →
    maxProceed s.cs.image g ≠ 0 →
    maxProceed s.cs.image g + (grp s g).bonus ≤ elapsed (jnow s) (grp s g).proceedStart →
    (∃ c, conflicts s c g = true ∧ (grp s c).demand = true) → holdRunning s g = false → wanted s g = true →
    ∃ t, exec (.maxOut (number g)) s = .next t ∧
      Follows (· == g) (post .groupMaxedOut (setGrp s g
        { grp s g with state := .clearance, stateEntry := jnow s, proceedEnd := jnow s, cause := some .max,
                       maxedOut := true })) t ∧
      (fbsActs s = false → (grp t g).maxedOut = true)

/-- R16, R168: CLEARANCE ends into STOP when the clearance time has run, in every mode. In the clearing of CLOSING the
part then begins CL_ALLRED where every group stands in STOP, and otherwise stays in CL_CLEARING. A stop lamp that cannot
be driven may bring a red-out (R158) and with it fault entry, which `Shuts` allows for; with the stop lamp drivable there
is none of these. -/
def Obligations.ClearanceEndEntersStop : Prop :=
  ∀ (g : Group) (s m : State), (grp s g).state = .clearance →
    clearanceTime s.cs.image g ≤ elapsed (jnow s) (grp s g).proceedEnd →
    m = setGrp s g { grp s g with state := .stop, stateEntry := jnow s, stopEntry := jnow s } →
    ∃ t, exec (.clearanceEnd (number g)) s = .next t ∧
      (s.mfs.mode ≠ .closing ∨ s.mfs.sub ≠ some .clClearing → Shuts m t) ∧
      (s.mfs.mode = .closing → s.mfs.sub = some .clClearing →
        (∃ u, Shuts m u ∧
          (u.mfs.mode = .closing → (∀ c, (grp u c).state = .stop) →
            t = setMode .closing (some .clAllred) u.mfs.goal u) ∧
          (u.mfs.mode ≠ .closing ∨ (∃ c, (grp u c).state ≠ .stop) → t = u)) ∧
        ((lamp s (stopLamp g)).drive = .enabled →
          grp t g = { grp s g with state := .stop, stateEntry := jnow s, stopEntry := jnow s } ∧
          t.mfs.mode = .closing ∧ t.mfs.goal = s.mfs.goal ∧
          ((∀ c, c ≠ g → (grp s c).state = .stop) →
            (∀ c, c ≠ g → grp t c = grp s c) ∧ t.mfs.sub = some .clAllred ∧ t.mfs.phaseStart = jnow s) ∧
          ((∃ c, c ≠ g ∧ (grp s c).state ≠ .stop) →
            t.mfs.sub = some .clClearing ∧ t.mfs.phaseStart = s.mfs.phaseStart)))

/-! ## The priority unit's times -/

/-- R133, R134: every EXTENDING or SERVING entry whose hold-until is reached is RELEASED and stays so through the walk
that follows; a SERVING one sets the recall inhibit. The recall inhibit ends when it is reached. The inhibit-until is
then what the first pass of the walk carries on, in which the walk of the end of the inhibit leaves a SERVING entry at its
hold-until to the hold end (R131, log entry 35), where no SERVING entry is left after that pass, or nothing terminates
after the walk; a later walk of the arrival may otherwise raise it again (R127 step 3).
R136, R137: every entry whose X is not after now leaves the list with cause EXPIRED, and no such entry remains. -/
def Obligations.PriorityTimesEndHoldsAndEntries : Prop :=
  (∀ (c : Instr) (s m : State),
      (c = .holdEnd ∧ (∃ e ∈ s.pu.list, holdDue s e = true) ∧ m = { s with pu := { s.pu with
          list := s.pu.list.map fun e =>
            if holdDue s e then { e with state := some .released, holdUntil := none } else e
          inhibitUntil := (s.pu.list.filter (holdDue s)).foldl (fun i e => raiseFor s e i) s.pu.inhibitUntil } }) ∨
        (c = .recallInhibitEnd ∧ (∃ u, s.pu.inhibitUntil = some u ∧ isAfter (jnow s) u = false) ∧
          m = { s with pu := { s.pu with inhibitUntil := none } }) →
      ∃ t, exec c s = .next t ∧ Follows noGroup m t ∧
        (∀ (k : Nat) (e : Entry), c = .holdEnd → s.pu.list[k]? = some e → holdDue s e = true →
          t.pu.list[k]? = some { e with state := some .released, holdUntil := none }) ∧
        ∀ l i b, b = decide (c = .recallInhibitEnd) → (l, i) = firstPass m b m.pu.inhibitUntil m.pu.list →
          (∀ e ∈ l, e.state ≠ some .serving) ∨ (fbsActs s = false ∧ terminating (walkWith b m) = []) →
          t.pu.inhibitUntil = i) ∧
  (∀ s : State, (∃ e ∈ s.pu.list, isAfter (jnow s) e.expiry = false) →
      ∃ t, exec .expiry s = .next t ∧ t.mfs.lastRemoval = some .expired ∧
        (∀ i : Station, (t.mfs.pending[i]).getLsbD Event.priorityRemoved.code.val = true) ∧
        t.pu.list.map Entry.core =
          (s.pu.list.filter fun e => isAfter (jnow s) e.expiry).map Entry.core ∧
        (∀ g, GroupFollows (jnow s) (compensationCap s.cs.image g) (grp s g) (grp t g)) ∧
        t.cs = s.cs ∧ t.du = s.du ∧ t.clp = s.clp ∧ t.mfs.mode = s.mfs.mode ∧ t.sel.owner = s.sel.owner)

/-- R124 to R131, R143: what one walk makes of every entry, in list order, and the overlay table that is then formed,
for the walks of the end of the recall inhibit and of a change of the enable. Where no group changes its state at the
arrival, that walk is its only one. R131: the walk of the end of the inhibit leaves a SERVING entry whose hold-until has
been reached to the hold end of the same count; that it is this walk alone which does so is the model's reading of R131
beside R127 step 4 (log entry 35). Three things in it are the model's own and said by none of these rules: that the
hold-until of an entry is absent in WAITING, NOTED, RECALLING and RELEASED (log entry 9, DEDUCED); what becomes of an
entry whose approach names no tram group, the clause `groupless` (log entry 33); and that a running hold is read from the
table as the walk found it (log entry 28). -/
def Obligations.WalkDecidesEntriesAndOverlay : Prop :=
  ∀ (c : Instr) (s m : State),
    (c = .recallInhibitEnd ∧ (∃ u, s.pu.inhibitUntil = some u ∧ isAfter (jnow s) u = false) ∧
        m = { s with pu := { s.pu with inhibitUntil := none } }) ∨
      (∃ (i : Station) (b : Byte), c = .enablePriority (number i) b ∧ inFlight s = false ∧ (i = 0 ∨ i = 3) ∧
        b.toNat ≤ 1 ∧ s.pu.enabled ≠ decide (b = 1) ∧ m = { s with pu := { s.pu with enabled := decide (b = 1) } }) →
    ∃ t, exec c s = .next t ∧ ((∀ g, (grp t g).state = (grp s g).state) →
      t.pu.list.length = s.pu.list.length ∧
      (∀ (k : Nat) (e f : Entry), m.pu.list[k]? = some e → t.pu.list[k]? = some f →
        WalkDecides (decide (c = .recallInhibitEnd)) m t.pu.list t.pu.inhibitUntil k e f) ∧
      (∀ g, OverlayFormed t g) ∧
      ((∀ (k : Nat) (e f : Entry), m.pu.list[k]? = some e → t.pu.list[k]? = some f → e.state = some .serving →
          f.state ≠ some .released) → t.pu.inhibitUntil = m.pu.inhibitUntil) ∧
      ((∃ (k : Nat) (e f : Entry) (st : EntryState), m.pu.list[k]? = some e ∧ t.pu.list[k]? = some f ∧
          e.state ≠ f.state ∧ f.state = some st ∧ st.acting = true) →
        ∀ j : Station, (t.mfs.pending[j]).getLsbD Event.priorityActed.code.val = true))

/-- R13: terminations are taken. After an accepted target, a CALL_GROUPS, a demand that a detector row sets (R15, R75), a
selector change, an overlay change, a start, the end of a phase, PREPARE, PROCEED_MIN or CLEARANCE, a max-out or a
gap-out, no group in PROCEED_EXT has a condition of R13 left. -/
def Obligations.TerminationsAreTaken : Prop :=
  ∀ (c : Instr) (s : State), ∃ t, exec c s = .next t ∧ (
    (∃ (i : Station) (w : GroupSet), inFlight s = false ∧ i ≠ 1 ∧ c = .callGroups (number i) w) ∨
    (∃ (i : Station) (w : GroupSet) (b : Byte), inFlight s = false ∧ i ≠ 1 ∧
      (c = .setStage (number i) w ∨ c = .selectStage (number i) b) ∧ t.sel.generation ≠ s.sel.generation) ∨
    (∃ (i : Station) (r : Byte), (c = .takeSelector (number i) r ∨ c = .releaseSelector (number i) ∨
        c = .silenceExpiry (number i)) ∧ (t.sel.owner, t.sel.rank) ≠ (s.sel.owner, s.sel.rank)) ∨
    ((c = .holdEnd ∨ c = .recallInhibitEnd ∨ c = .expiry ∨ ∃ i k, requestRow c = some (i, k) ∧
        (k = .checkIn ∨ k = .checkOut ∨ k = .cancelPriority ∨ k = .enablePriority)) ∧ t.pu.overlay ≠ s.pu.overlay) ∨
    (∃ g : Group, c = .groupStart (number g) ∧ g ∈ arbiterPicks s) ∨
    (∃ g : Group, c = .prepareEnd (number g) ∧ (grp s g).state = .prepare ∧
      prepareTime s.cs.image g ≤ elapsed (jnow s) (grp s g).stateEntry) ∨
    (∃ g : Group, c = .minProceedEnd (number g) ∧ (grp s g).state = .proceedMin ∧
      minProceed s.cs.image g ≤ elapsed (jnow s) (grp s g).proceedStart) ∨
    (∃ g : Group, c = .clearanceEnd (number g) ∧ (grp s g).state = .clearance ∧
      clearanceTime s.cs.image g ≤ elapsed (jnow s) (grp s g).proceedEnd) ∨
    (∃ (ch : Channel) (p : Option Nat) (pressed : Bool) (g : Group),
      (c = .loopSample (number ch) p ∨ c = .contactSample (number ch) pressed ∨ c = .loopLongPresence (number ch) ∨
        c = .contactLongPresence (number ch) ∨ c = .windowClose (number ch)) ∧
      (grp s g).demand = false ∧ (grp t g).demand = true) ∨
    (∃ g : Group, c = .maxOut (number g) ∧ (grp s g).state = .proceedExt ∧ maxOutCondition s g = true) ∨
    (∃ (g : Group) (n : Stage), c = .gapOut (number g) ∧ fbsActs s = true ∧ s.fbs.current = some n ∧
      inSet s.sel.stages[n] g = true ∧ gappedOut s g = true) →
    ∀ g, (grp t g).state = .proceedExt →
      (grp t g).inhibited = false ∧ t.mfs.mode ≠ .closing ∧ (wanted t g = true ∨ holdRunning t g = true) ∧
      maxOutCondition t g = false ∧ (ovl t g).truncate = false)

/-- R70, R72, R73: a member of the current stage gaps out; the stage ends where every member is finished and demand
stands outside, and the next stage with demand is written as a new target, which stands at the end of the arrival
where a member of the next stage cannot be finished in it; with no such stage, current stage and target are kept. The
field `fbsDue`, that the sequencer has not taken the present advance, is the model's own (log entry 2). -/
def Obligations.GapOutMayEndStage : Prop :=
  ∀ (g : Group) (n : Stage) (s : State), fbsActs s = true → s.fbs.current = some n →
    inSet s.sel.stages[n] g = true → gappedOut s g = true →
    ∃ t, exec (.gapOut (number g)) s = .next t ∧
      (stageEnds s n = false ∨ nextStage s n = none → Follows noGroup { s with fbsDue := false } t ∧
        (terminating s = [] → t = { s with fbsDue := false })) ∧
      (stageEnds s n = true → ∀ k, nextStage s n = some k →
        Follows noGroup { s with
          fbsDue := false
          fbs := { s.fbs with current := some k }
          sel := { s.sel with target := s.sel.stages[k], generation := s.sel.generation + 1, reported := false } } t ∧
        ((∃ x, inSet s.sel.stages[k] x = true ∧
            ((grp s x).state = .prepare ∨ ((grp s x).state = .proceedMin ∧ maxHasRun s x = false) ∨
              (((grp s x).state = .stop ∨ (grp s x).state = .clearance) ∧ s.pu.list = [] ∧
                groupKind s.cs.image x ≠ .none ∧ (grp s x).inhibited = false ∧ (ovl s x).block = false))) →
          t.fbs.current = some k ∧ t.sel.target = s.sel.stages[k] ∧ t.sel.generation = s.sel.generation + 1))

/-- R67, R68, R62: the sequencer takes over where the selector passes to FALLBACK in NORMAL, by a release or a silence
expiry, and at the entry to NORMAL under FALLBACK. Of the non-empty stages it takes the one with the most proceeding
members, the lowest among equals, and writes its set under a new generation; with every stage empty, the empty
target and no current stage. The choice stands at the end of the arrival where no demand stands outside it. -/
def Obligations.FallbackTakesOver : Prop :=
  ∀ (c : Instr) (o : Option Stage) (w : GroupSet) (s : State),
    (match o with
      | some k => s.sel.stages[k] = w ∧ w ≠ 0 ∧ ∀ j : Stage, s.sel.stages[j] ≠ 0 →
          proceedingMembers s j < proceedingMembers s k ∨ (proceedingMembers s j = proceedingMembers s k ∧ k ≤ j)
      | none => w = 0 ∧ ∀ j : Stage, s.sel.stages[j] = 0) →
    (s.mfs.mode = .normal ∧ (∃ i : Station, s.sel.owner = stationOwner i ∧ i ≠ 1 ∧
        ((station s 0).silent = true ∨ i = 0) ∧
        (c = .releaseSelector (number i) ∧ inFlight s = false ∨
          c = .silenceExpiry (number i) ∧ silenceLimit s.cs.image i ≠ 0 ∧ (station s i).silent = false ∧
            silenceLimit s.cs.image i ≤ elapsed (jnow s) (station s i).lastHeard))) ∨
      (c = .suAllredEnd ∧ s.mfs.mode = .startUp ∧ s.mfs.sub = some .suAllred ∧ s.sel.owner = .fallback ∧
        startUpAllRedTime s.cs.image ≤ elapsed (jnow s) s.mfs.phaseStart ∧ setSize s.lou.redOut < 2) →
    ∃ t, exec c s = .next t ∧ t.sel.owner = .fallback ∧ t.mfs.mode = .normal ∧
      (c = .suAllredEnd → Follows everyGroup (setMode .normal none none { s with
        fbs := { s.fbs with current := o }
        sel := { s.sel with target := w, generation := s.sel.generation + 1, reported := false } }) t) ∧
      (∀ g, GroupFollows (jnow s) (compensationCap s.cs.image g) (grp s g) (grp t g)) ∧
      ((∀ g, o.isSome = true → inSet w g = false → (grp s g).demand = false) →
        t.fbs.current = o ∧ t.sel.target = w ∧ t.sel.generation = s.sel.generation + 1)

/-- R53: the silence expiry of the station that owns the selector passes the owner under the default-owner rule (R51), that
of any other station leaves the selector as it is, and STATION_SILENT is latched and posted, in every mode. The same for
R199 and R173: the station is marked silent, the fault record takes the station as detail, and a station that is silent, or
whose limit is 0 or has not run, has no expiry. -/
def Obligations.SilenceExpiryRevertsSelector : Prop :=
  ∀ (i : Station) (s : State),
    (silenceLimit s.cs.image i = 0 ∨ (station s i).silent = true ∨
        elapsed (jnow s) (station s i).lastHeard < silenceLimit s.cs.image i →
      exec (.silenceExpiry (number i)) s = .next s) ∧
    (silenceLimit s.cs.image i ≠ 0 → (station s i).silent = false →
    silenceLimit s.cs.image i ≤ elapsed (jnow s) (station s i).lastHeard →
    ∃ t, exec (.silenceExpiry (number i)) s = .next t ∧
      t.clp = { s.clp with stations := s.clp.stations.set i.val { station s i with silent := true } } ∧
      t.mfs.faults[FaultKind.stationSilent.code] =
        (let r := s.mfs.faults[FaultKind.stationSilent.code]
         { r with latched := true
                  firstSet := if r.latched then r.firstSet else some (jnow s)
                  detail := r.detail ||| (1#72 <<< i.val)
                  count := if r.count < 255 then r.count + 1 else 255 }) ∧
      (∀ j : Station, (t.mfs.pending[j]).getLsbD Event.stationSilent.code.val = true) ∧
      (t.sel.owner, t.sel.rank) =
        (if ownerStation s.sel.owner = some i then
          (if (station s 0).silent = false ∧ i ≠ 0 then (Owner.controller, authorityRank s.cs.image 0)
           else (Owner.fallback, 3))
        else (s.sel.owner, s.sel.rank)) ∧
      (ownerStation s.sel.owner = some i → t.sel.lastChange = jnow s) ∧
      (ownerStation s.sel.owner ≠ some i → t.sel = s.sel) ∧
      (∀ g, GroupFollows (jnow s) (compensationCap s.cs.image g) (grp s g) (grp t g)) ∧
      t.mfs.mode = s.mfs.mode ∧ t.cs = s.cs ∧ t.du = s.du)

/-! ## Start-up and closing phases -/

/-- R165, R166, R26: the start-up flash time runs out and SU_ALLRED begins; every group's S and E become now and its
maxed-out flag clears. A stop lamp that cannot be driven may bring red-outs and with them fault entry (R158).
R169: the closing all-red of 20 ds runs out and the part enters the closing goal. -/
def Obligations.FlashAndClosingAllRedEnd : Prop :=
  (∀ s : State, s.mfs.sub = some .suFlash → startUpFlashTime s.cs.image ≤ elapsed (jnow s) s.mfs.phaseStart →
      ∃ t, exec .suFlashEnd s = .next t ∧
        Shuts (setGroups (setMode .startUp (some .suAllred) none s) fun g =>
          { grp s g with stopEntry := jnow s, proceedEnd := jnow s, maxedOut := false }) t ∧
        ((∀ g, (lamp s (stopLamp g)).drive = .enabled) →
          t.mfs.mode = .startUp ∧ t.mfs.sub = some .suAllred ∧ t.mfs.phaseStart = jnow s ∧
          t.mfs.faults = s.mfs.faults ∧ (∀ ch, (lamp t ch).command = derivedCommand t ch) ∧
          ∀ g, grp t g = { grp s g with stopEntry := jnow s, proceedEnd := jnow s, maxedOut := false })) ∧
  (∀ (g : Goal) (s : State), s.mfs.sub = some .clAllred → 20 ≤ elapsed (jnow s) s.mfs.phaseStart →
      s.mfs.goal = some g → ∃ t, exec .clAllredEnd s = .next t ∧ EntersResting g s t)

/-- R166, R158, R175, R176: the start-up all-red runs out, into NORMAL, or, with two or more groups red-out, into the
fault aspect with RED_OUT_MULTIPLE latched. -/
def Obligations.StartUpAllRedEndEntersNormal : Prop :=
  ∀ s : State, s.mfs.mode = .startUp → s.mfs.sub = some .suAllred →
    startUpAllRedTime s.cs.image ≤ elapsed (jnow s) s.mfs.phaseStart →
    ∃ t, exec .suAllredEnd s = .next t ∧
      (setSize s.lou.redOut < 2 → Follows everyGroup (setMode .normal none none s) t) ∧
      (2 ≤ setSize s.lou.redOut →
        t.mfs.mode = (faultAspect s.cs.image).mode ∧ t.mfs.sub = none ∧ t.mfs.fltDriven = true ∧ t.pu.list = [] ∧
        t.mfs.faults[FaultKind.redOutMultiple.code].latched = true ∧
        t.mfs.faults[FaultKind.redOutMultiple.code].detail =
          s.mfs.faults[FaultKind.redOutMultiple.code].detail ||| s.lou.redOut.setWidth 72 ∧
        ∀ g, (grp t g).state = .stop)

/-! ## Lamps -/

/-- R155: an overcurrent report on an ENABLED channel trips it: TRIPPED, its output off, settling, one more consecutive
trip, the last trip now, OVERCURRENT raised with the channel as detail and one occurrence more, and a retry in 20 ds; at
the fifth trip the lock of R156 instead. The trip of a stop channel commanded ON makes its group red-out (R158). On a
TRIPPED or LOCKED_OFF channel the report is discarded. -/
def Obligations.OvercurrentTripsChannel : Prop :=
  ∀ (ch : Lamp) (s : State),
    ((lamp s ch).drive = .enabled → ∃ t, exec (.overcurrentTrip (number ch)) s = .next t ∧
      Shuts (latch .overcurrent (1#72 <<< ch.val) (setLamp s ch
        { lamp s ch with
          drive := if 4 ≤ (lamp s ch).trips then .lockedOff else .tripped
          output := false, settling := true
          trips := if (lamp s ch).trips < 5 then (lamp s ch).trips + 1 else 5
          lastTrip := some (jnow s)
          retry := if 4 ≤ (lamp s ch).trips then none else some (jnow s + 20) })) t ∧
      (lamp t ch).output = false ∧ (lamp t ch).settling = true ∧
      t.mfs.faults[FaultKind.overcurrent.code] =
        (let r := s.mfs.faults[FaultKind.overcurrent.code]
         { r with latched := true
                  firstSet := if r.latched then r.firstSet else some (jnow s)
                  detail := r.detail ||| (1#72 <<< ch.val)
                  count := if r.count < 255 then r.count + 1 else 255 }) ∧
      (lampPos ch = 0 → (lamp s ch).command = .on → inSet t.lou.redOut (lampGroup ch) = true)) ∧
    ((lamp s ch).drive ≠ .enabled → exec (.overcurrentTrip (number ch)) s = .next s)

/-- R156, R149: a TRIPPED channel whose retry time is reached is re-enabled, its output following its command; a channel
that is not locked and has run 100 ds since its last trip has its trips forgiven.
R149, R150: the dim boundary, taken once at an advance to a count that is a multiple of 10 (`boundaryDue` is the model's
own mark for that, log entry 2), makes a pending dim state the active one; the flash toggle drives each flashing,
enabled channel with the phase and touches nothing else. -/
def Obligations.LampTimedStepsSwitchChannels : Prop :=
  (∀ (ch : Lamp) (s : State),
      (∀ u, (lamp s ch).drive = .tripped → (lamp s ch).retry = some u → isAfter (jnow s) u = false →
        ∀ o, o = (decide ((lamp s ch).command = .on) ||
          (decide ((lamp s ch).command = .flash) && decide ((jnow s).toNat % 10 < 5))) →
        exec (.tripRetry (number ch)) s = .next (setLamp s ch
          { lamp s ch with drive := .enabled, retry := none, output := o,
                           settling := (lamp s ch).settling || (o != (lamp s ch).output) })) ∧
      (∀ u, (lamp s ch).drive ≠ .lockedOff → 0 < (lamp s ch).trips → (lamp s ch).lastTrip = some u →
        100 ≤ elapsed (jnow s) u →
        exec (.tripCounterReset (number ch)) s = .next (setLamp s ch { lamp s ch with trips := 0 }))) ∧
  (∀ s : State,
      (s.lou.boundaryDue = true → exec .dimBoundary s = .next { s with lou := { s.lou with
        dim := s.lou.pendingDim.getD s.lou.dim, pendingDim := none, boundaryDue := false } }) ∧
      (s.lou.boundaryDue = false → exec .dimBoundary s = .next s) ∧
      ∃ t, exec .flashToggle s = .next t ∧ t = { s with lou := { s.lou with channels := t.lou.channels } } ∧
        ∀ ch, lamp t ch = if (lamp s ch).command = .flash then
            { lamp s ch with output := decide ((lamp s ch).drive = .enabled) && decide ((jnow s).toNat % 10 < 5) }
          else lamp s ch)

/-! ## The junction clock -/

/-- R1, R2, R150, with log entry 2: an advance takes what is due at the old count, counts, ages the stored times, and
evaluates the lamps, which leaves the state `v`.
R72, R73, R75: the current stage then ends at the advance itself where its conditions hold and no member has a row of
its own at this count: a gap-out whose gap time runs out at it, a max-out, or the end of its min proceed (log entry 2);
otherwise `v` stands. At that end the next stage with demand is written as a new target, which stands at the end of the
arrival where a member of the next stage cannot be finished in it; with no such stage, current stage and target are kept.
The field `fbsDue` is the model's own (log entry 2). -/
def Obligations.JunctionClockAdvanceCounts : Prop :=
  ∀ (currents : List Nat) (s v : State), v = evaluateLamps currents (advanceCount (takeDue s)) →
    ∃ t, exec (.junctionClockAdvance currents) s = .next t ∧
    t.sge.clock = s.sge.clock + 1 ∧ v.fbsDue = true ∧
    t.lou.boundaryDue = decide ((s.sge.clock + 1).toNat % 10 = 0) ∧
    (∀ g, elapsed (jnow t) (grp t g).stateEntry ≤ 2 ^ 30 ∧ elapsed (jnow t) (grp t g).stopEntry ≤ 2 ^ 30 ∧
      elapsed (jnow t) (grp t g).proceedStart ≤ 2 ^ 30 ∧ elapsed (jnow t) (grp t g).proceedEnd ≤ 2 ^ 30) ∧
    (∀ g : Group, ∀ x, t.fbs.lastGapExit[g] = some x → elapsed (jnow t) x ≤ 2 ^ 30) ∧
    Shuts (setLamps (advanceCount (takeDue s)) (evaluatedRecord (advanceCount (takeDue s)) currents)) v ∧
    (fbsActs v = false ∨ v.fbs.current = none → t = v) ∧
    (∀ n, v.fbs.current = some n → stageEnds v n = false → t = v) ∧
    (∀ n g, v.fbs.current = some n → inSet v.sel.stages[n] g = true →
      gapRunsOut v g = true ∨ ((grp v g).state = .proceedExt ∧ maxOutCondition v g = true) ∨
        ((grp v g).state = .proceedMin ∧ minProceed v.cs.image g ≤ elapsed (jnow v) (grp v g).proceedStart) → t = v) ∧
    (∀ n, fbsActs v = true → v.fbs.current = some n → stageEnds v n = true →
      (∀ g, inSet v.sel.stages[n] g = true → gapRunsOut v g = false ∧
        ¬((grp v g).state = .proceedExt ∧ maxOutCondition v g = true) ∧
        ¬((grp v g).state = .proceedMin ∧ minProceed v.cs.image g ≤ elapsed (jnow v) (grp v g).proceedStart)) →
      (nextStage v n = none → Follows noGroup { v with fbsDue := false } t ∧
        (terminating v = [] → t = { v with fbsDue := false })) ∧
      ∀ k, nextStage v n = some k → Follows noGroup { v with
          fbsDue := false
          fbs := { v.fbs with current := some k }
          sel := { v.sel with target := v.sel.stages[k], generation := v.sel.generation + 1, reported := false } } t ∧
        ((∃ x, inSet v.sel.stages[k] x = true ∧
            ((grp v x).state = .prepare ∨ ((grp v x).state = .proceedMin ∧ maxHasRun v x = false) ∨
              (((grp v x).state = .stop ∨ (grp v x).state = .clearance) ∧ v.pu.list = [] ∧
                groupKind v.cs.image x ≠ .none ∧ (grp v x).inhibited = false ∧ (ovl v x).block = false))) →
          t.fbs.current = some k ∧ t.sel.target = v.sel.stages[k] ∧ t.sel.generation = v.sel.generation + 1)) ∧
    t.du = s.du ∧ t.cs = s.cs ∧ t.igm = s.igm

/-- R151, R152: at an advance every used channel records the current and its class against the reference, and, unless
it was settling, its run goes on, begins or ends, its consecutive-lit count goes on, ends or stands. The channel raises
when the run reaches its threshold, or when a re-armed run goes on, and not otherwise; the last raised kind is noted then.
R153, R174, R175: a raising latches LAMP_OUT, LAMP_PARTIAL or, for an uncommanded proceed channel, the critical
UNCOMMANDED_PROCEED, with the channel or the group as detail, and counts it; the critical one drives FLT and in START_UP,
NORMAL and CLOSING takes the part to its fault aspect. `u` is the state that the advance evaluates (log entries 2 and 10).
R158, R160: a group whose stop channel, commanded ON, is OUT for the third time becomes red-out; a red-out group whose stop
channel proves LIT for the tenth time leaves the red-out set, and every inhibited flag is computed again (R23); the red-out
set changes for no other group. -/
def Obligations.JunctionClockAdvanceJudgesLamps : Prop :=
  ∀ (currents : List Nat) (ch : Lamp) (s u : State), u = advanceCount (takeDue s) → usedLamp u.cs.image ch = true →
    ∃ t, exec (.junctionClockAdvance currents) s = .next t ∧
      ∀ (i ref : Nat) (res : ProvingResult), i = min 4000 (currents.getD ch.val 0) →
        ref = nominalCurrent u.cs.image (lampGroup ch) (lampPos ch) *
          (match u.lou.dim with | .bright => 100 | .dim => 40) →
        (75 * ref ≤ i * 10000 ↔ res = .lit) → (75 * ref > i * 10000 ∧ i * 10000 ≤ 10 * ref ↔ res = .dark) →
        (lamp t ch).sensed = some i ∧ (lamp t ch).result = some res ∧
        ((lamp u ch).settling = true →
          (lamp t ch).run = (lamp u ch).run ∧ (lamp t ch).mismatches = (lamp u ch).mismatches ∧
          (lamp t ch).lastRaised = (lamp u ch).lastRaised) ∧
        ((lamp u ch).settling = false →
          (((lamp u ch).output = true ∧ res = .lit ∨ (lamp u ch).output = false ∧ res = .dark) →
            (lamp t ch).run = none ∧ (lamp t ch).mismatches = 0 ∧ (lamp t ch).lastRaised = (lamp u ch).lastRaised) ∧
          (∀ m, ((lamp u ch).output = true ∧ (res = .dark ∧ m = .out ∨ res = .partly ∧ m = .partly) ∨
              (lamp u ch).output = false ∧ res ≠ .dark ∧ m = .uncommanded) →
            (lamp t ch).run = some m ∧
            ((lamp u ch).run = some m → (lamp u ch).mismatches < 255 →
              (lamp t ch).mismatches = (lamp u ch).mismatches + 1) ∧
            ((lamp u ch).run ≠ some m → (lamp t ch).mismatches = 1) ∧
            ((lamp u ch).run ≠ some m ∨ ((lamp u ch).mismatches + 1 ≠ (if m = .uncommanded then 2 else 3) ∧
                (lamp u ch).rearmed = false) → (lamp t ch).lastRaised = (lamp u ch).lastRaised) ∧
            ((lamp u ch).run = some m → (lamp u ch).mismatches + 1 = (if m = .uncommanded then 2 else 3) ∨
                (lamp u ch).rearmed = true →
              (lamp t ch).lastRaised = some m ∧
              ∀ (k : FaultKind) (n : Nat), (k, n) = (if m = .partly then (FaultKind.lampPartial, ch.val)
                  else if m = .uncommanded ∧ lampPos ch = 2 then (FaultKind.uncommandedProceed, (lampGroup ch).val)
                  else (FaultKind.lampOut, ch.val)) →
                t.mfs.faults[k.code].latched = true ∧ t.mfs.faults[k.code].detail.getLsbD n = true ∧
                min 255 (u.mfs.faults[k.code].count + 1) ≤ t.mfs.faults[k.code].count ∧
                (u.mfs.faults[k.code].masked = false →
                  ∀ j : Station, (t.mfs.pending[j]).getLsbD Event.faultRaised.code.val = true) ∧
                (k = .uncommandedProceed → t.mfs.fltDriven = true ∧
                  (u.mfs.mode = .startUp ∨ u.mfs.mode = .normal ∨ u.mfs.mode = .closing →
                    t.mfs.mode = (faultAspect u.cs.image).mode))))) ∧
        (lamp t ch).rearmed = ((lamp u ch).settling && (lamp u ch).rearmed) ∧
        (lamp t ch).litCount = (if (lamp u ch).settling = true ∨ (lamp u ch).output = false then (lamp u ch).litCount
          else if res = .lit then (if (lamp u ch).litCount < 255 then (lamp u ch).litCount + 1 else 255) else 0) ∧
        (lampPos ch = 0 → (lamp u ch).settling = false → (lamp u ch).output = true →
          (res = .dark → (lamp u ch).run = some .out → (lamp u ch).mismatches = 2 → (lamp u ch).command = .on →
            inSet t.lou.redOut (lampGroup ch) = true) ∧
          (res = .lit → (lamp u ch).litCount = 9 → inSet t.lou.redOut (lampGroup ch) = false ∧
            (inSet u.lou.redOut (lampGroup ch) = true →
              ∀ g, ((grp t g).inhibited = true ↔ ∃ c, conflicts t c g = true ∧ inSet t.lou.redOut c = true)))) ∧
        (lampPos ch = 0 →
          (lamp u ch).settling = true ∨ (lamp u ch).output = false ∨ res = .partly ∨
            (res = .dark ∧ ((lamp u ch).run ≠ some .out ∨ (lamp u ch).mismatches ≠ 2 ∨ (lamp u ch).command ≠ .on)) ∨
            (res = .lit ∧ (lamp u ch).litCount ≠ 9) →
          inSet t.lou.redOut (lampGroup ch) = inSet u.lou.redOut (lampGroup ch))

/-- R154, R175, R176, R27: two conflicting groups that show proceed at an evaluation take the part to its fault aspect
with CONFLICT latched for both, FLT driven and every group in STOP. The evaluation is of the state `u`, after what is due at
the old count (log entry 2), and judges every channel on the records as it finds them (log entry 10). -/
def Obligations.ConflictTakesFaultAspect : Prop :=
  ∀ (currents : List Nat) (c g : Group) (s u : State), u = advanceCount (takeDue s) →
    u.mfs.mode = .startUp ∨ u.mfs.mode = .normal ∨ u.mfs.mode = .closing → conflicts u c g = true →
    (∀ k, k = c ∨ k = g → usedLamp u.cs.image (proceedLamp k) = true ∧ (lamp u (proceedLamp k)).settling = false ∧
      10 * (nominalCurrent u.cs.image k 2 * (match u.lou.dim with | .bright => 100 | .dim => 40)) <
        min 4000 (currents.getD (proceedLamp k).val 0) * 10000) →
    ∃ t, exec (.junctionClockAdvance currents) s = .next t ∧
      t.mfs.mode = (faultAspect u.cs.image).mode ∧ t.mfs.sub = none ∧ t.mfs.goal = none ∧ t.mfs.fltDriven = true ∧
      t.mfs.faults[FaultKind.conflict.code].latched = true ∧
      t.mfs.faults[FaultKind.conflict.code].detail.getLsbD c.val = true ∧
      t.mfs.faults[FaultKind.conflict.code].detail.getLsbD g.val = true ∧
      t.pu.list = [] ∧ (∀ k, (grp t k).state = .stop) ∧ t.cs = s.cs ∧ t.du = s.du

/-! ## The detector clock and the fault line -/

/-- R78, with log entry 2: every advance of the detector clock first takes the long presence and the window close that a
sample of the old count has left at a channel, then counts, and leaves every channel free to sample at the next completion.
R78, R179, with log entry 2: an advance of the detector clock where of the steps of the old count the arming lapse at
most is left. Sample completions fall 10 ms apart: `sampleIn` counts down to 0, which is a completion, and from 0 to 9.
R78: a channel completes one sample at each completion, and none elsewhere; a sample row out of place changes nothing
(log entry 1).
R108: at a sample completion every arming older than 10,000 ms lapses; nothing else changes. -/
def Obligations.DetectorClockSamplesLineAndArmingsLapse : Prop :=
  (∀ (low : Bool) (s : State), (∀ ch, (det s ch).sampled = false) → s.mfs.externalRun ≠ 100 →
      ∃ u, exec .armingLapse s = .next u ∧ exec (.detectorClockAdvance low) s = .next { u with
        du := { s.du with clock := s.du.clock + 1
                          sampleIn := if s.du.sampleIn = 0 then 9 else s.du.sampleIn - 1 }
        mfs := { s.mfs with
          fltPulledLow := low
          externalRun :=
            if followEnabled s.cs.image = true ∧ s.mfs.fltDriven = false ∧ s.mfs.mode ≠ .powerUp ∧ low = true then
              (if s.mfs.externalRun < 100 then s.mfs.externalRun + 1 else 100)
            else 0 } }) ∧
  (∀ (low : Bool) (ch : Channel) (s : State), ∃ x y z t, exec (.loopLongPresence (number ch)) s = .next x ∧
      exec (.windowClose (number ch)) x = .next y ∧ exec (.contactLongPresence (number ch)) y = .next z ∧
      exec (.detectorClockAdvance low) s = .next t ∧ det t ch = { det z ch with sampled := false } ∧
      t.du.clock = s.du.clock + 1 ∧ t.du.sampleIn = (if s.du.sampleIn = 0 then 9 else s.du.sampleIn - 1) ∧
      t.mfs.fltPulledLow = low ∧ t.sge.clock = s.sge.clock ∧ t.cs = s.cs ∧ t.clp = s.clp) ∧
  (∀ (ch : Channel) (p : Option Nat) (pressed : Bool) (s : State), s.du.sampleIn ≠ 0 ∨ (det s ch).sampled = true →
      exec (.loopSample (number ch) p) s = .next s ∧ exec (.contactSample (number ch) pressed) s = .next s) ∧
  (∀ (ch : Channel) (p : Option Nat) (pressed : Bool) (c : Instr) (s : State), s.du.sampleIn = 0 →
      (channelKind s.cs.image ch = .loop ∧ c = .loopSample (number ch) p ∨
        channelKind s.cs.image ch = .contact ∧ c = .contactSample (number ch) pressed) →
      ∃ t, exec c s = .next t ∧ (det t ch).sampled = true ∧ t.du.sampleIn = 0) ∧
  (∀ s : State, s.du.sampleIn ≠ 0 → exec .armingLapse s = .next s) ∧
  (∀ s : State, s.du.sampleIn = 0 → ∃ t, exec .armingLapse s = .next t ∧
      t = { s with pu := { s.pu with approaches := t.pu.approaches } } ∧
      ∀ a, (apr t a).dropped = (apr s a).dropped ∧ (apr t a).unmatched = (apr s a).unmatched ∧
        (∀ x, (apr s a).armedA = some x → 10000 < elapsed (dnow s) x → (apr t a).armedA = none) ∧
        (∀ x, (apr s a).armedA = some x → elapsed (dnow s) x ≤ 10000 → (apr t a).armedA = some x) ∧
        ((apr s a).armedA = none → (apr t a).armedA = none))

/-- R179, R174 to R176, R27: at a run of 100 EXTERNAL_FAULT is raised; FLT is driven and the run set to 0; in START_UP,
NORMAL and CLOSING fault entry follows, which puts every group that is not in STOP there and changes no other. -/
def Obligations.ExternalFaultEntersFaultAspect : Prop :=
  ∀ (s m : State), s.mfs.externalRun = 100 →
    m = (let l := latch .externalFault 0 s
      { l with mfs := { l.mfs with fltDriven := true, externalRun := 0 } }) →
    (s.mfs.mode = .startUp ∨ s.mfs.mode = .normal ∨ s.mfs.mode = .closing →
      ∃ t, exec .externalFault s = .next t ∧ EntersResting (faultAspect s.cs.image) (setGroups m fun g =>
        if (grp s g).state = .stop then grp s g
        else { grp s g with
          state := .stop, stateEntry := jnow s, stopEntry := jnow s, proceedEnd := jnow s
          cause := if (grp s g).state = .clearance then (grp s g).cause else some .fault }) t) ∧
    (s.mfs.mode = .powerUp ∨ s.mfs.mode = .flash ∨ s.mfs.mode = .dark → exec .externalFault s = .next m)

/-! ## Loop and contact samples -/

/-- R81 to R87, R97: the whole record of a LOOP channel in VACANT or OCCUPIED after a valid sample: the first sample at or
above the on-threshold starts the above run and is tracked, the second makes an entry; the first two below the
off-threshold count, the third makes an exit; any other sets the run to 0. `step` is R87's step, by which the baseline of a
channel that stays in VACANT moves, within 16,000 to 110,000; it is frozen otherwise. No other channel's record changes.
R69, R98: an exit sets the last gap exit of each group whose extension detector the channel is; no other changes.
`sampled` is the model's own field (log entry 2). -/
def Obligations.LoopSampleEntersAndExits : Prop :=
  ∀ (ch : Channel) (p b : Nat) (d step : Int) (r : DetRec) (s : State), channelKind s.cs.image ch = .loop →
    s.du.sampleIn = 0 → (det s ch).sampled = false →
    16000 ≤ p → p ≤ 110000 → (det s ch).baseline = some b →
    d = max (-9999) (min 9999 ((((b : Int) - p) * 10000).tdiv b)) →
    step = (if ((p : Int) - b).tdiv 64 ≠ 0 then ((p : Int) - b).tdiv 64
      else if b < p then 1 else if p < b then -1 else 0) →
    r = { det s ch with
      lastP := some p, lastResult := some .valid, lastDeviation := some d, invalidRun := 0, sampled := true
      validRun := if (det s ch).validRun < 255 then (det s ch).validRun + 1 else 255 } →
    ∃ t, exec (.loopSample (number ch) (some p)) s = .next t ∧
      (∀ c, c ≠ ch → det t c = det s c) ∧ t.du.clock = s.du.clock ∧
      (det t ch).lastP = some p ∧ (det t ch).lastResult = some .valid ∧ (det t ch).lastDeviation = some d ∧
      (det t ch).invalidRun = 0 ∧ (det t ch).budget = (det s ch).budget ∧
      ((det s ch).state = .vacant → GapNoted ch False s t ∧
        ((onThreshold s.cs.image ch : Int) ≤ d → (det s ch).aboveRun = 1 →
          det t ch = { r with state := .occupied, lastEntry := some (dnow s), presenceStart := some (dnow s),
                              entryCount := (det s ch).entryCount + 1, aboveRun := 0, belowRun := 0 }) ∧
        ((onThreshold s.cs.image ch : Int) ≤ d → (det s ch).aboveRun = 0 →
          det t ch = { r with aboveRun := 1, baseline := some (max 16000 (min 110000 ((b : Int) + step))).toNat }) ∧
        (d < (onThreshold s.cs.image ch : Int) →
          det t ch = { r with aboveRun := 0, baseline := some (max 16000 (min 110000 ((b : Int) + step))).toNat })) ∧
      ((det s ch).state = .occupied →
        (d < (offThreshold s.cs.image ch : Int) → (det s ch).belowRun = 2 →
          det t ch = { r with state := .vacant, lastExit := some (dnow s), aboveRun := 0, belowRun := 0 } ∧
            GapNoted ch True s t) ∧
        (d < (offThreshold s.cs.image ch : Int) → (det s ch).belowRun < 2 →
          det t ch = { r with belowRun := (det s ch).belowRun + 1 } ∧ GapNoted ch False s t) ∧
        ((offThreshold s.cs.image ch : Int) ≤ d → det t ch = { r with belowRun := 0 } ∧ GapNoted ch False s t))

/-- R84, R90: the 32nd valid sample of a tuning sets the baseline to the mean and ends the tuning; the 8th valid
sample in FAULT enters TUNING with its run and sum at 0. R69, R98: the end of a tuning whose demand was forced sets the last
gap exit of each group whose extension detector the channel is.
R92: a valid sample of a NOISY channel moves its inner state and its baseline, by the rules of TUNING, VACANT and OCCUPIED,
and leaves its state, its flag, its entry count and its two stamps; no DETECTOR_CHANGED is posted, no gap exit noted, no
arming and no entry of the list changed. That an inner exit keeps the presence start is the model's choice (log entry
31). -/
def Obligations.LoopSampleTunes : Prop :=
  ∀ (ch : Channel) (p : Nat) (r : DetRec) (s : State), channelKind s.cs.image ch = .loop →
    s.du.sampleIn = 0 → (det s ch).sampled = false →
    16000 ≤ p → p ≤ 110000 →
    r = { det s ch with
      lastP := some p, lastResult := some .valid, invalidRun := 0, sampled := true
      validRun := if (det s ch).validRun < 255 then (det s ch).validRun + 1 else 255
      lastDeviation := match (det s ch).baseline with
        | some b => some (max (-9999) (min 9999 ((((b : Int) - p) * 10000).tdiv b)))
        | none => (det s ch).lastDeviation } →
    ∃ t, exec (.loopSample (number ch) (some p)) s = .next t ∧
      ((det s ch).state = .tuning → (det s ch).validRun = 31 →
        det t ch = { r with state := .vacant, forced := false, tuningSum := (det s ch).tuningSum + p, aboveRun := 0,
                            belowRun := 0, baseline := some (((det s ch).tuningSum + p) / 32) } ∧
        GapNoted ch ((det s ch).forced = true) s t) ∧
      ((det s ch).state = .tuning → (det s ch).validRun < 31 →
        det t ch = { r with tuningSum := (det s ch).tuningSum + p } ∧ GapNoted ch False s t) ∧
      ((det s ch).state = .fault → (det s ch).validRun = 7 →
        det t ch = { r with state := .tuning, forced := true, validRun := 0, tuningSum := 0 } ∧ GapNoted ch False s t) ∧
      ((det s ch).state = .fault → (det s ch).validRun < 7 → det t ch = r ∧ GapNoted ch False s t) ∧
      ((det s ch).state = .noisy →
        (∀ i : Station, (t.mfs.pending[i]).getLsbD Event.detectorChanged.code.val =
          (s.mfs.pending[i]).getLsbD Event.detectorChanged.code.val) ∧
        t.fbs.lastGapExit = s.fbs.lastGapExit ∧ (∀ a, apr t a = apr s a) ∧
        t.pu.list.map Entry.core = s.pu.list.map Entry.core ∧
        ((det s ch).inner = some .tuning →
          ((det s ch).validRun = 31 → det t ch = { r with
            inner := some .vacant, tuningSum := (det s ch).tuningSum + p, aboveRun := 0, belowRun := 0
            baseline := some (((det s ch).tuningSum + p) / 32) }) ∧
          ((det s ch).validRun < 31 → det t ch = { r with tuningSum := (det s ch).tuningSum + p })) ∧
        (∀ (b : Nat) (d step : Int), (det s ch).inner = some .vacant → (det s ch).baseline = some b →
          r.lastDeviation = some d →
          step = (if ((p : Int) - b).tdiv 64 ≠ 0 then ((p : Int) - b).tdiv 64
            else if b < p then 1 else if p < b then -1 else 0) →
          ((onThreshold s.cs.image ch : Int) ≤ d → (det s ch).aboveRun = 1 → det t ch = { r with
            inner := some .occupied, presenceStart := some (dnow s), aboveRun := 0, belowRun := 0 }) ∧
          ((onThreshold s.cs.image ch : Int) ≤ d → (det s ch).aboveRun = 0 → det t ch = { r with
            aboveRun := 1, baseline := some (max 16000 (min 110000 ((b : Int) + step))).toNat }) ∧
          (d < (onThreshold s.cs.image ch : Int) → det t ch = { r with
            aboveRun := 0, baseline := some (max 16000 (min 110000 ((b : Int) + step))).toNat })) ∧
        (∀ d : Int, (det s ch).inner = some .occupied → (det s ch).baseline.isSome = true → r.lastDeviation = some d →
          (d < (offThreshold s.cs.image ch : Int) → (det s ch).belowRun = 2 →
            det t ch = { r with inner := some .vacant, aboveRun := 0, belowRun := 0 }) ∧
          (∀ n, (d < (offThreshold s.cs.image ch : Int) ∧ (det s ch).belowRun < 2 ∧ n = (det s ch).belowRun + 1) ∨
              ((offThreshold s.cs.image ch : Int) ≤ d ∧ n = 0) →
            (∀ x, maxPresence s.cs.image ch ≠ 0 → (det s ch).presenceStart = some x →
              1000 * maxPresence s.cs.image ch < elapsed (dnow s) x → det t ch = { r with
                inner := some .tuning, baseline := some p, validRun := 0, tuningSum := 0, belowRun := n }) ∧
            ((∀ x, (det s ch).presenceStart = some x → maxPresence s.cs.image ch = 0 ∨
                elapsed (dnow s) x ≤ 1000 * maxPresence s.cs.image ch) → det t ch = { r with belowRun := n }))))

/-- R81, R82, R89, R91, R92: an invalid sample breaks the runs; the 8th in a row enters FAULT and latches
DETECTOR_FAULT; one that takes the budget to 0 enters NOISY and latches DETECTOR_NOISY. -/
def Obligations.LoopSampleFaultsAndTurnsNoisy : Prop :=
  ∀ (ch : Channel) (p : Option Nat) (s : State), channelKind s.cs.image ch = .loop →
    s.du.sampleIn = 0 → (det s ch).sampled = false →
    (∀ q, p = some q → q < 16000 ∨ 110000 < q) →
    ∃ t, exec (.loopSample (number ch) p) s = .next t ∧
      (det t ch).validRun = 0 ∧ (det t ch).aboveRun = 0 ∧ (det t ch).belowRun = 0 ∧
      (det t ch).baseline = (det s ch).baseline ∧ (det t ch).lastDeviation = (det s ch).lastDeviation ∧
      ((det s ch).invalidRun < 255 → (det t ch).invalidRun = (det s ch).invalidRun + 1) ∧
      ((det s ch).state ≠ .fault → (det s ch).invalidRun = 7 →
        (det t ch).state = .fault ∧ (det t ch).forced = true ∧ (det t ch).inner = none ∧
        (det t ch).budget = (det s ch).budget ∧
        t.mfs.faults[FaultKind.detectorFault.code].latched = true ∧
        t.mfs.faults[FaultKind.detectorFault.code].detail.getLsbD ch.val = true) ∧
      (∀ i, innerOf (det s ch).state = some i → (det s ch).invalidRun < 7 → (det s ch).budget = 1 →
        (det t ch).state = .noisy ∧ (det t ch).inner = some i ∧ (det t ch).forced = true ∧ (det t ch).budget = 0 ∧
        t.mfs.faults[FaultKind.detectorNoisy.code].latched = true ∧
        t.mfs.faults[FaultKind.detectorNoisy.code].detail.getLsbD ch.val = true) ∧
      ((det s ch).invalidRun < 7 → (det s ch).state ≠ .fault → 1 < (det s ch).budget →
        (det t ch).budget = (det s ch).budget - 1 ∧ (det t ch).state = (det s ch).state)

/-- R22, R96, R97: an entry on a channel with a demand role, and every sample that finds or leaves its forced demand
set, sets the demand flag of each group that the channel references, but for NONE slots and, from a LOOP, WALK groups;
no other flag changes. That the sample which finds the forced flag set and clears it posts once more is the model's
reading (log entry 13, DEDUCED from chapter 5's worked sequence), as is the single evaluation for all references (log
entry 28). -/
def Obligations.SamplePostsDemand : Prop :=
  ∀ (ch : Channel) (p : Option Nat) (pressed : Bool) (s : State), s.du.sampleIn = 0 →
    (det s ch).sampled = false →
    (channelKind s.cs.image ch = .loop → ∃ t, exec (.loopSample (number ch) p) s = .next t ∧
      ∀ g, (grp t g).demand = ((grp s g).demand ||
        ((channelRole s.cs.image ch).isDemand && (groupRefs s.cs.image ch).contains g &&
          decide (groupKind s.cs.image g ≠ .none) && decide (groupKind s.cs.image g ≠ .walk) &&
          ((det s ch).forced || (det t ch).forced ||
            (decide ((det s ch).state = .vacant) && decide ((det t ch).state = .occupied)))))) ∧
    (channelKind s.cs.image ch = .contact → ∃ t, exec (.contactSample (number ch) pressed) s = .next t ∧
      ∀ g, (grp t g).demand = ((grp s g).demand ||
        ((channelRole s.cs.image ch).isDemand && (groupRefs s.cs.image ch).contains g &&
          decide (groupKind s.cs.image g ≠ .none) &&
          ((det s ch).forced || (det t ch).forced ||
            (decide ((det s ch).state = .vacant) && decide ((det t ch).state = .occupied))))))

/-- R94, R95: the whole record of a contact after a sample, state by state: the counts towards a press, a release and a
level, the press and the release at the third sample, and the end of LONG_PRESENCE and of TUNING, where an end in OCCUPIED
begins the presence. The long presence itself is the next statement's.
R69, R98: a release, and an end in VACANT of a LONG_PRESENCE or a TUNING whose demand was forced, set the last gap exit of
each group whose extension detector the channel is; no other changes.
The field `level`, the sample before, is the model's own; that a first sample finds none, and that an end of LONG_PRESENCE
leaves both runs at 0, is the model's reading (log entry 7, DEDUCED). `sampled` is the model's own too (log entry 2). -/
def Obligations.ContactSampleClassifies : Prop :=
  ∀ (ch : Channel) (pressed : Bool) (r : DetRec) (s : State), channelKind s.cs.image ch = .contact →
    s.du.sampleIn = 0 → (det s ch).sampled = false →
    r = { det s ch with level := some pressed, sampled := true } →
    ∃ t, exec (.contactSample (number ch) pressed) s = .next t ∧
      (∀ c, c ≠ ch → det t c = det s c) ∧ t.du.clock = s.du.clock ∧
      ((det s ch).state = .vacant → GapNoted ch False s t ∧
        (pressed = true → (det s ch).aboveRun = 2 →
          det t ch = { r with state := .occupied, lastEntry := some (dnow s), presenceStart := some (dnow s),
                              entryCount := (det s ch).entryCount + 1, aboveRun := 0, belowRun := 0 }) ∧
        (pressed = true → (det s ch).aboveRun < 2 → det t ch = { r with aboveRun := (det s ch).aboveRun + 1 }) ∧
        (pressed = false → det t ch = { r with aboveRun := 0 })) ∧
      ((det s ch).state = .occupied →
        (pressed = false → (det s ch).belowRun = 2 →
          det t ch = { r with state := .vacant, lastExit := some (dnow s), aboveRun := 0, belowRun := 0 } ∧
            GapNoted ch True s t) ∧
        (pressed = false → (det s ch).belowRun < 2 →
          det t ch = { r with belowRun := (det s ch).belowRun + 1 } ∧ GapNoted ch False s t) ∧
        (pressed = true → det t ch = { r with belowRun := 0 } ∧ GapNoted ch False s t)) ∧
      ((det s ch).state = .longPresence →
        (pressed = false → (det s ch).belowRun = 2 →
          det t ch = { r with state := .vacant, forced := false, aboveRun := 0, belowRun := 0 } ∧
            GapNoted ch ((det s ch).forced = true) s t) ∧
        (pressed = false → (det s ch).belowRun < 2 →
          det t ch = { r with belowRun := (det s ch).belowRun + 1 } ∧ GapNoted ch False s t) ∧
        (pressed = true → det t ch = { r with belowRun := 0 } ∧ GapNoted ch False s t)) ∧
      ((det s ch).state = .tuning →
        ((det s ch).level = some pressed → (det s ch).aboveRun = 2 →
          det t ch = { r with
            state := if pressed then .occupied else .vacant, forced := false, aboveRun := 0, belowRun := 0
            presenceStart := if pressed then some (dnow s) else (det s ch).presenceStart } ∧
          GapNoted ch ((det s ch).forced = true ∧ pressed = false) s t) ∧
        ((det s ch).level = some pressed → (det s ch).aboveRun < 2 →
          det t ch = { r with aboveRun := (det s ch).aboveRun + 1 } ∧ GapNoted ch False s t) ∧
        ((det s ch).level ≠ some pressed → det t ch = { r with aboveRun := 1 } ∧ GapNoted ch False s t))

/-- R88, R95: a presence longer than the max presence takes a loop through LONG_PRESENCE into TUNING on the period of
its last sample, and a contact into LONG_PRESENCE; the exit is stamped, and the demand is forced.
R96, R22: at that arrival the demand flag of each group that the channel references is set, where its role is DEMAND or
DEMAND_EXTEND, but for NONE slots and, from a LOOP, WALK groups; no other flag changes.
R69, R98: the exit that is posted sets the last gap exit of each group whose extension detector the channel is. -/
def Obligations.LongPresenceForcesDemand : Prop :=
  ∀ (ch : Channel) (t0 : Time) (s : State), (det s ch).state = .occupied → (det s ch).sampled = true →
    maxPresence s.cs.image ch ≠ 0 → (det s ch).presenceStart = some t0 →
    1000 * maxPresence s.cs.image ch < elapsed (dnow s) t0 →
    (∀ p, channelKind s.cs.image ch = .loop → (det s ch).lastResult = some .valid → (det s ch).lastP = some p →
      ∃ t, exec (.loopLongPresence (number ch)) s = .next t ∧ (∀ c, c ≠ ch → det t c = det s c) ∧
        det t ch = { det s ch with state := .tuning, forced := true, lastExit := some (dnow s), baseline := some p,
                                   validRun := 0, tuningSum := 0 } ∧ GapNoted ch True s t ∧
        (∀ g, (grp t g).demand = ((grp s g).demand ||
          ((channelRole s.cs.image ch).isDemand && (groupRefs s.cs.image ch).contains g &&
            decide (groupKind s.cs.image g ≠ .none) && decide (groupKind s.cs.image g ≠ .walk)))) ∧
        ∀ i : Station, (t.mfs.pending[i]).getLsbD Event.detectorChanged.code.val = true) ∧
    (channelKind s.cs.image ch = .contact →
      ∃ t, exec (.contactLongPresence (number ch)) s = .next t ∧ (∀ c, c ≠ ch → det t c = det s c) ∧
        det t ch = { det s ch with state := .longPresence, forced := true, lastExit := some (dnow s) } ∧ GapNoted ch True s t ∧
        (∀ g, (grp t g).demand = ((grp s g).demand ||
          ((channelRole s.cs.image ch).isDemand && (groupRefs s.cs.image ch).contains g &&
            decide (groupKind s.cs.image g ≠ .none)))) ∧
        ∀ i : Station, (t.mfs.pending[i]).getLsbD Event.detectorChanged.code.val = true)

/-- R91, R93: a window of 60,000 ms closes at a sample: the budget is reloaded and the window starts anew; a NOISY
channel whose budget did not reach 0 takes its inner state; one whose budget did stays NOISY and DETECTOR_NOISY is
raised again, as DETECTOR_FAULT is for a channel in FAULT.
R81, R88: a long presence of the same sample comes before the close; where none is due the close finds the channel as it
stands. That it is taken there if no row has taken it is log entry 2.
R69, R98: a NOISY whose demand was forced and that ends in VACANT sets the last gap exit of each group whose extension
detector the channel is; otherwise the close itself notes none. -/
def Obligations.WindowCloseReloadsBudget : Prop :=
  ∀ (ch : Channel) (s : State), channelKind s.cs.image ch = .loop → (det s ch).sampled = true →
    60000 ≤ elapsed (dnow s) (det s ch).windowStart →
    ∃ x t, exec (.loopLongPresence (number ch)) s = .next x ∧ exec (.windowClose (number ch)) s = .next t ∧
      ((det s ch).state ≠ .occupied ∨ (∀ t0, (det s ch).presenceStart = some t0 →
        maxPresence s.cs.image ch = 0 ∨ elapsed (dnow s) t0 ≤ 1000 * maxPresence s.cs.image ch) → x = s) ∧
      (∀ c, c ≠ ch → det t c = det s c) ∧
      (det t ch).budget = budgetStart s.cs.image ch ∧ (det t ch).windowStart = dnow s ∧
      (∀ i, (det s ch).state = .noisy → (det s ch).inner = some i → 0 < (det s ch).budget →
        (det t ch).state = i.outer ∧ (det t ch).inner = none ∧ (det t ch).forced = decide (i = .tuning) ∧
        GapNoted ch ((det s ch).forced = true ∧ i = .vacant) s t) ∧
      ((det s ch).state ≠ .noisy ∨ (det s ch).budget = 0 →
        det t ch = { det x ch with budget := budgetStart s.cs.image ch, windowStart := dnow s } ∧
        t.fbs.lastGapExit = x.fbs.lastGapExit) ∧
      ((det s ch).state = .noisy → (det s ch).budget = 0 →
        t.mfs.faults[FaultKind.detectorNoisy.code].latched = true ∧
        t.mfs.faults[FaultKind.detectorNoisy.code].detail.getLsbD ch.val = true) ∧
      ((det s ch).state = .fault →
        t.mfs.faults[FaultKind.detectorFault.code].latched = true ∧
        t.mfs.faults[FaultKind.detectorFault.code].detail.getLsbD ch.val = true)

/-! ## Loops of the tram approaches -/

/-- R105 to R107, R109, R110, R118: an entry that a LOOP sample completes on a channel that one approach names, by the
channel's one role there: check-in A arms the approach, leaves it armed, or, with the B loop unavailable, makes a
single-loop check-in; check-in B makes a paired check-in or a single-loop one and clears the arming; the check-out loop
ends the entry that R118 finds, or counts an unmatched check-out.
R108: a sample that puts the channel in FAULT and so makes an available loop unavailable clears the arming; at the B
loop it makes a check-in from the arming. Where the greatest interval of R110 is below the least, as two speeds close
together can make it, the interval is compared with the least first (log entry 30).
R113, R119, R122: a check-in has its rank, stands in its place, displaces the weaker last entry of a full list with
PRIORITY_DROPPED, or is refused and counted. The place in creation order, `seq`, is the model's own (log entry 27). -/
def Obligations.LoopEntriesArmCheckInAndCheckOut : Prop :=
  (∀ (ch : Channel) (a : Approach) (p b : Nat) (s : State), channelKind s.cs.image ch = .loop →
    s.du.sampleIn = 0 → (det s ch).sampled = false → (det s ch).state = .vacant → 1 ≤ (det s ch).aboveRun →
    16000 ≤ p → p ≤ 110000 → (det s ch).baseline = some b →
    (onThreshold s.cs.image ch : Int) ≤ max (-9999) (min 9999 ((((b : Int) - p) * 10000).tdiv b)) →
    (∀ x, x ≠ a → loopA s.cs.image x ≠ some ch ∧ loopB s.cs.image x ≠ some ch ∧ loopOut s.cs.image x ≠ some ch) →
    ∃ t, exec (.loopSample (number ch) (some p)) s = .next t ∧ (∀ x, x ≠ a → apr t x = apr s x) ∧
      (loopA s.cs.image a = some ch → loopB s.cs.image a ≠ some ch → loopOut s.cs.image a ≠ some ch →
        (∀ c, loopB s.cs.image a = some c → (det s c).state = .vacant ∨ (det s c).state = .occupied →
          t.pu.list.map Entry.core = s.pu.list.map Entry.core ∧
          apr t a = { apr s a with armedA := some ((apr s a).armedA.getD (dnow s)) }) ∧
        ((∀ c, loopB s.cs.image a = some c → (det s c).state ≠ .vacant ∧ (det s c).state ≠ .occupied) →
          LoopCheckedIn a (etaFromA s.cs.image a + dwell s.cs.image a) false true (apr s a).armedA s t)) ∧
      (loopB s.cs.image a = some ch → loopA s.cs.image a ≠ some ch → loopOut s.cs.image a ≠ some ch →
        (∀ c x d least most, loopA s.cs.image a = some c → (det s c).state = .vacant ∨ (det s c).state = .occupied →
          (apr s a).armedA = some x → elapsed (dnow s) x ≤ 10000 →
          least = (spacingCm s.cs.image a * 1000 + (vMax s.cs.image a - 1)) / vMax s.cs.image a →
          most = spacingCm s.cs.image a * 1000 / vMin s.cs.image a →
          d = (if elapsed (dnow s) x < least then least else if most < elapsed (dnow s) x then most else elapsed (dnow s) x) →
          LoopCheckedIn a ((distanceCm s.cs.image a * d + (spacingCm s.cs.image a * 100 - 1)) /
            (spacingCm s.cs.image a * 100) + dwell s.cs.image a) (d != elapsed (dnow s) x) false none s t) ∧
        ((∀ c x, loopA s.cs.image a = some c → (apr s a).armedA = some x →
            ((det s c).state ≠ .vacant ∧ (det s c).state ≠ .occupied) ∨ 10000 < elapsed (dnow s) x) →
          LoopCheckedIn a (etaFromB s.cs.image a + dwell s.cs.image a) false true none s t)) ∧
      (loopOut s.cs.image a = some ch → loopA s.cs.image a ≠ some ch → loopB s.cs.image a ≠ some ch →
        ((∀ e ∈ s.pu.list, e.approach ≠ a) → t.pu.list.map Entry.core = s.pu.list.map Entry.core ∧
          apr t a = { apr s a with unmatched := if (apr s a).unmatched = 0xFFFF#16 then (apr s a).unmatched
            else (apr s a).unmatched + 1 }) ∧
        (channelRole s.cs.image ch = .none →
          ((∀ e ∈ s.pu.list, e.approach = a → e.state ≠ some .extending ∧ e.state ≠ some .serving ∧
              e.state ≠ some .released ∧ 2 ^ 31 ≤ (jnow s - e.ea).toNat) → t.pu.list = s.pu.list ∧
            apr t a = { apr s a with unmatched := if (apr s a).unmatched = 0xFFFF#16 then (apr s a).unmatched
              else (apr s a).unmatched + 1 }) ∧
          (∀ e ∈ s.pu.list, ∀ q : Entry → Prop,
            ((∀ x, q x ↔ x.approach = a ∧ (x.state = some .extending ∨ x.state = some .serving ∨
                x.state = some .released)) ∨
              (∀ x, q x ↔ x.approach = a ∧ (jnow s - x.ea).toNat < 2 ^ 31) ∧
                ∀ x ∈ s.pu.list, x.approach = a → x.state ≠ some .extending ∧ x.state ≠ some .serving ∧
                  x.state ≠ some .released) →
            q e → (∀ x ∈ s.pu.list, q x → x = e ∨ e.seq < x.seq) →
            t.pu.list.map Entry.core = (s.pu.list.filter fun x => decide (x ≠ e)).map Entry.core ∧
            t.mfs.lastRemoval = some .served ∧ apr t a = apr s a ∧
            ∀ j : Station, (t.mfs.pending[j]).getLsbD Event.priorityRemoved.code.val = true)))) ∧
  (∀ (ch : Channel) (a : Approach) (p : Option Nat) (s : State), channelKind s.cs.image ch = .loop →
    s.du.sampleIn = 0 → (det s ch).sampled = false → (det s ch).state = .vacant ∨ (det s ch).state = .occupied →
    (det s ch).invalidRun = 7 → (∀ q, p = some q → q < 16000 ∨ 110000 < q) →
    (∀ x, x ≠ a → loopA s.cs.image x ≠ some ch ∧ loopB s.cs.image x ≠ some ch) →
    ∃ t, exec (.loopSample (number ch) p) s = .next t ∧ (∀ x, x ≠ a → apr t x = apr s x) ∧
      (loopB s.cs.image a ≠ some ch ∨ (apr s a).armedA = none →
        t.pu.list.map Entry.core = s.pu.list.map Entry.core ∧
        apr t a = { apr s a with armedA := if loopA s.cs.image a = some ch then none else (apr s a).armedA }) ∧
      (∀ x, loopB s.cs.image a = some ch → loopA s.cs.image a ≠ some ch → (apr s a).armedA = some x →
        LoopCheckedIn a (etaFromA s.cs.image a + dwell s.cs.image a - elapsed (dnow s) x / 100) false true none s t))

/-! ## The cabinet link -/

/-- R186: the byte that completes a frame that is not valid. A frame with a wrong CRC is discarded, counted if addressed
to the part; one for another part is discarded uncounted; one from no station is discarded and counted. None is heard. -/
def Obligations.InvalidFrameIsDiscarded : Prop :=
  ∀ (b : Byte) (s : State) (buf : List Byte), s.clp.receiver = .check → 3 ≤ s.clp.buffer.length →
    s.clp.buffer.length + 1 = 5 + (s.clp.buffer.getD 2 0).toNat → buf = s.clp.buffer ++ [b] →
    (crcRight buf = false → exec (.frameReceived b) s = .next { s with clp := { s.clp with
      receiver := .hunt, buffer := [], lastByte := dnow s
      discarded := if (buf.headD 0).setWidth 4 = s.clp.partAddress ∧ s.clp.discarded ≠ 0xFFFF#16 then
        s.clp.discarded + 1 else s.clp.discarded } }) ∧
    (crcRight buf = true → (buf.headD 0).setWidth 4 ≠ s.clp.partAddress →
      exec (.frameReceived b) s = .next { s with clp := { s.clp with
        receiver := .hunt, buffer := [], lastByte := dnow s } }) ∧
    (crcRight buf = true → (buf.headD 0).setWidth 4 = s.clp.partAddress →
      (buf.headD 0).toNat / 16 = 0 ∨ 4 < (buf.headD 0).toNat / 16 →
      exec (.frameReceived b) s = .next { s with clp := { s.clp with
        receiver := .hunt, buffer := [], lastByte := dnow s
        discarded := if s.clp.discarded = 0xFFFF#16 then s.clp.discarded else s.clp.discarded + 1 } })

/-- R186, R189, R191, R192: a valid frame has its station heard, and then carries out the request row that its bytes
spell; an unknown kind, a kind not allowed to the station and a wrong length are answered with the outcome alone.
R192 step 4: so is, with REFUSED_INVALID, a flag or presence byte other than 0 and 1; and, which is the model's reading
(log entry 19, DEDUCED), an absent optional field that is not all zeros.
R194, R167, R195: a goal byte above 2 and a "by" byte above 1 are refused by their blocks, with their reply fields.
That LDIR is high from the answering on, where R183 has the first bit of the reply, is log entry 16 (DESIGN CHOICE). -/
def Obligations.ValidFrameCarriesRequest : Prop :=
  ∀ (b : Byte) (i : Station) (s u : State) (buf payload : List Byte), s.clp.receiver = .check →
    3 ≤ s.clp.buffer.length → s.clp.buffer.length + 1 = 5 + (s.clp.buffer.getD 2 0).toNat → inFlight s = false →
    buf = s.clp.buffer ++ [b] → crcRight buf = true → (buf.headD 0).setWidth 4 = s.clp.partAddress →
    (buf.headD 0).toNat / 16 = number i → payload = (buf.drop 3).take (buf.getD 2 0).toNat →
    u = postIf (station s i).silent .stationResumed
      (setStation { s with clp := { s.clp with lastByte := dnow s } } i { lastHeard := jnow s, silent := false }) →
    (∀ c, requestOf i (buf.getD 1 0) payload = some c → exec (.frameReceived b) s = exec c u) ∧
    (kindOf (buf.getD 1 0) = none → exec (.frameReceived b) s = .next { u with clp := { u.clp with
      receiver := .busy, buffer := [], reply := some { kind := buf.getD 1 0 + 0x80, payload := [0x31] },
      ldir := true } }) ∧
    ∀ k, kindOf (buf.getD 1 0) = some k →
      (k.allows i = false → exec (.frameReceived b) s = .next { u with clp := answered k .refusedRole [] u.clp }) ∧
      (k.allows i = true → k.lengthOk payload.length = false →
        exec (.frameReceived b) s = .next { u with clp := answered k .badLength [] u.clp }) ∧
      (k.allows i = true → k.lengthOk payload.length = true →
        ((k = .clearEvents ∨ k = .clearFaults) ∧ 1 < (payload.getD 2 0).toNat ∨
          k = .checkIn ∧ (1 < (payload.getD 6 0).toNat ∨ 1 < (payload.getD 7 0).toNat ∨
            1 < (payload.getD 11 0).toNat ∨ (payload.getD 7 0 = 0 ∧ ∃ n, 8 ≤ n ∧ n ≤ 10 ∧ payload.getD n 0 ≠ 0) ∨
            (payload.getD 11 0 = 0 ∧ ∃ n, 12 ≤ n ∧ n ≤ 13 ∧ payload.getD n 0 ≠ 0)) →
          exec (.frameReceived b) s = .next { u with clp := answered k .refusedInvalid [] u.clp }) ∧
        (k = .modeRequest → 2 < (payload.getD 0 0).toNat → exec (.frameReceived b) s =
          .next { u with clp := answered k .refusedInvalid (modeFields 0 u) u.clp }) ∧
        (k = .cancelPriority → 1 < (payload.getD 0 0).toNat → exec (.frameReceived b) s =
          .next { u with clp := answered k .refusedInvalid [0] u.clp }))

/-- R185, R187: what a byte does that does not complete a frame, by the receiver's state: a byte of the payload or of the
CRC is stored, and the last one of the payload moves the receiver to CHECK.
R186: a discard is counted where the address byte has been received and addressed the part. That an address byte which
itself comes with a framing error does not count as received is the model's choice (log entry 32, DESIGN CHOICE). -/
def Obligations.ByteReceivedMovesReceiver : Prop :=
  ∀ (b : Byte) (framingError : Bool) (s u : State), u = { s with clp := { s.clp with lastByte := dnow s } } →
    (s.clp.receiver = .hunt → exec (.byteReceived b framingError) s = .next
      (if b = 0xA6 ∧ framingError = false then
        { u with clp := { u.clp with receiver := .header, buffer := [] } } else u)) ∧
    (s.clp.receiver = .skip → exec (.byteReceived b framingError) s = .next u) ∧
    (s.clp.receiver = .busy → b ≠ 0xA6 → exec (.byteReceived b framingError) s = .next u) ∧
    (s.clp.receiver = .header → framingError = false → s.clp.buffer.length < 2 →
      exec (.byteReceived b framingError) s = .next { u with clp := { u.clp with
        receiver := .header, buffer := s.clp.buffer ++ [b] } }) ∧
    (s.clp.receiver = .header → framingError = false → s.clp.buffer.length = 2 → b.toNat ≤ 200 →
      exec (.byteReceived b framingError) s = .next { u with clp := { u.clp with
        receiver := if b = 0 then .check else .payload, buffer := s.clp.buffer ++ [b] } }) ∧
    (∀ n, s.clp.receiver = .payload ∨ s.clp.receiver = .check → framingError = false → 3 ≤ s.clp.buffer.length →
      n = (s.clp.buffer.getD 2 0).toNat → s.clp.buffer.length + 1 ≠ 5 + n →
      exec (.byteReceived b framingError) s = .next { u with clp := { u.clp with
        receiver := if s.clp.buffer.length + 1 < 3 + n then .payload else .check, buffer := s.clp.buffer ++ [b] } }) ∧
    (s.clp.receiver = .header ∨ s.clp.receiver = .payload ∨ s.clp.receiver = .check →
      framingError = true ∨ s.clp.buffer.length = 2 ∧ 200 < b.toNat →
      exec (.byteReceived b framingError) s = .next { u with clp := { u.clp with
        receiver := .skip, buffer := []
        discarded := if s.clp.buffer ≠ [] ∧ (s.clp.buffer.headD 0).setWidth 4 = s.clp.partAddress ∧
            s.clp.discarded ≠ 0xFFFF#16 then s.clp.discarded + 1 else s.clp.discarded } })

/-- R185, R187: a silence of more than 5 ms ends a frame, a skipping and the ignoring of an overrun frame; a start byte
in BUSY is an overrun, counted once while it is being ignored.
R187, R188, R183: the end of a reply frees the receiver, counts the answer and lowers LDIR. That an overrun frame which
is still being ignored then is skipped to the next silence, by the state SKIP, is the model's reading of R187 (log entry
14, DEDUCED). -/
def Obligations.SilenceOverrunAndReplyEndFrames : Prop :=
  (∀ s : State,
      (s.clp.receiver = .hunt → exec .linkSilenceTimeout s = .next s) ∧
      (s.clp.receiver = .skip →
        exec .linkSilenceTimeout s = .next { s with clp := { s.clp with receiver := .hunt } }) ∧
      (s.clp.receiver = .busy →
        exec .linkSilenceTimeout s = .next { s with clp := { s.clp with ignoring := false } }) ∧
      (s.clp.receiver = .header ∨ s.clp.receiver = .payload ∨ s.clp.receiver = .check →
        exec .linkSilenceTimeout s = .next { s with clp := { s.clp with
          receiver := .hunt, buffer := []
          discarded := if s.clp.buffer ≠ [] ∧ (s.clp.buffer.headD 0).setWidth 4 = s.clp.partAddress ∧
              s.clp.discarded ≠ 0xFFFF#16 then s.clp.discarded + 1 else s.clp.discarded } }) ∧
      (s.clp.receiver = .busy → exec .frameOverrun s = .next { s with clp := { s.clp with
        lastByte := dnow s, ignoring := true
        discarded := if s.clp.ignoring = false ∧ s.clp.discarded ≠ 0xFFFF#16 then s.clp.discarded + 1
          else s.clp.discarded } })) ∧
  (∀ (r : Reply) (s : State), s.clp.receiver = .busy → s.clp.reply = some r →
      exec .replySent s = .next { s with clp := { s.clp with
        receiver := if s.clp.ignoring then .skip else .hunt, ignoring := false, answered := s.clp.answered + 1,
        ldir := false } })

/-- R192, with log entry 15: a request that the role check refuses is answered REFUSED_ROLE alone and reaches no block;
while another request is in flight a request row has no effect.
That LDIR is high from the answering on, where R183 has the first bit of the reply, is log entry 16 (DESIGN CHOICE). -/
def Obligations.RequestsTurnedAway : Prop :=
  ∀ (i : Station) (c : Instr) (k : RequestKind) (s : State), requestRow c = some (number i, k) →
    (inFlight s = false → k.allows i = false →
      exec c s = .next { s with clp := answered k .refusedRole [] s.clp }) ∧
    (inFlight s = true → exec c s = .next s)

/-- R197, R182, R188: each read request is answered with the fields of the records it names, or with the refusal alone,
and changes nothing but the link port's reply. The bytes of some fields are the model's reading: the FLT bytes of
READ_STATUS are free values (log entry 5), and the order and codes of log entry 18 (DEDUCED) stand behind the configured
fields of READ_DETECTORS, the drive output, the link rate and the station role.
That LDIR is high from the answering on, where R183 has the first bit of the reply, is log entry 16 (DESIGN CHOICE). -/
def Obligations.ReadsAnswerFromRecords : Prop :=
  ∀ (i : Station) (b : Byte) (s : State), inFlight s = false →
    exec (.readStatus (number i)) s =
      .next { s with clp := answered .readStatus .done (statusBytes i s) s.clp } ∧
    exec (.readEvents (number i)) s =
      .next { s with clp := answered .readEvents .done (eventFields i s) s.clp } ∧
    (∀ g : Group, b.toNat = number g → exec (.readGroups (number i) b) s =
      .next { s with clp := answered .readGroups .done (groupFieldsOf s g) s.clp }) ∧
    (b.toNat = 0 ∨ 24 < b.toNat → exec (.readGroups (number i) b) s =
      .next { s with clp := answered .readGroups .refusedInvalid [] s.clp }) ∧
    (∀ (ch : Channel) (l : List Byte), b.toNat = number ch →
      l = detectorConfigBytes s.cs.image ch ++ detectorBytes (det s ch) → exec (.readDetectors (number i) b) s =
      .next { s with clp := answered .readDetectors .done l s.clp }) ∧
    (b.toNat = 0 ∨ 32 < b.toNat → exec (.readDetectors (number i) b) s =
      .next { s with clp := answered .readDetectors .refusedInvalid [] s.clp }) ∧
    (b = 0 → exec (.readPriority (number i) b) s =
      .next { s with clp := answered .readPriority .done (priorityHead s) s.clp }) ∧
    (∀ e, b ≠ 0 → b.toNat ≤ 8 → s.pu.list[b.toNat - 1]? = some e → exec (.readPriority (number i) b) s =
      .next { s with clp := answered .readPriority .done (entryBytes e) s.clp }) ∧
    (b ≠ 0 → b.toNat ≤ 8 → s.pu.list.length < b.toNat → exec (.readPriority (number i) b) s =
      .next { s with clp := answered .readPriority .noMatch [] s.clp }) ∧
    (∀ l : List Byte, b.toNat = 9 →
      l = ((List.finRange 8).flatMap fun a => optTimeBytes (apr s a).armedA ++ natBytes 2 (apr s a).dropped.toNat ++
        natBytes 2 (apr s a).unmatched.toNat) → exec (.readPriority (number i) b) s =
      .next { s with clp := answered .readPriority .done l s.clp }) ∧
    (∀ l : List Byte, b.toNat = 10 →
      l = ((List.finRange 24).flatMap fun g => optTimeBytes (ovl s g).holdUntil ++
        [if (ovl s g).call then 1 else 0, if (ovl s g).block then 1 else 0, if (ovl s g).truncate then 1 else 0]) →
      exec (.readPriority (number i) b) s = .next { s with clp := answered .readPriority .done l s.clp }) ∧
    (10 < b.toNat → exec (.readPriority (number i) b) s =
      .next { s with clp := answered .readPriority .refusedInvalid [] s.clp }) ∧
    (∀ (k : Fin 12) (l : List Byte), b.toNat = k.val →
      l = natBytes 2 (latchedKinds s).toNat ++ faultBytes k s.mfs.faults[k] → exec (.readFaults (number i) b) s =
      .next { s with clp := answered .readFaults .done l s.clp }) ∧
    (11 < b.toNat → exec (.readFaults (number i) b) s =
      .next { s with clp := answered .readFaults .refusedInvalid [] s.clp })

/-- R182: CLEAR_EVENTS removes the listed kinds from the caller's pending set and writes its mask when one is given; a
set that names a kind outside the eleven is refused and changes nothing; the other stations' sets stand. READ_EVENTS
changes nothing. ATTN follows (R181).
R194: the mask field is checked whether or not the request says that a mask is given.
That LDIR is high from the answering on, where R183 has the first bit of the reply, is log entry 16 (DESIGN CHOICE). -/
def Obligations.ClearEventsRemovesListedKinds : Prop :=
  ∀ (i : Station) (kinds mask : BitVec 16) (given : Bool) (s : State), inFlight s = false →
    ((∃ n, 11 ≤ n ∧ (kinds.getLsbD n = true ∨ mask.getLsbD n = true)) →
      exec (.clearEvents (number i) kinds given mask) s =
        .next { s with clp := answered .clearEvents .refusedInvalid [] s.clp }) ∧
    ((∀ n, 11 ≤ n → kinds.getLsbD n = false ∧ mask.getLsbD n = false) →
      ∃ t, exec (.clearEvents (number i) kinds given mask) s = .next t ∧
        t.mfs.pending[i] = s.mfs.pending[i] &&& ~~~(kinds.setWidth 11) ∧
        t.mfs.masks[i] = (if given then mask.setWidth 11 else s.mfs.masks[i]) ∧
        (∀ j : Station, j ≠ i → t.mfs.pending[j] = s.mfs.pending[j] ∧ t.mfs.masks[j] = s.mfs.masks[j]) ∧
        t.mfs.attnLow = decide (t.mfs.pending[(0 : Station)] &&& ~~~t.mfs.masks[(0 : Station)] ≠ 0) ∧
        t = { s with
          mfs := { s.mfs with pending := t.mfs.pending, masks := t.mfs.masks, attnLow := t.mfs.attnLow }
          clp := answered .clearEvents .done
            (natBytes 2 t.mfs.pending[i].toNat ++ natBytes 2 t.mfs.masks[i].toNat) s.clp }) ∧
    exec (.readEvents (number i)) s = .next { s with
      clp := answered .readEvents .done (natBytes 2 s.mfs.pending[i].toNat ++ natBytes 2 s.mfs.masks[i].toNat ++
        [if s.mfs.pending[i] &&& ~~~s.mfs.masks[i] = 0 then 0 else 1] ++
        (match s.mfs.lastRemoval with
          | none => [0, 0]
          | some c => [1, c.byte])) s.clp }

/-! ## The selector's requests -/

/-- R49, R48: a take is refused by mode, by a rank above 3, or by a rank contest that it does not win; the holder, and a
station whose clamped rank is stronger than the owner rank, gets the selector at that rank. The target and the
generation pass on as they stand, and the reply carries the owner and rank from before.
That LDIR is high from the answering on, where R183 has the first bit of the reply, is log entry 16 (DESIGN CHOICE). -/
def Obligations.TakeSelectorByRankContest : Prop :=
  ∀ (i : Station) (r : Byte) (e : Rank) (s : State), inFlight s = false → i ≠ 1 →
    e.val = max (min 3 r.toNat) (authorityRank s.cs.image i).val →
    (s.mfs.mode ≠ .startUp → s.mfs.mode ≠ .normal → exec (.takeSelector (number i) r) s = .next { s with
      clp := answered .takeSelector .refusedMode [s.sel.owner.byte, rankByte s.sel.rank] s.clp }) ∧
    (s.mfs.mode = .startUp ∨ s.mfs.mode = .normal →
      (3 < r.toNat → exec (.takeSelector (number i) r) s = .next { s with
        clp := answered .takeSelector .refusedInvalid [s.sel.owner.byte, rankByte s.sel.rank] s.clp }) ∧
      (r.toNat ≤ 3 → s.sel.owner ≠ stationOwner i → s.sel.rank ≤ e →
        exec (.takeSelector (number i) r) s = .next { s with
          clp := answered .takeSelector .refusedRank [s.sel.owner.byte, rankByte s.sel.rank] s.clp }) ∧
      (r.toNat ≤ 3 → s.sel.owner = stationOwner i → s.sel.rank = e →
        exec (.takeSelector (number i) r) s = .next { s with
          clp := answered .takeSelector .done [s.sel.owner.byte, rankByte s.sel.rank] s.clp }) ∧
      (r.toNat ≤ 3 → (s.sel.owner = stationOwner i ∧ s.sel.rank ≠ e) ∨ (s.sel.owner ≠ stationOwner i ∧ e < s.sel.rank) →
        ∃ t, exec (.takeSelector (number i) r) s = .next t ∧
          t.sel.owner = stationOwner i ∧ t.sel.rank = e ∧
          t.sel.lastChange = (if s.sel.owner = stationOwner i then s.sel.lastChange else jnow s) ∧
          t.sel.target = s.sel.target ∧ t.sel.generation = s.sel.generation ∧ t.fbs.current = none ∧
          (∀ j : Station, (t.mfs.pending[j]).getLsbD Event.selectorChanged.code.val = true) ∧
          t.clp = answered .takeSelector .done [s.sel.owner.byte, rankByte s.sel.rank] s.clp ∧
          (∀ g, GroupFollows (jnow s) (compensationCap s.cs.image g) (grp s g) (grp t g)) ∧
          t.pu.list.map Entry.core = s.pu.list.map Entry.core ∧ t.mfs.mode = s.mfs.mode ∧ t.cs = s.cs ∧ t.du = s.du))

/-- R52, R51, R48: RELEASE_SELECTOR in every mode: the owner's selector passes under the default-owner rule, DONE; from any other
station it is refused and changes nothing; the reply carries the owner and rank afterwards.
That LDIR is high from the answering on, where R183 has the first bit of the reply, is log entry 16 (DESIGN CHOICE). -/
def Obligations.ReleaseSelectorPassesOwnership : Prop :=
  ∀ (i : Station) (s : State), inFlight s = false → i ≠ 1 →
    (s.sel.owner = stationOwner i → ∃ t, exec (.releaseSelector (number i)) s = .next t ∧
      (t.sel.owner, t.sel.rank) =
        (if (station s 0).silent = false ∧ i ≠ 0 then (Owner.controller, authorityRank s.cs.image 0)
         else (Owner.fallback, 3)) ∧
      t.sel.lastChange = jnow s ∧
      t.clp = answered .releaseSelector .done [t.sel.owner.byte, rankByte t.sel.rank] s.clp ∧
      (t.sel.owner ≠ .fallback ∨ s.mfs.mode ≠ .normal →
        t.sel.target = s.sel.target ∧ t.sel.generation = s.sel.generation) ∧
      (∀ g, GroupFollows (jnow s) (compensationCap s.cs.image g) (grp s g) (grp t g)) ∧
      t.mfs.mode = s.mfs.mode ∧ t.cs = s.cs ∧ t.du = s.du) ∧
    (s.sel.owner ≠ stationOwner i → exec (.releaseSelector (number i)) s = .next { s with
      clp := answered .releaseSelector .refusedNotOwner [s.sel.owner.byte, rankByte s.sel.rank] s.clp })

/-- R57 to R59: SET_STAGE, and SELECT_STAGE with the set of a stage of the copy: the checks of mode, owner, stage and
conflict in order; an accepted set begins a new generation and clears every maxed-out flag.
R59: SELECT_STAGE with a number outside 1 to 8, or of a stage that is empty in the copy, is refused.
That LDIR is high from the answering on, where R183 has the first bit of the reply, is log entry 16 (DESIGN CHOICE). -/
def Obligations.StageRequestsSetTarget : Prop :=
  (∀ (i : Station) (w : GroupSet) (b : Byte) (k : RequestKind) (c : Instr) (s : State), inFlight s = false → i ≠ 1 →
      (k = .setStage ∧ c = .setStage (number i) w ∨
        k = .selectStage ∧ c = .selectStage (number i) b ∧
          ∃ n : Stage, b.toNat = number n ∧ s.sel.stages[n] = w ∧ w ≠ 0) →
      (s.mfs.mode ≠ .startUp → s.mfs.mode ≠ .normal →
        exec c s = .next { s with clp := answered k .refusedMode [s.sel.generation] s.clp }) ∧
      (s.mfs.mode = .startUp ∨ s.mfs.mode = .normal →
        (s.sel.owner ≠ stationOwner i →
          exec c s = .next { s with clp := answered k .refusedNotOwner [s.sel.generation] s.clp }) ∧
        (s.sel.owner = stationOwner i → (∃ x y, inSet w x = true ∧ inSet w y = true ∧ conflicts s x y = true) →
          exec c s = .next { s with clp := answered k .refusedConflict [s.sel.generation] s.clp }) ∧
        (s.sel.owner = stationOwner i → (∀ x y, inSet w x = true → inSet w y = true → conflicts s x y = false) →
          ∃ t, exec c s = .next t ∧ Follows noGroup (setGroups { s with
            sel := { s.sel with target := w, generation := s.sel.generation + 1, reported := false }
            clp := answered k .accepted [s.sel.generation + 1] s.clp } fun g => { grp s g with maxedOut := false }) t))) ∧
  (∀ (i : Station) (b : Byte) (s : State), inFlight s = false → i ≠ 1 →
      s.mfs.mode = .startUp ∨ s.mfs.mode = .normal → s.sel.owner = stationOwner i →
      (b.toNat = 0 ∨ 8 < b.toNat ∨ ∃ n : Stage, b.toNat = number n ∧ s.sel.stages[n] = 0) →
      exec (.selectStage (number i) b) s =
        .next { s with clp := answered .selectStage .refusedInvalid [s.sel.generation] s.clp })

/-- R60, R22, R3: CALL_GROUPS in every mode, from owner and non-owner alike, sets the demand flag of every member but
the NONE slots, and the outcome is DONE.
That LDIR is high from the answering on, where R183 has the first bit of the reply, is log entry 16 (DESIGN CHOICE). -/
def Obligations.CallGroupsSetsDemand : Prop :=
  ∀ (i : Station) (w : GroupSet) (s : State), inFlight s = false → i ≠ 1 →
    ∃ t, exec (.callGroups (number i) w) s = .next t ∧
      Follows noGroup (setGroups { s with clp := answered .callGroups .done [] s.clp } fun g =>
        if inSet w g = true ∧ groupKind s.cs.image g ≠ .none then { grp s g with demand := true } else grp s g) t

/-! ## Modes, faults and validation -/

/-- R167, R168, R65, R139, R26: MODE_REQUEST FLASH or DARK by mode. From NORMAL, CLOSING begins: the target is emptied,
the list flushed, every group in PROCEED_EXT ends, with cause CLOSING unless it is inhibited, and CL_ALLRED begins at
once where every group is in STOP.
That LDIR is high from the answering on, where R183 has the first bit of the reply, is log entry 16 (DESIGN CHOICE). -/
def Obligations.ModeRequestTowardsRest : Prop :=
  ∀ (i : Station) (goal : Goal) (c : Instr) (s : State), inFlight s = false → i ≠ 1 →
    c = (match goal with
      | .flash => .modeRequestFlash (number i)
      | .dark => .modeRequestDark (number i)) →
    (s.mfs.mode = .powerUp →
      exec c s = .next { s with clp := answered .modeRequest .refusedMode (modeFields 0 s) s.clp }) ∧
    (s.mfs.mode = .startUp → ∃ t, exec c s = .next t ∧
      EntersResting goal { s with
        clp := answered .modeRequest .done [goal.mode.byte, 0, 0, 0, 0, 0, 0] s.clp } t) ∧
    (s.mfs.mode = .normal → ∃ t, exec c s = .next t ∧
      t.mfs.mode = .closing ∧ t.mfs.goal = some goal ∧ t.mfs.phaseStart = jnow s ∧
      t.mfs.sub = some (if ∀ g, (grp s g).state = .stop then .clAllred else .clClearing) ∧
      t.sel = { s.sel with target := 0 } ∧ t.fbs.current = none ∧ t.pu.list = [] ∧ t.pu.inhibitUntil = none ∧
      (∀ g, ovl t g = { holdUntil := none, call := false, block := false, truncate := false }) ∧
      (∀ g, grp t g = if (grp s g).state = .proceedExt then
          { grp s g with state := .clearance, stateEntry := jnow s, proceedEnd := jnow s,
                         cause := some (if (grp s g).inhibited then .fault else .closing) }
        else grp s g) ∧
      t.clp = answered .modeRequest .accepted
        [Mode.closing.byte, 1, (if ∀ g, (grp s g).state = .stop then SubPhase.clAllred else .clClearing).byte,
         1, goal.byte, 0, 0] s.clp ∧
      t.mfs.faults = s.mfs.faults ∧ t.cs = s.cs ∧ t.du = s.du ∧ t.igm = s.igm) ∧
    (s.mfs.mode = .closing → ∃ t, exec c s = .next t ∧ t.mfs.goal = some goal ∧ t.mfs.mode = .closing ∧
      t.mfs.sub = s.mfs.sub ∧ t.mfs.phaseStart = s.mfs.phaseStart ∧ t.sge = s.sge ∧ t.sel = s.sel ∧ t.pu = s.pu ∧
      t.lou = s.lou ∧ t.clp.reply = some { kind := 0x98, payload := 0 :: modeFields 0 t } ∧
      (s.mfs.goal = some goal → t.mfs = s.mfs) ∧
      (s.mfs.goal ≠ some goal →
        ∀ j : Station, (t.mfs.pending[j]).getLsbD Event.modeChanged.code.val = true)) ∧
    (s.mfs.mode = goal.mode →
      exec c s = .next { s with clp := answered .modeRequest .done (modeFields 0 s) s.clp }) ∧
    (s.mfs.mode.resting = true → s.mfs.mode ≠ goal.mode → ∃ t, exec c s = .next t ∧
      EntersResting goal { s with
        clp := answered .modeRequest .done [goal.mode.byte, 0, 0, 0, 0, 0, 0] s.clp } t)

/-- R170 to R172, R157, R55: RESUME by mode, critical flags and image: refused, refused with the latched critical kinds,
a validation ordered, or START_UP with FLT released, the locks lifted and the start-up default. A TRIPPED stop lamp is
left out where the all-red starts at once, since it makes its group red-out (R158).
That LDIR is high from the answering on, where R183 has the first bit of the reply, is log entry 16 (DESIGN CHOICE). -/
def Obligations.ResumeStartsUpOrValidates : Prop :=
  ∀ (i : Station) (s : State), inFlight s = false → i ≠ 1 →
    (s.mfs.mode ≠ .flash → s.mfs.mode ≠ .dark → exec (.modeRequestResume (number i)) s =
      .next { s with clp := answered .modeRequest .refusedMode (modeFields 0 s) s.clp }) ∧
    (s.mfs.mode = .flash ∨ s.mfs.mode = .dark →
      (criticalLatched s = true → ∀ n, n = (latchedKinds s &&& 0x0C0B#16).toNat →
        exec (.modeRequestResume (number i)) s =
          .next { s with clp := answered .modeRequest .refusedFault (modeFields n s) s.clp }) ∧
      (criticalLatched s = false → s.cs.edited = true ∨ s.cs.mismatch = true →
        exec (.modeRequestResume (number i)) s =
          .next { s with cs := { s.cs with validating := true }, clp := awaiting s.clp }) ∧
      (criticalLatched s = false → s.cs.edited = false → s.cs.mismatch = false →
        (startUpFlashTime s.cs.image = 0 → ∀ g, (lamp s (stopLamp g)).drive ≠ .tripped) →
        ∃ t, exec (.modeRequestResume (number i)) s = .next t ∧
          t.mfs.mode = .startUp ∧ t.mfs.goal = none ∧ t.mfs.phaseStart = jnow s ∧
          t.mfs.sub = some (if startUpFlashTime s.cs.image = 0 then .suAllred else .suFlash) ∧
          t.mfs.fltDriven = false ∧ t.mfs.faults = s.mfs.faults ∧ t.lou.redOut = s.lou.redOut ∧
          (∀ ch, (lamp s ch).drive = .lockedOff →
            (lamp t ch).drive = .enabled ∧ (lamp t ch).trips = 0 ∧ (lamp t ch).lastTrip = none) ∧
          (∀ ch, (lamp s ch).drive ≠ .lockedOff →
            (lamp t ch).drive = (lamp s ch).drive ∧ (lamp t ch).trips = (lamp s ch).trips) ∧
          (t.sel.owner, t.sel.rank) = (if (station s 0).silent = false then
            (Owner.controller, authorityRank s.cs.image 0) else (Owner.fallback, 3)) ∧
          t.sel.target = 0 ∧ t.sel.generation = s.sel.generation + 1 ∧
          t.clp = answered .modeRequest .accepted (modeFields 0 t) s.clp ∧ t.cs = s.cs ∧ t.du = s.du ∧ t.igm = s.igm))

/-- R207 to R209, R171: the completion of a validation. The first of the eight checks of R208 that fails, each written out
in `FailsCheck`, is answered by its number and changes nothing else; how the checks read an image that is out of range is
the model's reading (log entries 21 and 22, DEDUCED). With none that fails, a success writes the stored CRC, clears the indicator and the marker and loads the working copies, and then the RESUME
is refused for a critical flag or starts the junction.
That LDIR is high from the answering on, where R183 has the first bit of the reply, is log entry 16 (DESIGN CHOICE). -/
def Obligations.ValidationCompletionAnswersResume : Prop :=
  ∀ s : State, s.cs.validating = true →
    (∀ n, FailsCheck s.cs.image n → (∀ k < n, ¬FailsCheck s.cs.image k) → exec .validationCompletion s =
      .next { s with cs := { s.cs with validating := false },
                     clp := answered .modeRequest .configInvalid (modeFields n s) s.clp }) ∧
    ((∀ k, ¬FailsCheck s.cs.image k) →
      (startUpFlashTime s.cs.image = 0 → ∀ g, (lamp s (stopLamp g)).drive ≠ .tripped) →
      ∃ t, exec .validationCompletion s = .next t ∧
        t.cs = { s.cs with validating := false, storedCrc := imageCrc s.cs.image, edited := false,
                           mismatch := false } ∧
        (∀ c g, intergreen t c g = if c = g then none else storedEntry s.cs.image c g) ∧
        (∀ n : Stage, t.sel.stages[n] = storedStage s.cs.image n) ∧ t.mfs.faults = s.mfs.faults ∧
        (criticalLatched s = true → t.mfs.mode = s.mfs.mode ∧ t.mfs.fltDriven = s.mfs.fltDriven ∧
          t.clp = answered .modeRequest .refusedFault (modeFields (latchedKinds s &&& 0x0C0B#16).toNat t) s.clp) ∧
        (criticalLatched s = false → t.mfs.mode = .startUp ∧ t.mfs.phaseStart = jnow s ∧ t.mfs.fltDriven = false ∧
          t.sel.target = 0 ∧ t.clp = answered .modeRequest .accepted (modeFields 0 t) s.clp))

/-- R177, R157: CLEAR_FAULTS: a critical kind is refused outside FLASH and DARK; a request that passes clears the listed
records and keeps their counts, writes the report mask when one is given, re-arms every channel's run that has raised a
listed kind (R152, R153), and, in FLASH or DARK with OVERCURRENT listed, lifts every lock with its trip count and last
trip.
R194: the mask field is checked whether or not the request says that a mask is given.
That LDIR is high from the answering on, where R183 has the first bit of the reply, is log entry 16 (DESIGN CHOICE). -/
def Obligations.ClearFaultsClearsListedKinds : Prop :=
  ∀ (i : Station) (kinds mask : BitVec 16) (given : Bool) (s : State), inFlight s = false → i ≠ 1 →
    ((∃ n, 12 ≤ n ∧ (kinds.getLsbD n = true ∨ mask.getLsbD n = true)) →
      exec (.clearFaults (number i) kinds given mask) s =
        .next { s with clp := answered .clearFaults .refusedInvalid [] s.clp }) ∧
    ((∀ n, 12 ≤ n → kinds.getLsbD n = false ∧ mask.getLsbD n = false) →
      (s.mfs.mode ≠ .flash → s.mfs.mode ≠ .dark → (∃ k : Fin 12, kinds.getLsbD k.val = true ∧ criticalCode k = true) →
        exec (.clearFaults (number i) kinds given mask) s = .next { s with
          clp := answered .clearFaults .refusedMode (natBytes 2 (latchedKinds s).toNat) s.clp }) ∧
      (s.mfs.mode = .flash ∨ s.mfs.mode = .dark ∨ (∀ k : Fin 12, kinds.getLsbD k.val = true → criticalCode k = false) →
        ∃ t, exec (.clearFaults (number i) kinds given mask) s = .next t ∧
          t = { s with mfs := { s.mfs with faults := t.mfs.faults }, lou := { s.lou with channels := t.lou.channels },
                       clp := answered .clearFaults .done (natBytes 2 (latchedKinds t).toNat) s.clp } ∧
          (∀ k : Fin 12, t.mfs.faults[k] =
            { s.mfs.faults[k] with
              latched := (s.mfs.faults[k]).latched && !kinds.getLsbD k.val
              firstSet := if kinds.getLsbD k.val then none else (s.mfs.faults[k]).firstSet
              detail := if kinds.getLsbD k.val then 0 else (s.mfs.faults[k]).detail
              masked := if given then mask.getLsbD k.val else (s.mfs.faults[k]).masked }) ∧
          ∀ ch rearmed, (rearmed = match (lamp s ch).run with
              | some .out => (lamp s ch).rearmed || (decide (3 ≤ (lamp s ch).mismatches) && kinds.getLsbD 4)
              | some .partly => (lamp s ch).rearmed || (decide (3 ≤ (lamp s ch).mismatches) && kinds.getLsbD 5)
              | some .uncommanded => (lamp s ch).rearmed || (decide (2 ≤ (lamp s ch).mismatches) &&
                  kinds.getLsbD (if lampPos ch = 2 then 1 else 4))
              | none => (lamp s ch).rearmed) →
            (kinds.getLsbD 6 = true → s.mfs.mode.resting = true → (lamp s ch).drive = .lockedOff →
              lamp t ch = { lamp s ch with
                drive := .enabled, trips := 0, lastTrip := none, rearmed := rearmed, output := (lamp t ch).output,
                settling := (lamp s ch).settling || ((lamp t ch).output != (lamp s ch).output) } ∧
              (lamp t ch).output = (decide ((lamp s ch).command = .on) ||
                (decide ((lamp s ch).command = .flash) && decide ((jnow s).toNat % 10 < 5)))) ∧
            (kinds.getLsbD 6 = false ∨ s.mfs.mode.resting = false ∨ (lamp s ch).drive ≠ .lockedOff →
              lamp t ch = { lamp s ch with rearmed := rearmed })))

/-! ## Dim, enable and configuration -/

/-- R150: SET_DIM in every mode writes the pending state, replacing another, and answers with the active and the pending
state; a value other than BRIGHT and DIM is refused.
R140: ENABLE_PRIORITY in every mode: a request that leaves the enable as it stands changes nothing; one that changes
it, to on or to off, runs the walk, whose results stand where no group changes its state at the arrival; with the enable
off, no entry acts after it.
That LDIR is high from the answering on, where R183 has the first bit of the reply, is log entry 16 (DESIGN CHOICE). -/
def Obligations.SetDimAndEnablePriority : Prop :=
  (∀ (i : Station) (b : Byte) (d : Dim) (s : State), inFlight s = false → i = 0 ∨ i = 3 →
    (b = d.byte → exec (.setDim (number i) b) s = .next { s with
      lou := { s.lou with pendingDim := some d }
      clp := answered .setDim .done [s.lou.dim.byte, 1, d.byte] s.clp }) ∧
    (1 < b.toNat → exec (.setDim (number i) b) s = .next { s with
      clp := answered .setDim .refusedInvalid (dimFields s) s.clp })) ∧
  ∀ (i : Station) (b : Byte) (s m : State), inFlight s = false → i = 0 ∨ i = 3 → b.toNat ≤ 1 →
    m = { s with pu := { s.pu with enabled := decide (b = 1) } } →
    (s.pu.enabled = decide (b = 1) → exec (.enablePriority (number i) b) s = .next { s with
      clp := answered .enablePriority .done [b] s.clp }) ∧
    (s.pu.enabled ≠ decide (b = 1) → ∃ t, exec (.enablePriority (number i) b) s = .next t ∧
      Follows noGroup { m with clp := answered .enablePriority .done [b] s.clp } t ∧
      ((∀ g, (grp t g).state = (grp s g).state) → t.pu = (walk m).pu) ∧
      (b = 0 → ∀ e ∈ t.pu.list, ∀ st, e.state = some st → st.acting = false))

/-- R205, R200: READ_CONFIG is refused outside FLASH and DARK, for a block code above 6 and for an index outside its block;
otherwise it answers the edited indicator and the record as it stands in the image.
That LDIR is high from the answering on, where R183 has the first bit of the reply, is log entry 16 (DESIGN CHOICE). -/
def Obligations.ReadConfigReturnsRecord : Prop :=
  ∀ (i : Station) (block index : Byte) (s : State), inFlight s = false → i = 0 ∨ i = 3 →
    (s.mfs.mode ≠ .flash → s.mfs.mode ≠ .dark → exec (.readConfig (number i) block index) s =
      .next { s with clp := answered .readConfig .refusedMode [] s.clp }) ∧
    (s.mfs.mode = .flash ∨ s.mfs.mode = .dark →
      (6 < block.toNat ∨ (block = 0 ∧ index ≠ 0) ∨
          (block ≠ 0 ∧ (index = 0 ∨ [1, 4, 24, 24, 8, 32, 8].getD block.toNat 0 < index.toNat)) →
        exec (.readConfig (number i) block index) s =
          .next { s with clp := answered .readConfig .refusedInvalid [] s.clp }) ∧
      (∀ n base size, (block = 0 ∧ index = 0 ∧ n = 0) ∨
          (0 < block.toNat ∧ block.toNat ≤ 6 ∧ index.toNat = n + 1 ∧ n < [1, 4, 24, 24, 8, 32, 8].getD block.toNat 0) →
        size = [11, 3, 19, 24, 3, 11, 33].getD block.toNat 0 →
        base = [0, 11, 23, 479, 1055, 1079, 1431].getD block.toNat 0 + size * n →
        ∀ l, l = (if s.cs.edited then 1 else 0) :: imageBytes s.cs.image base size →
        exec (.readConfig (number i) block index) s =
          .next { s with clp := answered .readConfig .done l s.clp }))

/-- R202 to R204: WRITE_CONFIG is refused by mode, by record, by length and by a byte that no field may hold; an accepted
record stands in the image clamped, no other byte changes, the indicator is set, the stored CRC stands, and the request
waits for its copy. That a slot of a group reference past its count is clamped to 0 is the model's reading (log entry 21,
DEDUCED).
R204, R187: the nonvolatile copy completes and the WRITE_CONFIG is answered DONE with the clamped positions.
That LDIR is high from the answering on, where R183 has the first bit of the reply, is log entry 16 (DESIGN CHOICE). -/
def Obligations.WriteConfigStoresClampedRecord : Prop :=
  (∀ (i : Station) (block index : Byte) (bs : List Byte) (s : State), inFlight s = false → i = 0 ∨ i = 3 →
      imageWf s.cs.image = true →
      (s.mfs.mode ≠ .flash → s.mfs.mode ≠ .dark → exec (.writeConfig (number i) block index bs) s =
        .next { s with clp := answered .writeConfig .refusedMode [0] s.clp }) ∧
      (s.mfs.mode = .flash ∨ s.mfs.mode = .dark →
        (placeOf block index = none → exec (.writeConfig (number i) block index bs) s =
          .next { s with clp := answered .writeConfig .refusedInvalid [0] s.clp }) ∧
        ∀ p, placeOf block index = some p →
          (bs.length ≠ p.size → exec (.writeConfig (number i) block index bs) s =
            .next { s with clp := answered .writeConfig .badLength [0] s.clp }) ∧
          (bs.length = p.size →
            (∃ f ∈ recordFields p bs, f.1.encodingOk f.2 = false ∨ f.1.codeOk f.2 = false) →
            exec (.writeConfig (number i) block index bs) s =
              .next { s with clp := answered .writeConfig .refusedInvalid [0] s.clp }) ∧
          (bs.length = p.size →
            (∀ f ∈ recordFields p bs, f.1.encodingOk f.2 = true ∧ f.1.codeOk f.2 = true) →
            ∃ t, exec (.writeConfig (number i) block index bs) s = .next t ∧
              (∀ k < p.size, imageByte t.cs.image (p.base + k) = (clampedRecord p bs).getD k 0) ∧
              (∀ a, a < p.base ∨ p.base + p.size ≤ a → imageByte t.cs.image a = imageByte s.cs.image a) ∧
              t.cs.edited = true ∧ t.cs.storedCrc = s.cs.storedCrc ∧ t.cs.mismatch = s.cs.mismatch ∧
              t.cs.copy = some { address := p.base, old := imageBytes s.cs.image p.base p.size,
                                 clamped := clampedPositions p bs } ∧
              t.clp.receiver = .busy ∧ t.clp.reply = none ∧ t.mfs.mode = s.mfs.mode ∧ t.igm = s.igm ∧
              t.sel.stages = s.sel.stages ∧
              (∀ g, (grp t g).state = (grp s g).state ∨
                (grp s g).state = .proceedExt ∧ (grp t g).state = .clearance)))) ∧
  (∀ (k : Copy) (s : State), s.cs.copy = some k →
      exec .nonvolatileCopyCompletion s = .next { s with
        cs := { s.cs with copy := none }
        clp := answered .writeConfig .done
          (BitVec.ofNat 8 k.clamped.length :: k.clamped.map (BitVec.ofNat 8)) s.clp })

/-- R5, R80, R101, R104, R161, R179, R198, R47: what an accepted write of a DEVICE, GROUP, DETECTOR, STATION or APPROACH
record does to the live records that it governs: the external-low run of a device that does not follow the line; a group,
its commands and its lamps, and the red-out set at kind NONE; a channel; a station; the armed-A time of an approach. A lamp
whose use a write changes keeps its last sensed current and its last raised kind (log entry 24).
R69, R98: a write of UNUSED on a channel that counts as occupied sets the last gap exit of the groups whose extension
detector it was before (log entry 29). At a DETECTOR write a sample of
the same count comes first with all that follows from it (log entry 2): what it left
of a long presence or a window close is taken, as those rows would take it, and the write then resets the channel. A
write of UNUSED keeps the three fields of the last sample, which is the model's choice (log entry 29). The field `level`,
the earlier contact sample, is the model's own, and that a write makes it absent is the model's reading (log entry 7,
DEDUCED). -/
def Obligations.WriteConfigActsOnLiveRecords : Prop :=
  ∀ (i : Station) (block index : Byte) (bs : List Byte) (p : Place) (s : State), inFlight s = false → i = 0 ∨ i = 3 →
    s.mfs.mode = .flash ∨ s.mfs.mode = .dark → (∀ g, (grp s g).state = .stop) →
    placeOf block index = some p → bs.length = p.size →
    (∀ f ∈ recordFields p bs, f.1.encodingOk f.2 = true ∧ f.1.codeOk f.2 = true) →
    ∃ t, exec (.writeConfig (number i) block index bs) s = .next t ∧
      (p = .device → t.mfs.externalRun = if followEnabled t.cs.image = true then s.mfs.externalRun else 0) ∧
      (∀ g ch, p = .group g → if lampGroup ch = g then
          (lamp t ch).command = derivedCommand t ch ∧ (lamp t ch).drive = (lamp s ch).drive ∧
          (lamp t ch).trips = (lamp s ch).trips ∧ (lamp t ch).lastTrip = (lamp s ch).lastTrip ∧
          (lamp t ch).retry = (lamp s ch).retry ∧ (lamp t ch).sensed = (lamp s ch).sensed ∧
          (lamp t ch).lastRaised = (lamp s ch).lastRaised ∧
          (usedLamp s.cs.image ch = true → usedLamp t.cs.image ch = true →
            (lamp t ch).result = (lamp s ch).result ∧ (lamp t ch).run = (lamp s ch).run ∧
            (lamp t ch).mismatches = (lamp s ch).mismatches ∧ (lamp t ch).litCount = (lamp s ch).litCount) ∧
          (usedLamp s.cs.image ch = false ∨ usedLamp t.cs.image ch = false →
            (lamp t ch).result = none ∧ (lamp t ch).run = none ∧ (lamp t ch).mismatches = 0 ∧ (lamp t ch).litCount = 0)
        else lamp t ch = lamp s ch) ∧
      (∀ g, p = .group g →
        grp t g = (if groupKind t.cs.image g = .none then
            { grp s g with demand := false, maxedOut := false, credit := 0, bonus := 0,
                           inhibited := (grp t g).inhibited }
          else { grp s g with credit := min (grp s g).credit (compensationCap t.cs.image g) }) ∧
        (groupKind t.cs.image g = .none → inSet t.lou.redOut g = false)) ∧
      (∀ ch, p = .detector ch → ∃ x y u, exec (.loopLongPresence (number ch)) s = .next x ∧
        exec (.windowClose (number ch)) x = .next y ∧ exec (.contactLongPresence (number ch)) y = .next u ∧
        det t ch = { det u ch with
          state := if channelKind t.cs.image ch = .unused then .vacant else .tuning
          forced := decide (channelKind t.cs.image ch ≠ .unused)
          baseline := none, inner := none, validRun := 0, invalidRun := 0, aboveRun := 0, belowRun := 0, tuningSum := 0
          lastP := if channelKind t.cs.image ch = .contact then none else (det u ch).lastP
          lastResult := if channelKind t.cs.image ch = .contact then none else (det u ch).lastResult
          lastDeviation := if channelKind t.cs.image ch = .contact then none else (det u ch).lastDeviation
          budget := budgetStart t.cs.image ch, windowStart := dnow s, level := none } ∧
        GapNoted ch (channelKind t.cs.image ch = .unused ∧ ((det u ch).state = .occupied ∨ (det u ch).forced = true)) u t) ∧
      (∀ j, p = .station j →
        station t j = { lastHeard := jnow s,
                        silent := (station s j).silent && decide (silenceLimit t.cs.image j ≠ 0) } ∧
        t.sel.owner = s.sel.owner ∧
        t.sel.rank = (if ownerStation s.sel.owner = some j then max s.sel.rank (authorityRank t.cs.image j)
          else s.sel.rank)) ∧
      (∀ a, p = .approach a → apr t a = { apr s a with armedA := none }) ∧
      ((∀ ch, p ≠ .detector ch) → t.du = s.du) ∧ ((∀ j, p ≠ .station j) → t.clp.stations = s.clp.stations)

/-! ## The priority list's requests -/

/-- R112 to R116, R119, R122: CHECK_IN by mode and approach; an update of the entry that holds the ident, with its place
and its marks kept; a merge into the oldest entry of the loops that can take it; a new entry with the next free number;
a full list refuses an entry that is not stronger than its last, and gives that one up, with PRIORITY_DROPPED, to one that
is. R119, R123: the new, updated or merged entry stands where rank, check-in time and creation place it; `seq`, its place in
creation order, is the model's own (log entry 27).
That LDIR is high from the answering on, where R183 has the first bit of the reply, is log entry 16 (DESIGN CHOICE). -/
def Obligations.CheckInUpdatesMergesOrAdmits : Prop :=
  ∀ (ident : BitVec 16) (route approach : Byte) (lateness : BitVec 16) (special : Bool) (dist : Option (BitVec 24))
    (speed : Option (BitVec 16)) (c : Instr) (r : Report) (s : State), inFlight s = false →
    c = .checkIn 2 ident route approach lateness special dist speed →
    r = { ident := ident, route := route, lateness := lateness, special := special, distance := dist, speed := speed } →
    (s.mfs.mode ≠ .startUp → s.mfs.mode ≠ .normal →
      exec c s = .next { s with clp := answered .checkIn .refusedMode [0, 0] s.clp }) ∧
    (s.mfs.mode = .startUp ∨ s.mfs.mode = .normal →
      (approachInUse s.cs.image approach = none →
        exec c s = .next { s with clp := answered .checkIn .refusedInvalid [0, 0] s.clp }) ∧
      ∀ a, approachInUse s.cs.image approach = some a →
        (∀ e, s.pu.list.find? (heldBy ident a) = some e → ∃ t, exec c s = .next t ∧
          t.clp = answered .checkIn .done [1, e.number] s.clp ∧
          PlacedIn (jnow s) { withFigures s.cs.image (jnow s) (reportEta s.cs.image a r).1 e with
            rank := reportRank s.cs.image r, route := some route, speedClamped := (reportEta s.cs.image a r).2,
            singleLoop := false } (s.pu.list.filter fun x => decide (x ≠ e)) t.pu.list) ∧
        (s.pu.list.find? (heldBy ident a) = none →
          (∀ e, oldest (mergeable (jnow s) a) s.pu.list = some e → ∃ t, exec c s = .next t ∧
            t.clp = answered .checkIn .done [1, e.number] s.clp ∧
            PlacedIn (jnow s) { e with
              ident := some ident, route := some route, rank := reportRank s.cs.image r, merged := true }
              (s.pu.list.filter fun x => decide (x ≠ e)) t.pu.list) ∧
          (oldest (mergeable (jnow s) a) s.pu.list = none → s.pu.list.length < 8 → ∃ t, exec c s = .next t ∧
            t.clp = answered .checkIn .accepted [1, freeNumber s.pu.nextEntry s.pu.list] s.clp ∧
            t.pu.nextEntry = freeNumber s.pu.nextEntry s.pu.list + 1 ∧
            PlacedIn (jnow s) { reportEntry s a r with
              number := freeNumber s.pu.nextEntry s.pu.list, seq := s.pu.nextSeq } s.pu.list t.pu.list) ∧
          (∀ last, oldest (mergeable (jnow s) a) s.pu.list = none → 8 ≤ s.pu.list.length →
            s.pu.list.getLast? = some last → last.rank ≤ reportRank s.cs.image r →
            exec c s = .next { s with clp := answered .checkIn .listFull [0, 0] s.clp }) ∧
          (∀ last, oldest (mergeable (jnow s) a) s.pu.list = none → 8 ≤ s.pu.list.length →
            s.pu.list.getLast? = some last → reportRank s.cs.image r < last.rank → ∃ t, exec c s = .next t ∧
            t.clp = answered .checkIn .accepted [1, freeNumber s.pu.nextEntry s.pu.list.dropLast] s.clp ∧
            (∀ j : Station, (t.mfs.pending[j]).getLsbD Event.priorityDropped.code.val = true) ∧
            PlacedIn (jnow s) { reportEntry s a r with
              number := freeNumber s.pu.nextEntry s.pu.list.dropLast, seq := s.pu.nextSeq } s.pu.list.dropLast t.pu.list)))

/-- R117, R136, R138, R143: CHECK_OUT and CANCEL_PRIORITY, by number and by ident, remove the entries they name with
their cause, and answer; where there is none the outcome is NO_MATCH and nothing changes.
R117, R138, R140, R195: the values that CHECK_OUT, CANCEL_PRIORITY by number and ENABLE_PRIORITY refuse.
That LDIR is high from the answering on, where R183 has the first bit of the reply, is log entry 16 (DESIGN CHOICE). -/
def Obligations.CheckOutAndCancelRemoveEntries : Prop :=
  (∀ (i : Station) (ident value : BitVec 16) (approach : Byte) (c : Instr) (k : RequestKind) (p : Entry → Bool)
      (cause : RemovalCause) (s : State), inFlight s = false →
      ((k = .checkOut ∧ i = 1 ∧ cause = .served ∧ c = .checkOut (number i) ident approach ∧
          1 ≤ approach.toNat ∧ approach.toNat ≤ 8 ∧ (s.pu.list.countP p ≤ 1) ∧
          ∀ e, p e = (decide (e.ident = some ident) && decide (number e.approach = approach.toNat))) ∨
        (k = .cancelPriority ∧ (i = 0 ∨ i = 1) ∧ cause = .cancelled ∧
          ((c = .cancelPriorityByNumber (number i) value ∧ value.toNat ≤ 255 ∧
              ∀ e, p e = decide (e.number.toNat = value.toNat)) ∨
            (c = .cancelPriorityByIdent (number i) ident ∧ ∀ e, p e = decide (e.ident = some ident))))) →
      ((∀ e ∈ s.pu.list, p e = false) → exec c s =
        .next { s with clp := answered k .noMatch (if k = .checkOut then [0, 0] else [0]) s.clp }) ∧
      (∀ e, s.pu.list.find? p = some e → ∃ t, exec c s = .next t ∧
        t.clp = answered k .done (if k = .checkOut then [1, e.number] else [BitVec.ofNat 8 (s.pu.list.countP p)]) s.clp ∧
        t.pu.list.map Entry.core = (s.pu.list.filter fun x => !p x).map Entry.core ∧
        t.mfs.lastRemoval = some cause ∧
        (∀ j : Station, (t.mfs.pending[j]).getLsbD Event.priorityRemoved.code.val = true) ∧
        (∀ g, GroupFollows (jnow s) (compensationCap s.cs.image g) (grp s g) (grp t g)) ∧
        t.cs = s.cs ∧ t.du = s.du ∧ t.mfs.mode = s.mfs.mode)) ∧
  (∀ (ident value : BitVec 16) (b : Byte) (s : State), inFlight s = false →
      (b.toNat = 0 ∨ 8 < b.toNat → exec (.checkOut 2 ident b) s =
        .next { s with clp := answered .checkOut .refusedInvalid [0, 0] s.clp }) ∧
      (255 < value.toNat → exec (.cancelPriorityByNumber 1 value) s =
        .next { s with clp := answered .cancelPriority .refusedInvalid [0] s.clp }) ∧
      (1 < b.toNat → exec (.enablePriority 1 b) s =
        .next { s with clp := answered .enablePriority .refusedInvalid [if s.pu.enabled then 1 else 0] s.clp }))

/-! ## Laws that every step keeps -/

/-- The laws at `State.reset`, the state right after a first reset. That state's image, stored CRC and pins, which the manual
does not give, are the model's choice (log entry 3, unsafe); the statement speaks of this one state. -/
def Obligations.LawsHoldAtReset : Prop :=
  imageWf State.reset.cs.image = true ∧ AttnLaw State.reset ∧ CommandLaw State.reset ∧ CreditLaw State.reset ∧
    RankLaw State.reset ∧ ListLaw State.reset.pu.list ∧ OrderLaw State.reset ∧ DetectorLaw State.reset ∧ Orderly State.reset

/-- The configuration image keeps its canonical form.
R181: ATTN is low exactly while station 1's unmasked summary is set.
R148 (the ninth law among what it gives): every lamp channel is commanded as its group's state and kind and the
device mode say. -/
def Obligations.StepKeepsImageAttentionAndLampCommands : Prop :=
  (∀ s t : State, imageWf s.cs.image = true → step s = .next t → imageWf t.cs.image = true) ∧
  (∀ s t : State, AttnLaw s → step s = .next t → AttnLaw t) ∧
  (∀ s t : State, imageWf s.cs.image = true → CommandLaw s → step s = .next t → CommandLaw t)

/-- R24: every group's compensation credit stays within 0 and its cap.
R46, the selector's part of the seventh law: the owner rank is never stronger than the owner's authority. -/
def Obligations.StepKeepsCreditsAndOwnerRank : Prop :=
  (∀ s t : State, imageWf s.cs.image = true → CreditLaw s → step s = .next t → CreditLaw t) ∧
  (∀ s t : State, imageWf s.cs.image = true → RankLaw s → step s = .next t → RankLaw t)

/-- R119, R111: the fifth law, which is the list's length and the idents in `ListLaw` and the rank, check-in time and creation
order in `OrderLaw` (creation order is kept in fields of the model's own, log entry 27), and the eleventh law.
R84, R87, the eighth law: every baseline stays within 16,000 to 110,000 ticks. -/
def Obligations.StepKeepsPriorityListAndDetectorRecords : Prop :=
  (∀ s t : State, ListLaw s.pu.list → step s = .next t → ListLaw t.pu.list) ∧
  (∀ s t : State, OrderLaw s → step s = .next t → OrderLaw t) ∧
  (∀ s t : State, DetectorLaw s → step s = .next t → DetectorLaw t)

/-- R9, the first law, with R26, R163 and R187: of any two conflicting groups at most one has right of way, groups are
out of STOP only in NORMAL and in the clearing of CLOSING, and the mode record is legal. -/
def Obligations.StepKeepsFirstLaw : Prop := ∀ s t : State, Orderly s → step s = .next t → Orderly t
end

