-- ==== Sys2Proof/Laws/Image.lean ====
section
/-! SUPPORT. The configuration image: reading after a write, the canonical form, and how far the fields of one record
are from the bytes of another. -/

namespace Sys2Proof.Machine

/-! ## One byte -/

/-- Reading after a write. -/
theorem imageByte_write (m : Image) (a c : Nat) (b : Byte) (h : imageWf m = true) :
    imageByte (imageWrite m a b) c = if c = a then b else imageByte m c := by
  suffices H : ∀ (m : Image) (lo : Nat), imageWfFrom lo m = true →
      imageByte (imageWrite m a b) c = if c = a then b else imageByte m c from H m 0 h
  intro m
  induction m with
  | nil =>
    intro lo _
    unfold imageWrite
    split
    · rename_i e
      simp only [imageByte]
      split
      · rename_i ec; rw [ec, e]
      · rfl
    · simp only [imageByte, eq_comm]
  | cons kv rest ih =>
    intro lo hw
    obtain ⟨k, v⟩ := kv
    simp only [imageWfFrom, Bool.and_eq_true, decide_eq_true_eq] at hw
    obtain ⟨⟨h1, h2⟩, h3⟩ := hw
    have hlow : ∀ (l : Image) (lo x : Nat), imageWfFrom lo l = true → x < lo → imageByte l x = factoryByte x := by
      intro l
      induction l with
      | nil => intros; rfl
      | cons kv' l' ih' =>
        intro lo x hl hx
        obtain ⟨k', v'⟩ := kv'
        simp only [imageWfFrom, Bool.and_eq_true, decide_eq_true_eq] at hl
        simp only [imageByte]
        rw [if_neg (by omega)]
        exact ih' _ _ hl.2 (by omega)
    unfold imageWrite
    split
    · simp only [imageByte]
      rw [ih (k + 1) h3]
      split
      · rename_i e; rw [if_neg (by omega)]
      · rfl
    · split
      · rename_i e
        split
        · rename_i eb
          simp only [imageByte]
          split
          · rename_i ec
            rw [ec, eb, hlow rest (k + 1) a h3 (by omega)]
          · rename_i ec
            rw [if_neg (by omega)]
        · simp only [imageByte, eq_comm]
          split
          · rfl
          · rename_i ec
            rw [if_neg (by omega)]
      · split
        · rename_i eb
          split
          · rename_i ec
            rw [ec, eb]
            exact hlow ((k, v) :: rest) k a (by
              simp only [imageWfFrom, Bool.and_eq_true, decide_eq_true_eq]
              exact ⟨⟨le_refl k, h2⟩, h3⟩) (by omega)
          · rfl
        · simp only [imageByte, eq_comm]

theorem imageWfFrom_mono (m : Image) (lo hi : Nat) (h : imageWfFrom hi m = true) (hl : lo ≤ hi) :
    imageWfFrom lo m = true := by
  cases m with
  | nil => rfl
  | cons kv rest =>
    obtain ⟨k, v⟩ := kv
    simp only [imageWfFrom, Bool.and_eq_true, decide_eq_true_eq] at h ⊢
    exact ⟨⟨by omega, h.1.2⟩, h.2⟩

theorem imageWrite_wfFrom (m : Image) (lo a : Nat) (b : Byte) (h : imageWfFrom lo m = true) (hl : lo ≤ a) :
    imageWfFrom lo (imageWrite m a b) = true := by
  induction m generalizing lo with
  | nil =>
    unfold imageWrite
    split
    · rfl
    · rename_i hb
      simp only [imageWfFrom, Bool.and_eq_true, decide_eq_true_eq]
      exact ⟨⟨hl, hb⟩, trivial⟩
  | cons kv rest ih =>
    obtain ⟨k, v⟩ := kv
    have h' := h
    simp only [imageWfFrom, Bool.and_eq_true, decide_eq_true_eq] at h
    obtain ⟨⟨h1, h2⟩, h3⟩ := h
    unfold imageWrite
    split
    · simp only [imageWfFrom, Bool.and_eq_true, decide_eq_true_eq]
      exact ⟨⟨h1, h2⟩, ih (k + 1) h3 (by omega)⟩
    · split
      · rename_i e
        split
        · exact imageWfFrom_mono rest lo (k + 1) h3 (by omega)
        · rename_i hb
          simp only [imageWfFrom, Bool.and_eq_true, decide_eq_true_eq]
          exact ⟨⟨hl, hb⟩, by rw [← e]; exact h3⟩
      · split
        · exact h'
        · rename_i hb
          simp only [imageWfFrom, Bool.and_eq_true, decide_eq_true_eq]
          exact ⟨⟨hl, hb⟩, ⟨by omega, h2⟩, h3⟩

/-- A write keeps the canonical form. -/
theorem imageWrite_wf (m : Image) (a : Nat) (b : Byte) (h : imageWf m = true) : imageWf (imageWrite m a b) = true :=
  imageWrite_wfFrom m 0 a b h (Nat.zero_le a)

/-! ## Several bytes -/

theorem imageWriteBytes_wf (m : Image) (a : Nat) (bs : List Byte) (h : imageWf m = true) :
    imageWf (imageWriteBytes m a bs) = true := by
  induction bs generalizing m a with
  | nil => exact h
  | cons b bs ih => exact ih _ _ (imageWrite_wf m a b h)

/-- Reading after a write of several bytes: the byte written at the address, or the byte that stood there. -/
theorem imageByte_writeBytes (m : Image) (a c : Nat) (bs : List Byte) (h : imageWf m = true) :
    imageByte (imageWriteBytes m a bs) c =
      if hc : a ≤ c ∧ c - a < bs.length then bs[c - a] else imageByte m c := by
  induction bs generalizing m a with
  | nil => simp [imageWriteBytes]
  | cons b bs ih =>
    rw [imageWriteBytes, ih _ _ (imageWrite_wf m a b h), imageByte_write m a c b h]
    by_cases e : c = a
    · subst e
      rw [dif_neg (by omega), if_pos rfl, dif_pos (by simp)]
      simp
    · rw [if_neg e]
      by_cases hc : a + 1 ≤ c ∧ c - (a + 1) < bs.length
      · rw [dif_pos hc, dif_pos ⟨by omega, by simp only [List.length_cons]; omega⟩]
        obtain ⟨n, hn⟩ : ∃ n, c - a = n + 1 := ⟨c - (a + 1), by omega⟩
        have hn' : c - (a + 1) = n := by omega
        simp only [hn, hn', List.getElem_cons_succ]
      · rw [dif_neg hc, dif_neg (by simp only [List.length_cons]; omega)]

/-- Images that agree on `w` bytes read one number there. -/
theorem imageNum_congr (m m' : Image) (a w : Nat) (h : ∀ x, a ≤ x → x < a + w → imageByte m' x = imageByte m x) :
    imageNum m' a w = imageNum m a w := by
  have hb : imageBytes m' a w = imageBytes m a w := by
    induction w generalizing a with
    | zero => rfl
    | succ w ih =>
      simp only [imageBytes]
      rw [h a (le_refl a) (by omega), ih (a + 1) (fun x h1 h2 => h x (by omega) (by omega))]
  unfold imageNum
  rw [hb]

/-! ## Records -/

/-- Two images agree outside the record of `p`. -/
def AgreeBut (p : Place) (m m' : Image) : Prop :=
  ∀ x, x < p.base ∨ p.base + p.size ≤ x → imageByte m' x = imageByte m x

theorem natBytes_length (w n : Nat) : (natBytes w n).length = w := by
  induction w generalizing n with
  | zero => rfl
  | succ w ih => simp [natBytes, ih]

theorem dropRepeats_length (kept l : List Byte) : (dropRepeats kept l).length ≤ kept.length + l.length := by
  induction l generalizing kept with
  | nil => simp [dropRepeats]
  | cons b bs ih =>
    unfold dropRepeats
    refine le_trans (ih _) ?_
    split
    · simp only [List.length_cons]; omega
    · simp only [List.length_append, List.length_cons, List.length_nil]; omega

/-- R203: clamping keeps the length of a field. -/
theorem clamped_length (f : Field) (b : List Byte) (h : b.length = f.size) : (f.clamped b).length = f.size := by
  cases f with
  | num w lo hi => exact natBytes_length _ _
  | code n => exact h
  | flag => exact h
  | silence => exact natBytes_length _ _
  | groups => exact h
  | entry =>
    simp only [Field.clamped]
    split
    · exact h
    · exact natBytes_length _ _
  | channel =>
    simp only [Field.clamped]
    split
    · simp [natBytes_length, Field.size]
    · rfl
  | refs =>
    simp only [Field.clamped, clampRefs]
    have hl := dropRepeats_length []
      ((b.tail.take (min 4 (b.headD 0).toNat)).map fun x => BitVec.ofNat 8 (min 24 x.toNat))
    simp only [List.length_nil, List.length_map, List.length_take, Nat.zero_add] at hl
    simp only [List.length_cons, List.length_append, List.length_replicate, Field.size]
    omega

theorem cutFields_sizes (fs : List Field) (bs : List Byte) (h : bs.length = (fs.map Field.size).sum) :
    ∀ p ∈ cutFields fs bs, p.2.length = p.1.size := by
  induction fs generalizing bs with
  | nil => simp [cutFields]
  | cons f fs ih =>
    simp only [List.map_cons, List.sum_cons] at h
    intro p hp
    simp only [cutFields, List.mem_cons] at hp
    rcases hp with rfl | hp
    · simp only [List.length_take]; omega
    · exact ih _ (by simp only [List.length_drop]; omega) p hp

theorem cutFields_fst (fs : List Field) (bs : List Byte) : (cutFields fs bs).map Prod.fst = fs := by
  induction fs generalizing bs with
  | nil => rfl
  | cons f fs ih => simp [cutFields, ih]

theorem fields_size (p : Place) (first : Byte) : ((p.fields first).map Field.size).sum = p.size := by
  cases p <;> rfl

/-- R203: a clamped record has the length of its block's records. -/
theorem clampedRecord_length (p : Place) (bs : List Byte) (h : bs.length = p.size) :
    (clampedRecord p bs).length = p.size := by
  have hs := cutFields_sizes (p.fields (bs.headD 0)) bs (by rw [fields_size, h])
  have hf := cutFields_fst (p.fields (bs.headD 0)) bs
  unfold clampedRecord recordFields
  rw [List.length_flatMap]
  rw [← fields_size p (bs.headD 0)]
  conv_rhs => rw [← hf]
  rw [List.map_map]
  congr 1
  refine List.map_congr_left fun x hx => ?_
  exact clamped_length x.1 x.2 (hs x hx)

/-- R204: a write of one record leaves the bytes outside it. -/
theorem write_agrees (m : Image) (p : Place) (bs : List Byte) (h : imageWf m = true) (hb : bs.length ≤ p.size) :
    AgreeBut p m (imageWriteBytes m p.base bs) := by
  intro x hx
  rw [imageByte_writeBytes m _ x bs h, dif_neg (by omega)]

theorem groupKind_agrees {p : Place} {m m' : Image} (h : AgreeBut p m m') (g : Group) (hp : p ≠ .group g) :
    groupKind m' g = groupKind m g := by
  unfold groupKind
  rw [h]
  cases p <;> simp [Place.base, Place.size, groupBase, stationBase, matrixBase, stageBase, detectorBase,
    approachBase, Fin.ext_iff] at hp ⊢ <;> omega

theorem compensationCap_agrees {p : Place} {m m' : Image} (h : AgreeBut p m m') (g : Group) (hp : p ≠ .group g) :
    compensationCap m' g = compensationCap m g := by
  unfold compensationCap
  rw [imageNum_congr m m']
  intro x h1 h2
  apply h
  cases p <;> simp [Place.base, Place.size, groupBase, stationBase, matrixBase, stageBase, detectorBase,
    approachBase, Fin.ext_iff] at hp h1 h2 ⊢ <;> omega

theorem authorityRank_agrees {p : Place} {m m' : Image} (h : AgreeBut p m m') (i : Station) (hp : p ≠ .station i) :
    authorityRank m' i = authorityRank m i := by
  unfold authorityRank
  rw [imageNum_congr m m']
  intro x h1 h2
  apply h
  cases p <;> simp [Place.base, Place.size, groupBase, stationBase, matrixBase, stageBase, detectorBase,
    approachBase, Fin.ext_iff] at hp h1 h2 ⊢ <;> omega

end Sys2Proof.Machine
end

