-- ==== Sys2Proof/Laws/Checks.lean ====
section
/-! SUPPORT. The eight checks of R208: each function of Machine/Layout.lean against its condition written out in
`FailsCheck`, and with them the number that a validation reports. -/

namespace Sys2Proof.Machine

/-! ## Bytes and the numbers they hold -/

theorem bytesNat_append (l k : List Byte) : bytesNat (l ++ k) = bytesNat l * 256 ^ k.length + bytesNat k := by
  have h (k : List Byte) (a : Nat) : k.foldl (fun a b => a * 256 + b.toNat) a = a * 256 ^ k.length + bytesNat k := by
    induction k generalizing a with
    | nil => simp [bytesNat]
    | cons b k ih =>
      simp only [List.foldl_cons, List.length_cons, bytesNat]
      rw [ih, ih (0 * 256 + b.toNat)]
      ring
  unfold bytesNat
  rw [List.foldl_append, h k (l.foldl _ 0)]
  rfl

theorem bytesNat_cons (b : Byte) (l : List Byte) : bytesNat (b :: l) = b.toNat * 256 ^ l.length + bytesNat l := by
  have := bytesNat_append [b] l
  simpa [bytesNat] using this

theorem bytesNat_lt (l : List Byte) : bytesNat l < 256 ^ l.length := by
  induction l with
  | nil => simp [bytesNat]
  | cons b l ih =>
    rw [bytesNat_cons, List.length_cons, Nat.pow_succ]
    have hb : b.toNat ≤ 255 := by have := b.isLt; omega
    nlinarith

theorem natBytes_add (w n k : Nat) : natBytes w (n * 256 ^ w + k) = natBytes w k := by
  induction w generalizing n with
  | zero => rfl
  | succ w ih =>
    have e : n * 256 ^ (w + 1) + k = n * 256 * 256 ^ w + k := by ring
    simp only [natBytes]
    rw [e, ih (n * 256)]
    congr 1
    rw [Nat.add_comm, Nat.add_mul_div_right _ _ (by positivity)]
    apply BitVec.eq_of_toNat_eq
    simp only [BitVec.toNat_ofNat]
    omega

theorem natBytes_bytesNat (l : List Byte) : natBytes l.length (bytesNat l) = l := by
  induction l with
  | nil => rfl
  | cons b l ih =>
    rw [bytesNat_cons, List.length_cons]
    simp only [natBytes]
    rw [natBytes_add, ih, Nat.mul_comm, Nat.mul_add_div (by positivity), Nat.div_eq_of_lt (bytesNat_lt l)]
    congr 1
    simp

theorem bytesNat_natBytes (w n : Nat) (h : n < 256 ^ w) : bytesNat (natBytes w n) = n := by
  induction w generalizing n with
  | zero => simp at h; simp [natBytes, bytesNat, h]
  | succ w ih =>
    have e := Nat.div_add_mod n (256 ^ w)
    have hd : n / 256 ^ w < 256 := Nat.div_lt_of_lt_mul (by rw [← Nat.pow_succ]; exact h)
    have hm := Nat.mod_lt n (show 0 < 256 ^ w by positivity)
    have t : natBytes w n = natBytes w (n % 256 ^ w) := by
      conv_lhs => rw [← e, Nat.mul_comm]
      exact natBytes_add w _ _
    simp only [natBytes]
    rw [bytesNat_cons, natBytes_length, t, ih _ hm, BitVec.toNat_ofNat, Nat.mod_eq_of_lt (by simpa using hd), Nat.mul_comm]
    exact e

/-- A number clamped and written back is the same bytes just where it lies within the limits. -/
theorem natBytes_clamp (b : List Byte) (lo hi : Nat) (h1 : lo ≤ hi) (h2 : hi < 256 ^ b.length) :
    natBytes b.length (clamp lo hi (bytesNat b)) = b ↔ ¬(bytesNat b < lo ∨ hi < bytesNat b) := by
  constructor
  · intro e
    have c : clamp lo hi (bytesNat b) < 256 ^ b.length := by
      have := bytesNat_lt b
      unfold clamp; split <;> [omega; split <;> omega]
    have := congrArg bytesNat e
    rw [bytesNat_natBytes _ _ c] at this
    unfold clamp at this
    split at this
    · omega
    · split at this <;> omega
  · intro h
    have : clamp lo hi (bytesNat b) = bytesNat b := by
      unfold clamp; rw [if_neg (by omega), if_neg (by omega)]
    rw [this, natBytes_bytesNat]

theorem imageBytes_length (m : Image) (a w : Nat) : (imageBytes m a w).length = w := by
  induction w generalizing a with
  | zero => rfl
  | succ w ih => simp [imageBytes, ih]

theorem mem_take_imageBytes (m : Image) (a w n : Nat) (b : Byte) :
    b ∈ (imageBytes m a w).take n ↔ ∃ k, k < w ∧ k < n ∧ imageByte m (a + k) = b := by
  induction w generalizing a n with
  | zero => simp [imageBytes]
  | succ w ih =>
    cases n with
    | zero => simp
    | succ n =>
      simp only [imageBytes, List.take_succ_cons, List.mem_cons, ih]
      constructor
      · rintro (rfl | ⟨k, h1, h2, e⟩)
        · exact ⟨0, by omega, by omega, rfl⟩
        · exact ⟨k + 1, by omega, by omega, by rw [← e]; congr 1; omega⟩
      · rintro ⟨k, h1, h2, e⟩
        cases k with
        | zero => exact .inl e.symm
        | succ k => exact .inr ⟨k, by omega, by omega, by rw [← e]; congr 1; omega⟩

/-! ## Check 8: one field -/

/-- The limits of a number are in order and fit its bytes. -/
def Field.fits : Field → Bool
  | .num w lo hi => decide (lo ≤ hi) && decide (hi < 256 ^ w)
  | _ => true

theorem fields_fit (p : Place) (first : Byte) : (p.fields first).all Field.fits = true := by
  have h (k : GroupKind) : (groupFields k).all Field.fits = true := by cases k <;> decide
  cases p with
  | group g => exact h _
  | device => rfl
  | station => rfl
  | matrix => rfl
  | stage => rfl
  | detector => rfl
  | approach => rfl

theorem field_inRange (f : Field) (b : List Byte) (hf : f.fits = true) (hl : b.length = f.size) :
    f.inRange b = true ↔ ¬f.Outside b := by
  have one (k : Nat) (hk : b.length = k + 1) : b = b.headD 0 :: b.tail := by
    cases b with
    | nil => cases hk
    | cons x y => rfl
  have zero_or (x : Byte) : (x = 0 ∨ x = 1) ↔ ¬1 < x.toNat := by
    rw [← BitVec.toNat_inj, ← BitVec.toNat_inj]
    change x.toNat = 0 ∨ x.toNat = 1 ↔ _
    omega
  cases f with
  | num w lo hi =>
    change b.length = w at hl
    simp only [Field.fits, Bool.and_eq_true, decide_eq_true_eq] at hf
    subst hl
    simp only [Field.inRange, Field.encodingOk, Field.codeOk, Field.clamped, Field.Outside, Bool.true_and, beq_iff_eq]
    exact natBytes_clamp b lo hi hf.1 hf.2
  | code n => simp [Field.inRange, Field.encodingOk, Field.codeOk, Field.clamped, Field.Outside]
  | flag =>
    simp only [Field.inRange, Field.encodingOk, Field.codeOk, Field.clamped, Field.Outside, Bool.and_true,
      Bool.or_eq_true, decide_eq_true_eq, beq_self_eq_true, zero_or]
  | silence =>
    change b.length = 2 at hl
    simp only [Field.inRange, Field.encodingOk, Field.codeOk, Field.clamped, Field.Outside, Bool.true_and, beq_iff_eq,
      silenceClamp]
    by_cases h0 : bytesNat b = 0
    · rw [if_pos h0]
      have := natBytes_bytesNat b
      rw [hl, h0] at this
      simp [h0, this]
    · rw [if_neg h0]
      have := natBytes_clamp b 10 600 (by omega) (by rw [hl]; norm_num)
      rw [hl] at this
      rw [this]
      omega
  | groups => simp [Field.inRange, Field.encodingOk, Field.codeOk, Field.clamped, Field.Outside]
  | entry =>
    change b.length = 1 at hl
    simp only [Field.inRange, Field.encodingOk, Field.codeOk, Field.clamped, Field.Outside, Bool.true_and, beq_iff_eq]
    by_cases h0 : bytesNat b = 255
    · simp [h0]
    · rw [if_neg h0]
      have := natBytes_clamp b 0 250 (by omega) (by rw [hl]; norm_num)
      rw [hl] at this
      rw [this]
      omega
  | channel =>
    change b.length = 2 at hl
    have hb := one 1 hl
    have ht : b.tail.length = 1 := by rw [List.length_tail, hl]
    have hc := natBytes_clamp b.tail 1 32 (by omega) (by rw [ht]; norm_num)
    rw [ht] at hc
    have hz : b.tail = [0] ↔ bytesNat b.tail = 0 := by
      constructor
      · intro e; rw [e]; rfl
      · intro e
        have := natBytes_bytesNat b.tail
        rw [ht, e] at this
        exact this.symm
    simp only [Field.inRange, Field.encodingOk, Field.codeOk, Field.clamped, Field.Outside, Bool.and_true, Bool.and_eq_true,
      Bool.or_eq_true, decide_eq_true_eq, beq_iff_eq, zero_or]
    generalize b.headD 0 = x at *
    generalize b.tail = y at *
    subst hb
    by_cases h1 : x = 1
    · subst h1
      simp only [if_true, List.cons.injEq, true_and]
      rw [hc]
      simp
    · by_cases h2 : x = 0
      · subst h2
        rw [eq_comm] at hz
        simpa [h1] using hz
      · have := zero_or x
        simp only [h1, h2, or_self, false_iff, not_not] at this
        simp [this]
  | refs =>
    simp only [Field.inRange, Field.Outside, Bool.and_eq_true, decide_eq_true_eq, List.all_eq_true]
    push Not
    rw [and_assoc]

/-! ## The checks -/

theorem rawPresent_true {m : Image} {c g : Group} :
    rawPresent m c g = true ↔ imageNum m (matrixBase c + g.val) 1 ≠ 255 := by
  unfold rawPresent
  exact decide_eq_true_iff

theorem rawPresent_false {m : Image} {c g : Group} :
    rawPresent m c g = false ↔ imageNum m (matrixBase c + g.val) 1 = 255 := by
  rw [← Bool.not_eq_true, rawPresent_true, not_not]

theorem failsCheck_matrix (m : Image) : matrixForm m = true ↔ ¬FailsCheck m 1 := by
  simp only [matrixForm, allGroups, FailsCheck, List.all_eq_true, List.mem_finRange, true_implies]
  push Not
  constructor
  · intro h
    refine ⟨fun c g hn hp => ?_, fun g => ?_, fun c g hp => ?_⟩
    · have := h c g
      rw [if_neg hn] at this
      simp only [Bool.and_eq_true, beq_iff_eq] at this
      rw [← rawPresent_true, ← this.1, rawPresent_true]
      exact hp
    · have := h g g
      rw [if_pos rfl, Bool.not_eq_true', rawPresent_false] at this
      exact this
    · have := h c g
      by_cases e : c = g
      · subst e
        rw [if_pos rfl, Bool.not_eq_true', rawPresent_false] at this
        exact absurd this hp
      · rw [if_neg e] at this
        simp only [Bool.and_eq_true, Bool.or_eq_true, Bool.not_eq_true', rawPresent_false, decide_eq_true_eq] at this
        exact this.2.resolve_left hp
  · rintro ⟨h1, h2, h3⟩ c g
    by_cases e : c = g
    · subst e
      rw [if_pos rfl, Bool.not_eq_true', rawPresent_false]
      exact h2 c
    · rw [if_neg e]
      simp only [Bool.and_eq_true, Bool.or_eq_true, beq_iff_eq, Bool.not_eq_true', rawPresent_false, decide_eq_true_eq]
      refine ⟨Bool.eq_iff_iff.2 ⟨fun x => rawPresent_true.2 (h1 c g e (rawPresent_true.1 x)),
        fun x => rawPresent_true.2 (h1 g c (Ne.symm e) (rawPresent_true.1 x))⟩, ?_⟩
      by_cases hp : imageNum m (matrixBase c + g.val) 1 = 255
      · exact .inl hp
      · exact .inr (h3 c g hp)

theorem failsCheck_clearance (m : Image) : intergreensCoverClearance m = true ↔ ¬FailsCheck m 2 := by
  simp only [intergreensCoverClearance, allGroups, FailsCheck, List.all_eq_true, List.mem_finRange,
    true_implies, Bool.or_eq_true, Bool.not_eq_true', rawPresent_false, decide_eq_true_eq]
  push Not
  exact forall₂_congr fun c g => or_iff_not_imp_left

theorem failsCheck_timings (m : Image) : groupTimings m = true ↔ ¬FailsCheck m 3 := by
  simp only [groupTimings, allGroups, FailsCheck, List.all_eq_true, List.mem_finRange, true_implies, Bool.or_eq_true,
    Bool.and_eq_true, decide_eq_true_eq]
  push Not
  refine forall_congr' fun g => ?_
  by_cases h : groupKind m g = .none
  · simp [h]
  · by_cases h2 : groupKind m g = .tram <;> simp [h, h2] <;> omega

theorem failsCheck_stages (m : Image) : stagesCompatible m = true ↔ ¬FailsCheck m 4 := by
  simp only [stagesCompatible, allGroups, FailsCheck, List.all_eq_true, List.mem_finRange,
    true_implies, Bool.not_eq_true', Bool.and_eq_false_iff, rawPresent_false]
  push Not
  refine forall_congr' fun n => forall₂_congr fun c g => ?_
  cases inSet (storedStage m n) c <;> cases inSet (storedStage m n) g <;> simp

theorem item_some {n k : Nat} {i : Fin n} : item? n k = some i ↔ k = number i := by
  unfold item? number
  split
  · rename_i h
    simp only [Option.some.injEq, Fin.ext_iff]
    omega
  · rename_i h
    simp only [reduceCtorEq, false_iff]
    have := i.isLt
    omega

theorem item_none {n k : Nat} : item? n k = none ↔ ¬(1 ≤ k ∧ k ≤ n) := by
  unfold item?
  split <;> simp_all

theorem failsCheck_speeds (m : Image) : speedsRight m = true ↔ ¬FailsCheck m 6 := by
  simp only [speedsRight, FailsCheck, List.all_eq_true, List.mem_finRange, true_implies, Bool.or_eq_true,
    decide_eq_true_eq, approachNamed, Option.isNone_iff_eq_none, item_none]
  push Not
  refine forall_congr' fun a => ?_
  constructor
  · rintro (h | h) h1 h2
    · exact absurd (h h1) (by omega)
    · exact h
  · intro h
    by_cases h1 : 1 ≤ imageNum m (approachBase a) 1 ∧ imageNum m (approachBase a) 1 ≤ 24
    · exact .inr (h h1.1 h1.2)
    · exact .inl (by omega)

/-- The channel named in the role at byte `o` of an approach. -/
theorem mem_namedChannels {m : Image} {a : Approach} {n : Nat} : n ∈ namedChannels m a ↔
    ∃ o, (o = 1 ∨ o = 3 ∨ o = 5) ∧ imageByte m (approachBase a + o) = 1 ∧
      imageNum m (approachBase a + o + 1) 1 = n := by
  simp only [namedChannels, List.mem_filterMap, List.mem_cons, List.not_mem_nil, or_false]
  refine exists_congr fun o => and_congr_right fun _ => ?_
  split <;> simp_all

theorem tramRight_iff (m : Image) (a : Approach) : tramRight m a = true ↔
    ∀ g : Group, imageNum m (approachBase a) 1 = number g → groupKind m g = .tram := by
  unfold tramRight approachNamed
  cases h : item? 24 (imageNum m (approachBase a) 1) with
  | none =>
    simp only [true_iff]
    intro g e
    rw [← item_some, h] at e
    cases e
  | some g =>
    simp only [decide_eq_true_eq]
    rw [item_some] at h
    constructor
    · intro k x e
      rw [h] at e
      have : g = x := by unfold number at e; exact Fin.ext (by omega)
      rw [← this]; exact k
    · intro k; exact k g h

theorem loopsRight_iff (m : Image) (a : Approach) : loopsRight m a = true ↔
    ∀ n ∈ namedChannels m a, ∃ ch : Channel, number ch = n ∧ channelKind m ch = .loop := by
  unfold loopsRight
  rw [List.all_eq_true]
  refine forall₂_congr fun n _ => ?_
  cases h : item? 32 n with
  | none =>
    simp only [Bool.false_eq_true, false_iff]
    rintro ⟨ch, e, _⟩
    rw [← e] at h
    rw [item_some.2 rfl] at h
    cases h
  | some ch =>
    simp only [decide_eq_true_eq]
    rw [item_some] at h
    constructor
    · intro k; exact ⟨ch, h.symm, k⟩
    · rintro ⟨x, e, k⟩
      have : x = ch := by rw [h] at e; unfold number at e; exact Fin.ext (by omega)
      rw [← this]; exact k

/-- Within one approach no two roles name one channel. -/
theorem namedChannels_nodup (m : Image) (a : Approach) : (namedChannels m a).Nodup ↔
    ∀ o q n, (o = 1 ∨ o = 3 ∨ o = 5) → (q = 1 ∨ q = 3 ∨ q = 5) → imageByte m (approachBase a + o) = 1 →
      imageByte m (approachBase a + q) = 1 → imageNum m (approachBase a + o + 1) 1 = n →
      imageNum m (approachBase a + q + 1) 1 = n → o = q := by
  unfold namedChannels List.Nodup
  rw [List.pairwise_filterMap]
  have hf (o n : Nat) : (if imageByte m (approachBase a + o) = 1 then some (imageNum m (approachBase a + o + 1) 1)
      else none) = some n ↔ imageByte m (approachBase a + o) = 1 ∧ imageNum m (approachBase a + o + 1) 1 = n := by
    split <;> simp_all
  simp only [hf]
  constructor
  · intro h o q n ho hq h1 h2 h3 h4
    by_contra hn
    have sy : Std.Symm fun o q => ∀ x, imageByte m (approachBase a + o) = 1 ∧ imageNum m (approachBase a + o + 1) 1 = x →
        ∀ y, imageByte m (approachBase a + q) = 1 ∧ imageNum m (approachBase a + q + 1) 1 = y → x ≠ y :=
      ⟨fun _ _ k x hx y hy => (k y hy x hx).symm⟩
    exact h.forall (by simpa using ho) (by simpa using hq) hn n ⟨h1, h3⟩ n ⟨h2, h4⟩ rfl
  · intro h
    refine (show [1, 3, 5].Nodup by decide).imp_of_mem ?_
    rintro o q ho hq hn x ⟨h1, h3⟩ y ⟨h2, h4⟩ rfl
    exact hn (h o q x (by simpa using ho) (by simpa using hq) h1 h2 h3 h4)

theorem mem_allNamed {m : Image} {n : Nat} : n ∈ allNamedChannels m ↔
    ∃ a, imageNum m (approachBase a) 1 ≠ 0 ∧ n ∈ namedChannels m a := by
  simp only [allNamedChannels, List.mem_flatMap, List.mem_filter, List.mem_finRange, true_and, approachExamined,
    decide_eq_true_eq]

/-- No role of one approach names a channel that a role of another, or another role of the same, names. -/
theorem allNamed_nodup (m : Image) : (allNamedChannels m).Nodup ↔
    (∀ a, imageNum m (approachBase a) 1 ≠ 0 → (namedChannels m a).Nodup) ∧
      ∀ a b n, imageNum m (approachBase a) 1 ≠ 0 → imageNum m (approachBase b) 1 ≠ 0 → n ∈ namedChannels m a →
        n ∈ namedChannels m b → a = b := by
  unfold allNamedChannels
  rw [List.nodup_flatMap]
  simp only [List.mem_filter, List.mem_finRange, true_and, approachExamined, decide_eq_true_eq]
  refine and_congr_right fun _ => ?_
  have nd : ((List.finRange 8).filter fun a => decide (imageNum m (approachBase a) 1 ≠ 0)).Nodup :=
    (List.nodup_finRange 8).filter _
  constructor
  · intro h a b n ha hb hna hnb
    by_contra hn
    have sy : Std.Symm (Function.onFun List.Disjoint (namedChannels m)) := ⟨fun _ _ x => x.symm⟩
    exact h.forall (by simpa [approachExamined] using ha) (by simpa [approachExamined] using hb) hn hna hnb
  · intro h
    refine nd.imp_of_mem ?_
    intro a b ha hb hn n hna hnb
    simp only [List.mem_filter, List.mem_finRange, true_and, decide_eq_true_eq] at ha hb
    exact hn (h a b n ha hb hna hnb)

theorem failsCheck_approaches (m : Image) : approachesRight m = true ↔ ¬FailsCheck m 5 := by
  simp only [approachesRight, FailsCheck, Bool.and_eq_true, List.all_eq_true, List.mem_finRange, true_implies,
    Bool.or_eq_true, Bool.not_eq_true', approachExamined, decide_eq_false_iff_not, not_not, decide_eq_true_eq,
    tramRight_iff, loopsRight_iff, allNamed_nodup, namedChannels_nodup, mem_namedChannels]
  push Not
  constructor
  · rintro ⟨h1, h2, h3⟩
    refine ⟨fun a g e => ?_, fun a o n hr => ?_, fun a b o q n hr hq => ?_⟩
    · rcases h1 a with h | h
      · rw [h] at e; unfold number at e; omega
      · exact h.1 g e
    · rcases h1 a with h | h
      · exact absurd h hr.1
      · exact h.2 n ⟨o, hr.2⟩
    · have e := h3 a b n hr.1 hq.1 ⟨o, hr.2⟩ ⟨q, hq.2⟩
      subst e
      exact ⟨rfl, h2 a hr.1 o q n hr.2.1 hq.2.1 hr.2.2.1 hq.2.2.1 hr.2.2.2 hq.2.2.2⟩
  · rintro ⟨h1, h2, h3⟩
    refine ⟨fun a => ?_, fun a ha o q n ho hq x1 x2 x3 x4 => ?_, fun a b n ha hb ⟨o, ho⟩ ⟨q, hq⟩ => ?_⟩
    · by_cases h : imageNum m (approachBase a) 1 = 0
      · exact .inl h
      · exact .inr ⟨fun g e => h1 a g e, fun n ⟨o, ho⟩ => h2 a o n ⟨h, ho⟩⟩
    · exact (h3 a a o q n ⟨ha, ho, x1, x3⟩ ⟨ha, hq, x2, x4⟩).2
    · exact (h3 a b o q n ⟨ha, ho⟩ ⟨hb, hq⟩).1

theorem reference_names (m : Image) (k : Nat) : (match item? 24 k with
      | some g => decide (groupKind m g ≠ .none)
      | none => true) = true ↔ ∀ g : Group, k = number g → groupKind m g ≠ .none := by
  cases h : item? 24 k with
  | none =>
    simp only [true_iff]
    intro g e
    rw [← item_some, h] at e
    cases e
  | some g =>
    simp only [decide_eq_true_eq]
    rw [item_some] at h
    constructor
    · intro hk x e
      have : g = x := by rw [h] at e; unfold number at e; exact Fin.ext (by omega)
      rw [← this]; exact hk
    · intro hk; exact hk g h

theorem failsCheck_references (m : Image) : referencesRight m = true ↔ ¬FailsCheck m 7 := by
  simp only [referencesRight, FailsCheck, List.all_eq_true, List.mem_finRange, true_implies, Bool.or_eq_true,
    decide_eq_true_eq, Bool.and_eq_true]
  push Not
  refine forall_congr' fun ch => ?_
  simp only [mem_take_imageBytes]
  constructor
  · rintro (h | h) k hu h4 hk
    · exact absurd h hu
    · have r := h _ ⟨k, h4, hk, rfl⟩
      exact ⟨r.1, (reference_names m _).1 r.2⟩
  · intro h
    by_cases hu : channelKind m ch = .unused
    · exact .inl hu
    · refine .inr ?_
      rintro b ⟨k, h4, hk, rfl⟩
      exact ⟨(h k hu h4 hk).1, (reference_names m _).2 (h k hu h4 hk).2⟩

theorem failsCheck_ranges (m : Image) : fieldsInRange m = true ↔ ¬FailsCheck m 8 := by
  simp only [fieldsInRange, FailsCheck, List.all_eq_true]
  push Not
  refine forall₂_congr fun p _ => forall₂_congr fun f hf => ?_
  have hs := cutFields_sizes (p.fields ((recordBytes m p).headD 0)) (recordBytes m p)
    (by rw [fields_size, recordBytes, imageBytes_length]) f hf
  have hm : f.1 ∈ p.fields ((recordBytes m p).headD 0) := by
    rw [← cutFields_fst (p.fields _) (recordBytes m p)]
    exact List.mem_map_of_mem hf
  exact field_inRange f.1 f.2 (List.all_eq_true.1 (fields_fit p _) f.1 hm) hs

/-- R208: the first of the eight checks that the image fails. -/
theorem failingCheck_first (m : Image) :
    (failingCheck m = none ∧ ∀ k, ¬FailsCheck m k) ∨
      ∃ n, failingCheck m = some n ∧ FailsCheck m n ∧ ∀ k < n, ¬FailsCheck m k := by
  have h0 : ¬FailsCheck m 0 := fun h => h
  have h9 (k : Nat) : ¬FailsCheck m (k + 9) := fun h => h
  have first (n : Nat) (x : Bool) (hx : x = true ↔ ¬FailsCheck m n) (hb : ∀ k < n, ¬FailsCheck m k) :
      (x = false ∧ FailsCheck m n ∧ ∀ k < n, ¬FailsCheck m k) ∨ (x = true ∧ ∀ k < n + 1, ¬FailsCheck m k) := by
    cases x with
    | true => exact .inr ⟨rfl, fun k hk => if e : k = n then e ▸ hx.1 rfl else hb k (by omega)⟩
    | false => exact .inl ⟨rfl, not_not.1 fun h => Bool.noConfusion (hx.2 h), hb⟩
  have b1 : ∀ k < 1, ¬FailsCheck m k := fun k hk => by rw [show k = 0 by omega]; exact h0
  unfold failingCheck
  rcases first 1 _ (failsCheck_matrix m) b1 with ⟨e, h⟩ | ⟨e, b⟩
  · exact .inr ⟨1, by simp [e], h⟩
  rcases first 2 _ (failsCheck_clearance m) b with ⟨e2, h⟩ | ⟨e2, b⟩
  · exact .inr ⟨2, by simp [e, e2], h⟩
  rcases first 3 _ (failsCheck_timings m) b with ⟨e3, h⟩ | ⟨e3, b⟩
  · exact .inr ⟨3, by simp [e, e2, e3], h⟩
  rcases first 4 _ (failsCheck_stages m) b with ⟨e4, h⟩ | ⟨e4, b⟩
  · exact .inr ⟨4, by simp [e, e2, e3, e4], h⟩
  rcases first 5 _ (failsCheck_approaches m) b with ⟨e5, h⟩ | ⟨e5, b⟩
  · exact .inr ⟨5, by simp [e, e2, e3, e4, e5], h⟩
  rcases first 6 _ (failsCheck_speeds m) b with ⟨e6, h⟩ | ⟨e6, b⟩
  · exact .inr ⟨6, by simp [e, e2, e3, e4, e5, e6], h⟩
  rcases first 7 _ (failsCheck_references m) b with ⟨e7, h⟩ | ⟨e7, b⟩
  · exact .inr ⟨7, by simp [e, e2, e3, e4, e5, e6, e7], h⟩
  rcases first 8 _ (failsCheck_ranges m) b with ⟨e8, h⟩ | ⟨e8, b⟩
  · exact .inr ⟨8, by simp [e, e2, e3, e4, e5, e6, e7, e8], h⟩
  refine .inl ⟨by simp [e, e2, e3, e4, e5, e6, e7, e8], fun k => ?_⟩
  by_cases hk : k < 9
  · exact b k hk
  · obtain ⟨j, rfl⟩ := Nat.exists_eq_add_of_le' (Nat.le_of_not_lt hk)
    exact h9 j

theorem failingCheck_none (m : Image) : failingCheck m = none ↔ ∀ k, ¬FailsCheck m k := by
  rcases failingCheck_first m with ⟨e, h⟩ | ⟨n, e, h, _⟩
  · exact ⟨fun _ => h, fun _ => e⟩
  · exact ⟨fun x => by (rw [e] at x; cases x), fun x => absurd h (x n)⟩

theorem failingCheck_some (m : Image) (n : Nat) :
    failingCheck m = some n ↔ FailsCheck m n ∧ ∀ k < n, ¬FailsCheck m k := by
  rcases failingCheck_first m with ⟨e, h⟩ | ⟨j, e, h, b⟩
  · exact ⟨fun x => by (rw [e] at x; cases x), fun x => absurd x.1 (h n)⟩
  · rw [e, Option.some.injEq]
    constructor
    · rintro rfl; exact ⟨h, b⟩
    · rintro ⟨x, y⟩
      by_contra hn
      rcases Nat.lt_or_gt_of_ne hn with k | k
      · exact y j k h
      · exact b n k x

end Sys2Proof.Machine
end

