-- ==== Sys2Proof/Laws/Detectors.lean ====
section
/-! SUPPORT. The eighth law (R87) across the operations on one detector record. -/

namespace Sys2Proof.Machine

theorem clamp_bounds (lo hi n : Nat) (h : lo ≤ hi) : lo ≤ clamp lo hi n ∧ clamp lo hi n ≤ hi := by
  unfold clamp
  split
  · omega
  · split <;> omega

theorem tracked_bounds (b p : Nat) : 16000 ≤ tracked b p ∧ tracked b p ≤ 110000 := clamp_bounds _ _ _ (by omega)

/-- What stage 1 of a valid sample leaves: the law but for a tuning run that may have reached 32. -/
structure SampledLaw (p : Nat) (r : DetRec) : Prop where
  baseline : ∀ b, r.baseline = some b → 16000 ≤ b ∧ b ≤ 110000
  last : r.lastP = some p
  tuning : r.state = .tuning ∨ r.state = .noisy ∧ r.inner = some .tuning →
    1 ≤ r.validRun ∧ r.validRun ≤ 32 ∧ 16000 * (r.validRun - 1) ≤ r.tuningSum ∧
      r.tuningSum ≤ 110000 * (r.validRun - 1)

theorem validStage1_law {p : Nat} {r : DetRec} (h : ChannelLaw r) : SampledLaw p (validStage1 p r) where
  baseline := h.baseline
  last := rfl
  tuning k := by
    have := h.tuning k
    simp only [validStage1, saturate]
    rw [if_pos (by omega)]
    omega

/-- R84: a tuning that goes on, or ends with a baseline within its range. -/
theorem tuneSample_law {p : Nat} {r : DetRec} (hp : 16000 ≤ p ∧ p ≤ 110000)
    (hr : 1 ≤ r.validRun ∧ r.validRun ≤ 32 ∧ 16000 * (r.validRun - 1) ≤ r.tuningSum ∧
      r.tuningSum ≤ 110000 * (r.validRun - 1)) (hb : ∀ b, r.baseline = some b → 16000 ≤ b ∧ b ≤ 110000) :
    (∀ b, (tuneSample p r).1.baseline = some b → 16000 ≤ b ∧ b ≤ 110000) ∧
    (tuneSample p r).1.lastP = r.lastP ∧ (tuneSample p r).1.state = r.state ∧ (tuneSample p r).1.inner = r.inner ∧
    ((tuneSample p r).2 = false → (tuneSample p r).1.validRun ≤ 31 ∧
      16000 * (tuneSample p r).1.validRun ≤ (tuneSample p r).1.tuningSum ∧
      (tuneSample p r).1.tuningSum ≤ 110000 * (tuneSample p r).1.validRun) := by
  unfold tuneSample
  dsimp only
  split
  · rename_i e
    refine ⟨fun b hb => ?_, rfl, rfl, rfl, fun h => by cases h⟩
    simp only [Option.some.injEq] at hb
    rw [e] at hr
    omega
  · refine ⟨hb, rfl, rfl, rfl, fun _ => ?_⟩
    simp only
    omega

/-- R85, R87: a vacant sample keeps the baseline within its range and moves no state. -/
theorem vacantSample_law {on p : Nat} {r : DetRec} (hb : ∀ b, r.baseline = some b → 16000 ≤ b ∧ b ≤ 110000) :
    (∀ b, (vacantSample on p r).1.baseline = some b → 16000 ≤ b ∧ b ≤ 110000) ∧
    (vacantSample on p r).1.lastP = r.lastP ∧ (vacantSample on p r).1.state = r.state ∧
    (vacantSample on p r).1.inner = r.inner := by
  have ht (b : Nat) (h : (r.baseline.map fun b => tracked b p) = some b) : 16000 ≤ b ∧ b ≤ 110000 := by
    simp only [Option.map_eq_some_iff] at h
    obtain ⟨x, _, rfl⟩ := h
    exact tracked_bounds _ _
  unfold vacantSample
  split
  · split
    · exact ⟨hb, rfl, rfl, rfl⟩
    · exact ⟨ht, rfl, rfl, rfl⟩
  · exact ⟨ht, rfl, rfl, rfl⟩

theorem occupiedSample_parts (off p : Nat) (r : DetRec) :
    (occupiedSample off p r).1.baseline = r.baseline ∧ (occupiedSample off p r).1.lastP = r.lastP ∧
    (occupiedSample off p r).1.state = r.state ∧ (occupiedSample off p r).1.inner = r.inner := by
  unfold occupiedSample
  repeat' split
  all_goals exact ⟨rfl, rfl, rfl, rfl⟩

theorem ChannelLaw.of_not_tuning {r : DetRec} {p : Nat} (hp : 16000 ≤ p ∧ p ≤ 110000)
    (hb : ∀ b, r.baseline = some b → 16000 ≤ b ∧ b ≤ 110000) (hl : r.lastP = some p)
    (hn : ¬(r.state = .tuning ∨ r.state = .noisy ∧ r.inner = some .tuning)) : ChannelLaw r :=
  ⟨hb, fun _ => ⟨p, hl, hp⟩, fun k => absurd k hn⟩

theorem ChannelLaw.of_new_tuning {r : DetRec} {p : Nat} (hp : 16000 ≤ p ∧ p ≤ 110000)
    (hb : ∀ b, r.baseline = some b → 16000 ≤ b ∧ b ≤ 110000) (hl : r.lastP = some p)
    (hv : r.validRun = 0) (ht : r.tuningSum = 0) : ChannelLaw r :=
  ⟨hb, fun _ => ⟨p, hl, hp⟩, fun _ => by rw [hv, ht]; omega⟩

theorem noisySample_law {on off : Nat} {now : Time} {long : Bool} {p : Nat} {r : DetRec}
    (hp : 16000 ≤ p ∧ p ≤ 110000) (hs : r.state = .noisy) (h : SampledLaw p r) :
    ChannelLaw (noisySample on off now long p r) := by
  unfold noisySample
  split
  · rename_i hi
    obtain ⟨t1, t2, t3, t4, t5⟩ := tuneSample_law hp (h.tuning (.inr ⟨hs, hi⟩)) h.baseline
    dsimp only
    split
    · refine .of_not_tuning hp t1 (t2.trans h.last) ?_
      simp [t3, hs]
    · rename_i e
      exact ⟨t1, fun _ => ⟨p, t2.trans h.last, hp⟩, fun _ => t5 (by simpa using e)⟩
  · rename_i hi
    obtain ⟨t1, t2, t3, t4⟩ := vacantSample_law (on := on) (p := p) h.baseline
    dsimp only
    split
    · refine .of_not_tuning hp t1 (t2.trans h.last) ?_
      simp [t3, hs]
    · refine .of_not_tuning hp t1 (t2.trans h.last) ?_
      simp [t3, t4, hs, hi]
  · rename_i hi
    obtain ⟨t1, t2, t3, t4⟩ := occupiedSample_parts off p r
    dsimp only
    split
    · refine .of_not_tuning hp (by simpa only [t1] using h.baseline) (t2.trans h.last) ?_
      simp [t3, hs]
    · split
      · refine .of_new_tuning hp (fun b hb => ?_) (t2.trans h.last) rfl rfl
        simp only [Option.some.injEq] at hb
        omega
      · refine .of_not_tuning hp (by simpa only [t1] using h.baseline) (t2.trans h.last) ?_
        simp [t3, t4, hs, hi]
  · rename_i hi
    refine .of_not_tuning hp h.baseline h.last ?_
    simp [hs, hi]

theorem validStage2_law {on off : Nat} {now : Time} {long : Bool} {p : Nat} {r : DetRec}
    (hp : 16000 ≤ p ∧ p ≤ 110000) (h : SampledLaw p r) : ChannelLaw (validStage2 on off now long p r) := by
  unfold validStage2
  split
  · rename_i hs
    obtain ⟨t1, t2, t3, t4, t5⟩ := tuneSample_law hp (h.tuning (.inl hs)) h.baseline
    dsimp only
    split
    · exact .of_not_tuning hp t1 (t2.trans h.last) (by simp)
    · rename_i e
      exact ⟨t1, fun _ => ⟨p, t2.trans h.last, hp⟩, fun _ => t5 (by simpa using e)⟩
  · rename_i hs
    obtain ⟨t1, t2, t3, t4⟩ := vacantSample_law (on := on) (p := p) h.baseline
    dsimp only
    split
    · exact .of_not_tuning hp t1 (t2.trans h.last) (by simp [enteredRecord])
    · exact .of_not_tuning hp t1 (t2.trans h.last) (by simp [t3, hs])
  · rename_i hs
    obtain ⟨t1, t2, t3, t4⟩ := occupiedSample_parts off p r
    dsimp only
    split
    · exact .of_not_tuning hp (by simpa only [exitedRecord, t1] using h.baseline) (t2.trans h.last) (by simp [exitedRecord])
    · exact .of_not_tuning hp (by simpa only [t1] using h.baseline) (t2.trans h.last) (by simp [t3, hs])
  · rename_i hs
    exact .of_not_tuning hp h.baseline h.last (by simp [hs])
  · rename_i hs
    exact noisySample_law hp hs h
  · rename_i hs
    split
    · exact .of_new_tuning hp h.baseline h.last rfl rfl
    · exact .of_not_tuning hp h.baseline h.last (by simp [hs])

theorem sampleResult_valid {p : Option Nat} (h : sampleResult p = .valid) :
    ∃ q, p = some q ∧ 16000 ≤ q ∧ q ≤ 110000 := by
  cases p with
  | none => cases h
  | some q =>
    refine ⟨q, rfl, ?_⟩
    simp only [sampleResult] at h
    split at h
    · cases h
    · split at h
      · cases h
      · omega

/-- R84, R89: stage 2 of an invalid sample. -/
theorem invalidStage2_law {p : Option Nat} {r : DetRec} (h : ChannelLaw r) (hres : sampleResult p ≠ .valid) :
    ChannelLaw (invalidStage2 (invalidStage1 p r)) := by
  unfold invalidStage2
  split
  · exact ⟨h.baseline, fun e => absurd (Option.some.inj e) hres, by simp [faulted]⟩
  · split
    · exact ⟨h.baseline, fun e => absurd (Option.some.inj e) hres, fun _ => by simp [invalidStage1]⟩
    · rename_i hn
      refine ⟨h.baseline, fun e => absurd (Option.some.inj e) hres, fun k => absurd ?_ hn⟩
      rcases k with k | k
      · exact .inl k
      · exact .inr k.2

/-- R91: the budget touches the law only where the channel turns NOISY. -/
theorem spendBudget_law {r : DetRec} (h : ChannelLaw r) : ChannelLaw (spendBudget r) := by
  unfold spendBudget
  dsimp only
  split
  · split
    · refine ⟨h.baseline, h.last, fun k => ?_⟩
      rcases k with k | k
      · cases k
      · have : r.state = .tuning := by
          have hk := k.2
          simp only [noisyRecord, innerOf] at hk
          split at hk <;> simp_all
        exact h.tuning (.inl this)
    · exact ⟨h.baseline, h.last, h.tuning⟩
  · exact h

theorem loopSampled_invalid {on off : Nat} {now : Time} {long : Bool} {p : Option Nat} {r : DetRec}
    (h : sampleResult p ≠ .valid) :
    loopSampled on off now long p r = spendBudget (invalidStage2 (invalidStage1 p r)) := by
  unfold loopSampled
  split
  · rename_i e
    exact absurd e h
  · rfl

/-- R81 to R92: one loop sample keeps the law. -/
theorem loopSampled_law {on off : Nat} {now : Time} {long : Bool} {p : Option Nat} {r : DetRec} (h : ChannelLaw r) :
    ChannelLaw (loopSampled on off now long p r) := by
  by_cases hv : sampleResult p = .valid
  · obtain ⟨q, rfl, hq⟩ := sampleResult_valid hv
    simp only [loopSampled, hv]
    exact validStage2_law hq (validStage1_law h)
  · rw [loopSampled_invalid hv]
    exact spendBudget_law (invalidStage2_law h hv)

theorem ChannelLaw.reset (st : DetState) (forced : Bool) (budget : Nat) : ChannelLaw (DetRec.reset st forced budget) :=
  ⟨by simp [DetRec.reset], by simp [DetRec.reset], fun _ => by simp [DetRec.reset]⟩

/-- A record in TUNING at its start, or in another state that is not NOISY. -/
theorem ChannelLaw.restarted {r t : DetRec} (h : ChannelLaw r) (hb : ∀ b, t.baseline = some b → 16000 ≤ b ∧ b ≤ 110000)
    (hl : t.lastP = r.lastP ∧ t.lastResult = r.lastResult)
    (ht : t.state = .tuning ∨ t.state = .noisy ∧ t.inner = some .tuning → t.validRun = 0 ∧ t.tuningSum = 0) :
    ChannelLaw t :=
  ⟨hb, by rw [hl.1, hl.2]; exact h.last, fun k => by obtain ⟨a, b⟩ := ht k; rw [a, b]; omega⟩

/-- R101. -/
theorem writtenChannel_law {m : Image} {ch : Channel} {now : Time} {r : DetRec} (h : ChannelLaw r) :
    ChannelLaw (writtenChannel m ch now r) where
  baseline := by simp [writtenChannel]
  last := by
    unfold writtenChannel
    dsimp only
    split
    · intro k; cases k
    · exact h.last
  tuning _ := by simp [writtenChannel]

/-- R88, of a channel whose last sample was valid. -/
theorem loopLongRecord_law {now : Time} {r : DetRec} (h : ChannelLaw r) (hv : r.lastResult = some .valid) :
    ChannelLaw (loopLongRecord now r.lastP r) := by
  refine h.restarted (fun b hb => ?_) ⟨rfl, rfl⟩ (fun _ => ⟨rfl, rfl⟩)
  obtain ⟨p, hp, hr⟩ := h.last hv
  simp only [loopLongRecord, enterTuning, hp, Option.some.injEq] at hb
  omega

/-- R95. -/
theorem contactLongRecord_law {now : Time} {r : DetRec} (h : ChannelLaw r) : ChannelLaw (contactLongRecord now r) :=
  h.restarted h.baseline ⟨rfl, rfl⟩ (by simp [contactLongRecord])

/-- R94, R95. -/
theorem contactSampled_law {now : Time} {pressed : Bool} {r : DetRec} (h : ChannelLaw r) :
    ChannelLaw (contactSampled now pressed r) := by
  unfold contactSampled
  split
  · rename_i hs
    repeat' split
    all_goals exact h.restarted h.baseline ⟨rfl, rfl⟩ (by simp [enteredRecord, hs])
  · rename_i hs
    repeat' split
    all_goals exact h.restarted h.baseline ⟨rfl, rfl⟩ (by simp [exitedRecord, hs])
  · rename_i hs
    repeat' split
    all_goals exact h.restarted h.baseline ⟨rfl, rfl⟩ (by simp [hs])
  · rename_i hs
    dsimp only
    by_cases hn : (if r.level = some pressed then saturate 255 r.aboveRun else 1) = 3
    · rw [if_pos hn]
      exact h.restarted h.baseline ⟨rfl, rfl⟩ (by cases pressed <;> simp)
    · rw [if_neg hn]
      exact ⟨h.baseline, h.last, h.tuning⟩
  · exact ⟨h.baseline, h.last, h.tuning⟩
  · exact ⟨h.baseline, h.last, h.tuning⟩

/-- R91, R93. -/
theorem windowClosed_law {now : Time} {start : Nat} {r : DetRec} (h : ChannelLaw r) :
    ChannelLaw (windowClosed now start r) := by
  unfold windowClosed
  dsimp only
  split
  · rename_i hs
    unfold noisyEnded
    split
    · rename_i i hi
      refine ⟨h.baseline, h.last, fun k => ?_⟩
      have : i = .tuning := by
        rcases k with k | k
        · simp only at k
          cases i <;> simp_all [InnerState.outer]
        · cases k.2
      exact h.tuning (.inr ⟨hs.1, by rw [hi, this]⟩)
    · exact ⟨h.baseline, h.last, h.tuning⟩
  · exact ⟨h.baseline, h.last, h.tuning⟩

theorem ChannelLaw.sampled {r : DetRec} (b : Bool) (h : ChannelLaw r) : ChannelLaw { r with sampled := b } :=
  ⟨h.baseline, h.last, h.tuning⟩

end Sys2Proof.Machine
end

