-- ==== Sys2Proof/Laws/State.lean ====
section
/-! SUPPORT. The small laws of the record writers: what each leaves as it was, one lemma per part of the state, and
what a record reads as after a write. All hold by unfolding the writer. -/

namespace Sys2Proof.Machine

variable (s : State)

/-! ## setGrp -/

@[simp] theorem setGrp_igm (g : Group) (r : GroupRec) : (setGrp s g r).igm = s.igm := by simp only [setGrp]
@[simp] theorem setGrp_sel (g : Group) (r : GroupRec) : (setGrp s g r).sel = s.sel := by simp only [setGrp]
@[simp] theorem setGrp_fbs (g : Group) (r : GroupRec) : (setGrp s g r).fbs = s.fbs := by simp only [setGrp]
@[simp] theorem setGrp_du (g : Group) (r : GroupRec) : (setGrp s g r).du = s.du := by simp only [setGrp]
@[simp] theorem setGrp_pu (g : Group) (r : GroupRec) : (setGrp s g r).pu = s.pu := by simp only [setGrp]
@[simp] theorem setGrp_lou (g : Group) (r : GroupRec) : (setGrp s g r).lou = s.lou := by simp only [setGrp]
@[simp] theorem setGrp_mfs (g : Group) (r : GroupRec) : (setGrp s g r).mfs = s.mfs := by simp only [setGrp]
@[simp] theorem setGrp_clp (g : Group) (r : GroupRec) : (setGrp s g r).clp = s.clp := by simp only [setGrp]
@[simp] theorem setGrp_cs (g : Group) (r : GroupRec) : (setGrp s g r).cs = s.cs := by simp only [setGrp]
@[simp] theorem setGrp_fbsDue (g : Group) (r : GroupRec) : (setGrp s g r).fbsDue = s.fbsDue := by simp only [setGrp]
@[simp] theorem setGrp_freeIndex (g : Group) (r : GroupRec) : (setGrp s g r).freeIndex = s.freeIndex := by simp only [setGrp]
@[simp] theorem setGrp_pending (g : Group) (r : GroupRec) : (setGrp s g r).pending = s.pending := by simp only [setGrp]

/-! ## setGroups -/

@[simp] theorem setGroups_igm (f : Group → GroupRec) : (setGroups s f).igm = s.igm := by simp only [setGroups]
@[simp] theorem setGroups_sel (f : Group → GroupRec) : (setGroups s f).sel = s.sel := by simp only [setGroups]
@[simp] theorem setGroups_fbs (f : Group → GroupRec) : (setGroups s f).fbs = s.fbs := by simp only [setGroups]
@[simp] theorem setGroups_du (f : Group → GroupRec) : (setGroups s f).du = s.du := by simp only [setGroups]
@[simp] theorem setGroups_pu (f : Group → GroupRec) : (setGroups s f).pu = s.pu := by simp only [setGroups]
@[simp] theorem setGroups_lou (f : Group → GroupRec) : (setGroups s f).lou = s.lou := by simp only [setGroups]
@[simp] theorem setGroups_mfs (f : Group → GroupRec) : (setGroups s f).mfs = s.mfs := by simp only [setGroups]
@[simp] theorem setGroups_clp (f : Group → GroupRec) : (setGroups s f).clp = s.clp := by simp only [setGroups]
@[simp] theorem setGroups_cs (f : Group → GroupRec) : (setGroups s f).cs = s.cs := by simp only [setGroups]
@[simp] theorem setGroups_fbsDue (f : Group → GroupRec) : (setGroups s f).fbsDue = s.fbsDue := by simp only [setGroups]
@[simp] theorem setGroups_freeIndex (f : Group → GroupRec) : (setGroups s f).freeIndex = s.freeIndex := by simp only [setGroups]
@[simp] theorem setGroups_pending (f : Group → GroupRec) : (setGroups s f).pending = s.pending := by simp only [setGroups]

/-! ## setLamp -/

@[simp] theorem setLamp_sge (ch : Lamp) (r : LampRec) : (setLamp s ch r).sge = s.sge := by simp only [setLamp]
@[simp] theorem setLamp_igm (ch : Lamp) (r : LampRec) : (setLamp s ch r).igm = s.igm := by simp only [setLamp]
@[simp] theorem setLamp_sel (ch : Lamp) (r : LampRec) : (setLamp s ch r).sel = s.sel := by simp only [setLamp]
@[simp] theorem setLamp_fbs (ch : Lamp) (r : LampRec) : (setLamp s ch r).fbs = s.fbs := by simp only [setLamp]
@[simp] theorem setLamp_du (ch : Lamp) (r : LampRec) : (setLamp s ch r).du = s.du := by simp only [setLamp]
@[simp] theorem setLamp_pu (ch : Lamp) (r : LampRec) : (setLamp s ch r).pu = s.pu := by simp only [setLamp]
@[simp] theorem setLamp_mfs (ch : Lamp) (r : LampRec) : (setLamp s ch r).mfs = s.mfs := by simp only [setLamp]
@[simp] theorem setLamp_clp (ch : Lamp) (r : LampRec) : (setLamp s ch r).clp = s.clp := by simp only [setLamp]
@[simp] theorem setLamp_cs (ch : Lamp) (r : LampRec) : (setLamp s ch r).cs = s.cs := by simp only [setLamp]
@[simp] theorem setLamp_fbsDue (ch : Lamp) (r : LampRec) : (setLamp s ch r).fbsDue = s.fbsDue := by simp only [setLamp]
@[simp] theorem setLamp_freeIndex (ch : Lamp) (r : LampRec) : (setLamp s ch r).freeIndex = s.freeIndex := by simp only [setLamp]
@[simp] theorem setLamp_pending (ch : Lamp) (r : LampRec) : (setLamp s ch r).pending = s.pending := by simp only [setLamp]

/-! ## setLamps -/

@[simp] theorem setLamps_sge (f : Lamp → LampRec) : (setLamps s f).sge = s.sge := by simp only [setLamps]
@[simp] theorem setLamps_igm (f : Lamp → LampRec) : (setLamps s f).igm = s.igm := by simp only [setLamps]
@[simp] theorem setLamps_sel (f : Lamp → LampRec) : (setLamps s f).sel = s.sel := by simp only [setLamps]
@[simp] theorem setLamps_fbs (f : Lamp → LampRec) : (setLamps s f).fbs = s.fbs := by simp only [setLamps]
@[simp] theorem setLamps_du (f : Lamp → LampRec) : (setLamps s f).du = s.du := by simp only [setLamps]
@[simp] theorem setLamps_pu (f : Lamp → LampRec) : (setLamps s f).pu = s.pu := by simp only [setLamps]
@[simp] theorem setLamps_mfs (f : Lamp → LampRec) : (setLamps s f).mfs = s.mfs := by simp only [setLamps]
@[simp] theorem setLamps_clp (f : Lamp → LampRec) : (setLamps s f).clp = s.clp := by simp only [setLamps]
@[simp] theorem setLamps_cs (f : Lamp → LampRec) : (setLamps s f).cs = s.cs := by simp only [setLamps]
@[simp] theorem setLamps_fbsDue (f : Lamp → LampRec) : (setLamps s f).fbsDue = s.fbsDue := by simp only [setLamps]
@[simp] theorem setLamps_freeIndex (f : Lamp → LampRec) : (setLamps s f).freeIndex = s.freeIndex := by simp only [setLamps]
@[simp] theorem setLamps_pending (f : Lamp → LampRec) : (setLamps s f).pending = s.pending := by simp only [setLamps]

/-! ## setDet -/

@[simp] theorem setDet_sge (ch : Channel) (r : DetRec) : (setDet s ch r).sge = s.sge := by simp only [setDet]
@[simp] theorem setDet_igm (ch : Channel) (r : DetRec) : (setDet s ch r).igm = s.igm := by simp only [setDet]
@[simp] theorem setDet_sel (ch : Channel) (r : DetRec) : (setDet s ch r).sel = s.sel := by simp only [setDet]
@[simp] theorem setDet_fbs (ch : Channel) (r : DetRec) : (setDet s ch r).fbs = s.fbs := by simp only [setDet]
@[simp] theorem setDet_pu (ch : Channel) (r : DetRec) : (setDet s ch r).pu = s.pu := by simp only [setDet]
@[simp] theorem setDet_lou (ch : Channel) (r : DetRec) : (setDet s ch r).lou = s.lou := by simp only [setDet]
@[simp] theorem setDet_mfs (ch : Channel) (r : DetRec) : (setDet s ch r).mfs = s.mfs := by simp only [setDet]
@[simp] theorem setDet_clp (ch : Channel) (r : DetRec) : (setDet s ch r).clp = s.clp := by simp only [setDet]
@[simp] theorem setDet_cs (ch : Channel) (r : DetRec) : (setDet s ch r).cs = s.cs := by simp only [setDet]
@[simp] theorem setDet_fbsDue (ch : Channel) (r : DetRec) : (setDet s ch r).fbsDue = s.fbsDue := by simp only [setDet]
@[simp] theorem setDet_freeIndex (ch : Channel) (r : DetRec) : (setDet s ch r).freeIndex = s.freeIndex := by simp only [setDet]
@[simp] theorem setDet_pending (ch : Channel) (r : DetRec) : (setDet s ch r).pending = s.pending := by simp only [setDet]

/-! ## setApr -/

@[simp] theorem setApr_sge (a : Approach) (r : ApproachRec) : (setApr s a r).sge = s.sge := by simp only [setApr]
@[simp] theorem setApr_igm (a : Approach) (r : ApproachRec) : (setApr s a r).igm = s.igm := by simp only [setApr]
@[simp] theorem setApr_sel (a : Approach) (r : ApproachRec) : (setApr s a r).sel = s.sel := by simp only [setApr]
@[simp] theorem setApr_fbs (a : Approach) (r : ApproachRec) : (setApr s a r).fbs = s.fbs := by simp only [setApr]
@[simp] theorem setApr_du (a : Approach) (r : ApproachRec) : (setApr s a r).du = s.du := by simp only [setApr]
@[simp] theorem setApr_lou (a : Approach) (r : ApproachRec) : (setApr s a r).lou = s.lou := by simp only [setApr]
@[simp] theorem setApr_mfs (a : Approach) (r : ApproachRec) : (setApr s a r).mfs = s.mfs := by simp only [setApr]
@[simp] theorem setApr_clp (a : Approach) (r : ApproachRec) : (setApr s a r).clp = s.clp := by simp only [setApr]
@[simp] theorem setApr_cs (a : Approach) (r : ApproachRec) : (setApr s a r).cs = s.cs := by simp only [setApr]
@[simp] theorem setApr_fbsDue (a : Approach) (r : ApproachRec) : (setApr s a r).fbsDue = s.fbsDue := by simp only [setApr]
@[simp] theorem setApr_freeIndex (a : Approach) (r : ApproachRec) : (setApr s a r).freeIndex = s.freeIndex := by simp only [setApr]
@[simp] theorem setApr_pending (a : Approach) (r : ApproachRec) : (setApr s a r).pending = s.pending := by simp only [setApr]

/-! ## setStation -/

@[simp] theorem setStation_sge (i : Station) (r : StationRec) : (setStation s i r).sge = s.sge := by simp only [setStation]
@[simp] theorem setStation_igm (i : Station) (r : StationRec) : (setStation s i r).igm = s.igm := by simp only [setStation]
@[simp] theorem setStation_sel (i : Station) (r : StationRec) : (setStation s i r).sel = s.sel := by simp only [setStation]
@[simp] theorem setStation_fbs (i : Station) (r : StationRec) : (setStation s i r).fbs = s.fbs := by simp only [setStation]
@[simp] theorem setStation_du (i : Station) (r : StationRec) : (setStation s i r).du = s.du := by simp only [setStation]
@[simp] theorem setStation_pu (i : Station) (r : StationRec) : (setStation s i r).pu = s.pu := by simp only [setStation]
@[simp] theorem setStation_lou (i : Station) (r : StationRec) : (setStation s i r).lou = s.lou := by simp only [setStation]
@[simp] theorem setStation_mfs (i : Station) (r : StationRec) : (setStation s i r).mfs = s.mfs := by simp only [setStation]
@[simp] theorem setStation_cs (i : Station) (r : StationRec) : (setStation s i r).cs = s.cs := by simp only [setStation]
@[simp] theorem setStation_fbsDue (i : Station) (r : StationRec) : (setStation s i r).fbsDue = s.fbsDue := by simp only [setStation]
@[simp] theorem setStation_freeIndex (i : Station) (r : StationRec) : (setStation s i r).freeIndex = s.freeIndex := by simp only [setStation]
@[simp] theorem setStation_pending (i : Station) (r : StationRec) : (setStation s i r).pending = s.pending := by simp only [setStation]

/-! ## setFault -/

@[simp] theorem setFault_sge (k : Fin 12) (r : FaultRec) : (setFault s k r).sge = s.sge := by simp only [setFault]
@[simp] theorem setFault_igm (k : Fin 12) (r : FaultRec) : (setFault s k r).igm = s.igm := by simp only [setFault]
@[simp] theorem setFault_sel (k : Fin 12) (r : FaultRec) : (setFault s k r).sel = s.sel := by simp only [setFault]
@[simp] theorem setFault_fbs (k : Fin 12) (r : FaultRec) : (setFault s k r).fbs = s.fbs := by simp only [setFault]
@[simp] theorem setFault_du (k : Fin 12) (r : FaultRec) : (setFault s k r).du = s.du := by simp only [setFault]
@[simp] theorem setFault_pu (k : Fin 12) (r : FaultRec) : (setFault s k r).pu = s.pu := by simp only [setFault]
@[simp] theorem setFault_lou (k : Fin 12) (r : FaultRec) : (setFault s k r).lou = s.lou := by simp only [setFault]
@[simp] theorem setFault_clp (k : Fin 12) (r : FaultRec) : (setFault s k r).clp = s.clp := by simp only [setFault]
@[simp] theorem setFault_cs (k : Fin 12) (r : FaultRec) : (setFault s k r).cs = s.cs := by simp only [setFault]
@[simp] theorem setFault_fbsDue (k : Fin 12) (r : FaultRec) : (setFault s k r).fbsDue = s.fbsDue := by simp only [setFault]
@[simp] theorem setFault_freeIndex (k : Fin 12) (r : FaultRec) : (setFault s k r).freeIndex = s.freeIndex := by simp only [setFault]
@[simp] theorem setFault_pending (k : Fin 12) (r : FaultRec) : (setFault s k r).pending = s.pending := by simp only [setFault]

/-! ## post -/

@[simp] theorem post_sge (e : Event) : (post e s).sge = s.sge := by simp only [post]
@[simp] theorem post_igm (e : Event) : (post e s).igm = s.igm := by simp only [post]
@[simp] theorem post_sel (e : Event) : (post e s).sel = s.sel := by simp only [post]
@[simp] theorem post_fbs (e : Event) : (post e s).fbs = s.fbs := by simp only [post]
@[simp] theorem post_du (e : Event) : (post e s).du = s.du := by simp only [post]
@[simp] theorem post_pu (e : Event) : (post e s).pu = s.pu := by simp only [post]
@[simp] theorem post_lou (e : Event) : (post e s).lou = s.lou := by simp only [post]
@[simp] theorem post_clp (e : Event) : (post e s).clp = s.clp := by simp only [post]
@[simp] theorem post_cs (e : Event) : (post e s).cs = s.cs := by simp only [post]
@[simp] theorem post_fbsDue (e : Event) : (post e s).fbsDue = s.fbsDue := by simp only [post]
@[simp] theorem post_freeIndex (e : Event) : (post e s).freeIndex = s.freeIndex := by simp only [post]
@[simp] theorem post_pending (e : Event) : (post e s).pending = s.pending := by simp only [post]

/-! ## Within the part written -/

@[simp] theorem setGrp_sge_clock (g : Group) (r : GroupRec) : (setGrp s g r).sge.clock = s.sge.clock := by simp only [setGrp]
@[simp] theorem setGroups_sge_clock (f : Group → GroupRec) : (setGroups s f).sge.clock = s.sge.clock := by simp only [setGroups]
@[simp] theorem setLamp_lou_redOut (ch : Lamp) (r : LampRec) : (setLamp s ch r).lou.redOut = s.lou.redOut := by simp only [setLamp]
@[simp] theorem setLamp_lou_dim (ch : Lamp) (r : LampRec) : (setLamp s ch r).lou.dim = s.lou.dim := by simp only [setLamp]
@[simp] theorem setLamp_lou_pendingDim (ch : Lamp) (r : LampRec) : (setLamp s ch r).lou.pendingDim = s.lou.pendingDim := by simp only [setLamp]
@[simp] theorem setLamp_lou_boundaryDue (ch : Lamp) (r : LampRec) : (setLamp s ch r).lou.boundaryDue = s.lou.boundaryDue := by simp only [setLamp]
@[simp] theorem setLamps_lou_redOut (f : Lamp → LampRec) : (setLamps s f).lou.redOut = s.lou.redOut := by simp only [setLamps]
@[simp] theorem setLamps_lou_dim (f : Lamp → LampRec) : (setLamps s f).lou.dim = s.lou.dim := by simp only [setLamps]
@[simp] theorem setLamps_lou_pendingDim (f : Lamp → LampRec) : (setLamps s f).lou.pendingDim = s.lou.pendingDim := by simp only [setLamps]
@[simp] theorem setLamps_lou_boundaryDue (f : Lamp → LampRec) : (setLamps s f).lou.boundaryDue = s.lou.boundaryDue := by simp only [setLamps]
@[simp] theorem setDet_du_clock (ch : Channel) (r : DetRec) : (setDet s ch r).du.clock = s.du.clock := by simp only [setDet]
@[simp] theorem setApr_pu_nextEntry (a : Approach) (r : ApproachRec) : (setApr s a r).pu.nextEntry = s.pu.nextEntry := by simp only [setApr]
@[simp] theorem setApr_pu_list (a : Approach) (r : ApproachRec) : (setApr s a r).pu.list = s.pu.list := by simp only [setApr]
@[simp] theorem setApr_pu_overlay (a : Approach) (r : ApproachRec) : (setApr s a r).pu.overlay = s.pu.overlay := by simp only [setApr]
@[simp] theorem setApr_pu_inhibitUntil (a : Approach) (r : ApproachRec) : (setApr s a r).pu.inhibitUntil = s.pu.inhibitUntil := by simp only [setApr]
@[simp] theorem setApr_pu_enabled (a : Approach) (r : ApproachRec) : (setApr s a r).pu.enabled = s.pu.enabled := by simp only [setApr]
@[simp] theorem setApr_pu_nextSeq (a : Approach) (r : ApproachRec) : (setApr s a r).pu.nextSeq = s.pu.nextSeq := by simp only [setApr]
@[simp] theorem setStation_clp_receiver (i : Station) (r : StationRec) : (setStation s i r).clp.receiver = s.clp.receiver := by simp only [setStation]
@[simp] theorem setStation_clp_buffer (i : Station) (r : StationRec) : (setStation s i r).clp.buffer = s.clp.buffer := by simp only [setStation]
@[simp] theorem setStation_clp_lastByte (i : Station) (r : StationRec) : (setStation s i r).clp.lastByte = s.clp.lastByte := by simp only [setStation]
@[simp] theorem setStation_clp_ignoring (i : Station) (r : StationRec) : (setStation s i r).clp.ignoring = s.clp.ignoring := by simp only [setStation]
@[simp] theorem setStation_clp_discarded (i : Station) (r : StationRec) : (setStation s i r).clp.discarded = s.clp.discarded := by simp only [setStation]
@[simp] theorem setStation_clp_answered (i : Station) (r : StationRec) : (setStation s i r).clp.answered = s.clp.answered := by simp only [setStation]
@[simp] theorem setStation_clp_partAddress (i : Station) (r : StationRec) : (setStation s i r).clp.partAddress = s.clp.partAddress := by simp only [setStation]
@[simp] theorem setStation_clp_rate (i : Station) (r : StationRec) : (setStation s i r).clp.rate = s.clp.rate := by simp only [setStation]
@[simp] theorem setStation_clp_reply (i : Station) (r : StationRec) : (setStation s i r).clp.reply = s.clp.reply := by simp only [setStation]
@[simp] theorem setStation_clp_ldir (i : Station) (r : StationRec) : (setStation s i r).clp.ldir = s.clp.ldir := by simp only [setStation]
@[simp] theorem setFault_mfs_mode (k : Fin 12) (r : FaultRec) : (setFault s k r).mfs.mode = s.mfs.mode := by simp only [setFault]
@[simp] theorem setFault_mfs_sub (k : Fin 12) (r : FaultRec) : (setFault s k r).mfs.sub = s.mfs.sub := by simp only [setFault]
@[simp] theorem setFault_mfs_goal (k : Fin 12) (r : FaultRec) : (setFault s k r).mfs.goal = s.mfs.goal := by simp only [setFault]
@[simp] theorem setFault_mfs_phaseStart (k : Fin 12) (r : FaultRec) : (setFault s k r).mfs.phaseStart = s.mfs.phaseStart := by simp only [setFault]
@[simp] theorem setFault_mfs_fltDriven (k : Fin 12) (r : FaultRec) : (setFault s k r).mfs.fltDriven = s.mfs.fltDriven := by simp only [setFault]
@[simp] theorem setFault_mfs_fltPulledLow (k : Fin 12) (r : FaultRec) : (setFault s k r).mfs.fltPulledLow = s.mfs.fltPulledLow := by simp only [setFault]
@[simp] theorem setFault_mfs_externalRun (k : Fin 12) (r : FaultRec) : (setFault s k r).mfs.externalRun = s.mfs.externalRun := by simp only [setFault]
@[simp] theorem setFault_mfs_pending (k : Fin 12) (r : FaultRec) : (setFault s k r).mfs.pending = s.mfs.pending := by simp only [setFault]
@[simp] theorem setFault_mfs_masks (k : Fin 12) (r : FaultRec) : (setFault s k r).mfs.masks = s.mfs.masks := by simp only [setFault]
@[simp] theorem setFault_mfs_lastRemoval (k : Fin 12) (r : FaultRec) : (setFault s k r).mfs.lastRemoval = s.mfs.lastRemoval := by simp only [setFault]
@[simp] theorem setFault_mfs_attnLow (k : Fin 12) (r : FaultRec) : (setFault s k r).mfs.attnLow = s.mfs.attnLow := by simp only [setFault]
@[simp] theorem post_mfs_mode (e : Event) : (post e s).mfs.mode = s.mfs.mode := by simp only [post, updateAttn]
@[simp] theorem post_mfs_sub (e : Event) : (post e s).mfs.sub = s.mfs.sub := by simp only [post, updateAttn]
@[simp] theorem post_mfs_goal (e : Event) : (post e s).mfs.goal = s.mfs.goal := by simp only [post, updateAttn]
@[simp] theorem post_mfs_phaseStart (e : Event) : (post e s).mfs.phaseStart = s.mfs.phaseStart := by simp only [post, updateAttn]
@[simp] theorem post_mfs_faults (e : Event) : (post e s).mfs.faults = s.mfs.faults := by simp only [post, updateAttn]
@[simp] theorem post_mfs_fltDriven (e : Event) : (post e s).mfs.fltDriven = s.mfs.fltDriven := by simp only [post, updateAttn]
@[simp] theorem post_mfs_fltPulledLow (e : Event) : (post e s).mfs.fltPulledLow = s.mfs.fltPulledLow := by simp only [post, updateAttn]
@[simp] theorem post_mfs_externalRun (e : Event) : (post e s).mfs.externalRun = s.mfs.externalRun := by simp only [post, updateAttn]
@[simp] theorem post_mfs_masks (e : Event) : (post e s).mfs.masks = s.mfs.masks := by simp only [post, updateAttn]
@[simp] theorem post_mfs_lastRemoval (e : Event) : (post e s).mfs.lastRemoval = s.mfs.lastRemoval := by simp only [post, updateAttn]

/-! ## The read functions -/

@[simp] theorem setGrp_jnow (g : Group) (r : GroupRec) : jnow (setGrp s g r) = jnow s := by simp only [jnow, setGrp]
@[simp] theorem setGrp_dnow (g : Group) (r : GroupRec) : dnow (setGrp s g r) = dnow s := by simp only [dnow, setGrp]
@[simp] theorem setGrp_lamp (g : Group) (r : GroupRec) (x : Lamp) : lamp (setGrp s g r) x = lamp s x := by simp only [lamp, setGrp]
@[simp] theorem setGrp_det (g : Group) (r : GroupRec) (x : Channel) : det (setGrp s g r) x = det s x := by simp only [det, setGrp]
@[simp] theorem setGrp_ovl (g : Group) (r : GroupRec) (x : Group) : ovl (setGrp s g r) x = ovl s x := by simp only [ovl, setGrp]
@[simp] theorem setGrp_apr (g : Group) (r : GroupRec) (x : Approach) : apr (setGrp s g r) x = apr s x := by simp only [apr, setGrp]
@[simp] theorem setGrp_station (g : Group) (r : GroupRec) (x : Station) : station (setGrp s g r) x = station s x := by simp only [station, setGrp]
@[simp] theorem setGrp_intergreen (g : Group) (r : GroupRec) (x y : Group) : intergreen (setGrp s g r) x y = intergreen s x y := by simp only [intergreen, setGrp]
@[simp] theorem setGroups_jnow (f : Group → GroupRec) : jnow (setGroups s f) = jnow s := by simp only [jnow, setGroups]
@[simp] theorem setGroups_dnow (f : Group → GroupRec) : dnow (setGroups s f) = dnow s := by simp only [dnow, setGroups]
@[simp] theorem setGroups_lamp (f : Group → GroupRec) (x : Lamp) : lamp (setGroups s f) x = lamp s x := by simp only [lamp, setGroups]
@[simp] theorem setGroups_det (f : Group → GroupRec) (x : Channel) : det (setGroups s f) x = det s x := by simp only [det, setGroups]
@[simp] theorem setGroups_ovl (f : Group → GroupRec) (x : Group) : ovl (setGroups s f) x = ovl s x := by simp only [ovl, setGroups]
@[simp] theorem setGroups_apr (f : Group → GroupRec) (x : Approach) : apr (setGroups s f) x = apr s x := by simp only [apr, setGroups]
@[simp] theorem setGroups_station (f : Group → GroupRec) (x : Station) : station (setGroups s f) x = station s x := by simp only [station, setGroups]
@[simp] theorem setGroups_intergreen (f : Group → GroupRec) (x y : Group) : intergreen (setGroups s f) x y = intergreen s x y := by simp only [intergreen, setGroups]
@[simp] theorem setLamp_jnow (ch : Lamp) (r : LampRec) : jnow (setLamp s ch r) = jnow s := by simp only [jnow, setLamp]
@[simp] theorem setLamp_dnow (ch : Lamp) (r : LampRec) : dnow (setLamp s ch r) = dnow s := by simp only [dnow, setLamp]
@[simp] theorem setLamp_grp (ch : Lamp) (r : LampRec) (x : Group) : grp (setLamp s ch r) x = grp s x := by simp only [grp, setLamp]
@[simp] theorem setLamp_det (ch : Lamp) (r : LampRec) (x : Channel) : det (setLamp s ch r) x = det s x := by simp only [det, setLamp]
@[simp] theorem setLamp_ovl (ch : Lamp) (r : LampRec) (x : Group) : ovl (setLamp s ch r) x = ovl s x := by simp only [ovl, setLamp]
@[simp] theorem setLamp_apr (ch : Lamp) (r : LampRec) (x : Approach) : apr (setLamp s ch r) x = apr s x := by simp only [apr, setLamp]
@[simp] theorem setLamp_station (ch : Lamp) (r : LampRec) (x : Station) : station (setLamp s ch r) x = station s x := by simp only [station, setLamp]
@[simp] theorem setLamp_intergreen (ch : Lamp) (r : LampRec) (x y : Group) : intergreen (setLamp s ch r) x y = intergreen s x y := by simp only [intergreen, setLamp]
@[simp] theorem setLamps_jnow (f : Lamp → LampRec) : jnow (setLamps s f) = jnow s := by simp only [jnow, setLamps]
@[simp] theorem setLamps_dnow (f : Lamp → LampRec) : dnow (setLamps s f) = dnow s := by simp only [dnow, setLamps]
@[simp] theorem setLamps_grp (f : Lamp → LampRec) (x : Group) : grp (setLamps s f) x = grp s x := by simp only [grp, setLamps]
@[simp] theorem setLamps_det (f : Lamp → LampRec) (x : Channel) : det (setLamps s f) x = det s x := by simp only [det, setLamps]
@[simp] theorem setLamps_ovl (f : Lamp → LampRec) (x : Group) : ovl (setLamps s f) x = ovl s x := by simp only [ovl, setLamps]
@[simp] theorem setLamps_apr (f : Lamp → LampRec) (x : Approach) : apr (setLamps s f) x = apr s x := by simp only [apr, setLamps]
@[simp] theorem setLamps_station (f : Lamp → LampRec) (x : Station) : station (setLamps s f) x = station s x := by simp only [station, setLamps]
@[simp] theorem setLamps_intergreen (f : Lamp → LampRec) (x y : Group) : intergreen (setLamps s f) x y = intergreen s x y := by simp only [intergreen, setLamps]
@[simp] theorem setDet_jnow (ch : Channel) (r : DetRec) : jnow (setDet s ch r) = jnow s := by simp only [jnow, setDet]
@[simp] theorem setDet_dnow (ch : Channel) (r : DetRec) : dnow (setDet s ch r) = dnow s := by simp only [dnow, setDet]
@[simp] theorem setDet_grp (ch : Channel) (r : DetRec) (x : Group) : grp (setDet s ch r) x = grp s x := by simp only [grp, setDet]
@[simp] theorem setDet_lamp (ch : Channel) (r : DetRec) (x : Lamp) : lamp (setDet s ch r) x = lamp s x := by simp only [lamp, setDet]
@[simp] theorem setDet_ovl (ch : Channel) (r : DetRec) (x : Group) : ovl (setDet s ch r) x = ovl s x := by simp only [ovl, setDet]
@[simp] theorem setDet_apr (ch : Channel) (r : DetRec) (x : Approach) : apr (setDet s ch r) x = apr s x := by simp only [apr, setDet]
@[simp] theorem setDet_station (ch : Channel) (r : DetRec) (x : Station) : station (setDet s ch r) x = station s x := by simp only [station, setDet]
@[simp] theorem setDet_intergreen (ch : Channel) (r : DetRec) (x y : Group) : intergreen (setDet s ch r) x y = intergreen s x y := by simp only [intergreen, setDet]
@[simp] theorem setApr_jnow (a : Approach) (r : ApproachRec) : jnow (setApr s a r) = jnow s := by simp only [jnow, setApr]
@[simp] theorem setApr_dnow (a : Approach) (r : ApproachRec) : dnow (setApr s a r) = dnow s := by simp only [dnow, setApr]
@[simp] theorem setApr_grp (a : Approach) (r : ApproachRec) (x : Group) : grp (setApr s a r) x = grp s x := by simp only [grp, setApr]
@[simp] theorem setApr_lamp (a : Approach) (r : ApproachRec) (x : Lamp) : lamp (setApr s a r) x = lamp s x := by simp only [lamp, setApr]
@[simp] theorem setApr_det (a : Approach) (r : ApproachRec) (x : Channel) : det (setApr s a r) x = det s x := by simp only [det, setApr]
@[simp] theorem setApr_ovl (a : Approach) (r : ApproachRec) (x : Group) : ovl (setApr s a r) x = ovl s x := by simp only [ovl, setApr]
@[simp] theorem setApr_station (a : Approach) (r : ApproachRec) (x : Station) : station (setApr s a r) x = station s x := by simp only [station, setApr]
@[simp] theorem setApr_intergreen (a : Approach) (r : ApproachRec) (x y : Group) : intergreen (setApr s a r) x y = intergreen s x y := by simp only [intergreen, setApr]
@[simp] theorem setStation_jnow (i : Station) (r : StationRec) : jnow (setStation s i r) = jnow s := by simp only [jnow, setStation]
@[simp] theorem setStation_dnow (i : Station) (r : StationRec) : dnow (setStation s i r) = dnow s := by simp only [dnow, setStation]
@[simp] theorem setStation_grp (i : Station) (r : StationRec) (x : Group) : grp (setStation s i r) x = grp s x := by simp only [grp, setStation]
@[simp] theorem setStation_lamp (i : Station) (r : StationRec) (x : Lamp) : lamp (setStation s i r) x = lamp s x := by simp only [lamp, setStation]
@[simp] theorem setStation_det (i : Station) (r : StationRec) (x : Channel) : det (setStation s i r) x = det s x := by simp only [det, setStation]
@[simp] theorem setStation_ovl (i : Station) (r : StationRec) (x : Group) : ovl (setStation s i r) x = ovl s x := by simp only [ovl, setStation]
@[simp] theorem setStation_apr (i : Station) (r : StationRec) (x : Approach) : apr (setStation s i r) x = apr s x := by simp only [apr, setStation]
@[simp] theorem setStation_intergreen (i : Station) (r : StationRec) (x y : Group) : intergreen (setStation s i r) x y = intergreen s x y := by simp only [intergreen, setStation]
@[simp] theorem setFault_jnow (k : Fin 12) (r : FaultRec) : jnow (setFault s k r) = jnow s := by simp only [jnow, setFault]
@[simp] theorem setFault_dnow (k : Fin 12) (r : FaultRec) : dnow (setFault s k r) = dnow s := by simp only [dnow, setFault]
@[simp] theorem setFault_grp (k : Fin 12) (r : FaultRec) (x : Group) : grp (setFault s k r) x = grp s x := by simp only [grp, setFault]
@[simp] theorem setFault_lamp (k : Fin 12) (r : FaultRec) (x : Lamp) : lamp (setFault s k r) x = lamp s x := by simp only [lamp, setFault]
@[simp] theorem setFault_det (k : Fin 12) (r : FaultRec) (x : Channel) : det (setFault s k r) x = det s x := by simp only [det, setFault]
@[simp] theorem setFault_ovl (k : Fin 12) (r : FaultRec) (x : Group) : ovl (setFault s k r) x = ovl s x := by simp only [ovl, setFault]
@[simp] theorem setFault_apr (k : Fin 12) (r : FaultRec) (x : Approach) : apr (setFault s k r) x = apr s x := by simp only [apr, setFault]
@[simp] theorem setFault_station (k : Fin 12) (r : FaultRec) (x : Station) : station (setFault s k r) x = station s x := by simp only [station, setFault]
@[simp] theorem setFault_intergreen (k : Fin 12) (r : FaultRec) (x y : Group) : intergreen (setFault s k r) x y = intergreen s x y := by simp only [intergreen, setFault]
@[simp] theorem post_jnow (e : Event) : jnow (post e s) = jnow s := by simp only [jnow, post, updateAttn]
@[simp] theorem post_dnow (e : Event) : dnow (post e s) = dnow s := by simp only [dnow, post, updateAttn]
@[simp] theorem post_grp (e : Event) (x : Group) : grp (post e s) x = grp s x := by simp only [grp, post, updateAttn]
@[simp] theorem post_lamp (e : Event) (x : Lamp) : lamp (post e s) x = lamp s x := by simp only [lamp, post, updateAttn]
@[simp] theorem post_det (e : Event) (x : Channel) : det (post e s) x = det s x := by simp only [det, post, updateAttn]
@[simp] theorem post_ovl (e : Event) (x : Group) : ovl (post e s) x = ovl s x := by simp only [ovl, post, updateAttn]
@[simp] theorem post_apr (e : Event) (x : Approach) : apr (post e s) x = apr s x := by simp only [apr, post, updateAttn]
@[simp] theorem post_station (e : Event) (x : Station) : station (post e s) x = station s x := by simp only [station, post, updateAttn]
@[simp] theorem post_intergreen (e : Event) (x y : Group) : intergreen (post e s) x y = intergreen s x y := by simp only [intergreen, post, updateAttn]

/-! ## A record after a write -/

theorem grp_setGrp (g h : Group) (r : GroupRec) : grp (setGrp s g r) h = if g = h then r else grp s h := by
  simp only [grp, setGrp, Fin.getElem_fin, Vector.getElem_set, Fin.ext_iff]

theorem lamp_setLamp (c d : Lamp) (r : LampRec) : lamp (setLamp s c r) d = if c = d then r else lamp s d := by
  simp only [lamp, setLamp, Fin.getElem_fin, Vector.getElem_set, Fin.ext_iff]

theorem det_setDet (c d : Channel) (r : DetRec) : det (setDet s c r) d = if c = d then r else det s d := by
  simp only [det, setDet, Fin.getElem_fin, Vector.getElem_set, Fin.ext_iff]

theorem apr_setApr (a b : Approach) (r : ApproachRec) : apr (setApr s a r) b = if a = b then r else apr s b := by
  simp only [apr, setApr, Fin.getElem_fin, Vector.getElem_set, Fin.ext_iff]

theorem station_setStation (i j : Station) (r : StationRec) :
    station (setStation s i r) j = if i = j then r else station s j := by
  simp only [station, setStation, Fin.getElem_fin, Vector.getElem_set, Fin.ext_iff]

theorem faults_setFault (k l : Fin 12) (r : FaultRec) :
    (setFault s k r).mfs.faults[l] = if k = l then r else s.mfs.faults[l] := by
  simp only [setFault, Fin.getElem_fin, Vector.getElem_set, Fin.ext_iff]

@[simp] theorem grp_setGroups (f : Group → GroupRec) (g : Group) : grp (setGroups s f) g = f g := by
  simp [grp, setGroups]

@[simp] theorem lamp_setLamps (f : Lamp → LampRec) (c : Lamp) : lamp (setLamps s f) c = f c := by
  simp [lamp, setLamps]

@[simp] theorem grp_setGrp_self (g : Group) (r : GroupRec) : grp (setGrp s g r) g = r := by simp [grp_setGrp]

@[simp] theorem lamp_setLamp_self (c : Lamp) (r : LampRec) : lamp (setLamp s c r) c = r := by simp [lamp_setLamp]

@[simp] theorem det_setDet_self (c : Channel) (r : DetRec) : det (setDet s c r) c = r := by simp [det_setDet]

@[simp] theorem setGrp_grp (g : Group) : setGrp s g (grp s g) = s := by
  simp [setGrp, grp, Fin.getElem_fin]

/-! ## Posting -/

/-- R180: a posting adds its kind to every station's pending set. -/
theorem post_adds_kind (e : Event) :
    (post e s).mfs.pending = s.mfs.pending.map fun p => p ||| (1#11 <<< e.code.val) := by simp only [post, updateAttn]

/-- R181: after a posting ATTN follows the pending set of station 1. -/
theorem post_attn (e : Event) : (post e s).mfs.attnLow = unmaskedSummary (post e s).mfs 0 := by
  unfold post updateAttn unmaskedSummary
  rfl

@[simp] theorem postIf_false (e : Event) : postIf false e s = s := rfl
@[simp] theorem postIf_true (e : Event) : postIf true e s = post e s := rfl

@[simp] theorem postIf_sge (b : Bool) (e : Event) : (postIf b e s).sge = s.sge := by cases b <;> rfl
@[simp] theorem postIf_igm (b : Bool) (e : Event) : (postIf b e s).igm = s.igm := by cases b <;> rfl
@[simp] theorem postIf_sel (b : Bool) (e : Event) : (postIf b e s).sel = s.sel := by cases b <;> rfl
@[simp] theorem postIf_fbs (b : Bool) (e : Event) : (postIf b e s).fbs = s.fbs := by cases b <;> rfl
@[simp] theorem postIf_du (b : Bool) (e : Event) : (postIf b e s).du = s.du := by cases b <;> rfl
@[simp] theorem postIf_pu (b : Bool) (e : Event) : (postIf b e s).pu = s.pu := by cases b <;> rfl
@[simp] theorem postIf_lou (b : Bool) (e : Event) : (postIf b e s).lou = s.lou := by cases b <;> rfl
@[simp] theorem postIf_clp (b : Bool) (e : Event) : (postIf b e s).clp = s.clp := by cases b <;> rfl
@[simp] theorem postIf_cs (b : Bool) (e : Event) : (postIf b e s).cs = s.cs := by cases b <;> rfl
@[simp] theorem postIf_fbsDue (b : Bool) (e : Event) : (postIf b e s).fbsDue = s.fbsDue := by cases b <;> rfl
@[simp] theorem postIf_freeIndex (b : Bool) (e : Event) : (postIf b e s).freeIndex = s.freeIndex := by cases b <;> rfl
@[simp] theorem postIf_pending (b : Bool) (e : Event) : (postIf b e s).pending = s.pending := by cases b <;> rfl
@[simp] theorem postIf_mfs_mode (b : Bool) (e : Event) : (postIf b e s).mfs.mode = s.mfs.mode := by cases b <;> rfl
@[simp] theorem postIf_mfs_sub (b : Bool) (e : Event) : (postIf b e s).mfs.sub = s.mfs.sub := by cases b <;> rfl
@[simp] theorem postIf_mfs_goal (b : Bool) (e : Event) : (postIf b e s).mfs.goal = s.mfs.goal := by cases b <;> rfl
@[simp] theorem postIf_mfs_phaseStart (b : Bool) (e : Event) : (postIf b e s).mfs.phaseStart = s.mfs.phaseStart := by cases b <;> rfl
@[simp] theorem postIf_mfs_faults (b : Bool) (e : Event) : (postIf b e s).mfs.faults = s.mfs.faults := by cases b <;> rfl
@[simp] theorem postIf_mfs_fltDriven (b : Bool) (e : Event) : (postIf b e s).mfs.fltDriven = s.mfs.fltDriven := by cases b <;> rfl
@[simp] theorem postIf_mfs_fltPulledLow (b : Bool) (e : Event) : (postIf b e s).mfs.fltPulledLow = s.mfs.fltPulledLow := by cases b <;> rfl
@[simp] theorem postIf_mfs_externalRun (b : Bool) (e : Event) : (postIf b e s).mfs.externalRun = s.mfs.externalRun := by cases b <;> rfl
@[simp] theorem postIf_mfs_masks (b : Bool) (e : Event) : (postIf b e s).mfs.masks = s.mfs.masks := by cases b <;> rfl
@[simp] theorem postIf_mfs_lastRemoval (b : Bool) (e : Event) : (postIf b e s).mfs.lastRemoval = s.mfs.lastRemoval := by cases b <;> rfl
@[simp] theorem postIf_jnow (b : Bool) (e : Event) : jnow (postIf b e s) = jnow s := by cases b <;> rfl
@[simp] theorem postIf_dnow (b : Bool) (e : Event) : dnow (postIf b e s) = dnow s := by cases b <;> rfl
@[simp] theorem postIf_grp (b : Bool) (e : Event) (x : Group) : grp (postIf b e s) x = grp s x := by cases b <;> rfl
@[simp] theorem postIf_lamp (b : Bool) (e : Event) (x : Lamp) : lamp (postIf b e s) x = lamp s x := by cases b <;> rfl
@[simp] theorem postIf_det (b : Bool) (e : Event) (x : Channel) : det (postIf b e s) x = det s x := by cases b <;> rfl
@[simp] theorem postIf_ovl (b : Bool) (e : Event) (x : Group) : ovl (postIf b e s) x = ovl s x := by cases b <;> rfl
@[simp] theorem postIf_apr (b : Bool) (e : Event) (x : Approach) : apr (postIf b e s) x = apr s x := by cases b <;> rfl
@[simp] theorem postIf_station (b : Bool) (e : Event) (x : Station) : station (postIf b e s) x = station s x := by cases b <;> rfl
@[simp] theorem postIf_intergreen (b : Bool) (e : Event) (x y : Group) : intergreen (postIf b e s) x y = intergreen s x y := by cases b <;> rfl

end Sys2Proof.Machine
end

