-- ==== Sys2Proof/Laws/Follows.lean ====
section
/-! SUPPORT. What follows inside an arrival: each shared operation of Machine/Priority.lean and Machine/Engine.lean
keeps to `Follows`. A proof about a command cites these and never unfolds the operations. -/

namespace Sys2Proof.Machine

/-! ## The relation -/

theorem GroupFollows.refl (now : Time) (cap : Nat) (a : GroupRec) : GroupFollows now cap a a :=
  .kept rfl id

theorem GroupFollows.of_eq {now : Time} {cap : Nat} {a b : GroupRec} (h : b = a) : GroupFollows now cap a b :=
  h ▸ .refl now cap a

/-- What follows moves a group from PROCEED_EXT to CLEARANCE or not at all. -/
theorem GroupFollows.state {now : Time} {cap : Nat} {a b : GroupRec} (h : GroupFollows now cap a b) :
    b.state = a.state ∨ a.state = .proceedExt ∧ b.state = .clearance := by
  cases h with
  | kept same _ => left; rw [same]
  | ended c n ext record _ _ => right; exact ⟨ext, by rw [record]⟩

theorem GroupFollows.trans {now : Time} {cap : Nat} {a b c : GroupRec} (h : GroupFollows now cap a b)
    (k : GroupFollows now cap b c) : GroupFollows now cap a c := by
  cases h with
  | kept hs hc =>
    cases k with
    | kept ks kc => exact .kept (ks.trans (by rw [hs])) (fun x => hc (kc x))
    | ended d n ext record credit max =>
      have he : a.state = .proceedExt := by rw [← ext, hs]
      refine .ended d n he (record.trans (by rw [hs])) ?_ ?_
      · rw [credit, show b.credit = a.credit by rw [hs]]
      · exact fun x => (max x).imp_left hc
  | ended d n ext record credit max =>
    have hb : b.state = .clearance := by rw [record]
    cases k with
    | kept ks kc =>
      refine .ended d n ext (ks.trans ?_) (by rw [← credit, ks]) (fun x => max (kc x))
      rw [record, show c.credit = b.credit by rw [ks]]
    | ended _ _ kext _ _ _ => rw [hb] at kext; cases kext

/-- The derived command of a lamp depends on the mode record, the image and its group's state. -/
theorem derivedCommand_congr {s t : State} {ch : Lamp} (hm : t.mfs.mode = s.mfs.mode) (hs : t.mfs.sub = s.mfs.sub)
    (hc : t.cs = s.cs) (hg : (grp t (lampGroup ch)).state = (grp s (lampGroup ch)).state) :
    derivedCommand t ch = derivedCommand s ch := by
  unfold derivedCommand
  rw [hm, hs, hc, hg]

namespace Follows

theorem mode {own : Group → Bool} {s t : State} (h : Follows own s t) : t.mfs.mode = s.mfs.mode := by rw [h.mfs]
theorem sub {own : Group → Bool} {s t : State} (h : Follows own s t) : t.mfs.sub = s.mfs.sub := by rw [h.mfs]
theorem owner {own : Group → Bool} {s t : State} (h : Follows own s t) : t.sel.owner = s.sel.owner := by rw [h.sel]
theorem now {own : Group → Bool} {s t : State} (h : Follows own s t) : jnow t = jnow s := h.clock
theorem acts {own : Group → Bool} {s t : State} (h : Follows own s t) : fbsActs t = fbsActs s := by
  unfold fbsActs; rw [h.mode, h.owner]

theorem refl (s : State) : Follows noGroup s s where
  clock := rfl
  igm := rfl
  du := rfl
  clp := rfl
  cs := rfl
  fbsDue := rfl
  freeIndex := rfl
  pending := rfl
  sel := rfl
  target := fun _ => ⟨rfl, .inl rfl⟩
  fbs := rfl
  pu := rfl
  entries := rfl
  lou := rfl
  mfs := rfl
  events := ⟨0, by decide, by simp⟩
  attn := .inl rfl
  groups := fun _ => .refl _ _ _
  flags := fun _ _ h => h
  lamps := fun _ _ => by simp
  ownLamps := fun _ h => by cases h

theorem trans {own : Group → Bool} {s t u : State} (h : Follows own s t) (k : Follows noGroup t u) :
    Follows own s u where
  clock := k.clock.trans h.clock
  igm := k.igm.trans h.igm
  du := k.du.trans h.du
  clp := k.clp.trans h.clp
  cs := k.cs.trans h.cs
  fbsDue := k.fbsDue.trans h.fbsDue
  freeIndex := k.freeIndex.trans h.freeIndex
  pending := k.pending.trans h.pending
  sel := by rw [k.sel, h.sel]
  target := fun hn => by
    obtain ⟨h1, h2⟩ := h.target hn
    obtain ⟨k1, k2⟩ := k.target (by rw [h.acts]; exact hn)
    refine ⟨by rw [k1, h1], ?_⟩
    rcases k2 with k2 | k2
    · rcases h2 with h2 | h2
      · exact .inl (k2.trans h2)
      · exact .inr (by rw [k2, h2])
    · exact .inr k2
  fbs := by rw [k.fbs, h.fbs]
  pu := by rw [k.pu, h.pu]
  entries := k.entries.trans h.entries
  lou := by rw [k.lou, h.lou]
  mfs := by rw [k.mfs, h.mfs]
  events := by
    obtain ⟨v, hv, hp⟩ := h.events
    obtain ⟨w, hw, kp⟩ := k.events
    refine ⟨v ||| w, by rw [BitVec.and_or_distrib_right, hv, hw]; decide, ?_⟩
    rw [kp, hp]
    ext i hi : 1
    simp [BitVec.or_assoc]
  attn := by
    rcases k.attn with ke | ka
    · rw [ke]; exact h.attn.imp_left id
    · exact .inr ka
  groups := fun g => by
    have kg := k.groups g
    rw [h.now, h.cs] at kg
    exact (h.groups g).trans kg
  flags := fun hn g hm => k.flags (by rw [h.acts]; exact hn) g (h.flags hn g hm)
  lamps := fun ch ho => by
    have kl := k.lamps ch rfl
    have hl := h.lamps ch ho
    have hd : (grp u (lampGroup ch)).state = (grp t (lampGroup ch)).state →
        derivedCommand u ch = derivedCommand t ch := derivedCommand_congr k.mode k.sub k.cs
    rw [kl, hl, h.now]
    rcases (k.groups (lampGroup ch)).state with e | ⟨e1, e2⟩
    · rw [if_pos e, hd e, e]
    · rcases (h.groups (lampGroup ch)).state with f | ⟨f1, f2⟩
      · rw [if_neg (by rw [e1, e2]; decide), if_pos f, if_neg (by rw [e2, ← f, e1]; decide)]
      · rw [f2] at e1; cases e1
  ownLamps := fun ch ho => by
    have kl := k.lamps ch rfl
    have hl := h.ownLamps ch ho
    have hd : (grp u (lampGroup ch)).state = (grp t (lampGroup ch)).state →
        derivedCommand u ch = derivedCommand t ch := derivedCommand_congr k.mode k.sub k.cs
    by_cases e : (grp u (lampGroup ch)).state = (grp t (lampGroup ch)).state
    · rw [if_pos e] at kl
      rw [kl, hd e]; exact hl
    · rw [if_neg e] at kl
      rw [kl]
      unfold recommand
      split
      · rename_i hc
        rw [← hc]; rw [hl]
      · rw [hl]

end Follows

/-! ## Postings, the selector and the sequencer -/

theorem derivedCommand_lampsFollow (p : Group → Bool) (s : State) (ch : Lamp) :
    derivedCommand (lampsFollow p s) ch = derivedCommand s ch := by
  simp only [derivedCommand, lampsFollow, setLamps_mfs, setLamps_cs, setLamps_grp]

@[simp] theorem derivedCommand_post (e : Event) (s : State) (ch : Lamp) :
    derivedCommand (post e s) ch = derivedCommand s ch := by
  simp only [derivedCommand, post_mfs_mode, post_mfs_sub, post_cs, post_grp]

@[simp] theorem derivedCommand_postIf (b : Bool) (e : Event) (s : State) (ch : Lamp) :
    derivedCommand (postIf b e s) ch = derivedCommand s ch := by
  cases b <;> simp

theorem post_follows (e : Event) (s : State) (he : (1#11 <<< e.code.val) &&& ~~~followingEvents = 0) :
    Follows noGroup s (post e s) where
  clock := by simp
  igm := by simp
  du := by simp
  clp := by simp
  cs := by simp
  fbsDue := by simp
  freeIndex := by simp
  pending := by simp
  sel := by simp
  target := fun _ => by simp
  fbs := by simp
  pu := by simp
  entries := by simp
  lou := by simp
  mfs := by unfold post updateAttn; rfl
  events := ⟨_, he, post_adds_kind s e⟩
  attn := .inr (post_attn s e)
  groups := fun _ => .of_eq (by simp)
  flags := fun _ _ h => by simpa using h
  lamps := fun _ _ => by simp
  ownLamps := fun _ h => by cases h

theorem postIf_follows (b : Bool) (e : Event) (s : State) (he : (1#11 <<< e.code.val) &&& ~~~followingEvents = 0) :
    Follows noGroup s (postIf b e s) := by
  cases b
  · exact .refl s
  · exact post_follows e s he

/-- A state that differs in the selector's target fields alone follows, where the sequencer acts. -/
theorem Follows.of_sel {s t : State} (h : t = { s with sel := t.sel })
    (hs : t.sel = { s.sel with target := t.sel.target, generation := t.sel.generation, reported := t.sel.reported })
    (ht : fbsActs s = false → t.sel = { s.sel with reported := t.sel.reported }) : Follows noGroup s t where
  clock := by rw [h]
  igm := by rw [h]
  du := by rw [h]
  clp := by rw [h]
  cs := by rw [h]
  fbsDue := by rw [h]
  freeIndex := by rw [h]
  pending := by rw [h]
  sel := hs
  target := fun n => ⟨ht n, .inl (by rw [h])⟩
  fbs := by rw [h]
  pu := by rw [h]
  entries := by rw [h]
  lou := by rw [h]
  mfs := by rw [h]
  events := ⟨0, by decide, by rw [h]; simp⟩
  attn := .inl (by rw [h])
  groups := fun _ => .of_eq (by rw [h]; rfl)
  flags := fun _ _ k => by rw [h]; exact k
  lamps := fun _ _ => by rw [h]; simp [grp, lamp]
  ownLamps := fun _ k => by cases k

theorem Follows.of_fbs {s t : State} (h : t = { s with fbs := t.fbs })
    (hs : t.fbs.lastGapExit = s.fbs.lastGapExit) (ht : fbsActs s = true ∨ t.fbs.current = none) :
    Follows noGroup s t where
  clock := by rw [h]
  igm := by rw [h]
  du := by rw [h]
  clp := by rw [h]
  cs := by rw [h]
  fbsDue := by rw [h]
  freeIndex := by rw [h]
  pending := by rw [h]
  sel := by rw [h]
  target := fun n => by
    refine ⟨by rw [h], .inr ?_⟩
    rcases ht with ht | ht
    · rw [n] at ht; cases ht
    · exact ht
  fbs := by
    show t.fbs = ⟨t.fbs.current, s.fbs.lastGapExit⟩
    rw [← hs]
  pu := by rw [h]
  entries := by rw [h]
  lou := by rw [h]
  mfs := by rw [h]
  events := ⟨0, by decide, by rw [h]; simp⟩
  attn := .inl (by rw [h])
  groups := fun _ => .of_eq (by rw [h]; rfl)
  flags := fun _ _ k => by rw [h]; exact k
  lamps := fun _ _ => by rw [h]; simp [grp, lamp]
  ownLamps := fun _ k => by cases k

/-- A state in which group records alone differ, each as `GroupFollows` allows and none by its state. -/
theorem Follows.of_groups {s : State} (f : Group → GroupRec)
    (h : ∀ g, GroupFollows (jnow s) (compensationCap s.cs.image g) (grp s g) (f g))
    (hs : ∀ g, (f g).state = (grp s g).state)
    (hm : fbsActs s = false → ∀ g, (grp s g).maxedOut = true → (f g).maxedOut = true) :
    Follows noGroup s (setGroups s f) where
  clock := by simp
  igm := by simp
  du := by simp
  clp := by simp
  cs := by simp
  fbsDue := by simp
  freeIndex := by simp
  pending := by simp
  sel := by simp
  target := fun _ => by simp
  fbs := by simp
  pu := by simp
  entries := by simp
  lou := by simp
  mfs := by simp
  events := ⟨0, by decide, by simp⟩
  attn := .inl (by simp)
  groups := fun g => by simpa using h g
  flags := fun n g k => by simpa using hm n g k
  lamps := fun ch _ => by simp [hs]
  ownLamps := fun _ k => by cases k

/-- R64. -/
theorem evalReached_follows (s : State) : Follows noGroup s (evalReached s) := by
  unfold evalReached
  split
  · exact (Follows.of_sel (t := { s with sel := { s.sel with reported := true } }) rfl rfl (fun _ => rfl)).trans
      (post_follows .stageReached _ (by decide))
  · exact .refl s

/-- R18, by the sequencer. -/
theorem clearMaxedOut_follows (s : State) (h : fbsActs s = true) : Follows noGroup s (clearMaxedOut s) :=
  .of_groups _ (fun _ => .kept rfl (fun h => by cases h)) (fun _ => rfl) (fun n => by rw [h] at n; cases n)

/-- R58, R62: the target as written with every maxed-out flag clear, and what a setting brings. -/
theorem setTarget_follows_written (w : GroupSet) (s : State) :
    Follows noGroup (clearMaxedOut { s with sel := { s.sel with
      target := w, generation := s.sel.generation + 1, reported := false } }) (setTarget w s) :=
  evalReached_follows _

theorem setTarget_follows (w : GroupSet) (s : State) (h : fbsActs s = true) : Follows noGroup s (setTarget w s) :=
  ((Follows.of_sel (t := { s with sel := { s.sel with
      target := w, generation := s.sel.generation + 1, reported := false } }) rfl rfl
    (fun n => by rw [h] at n; cases n)).trans (clearMaxedOut_follows _ h)).trans (setTarget_follows_written w s)

theorem fbsStop_follows (s : State) : Follows noGroup s (fbsStop s) := .of_fbs rfl rfl (.inr rfl)

/-- R68. -/
theorem takeover_follows (s : State) (h : fbsActs s = true) : Follows noGroup s (takeover s) :=
  (Follows.of_fbs (t := { s with fbs := { s.fbs with current := takeoverStage s } }) rfl rfl (.inl h)).trans
    (setTarget_follows _ _ h)

/-- R72, R73. -/
theorem evalStage_follows (s : State) : Follows noGroup s (evalStage s) := by
  unfold evalStage
  split
  · rename_i ha
    split
    · split
      · split
        · rename_i k _
          exact (Follows.of_fbs (t := { s with fbs := { s.fbs with current := some k } }) rfl rfl (.inl ha)).trans
            (setTarget_follows _ _ ha)
        · exact .refl s
      · exact .refl s
    · exact .refl s
  · exact .refl s

/-! ## The priority unit -/

@[simp] theorem waitFor_core (r : WaitReason) (e : Entry) : (waitFor r e).core = e.core := rfl
@[simp] theorem noted_core (e : Entry) : (noted e).core = e.core := rfl
@[simp] theorem released_core (e : Entry) : (released e).core = e.core := rfl
@[simp] theorem recalled_core (s : State) (t : Group) (e : Entry) : (recalled s t e).core = e.core := rfl

theorem firstPassEntry_core (s : State) (leave : Bool) (i : Option Time) (e : Entry) :
    (firstPassEntry s leave i e).1.core = e.core := by
  unfold firstPassEntry
  repeat' split
  all_goals rfl

theorem firstPass_core (s : State) (leave : Bool) (i : Option Time) (l : List Entry) :
    (firstPass s leave i l).1.map Entry.core = l.map Entry.core := by
  induction l generalizing i with
  | nil => rfl
  | cons e es ih => simp [firstPass, firstPassEntry_core, ih]

theorem secondPassEntry_core (s : State) (i : Option Time) (taken : List Group) (e : Entry) :
    (secondPassEntry s i taken e).1.core = e.core := by
  unfold secondPassEntry
  repeat' split
  all_goals rfl

theorem secondPass_core (s : State) (i : Option Time) (taken : List Group) (l : List Entry) :
    (secondPass s i taken l).map Entry.core = l.map Entry.core := by
  induction l generalizing taken with
  | nil => rfl
  | cons e es ih => simp [secondPass, secondPassEntry_core, ih]

/-- A state in which the list, the overlay and the recall inhibit alone differ, no entry having joined or left. -/
theorem Follows.of_pu {s t : State} (h : t = { s with pu := t.pu })
    (hp : t.pu = { s.pu with list := t.pu.list, overlay := t.pu.overlay, inhibitUntil := t.pu.inhibitUntil })
    (hl : t.pu.list.map Entry.core = s.pu.list.map Entry.core) : Follows noGroup s t where
  clock := by rw [h]
  igm := by rw [h]
  du := by rw [h]
  clp := by rw [h]
  cs := by rw [h]
  fbsDue := by rw [h]
  freeIndex := by rw [h]
  pending := by rw [h]
  sel := by rw [h]
  target := fun _ => by rw [h]; simp
  fbs := by rw [h]
  pu := hp
  entries := hl
  lou := by rw [h]
  mfs := by rw [h]
  events := ⟨0, by decide, by rw [h]; simp⟩
  attn := .inl (by rw [h])
  groups := fun _ => .of_eq (by rw [h]; rfl)
  flags := fun _ _ k => by rw [h]; exact k
  lamps := fun _ _ => by rw [h]; simp [grp, lamp]
  ownLamps := fun _ k => by cases k

/-- R125. -/
theorem reformOverlay_follows (s : State) : Follows noGroup s (reformOverlay s) :=
  .of_pu (by simp only [reformOverlay]) (by simp only [reformOverlay]) (by simp only [reformOverlay])

/-- R126. -/
theorem walkWith_follows (leave : Bool) (s : State) : Follows noGroup s (walkWith leave s) := by
  unfold walkWith
  refine Follows.trans ?_ (postIf_follows _ _ _ (by decide))
  exact .of_pu rfl rfl (by
    show (secondPass _ _ _ _).map Entry.core = _
    rw [secondPass_core, firstPass_core])

theorem walk_follows (s : State) : Follows noGroup s (walk s) := walkWith_follows false s

/-- R132. -/
theorem recallIntoService_follows (t : Group) (s : State) : Follows noGroup s (recallIntoService t s) := by
  unfold recallIntoService
  refine Follows.trans ?_ (postIf_follows _ _ _ (by decide))
  refine .of_pu rfl rfl ?_
  show (s.pu.list.map (intoService s t)).map Entry.core = _
  rw [List.map_map]
  refine List.map_congr_left fun e _ => ?_
  simp only [Function.comp, intoService]
  split <;> rfl

/-- R125, R126, R132. -/
theorem puOnChange_follows (s : State) (g : Group) : Follows noGroup s (puOnChange s g) := by
  have h1 : Follows noGroup s (if (grp s g).state = .proceedMin then recallIntoService g s else s) := by
    split
    · exact recallIntoService_follows g s
    · exact .refl s
  have h2 (u : State) : Follows noGroup u
      (if u.pu.list.any (fun e => entryGroup u e == some g) then walk u
        else if u.pu.list.any (actsOn u .recalling fun t => conflicts u t g) then reformOverlay u else u) := by
    split
    · exact walk_follows u
    · split
      · exact reformOverlay_follows u
      · exact .refl u
  exact h1.trans (h2 _)

theorem foldl_puOnChange_follows (gs : List Group) (s : State) : Follows noGroup s (gs.foldl puOnChange s) := by
  induction gs generalizing s with
  | nil => exact .refl s
  | cons g gs ih => exact (puOnChange_follows s g).trans (ih _)

/-! ## Terminations -/

/-- R14: the engine's evaluation terminates a group or leaves it. -/
theorem afterEvaluation_follows (s : State) (g : Group) :
    GroupFollows (jnow s) (compensationCap s.cs.image g) (grp s g) (afterEvaluation s g) := by
  unfold afterEvaluation
  split
  · rename_i c hc
    have he : (grp s g).state = .proceedExt := by
      by_contra hn
      simp [terminationCause, hn] at hc
    refine .ended c (compensationFor s g) he rfl ?_ ?_
    · rfl
    · intro h
      simpa [terminated] using h
  · exact .refl _ _ _

theorem afterEvaluation_state (s : State) (g : Group) :
    (terminationCause s g).isSome = true ∧ (afterEvaluation s g).state = .clearance ∧ (grp s g).state = .proceedExt ∨
      (terminationCause s g).isSome = false ∧ afterEvaluation s g = grp s g := by
  unfold afterEvaluation
  cases hc : terminationCause s g with
  | none => right; simp
  | some c =>
    left
    refine ⟨rfl, rfl, ?_⟩
    by_contra hn
    simp [terminationCause, hn] at hc

theorem mem_terminating (s : State) (g : Group) : g ∈ terminating s ↔ (terminationCause s g).isSome = true := by
  simp [terminating, allGroups]

/-- R13, R14, R148: a round's terminations with the lamps of the groups that terminate. -/
theorem endProceeds_follows (s : State) :
    Follows noGroup s (lampsFollow (terminating s).contains (endProceeds s)) where
  clock := by simp [lampsFollow, endProceeds]
  igm := by simp [lampsFollow, endProceeds]
  du := by simp [lampsFollow, endProceeds]
  clp := by simp [lampsFollow, endProceeds]
  cs := by simp [lampsFollow, endProceeds]
  fbsDue := by simp [lampsFollow, endProceeds]
  freeIndex := by simp [lampsFollow, endProceeds]
  pending := by simp [lampsFollow, endProceeds]
  sel := by simp [lampsFollow, endProceeds]
  target := fun _ => by simp [lampsFollow, endProceeds]
  fbs := by simp [lampsFollow, endProceeds]
  pu := by simp [lampsFollow, endProceeds]
  entries := by simp [lampsFollow, endProceeds]
  lou := by simp only [lampsFollow, setLamps, endProceeds, postIf_lou, setGroups_lou]
  mfs := by
    simp only [lampsFollow, endProceeds, setLamps_mfs]
    rw [(postIf_follows _ _ _ (by decide)).mfs, setGroups_mfs]
  events := by
    simp only [lampsFollow, endProceeds, setLamps_mfs]
    obtain ⟨w, hw, h⟩ := (postIf_follows (allGroups.any fun g => decide (terminationCause s g = some .max))
      .groupMaxedOut (setGroups s (afterEvaluation s)) (by decide)).events
    exact ⟨w, hw, by rw [h, setGroups_mfs]⟩
  attn := by
    simp only [lampsFollow, endProceeds, setLamps_mfs]
    have h := (postIf_follows (allGroups.any fun g => decide (terminationCause s g = some .max))
      .groupMaxedOut (setGroups s (afterEvaluation s)) (by decide)).attn
    rwa [setGroups_mfs] at h
  groups := fun g => by
    simpa [lampsFollow, endProceeds] using afterEvaluation_follows s g
  flags := fun _ g h => by
    have : grp (lampsFollow (terminating s).contains (endProceeds s)) g = afterEvaluation s g := by
      simp [lampsFollow, endProceeds]
    rw [this]
    unfold afterEvaluation
    split
    · simp [terminated, h]
    · exact h
  lamps := fun ch _ => by
    have hg : grp (lampsFollow (terminating s).contains (endProceeds s)) (lampGroup ch) =
        afterEvaluation s (lampGroup ch) := by simp [lampsFollow, endProceeds]
    rw [hg, derivedCommand_lampsFollow]
    simp only [lampsFollow, lamp_setLamps, List.contains_iff_mem, mem_terminating]
    rcases afterEvaluation_state s (lampGroup ch) with ⟨h1, h2, h3⟩ | ⟨h1, h2⟩
    · rw [if_pos h1, if_neg (by rw [h2, h3]; decide)]
      simp [endProceeds]
    · rw [if_neg (by rw [h1]; decide), h2, if_pos rfl]
      simp [endProceeds]
  ownLamps := fun _ k => by cases k

theorem engineRound_follows (s : State) : Follows noGroup s (engineRound s) :=
  (endProceeds_follows s).trans (foldl_puOnChange_follows _ _)

theorem settleRounds_follows (n : Nat) (sel fbs : Bool) (s : State) :
    Follows noGroup s (settleRounds n sel fbs s) := by
  induction n generalizing sel fbs s with
  | zero => exact .refl s
  | succ n ih =>
    have h1 : Follows noGroup s (if sel then evalReached s else s) := by
      split
      · exact evalReached_follows s
      · exact .refl s
    unfold settleRounds
    split
    · dsimp only
      split
      · exact (h1.trans (evalStage_follows _)).trans (ih _ _ _)
      · exact h1
    · exact (engineRound_follows s).trans (ih _ _ _)

theorem settle_follows (s : State) : Follows noGroup s (settle s) := settleRounds_follows _ _ _ s

/-- R13, R64, R72. -/
theorem react_follows (s : State) : Follows noGroup s (react s) := settleRounds_follows _ _ _ s

theorem settleSince_follows (before s : State) : Follows noGroup s (settleSince before s) :=
  settleRounds_follows _ _ _ s

theorem settleStage_follows (s : State) : Follows noGroup s (settleStage s) :=
  (evalStage_follows s).trans (settleRounds_follows _ _ _ _)

/-- R125. -/
theorem overlayArrival_follows (before s : State) : Follows noGroup s (overlayArrival before s) := by
  unfold overlayArrival
  split
  · exact .refl s
  · exact settleSince_follows before s

theorem walkArrival_follows (before s : State) : Follows noGroup s (walkArrival before s) :=
  (walk_follows s).trans (overlayArrival_follows before _)

/-! ## Demand, moves and selector changes -/

/-- R22: which groups a posting reaches. -/
def postReaches (fromLoop : Bool) (gs : List Group) (s : State) (g : Group) : Bool :=
  gs.contains g && decide (groupKind s.cs.image g ≠ .none) &&
    !(fromLoop && decide (groupKind s.cs.image g = .walk))

/-- R22: the demand posted, and what follows. -/
theorem postDemand_follows (fromLoop : Bool) (gs : List Group) (s : State) :
    Follows noGroup (setGroups s fun g =>
      if postReaches fromLoop gs s g then { grp s g with demand := true } else grp s g) (postDemand fromLoop gs s) :=
  react_follows _

theorem recommand_command (now : Time) (c : LampCommand) (r : LampRec) : (recommand now c r).command = c := by
  unfold recommand
  split
  · assumption
  · rfl

theorem recommand_shape (now : Time) (c : LampCommand) (r : LampRec) :
    recommand now c r =
      { r with command := c, output := (recommand now c r).output, settling := (recommand now c r).settling } := by
  unfold recommand
  split
  · rename_i h; rw [← h]
  · rfl

/-- R148: the lamps of some groups follow. -/
theorem lampsFollow_follows (p : Group → Bool) (s : State) : Follows p s (lampsFollow p s) where
  clock := by simp [lampsFollow]
  igm := by simp [lampsFollow]
  du := by simp [lampsFollow]
  clp := by simp [lampsFollow]
  cs := by simp [lampsFollow]
  fbsDue := by simp [lampsFollow]
  freeIndex := by simp [lampsFollow]
  pending := by simp [lampsFollow]
  sel := by simp [lampsFollow]
  target := fun _ => by simp [lampsFollow]
  fbs := by simp [lampsFollow]
  pu := by simp [lampsFollow]
  entries := by simp [lampsFollow]
  lou := by simp only [lampsFollow, setLamps]
  mfs := by simp [lampsFollow]
  events := ⟨0, by decide, by simp [lampsFollow]⟩
  attn := .inl (by simp [lampsFollow])
  groups := fun _ => .of_eq (by simp [lampsFollow])
  flags := fun _ _ h => by simpa [lampsFollow] using h
  lamps := fun ch h => by simp [lampsFollow, h]
  ownLamps := fun ch h => by
    rw [derivedCommand_lampsFollow]
    simp only [lampsFollow, lamp_setLamps, h, if_true]
    exact recommand_shape _ _ _

/-- R7: a group's move, handed on. -/
theorem groupMoved_follows (g : Group) (s : State) : Follows (· == g) s (groupMoved g s) :=
  ((lampsFollow_follows _ s).trans (puOnChange_follows _ g)).trans (react_follows _)

/-- R48: the record that a selector change writes, with its event. -/
def ownerWritten (o : Owner) (r : Rank) (s : State) : State :=
  post .selectorChanged { s with sel := { s.sel with
    owner := o
    rank := r
    lastChange := if s.sel.owner = o then s.sel.lastChange else jnow s } }

/-- R48: a selector change, and what follows it. -/
theorem changeOwner_follows (o : Owner) (r : Rank) (s : State) (h : ¬(s.sel.owner = o ∧ s.sel.rank = r)) :
    Follows noGroup (ownerWritten o r s) (changeOwner o r s) := by
  have h2 (u : State) : Follows noGroup u
      (if fbsActs u then (if fbsActs s then u else takeover u) else fbsStop u) := by
    split
    · rename_i ha
      split
      · exact .refl u
      · exact takeover_follows u ha
    · exact fbsStop_follows u
  unfold changeOwner
  rw [if_neg h]
  exact ((walk_follows _).trans (h2 _)).trans (settleSince_follows s _)

theorem changeOwner_same (o : Owner) (r : Rank) (s : State) (h : s.sel.owner = o ∧ s.sel.rank = r) :
    changeOwner o r s = s := if_pos h

end Sys2Proof.Machine
end

