-- ==== Sys2Proof/Laws/Requests.lean ====
section
/-! SUPPORT. The small laws of items by number, of requests and of replies. -/

namespace Sys2Proof.Machine

@[simp] theorem item?_number {n : Nat} (i : Fin n) : item? n (number i) = some i := by
  unfold item? number
  rw [dif_pos (by omega)]
  simp

theorem item?_eq_some {n k : Nat} (i : Fin n) (h : k = number i) : item? n k = some i := by rw [h, item?_number]

theorem item?_eq_none {n k : Nat} (h : k = 0 ∨ n < k) : item? n k = none := by
  unfold item?
  rw [dif_neg (by omega)]

theorem number_of_item? {n k : Nat} {i : Fin n} (h : item? n k = some i) : k = number i := by
  unfold item? at h
  split at h
  · simp only [Option.some.injEq] at h
    rw [← h]
    simp only [number]
    omega
  · cases h

@[simp] theorem withItem_number {n : Nat} (i : Fin n) (f : Fin n → State → State) (s : State) :
    withItem (number i) f s = f i s := by simp [withItem]

/-- What a command about an item does, it does for a number that names none as well, where nothing changes. -/
theorem withItem_cases {n : Nat} (k : Nat) (f : Fin n → State → State) (s : State) (P : State → Prop)
    (h : P s) (hf : ∀ i, P (f i s)) : P (withItem k f s) := by
  unfold withItem
  split
  · exact hf _
  · exact h

theorem asked_number (k : RequestKind) (i : Station) (f : Station → State → State) (s : State)
    (hf : inFlight s = false) (ha : k.allows i = true) : asked k (number i) f s = f i s := by
  simp [asked, hf, ha]

theorem asked_refused (k : RequestKind) (i : Station) (f : Station → State → State) (s : State)
    (hf : inFlight s = false) (ha : k.allows i = false) : asked k (number i) f s = answer k .refusedRole [] s := by
  simp [asked, hf, ha]

theorem asked_inFlight (k : RequestKind) (n : Nat) (f : Station → State → State) (s : State)
    (hf : inFlight s = true) : asked k n f s = s := by
  unfold asked
  split
  · rfl
  · simp [hf]

/-- A request has no effect, is refused by the role check, or is taken by its block with no other in flight. -/
theorem asked_cases (k : RequestKind) (n : Nat) (f : Station → State → State) (s : State) (P : State → Prop)
    (h0 : P s) (h1 : inFlight s = false → P (answer k .refusedRole [] s))
    (h2 : ∀ i, inFlight s = false → k.allows i = true → P (f i s)) : P (asked k n f s) := by
  unfold asked
  split
  · exact h0
  · split
    · exact h0
    · rename_i hf
      have hf : inFlight s = false := by simpa using hf
      split
      · rename_i ha; exact h2 _ hf ha
      · exact h1 hf

theorem answer_eq (k : RequestKind) (v : Verdict) (l : List Byte) (s : State) :
    answer k v l s = { s with clp := answered k v l s.clp } := rfl

theorem await_eq (s : State) : await s = { s with clp := awaiting s.clp } := rfl

end Sys2Proof.Machine
end

