-- ==== Sys2Proof/Laws/Parts.lean ====
section
/-! SUPPORT. The small laws of the operations that change one part of the state: what each leaves as it was, and what
it writes. -/

namespace Sys2Proof.Machine

/-! ### setMode -/

@[simp] theorem setMode_sge (m : Mode) (sub : Option SubPhase) (goal : Option Goal) (s : State) : (setMode m sub goal s).sge = s.sge := by simp only [setMode, post]
@[simp] theorem setMode_igm (m : Mode) (sub : Option SubPhase) (goal : Option Goal) (s : State) : (setMode m sub goal s).igm = s.igm := by simp only [setMode, post]
@[simp] theorem setMode_sel (m : Mode) (sub : Option SubPhase) (goal : Option Goal) (s : State) : (setMode m sub goal s).sel = s.sel := by simp only [setMode, post]
@[simp] theorem setMode_fbs (m : Mode) (sub : Option SubPhase) (goal : Option Goal) (s : State) : (setMode m sub goal s).fbs = s.fbs := by simp only [setMode, post]
@[simp] theorem setMode_du (m : Mode) (sub : Option SubPhase) (goal : Option Goal) (s : State) : (setMode m sub goal s).du = s.du := by simp only [setMode, post]
@[simp] theorem setMode_pu (m : Mode) (sub : Option SubPhase) (goal : Option Goal) (s : State) : (setMode m sub goal s).pu = s.pu := by simp only [setMode, post]
@[simp] theorem setMode_lou (m : Mode) (sub : Option SubPhase) (goal : Option Goal) (s : State) : (setMode m sub goal s).lou = s.lou := by simp only [setMode, post]
@[simp] theorem setMode_clp (m : Mode) (sub : Option SubPhase) (goal : Option Goal) (s : State) : (setMode m sub goal s).clp = s.clp := by simp only [setMode, post]
@[simp] theorem setMode_cs (m : Mode) (sub : Option SubPhase) (goal : Option Goal) (s : State) : (setMode m sub goal s).cs = s.cs := by simp only [setMode, post]
@[simp] theorem setMode_fbsDue (m : Mode) (sub : Option SubPhase) (goal : Option Goal) (s : State) : (setMode m sub goal s).fbsDue = s.fbsDue := by simp only [setMode, post]
@[simp] theorem setMode_freeIndex (m : Mode) (sub : Option SubPhase) (goal : Option Goal) (s : State) : (setMode m sub goal s).freeIndex = s.freeIndex := by simp only [setMode, post]
@[simp] theorem setMode_pending (m : Mode) (sub : Option SubPhase) (goal : Option Goal) (s : State) : (setMode m sub goal s).pending = s.pending := by simp only [setMode, post]

/-! ### fbsStop -/

@[simp] theorem fbsStop_sge (s : State) : (fbsStop s).sge = s.sge := by simp only [fbsStop]
@[simp] theorem fbsStop_igm (s : State) : (fbsStop s).igm = s.igm := by simp only [fbsStop]
@[simp] theorem fbsStop_sel (s : State) : (fbsStop s).sel = s.sel := by simp only [fbsStop]
@[simp] theorem fbsStop_du (s : State) : (fbsStop s).du = s.du := by simp only [fbsStop]
@[simp] theorem fbsStop_pu (s : State) : (fbsStop s).pu = s.pu := by simp only [fbsStop]
@[simp] theorem fbsStop_lou (s : State) : (fbsStop s).lou = s.lou := by simp only [fbsStop]
@[simp] theorem fbsStop_mfs (s : State) : (fbsStop s).mfs = s.mfs := by simp only [fbsStop]
@[simp] theorem fbsStop_clp (s : State) : (fbsStop s).clp = s.clp := by simp only [fbsStop]
@[simp] theorem fbsStop_cs (s : State) : (fbsStop s).cs = s.cs := by simp only [fbsStop]
@[simp] theorem fbsStop_fbsDue (s : State) : (fbsStop s).fbsDue = s.fbsDue := by simp only [fbsStop]
@[simp] theorem fbsStop_freeIndex (s : State) : (fbsStop s).freeIndex = s.freeIndex := by simp only [fbsStop]
@[simp] theorem fbsStop_pending (s : State) : (fbsStop s).pending = s.pending := by simp only [fbsStop]

/-! ### flush -/

@[simp] theorem flush_sge (s : State) : (flush s).sge = s.sge := by unfold flush postRemoved; dsimp only; split <;> simp only [post]
@[simp] theorem flush_igm (s : State) : (flush s).igm = s.igm := by unfold flush postRemoved; dsimp only; split <;> simp only [post]
@[simp] theorem flush_sel (s : State) : (flush s).sel = s.sel := by unfold flush postRemoved; dsimp only; split <;> simp only [post]
@[simp] theorem flush_fbs (s : State) : (flush s).fbs = s.fbs := by unfold flush postRemoved; dsimp only; split <;> simp only [post]
@[simp] theorem flush_du (s : State) : (flush s).du = s.du := by unfold flush postRemoved; dsimp only; split <;> simp only [post]
@[simp] theorem flush_lou (s : State) : (flush s).lou = s.lou := by unfold flush postRemoved; dsimp only; split <;> simp only [post]
@[simp] theorem flush_clp (s : State) : (flush s).clp = s.clp := by unfold flush postRemoved; dsimp only; split <;> simp only [post]
@[simp] theorem flush_cs (s : State) : (flush s).cs = s.cs := by unfold flush postRemoved; dsimp only; split <;> simp only [post]
@[simp] theorem flush_fbsDue (s : State) : (flush s).fbsDue = s.fbsDue := by unfold flush postRemoved; dsimp only; split <;> simp only [post]
@[simp] theorem flush_freeIndex (s : State) : (flush s).freeIndex = s.freeIndex := by unfold flush postRemoved; dsimp only; split <;> simp only [post]
@[simp] theorem flush_pending (s : State) : (flush s).pending = s.pending := by unfold flush postRemoved; dsimp only; split <;> simp only [post]

/-! ### lampsFollow -/

@[simp] theorem lampsFollow_sge (p : Group → Bool) (s : State) : (lampsFollow p s).sge = s.sge := by simp only [lampsFollow, setLamps]
@[simp] theorem lampsFollow_igm (p : Group → Bool) (s : State) : (lampsFollow p s).igm = s.igm := by simp only [lampsFollow, setLamps]
@[simp] theorem lampsFollow_sel (p : Group → Bool) (s : State) : (lampsFollow p s).sel = s.sel := by simp only [lampsFollow, setLamps]
@[simp] theorem lampsFollow_fbs (p : Group → Bool) (s : State) : (lampsFollow p s).fbs = s.fbs := by simp only [lampsFollow, setLamps]
@[simp] theorem lampsFollow_du (p : Group → Bool) (s : State) : (lampsFollow p s).du = s.du := by simp only [lampsFollow, setLamps]
@[simp] theorem lampsFollow_pu (p : Group → Bool) (s : State) : (lampsFollow p s).pu = s.pu := by simp only [lampsFollow, setLamps]
@[simp] theorem lampsFollow_mfs (p : Group → Bool) (s : State) : (lampsFollow p s).mfs = s.mfs := by simp only [lampsFollow, setLamps]
@[simp] theorem lampsFollow_clp (p : Group → Bool) (s : State) : (lampsFollow p s).clp = s.clp := by simp only [lampsFollow, setLamps]
@[simp] theorem lampsFollow_cs (p : Group → Bool) (s : State) : (lampsFollow p s).cs = s.cs := by simp only [lampsFollow, setLamps]
@[simp] theorem lampsFollow_fbsDue (p : Group → Bool) (s : State) : (lampsFollow p s).fbsDue = s.fbsDue := by simp only [lampsFollow, setLamps]
@[simp] theorem lampsFollow_freeIndex (p : Group → Bool) (s : State) : (lampsFollow p s).freeIndex = s.freeIndex := by simp only [lampsFollow, setLamps]
@[simp] theorem lampsFollow_pending (p : Group → Bool) (s : State) : (lampsFollow p s).pending = s.pending := by simp only [lampsFollow, setLamps]

/-! ### recomputeInhibits -/

@[simp] theorem recomputeInhibits_igm (s : State) : (recomputeInhibits s).igm = s.igm := by simp only [recomputeInhibits, setGroups]
@[simp] theorem recomputeInhibits_sel (s : State) : (recomputeInhibits s).sel = s.sel := by simp only [recomputeInhibits, setGroups]
@[simp] theorem recomputeInhibits_fbs (s : State) : (recomputeInhibits s).fbs = s.fbs := by simp only [recomputeInhibits, setGroups]
@[simp] theorem recomputeInhibits_du (s : State) : (recomputeInhibits s).du = s.du := by simp only [recomputeInhibits, setGroups]
@[simp] theorem recomputeInhibits_pu (s : State) : (recomputeInhibits s).pu = s.pu := by simp only [recomputeInhibits, setGroups]
@[simp] theorem recomputeInhibits_lou (s : State) : (recomputeInhibits s).lou = s.lou := by simp only [recomputeInhibits, setGroups]
@[simp] theorem recomputeInhibits_mfs (s : State) : (recomputeInhibits s).mfs = s.mfs := by simp only [recomputeInhibits, setGroups]
@[simp] theorem recomputeInhibits_clp (s : State) : (recomputeInhibits s).clp = s.clp := by simp only [recomputeInhibits, setGroups]
@[simp] theorem recomputeInhibits_cs (s : State) : (recomputeInhibits s).cs = s.cs := by simp only [recomputeInhibits, setGroups]
@[simp] theorem recomputeInhibits_fbsDue (s : State) : (recomputeInhibits s).fbsDue = s.fbsDue := by simp only [recomputeInhibits, setGroups]
@[simp] theorem recomputeInhibits_freeIndex (s : State) : (recomputeInhibits s).freeIndex = s.freeIndex := by simp only [recomputeInhibits, setGroups]
@[simp] theorem recomputeInhibits_pending (s : State) : (recomputeInhibits s).pending = s.pending := by simp only [recomputeInhibits, setGroups]

/-! ### driveFlt -/

@[simp] theorem driveFlt_sge (s : State) : (driveFlt s).sge = s.sge := by simp only [driveFlt]
@[simp] theorem driveFlt_igm (s : State) : (driveFlt s).igm = s.igm := by simp only [driveFlt]
@[simp] theorem driveFlt_sel (s : State) : (driveFlt s).sel = s.sel := by simp only [driveFlt]
@[simp] theorem driveFlt_fbs (s : State) : (driveFlt s).fbs = s.fbs := by simp only [driveFlt]
@[simp] theorem driveFlt_du (s : State) : (driveFlt s).du = s.du := by simp only [driveFlt]
@[simp] theorem driveFlt_pu (s : State) : (driveFlt s).pu = s.pu := by simp only [driveFlt]
@[simp] theorem driveFlt_lou (s : State) : (driveFlt s).lou = s.lou := by simp only [driveFlt]
@[simp] theorem driveFlt_clp (s : State) : (driveFlt s).clp = s.clp := by simp only [driveFlt]
@[simp] theorem driveFlt_cs (s : State) : (driveFlt s).cs = s.cs := by simp only [driveFlt]
@[simp] theorem driveFlt_fbsDue (s : State) : (driveFlt s).fbsDue = s.fbsDue := by simp only [driveFlt]
@[simp] theorem driveFlt_freeIndex (s : State) : (driveFlt s).freeIndex = s.freeIndex := by simp only [driveFlt]
@[simp] theorem driveFlt_pending (s : State) : (driveFlt s).pending = s.pending := by simp only [driveFlt]

/-! ### liftLocks -/

@[simp] theorem liftLocks_sge (s : State) : (liftLocks s).sge = s.sge := by simp only [liftLocks, setLamps]
@[simp] theorem liftLocks_igm (s : State) : (liftLocks s).igm = s.igm := by simp only [liftLocks, setLamps]
@[simp] theorem liftLocks_sel (s : State) : (liftLocks s).sel = s.sel := by simp only [liftLocks, setLamps]
@[simp] theorem liftLocks_fbs (s : State) : (liftLocks s).fbs = s.fbs := by simp only [liftLocks, setLamps]
@[simp] theorem liftLocks_du (s : State) : (liftLocks s).du = s.du := by simp only [liftLocks, setLamps]
@[simp] theorem liftLocks_pu (s : State) : (liftLocks s).pu = s.pu := by simp only [liftLocks, setLamps]
@[simp] theorem liftLocks_mfs (s : State) : (liftLocks s).mfs = s.mfs := by simp only [liftLocks, setLamps]
@[simp] theorem liftLocks_clp (s : State) : (liftLocks s).clp = s.clp := by simp only [liftLocks, setLamps]
@[simp] theorem liftLocks_cs (s : State) : (liftLocks s).cs = s.cs := by simp only [liftLocks, setLamps]
@[simp] theorem liftLocks_fbsDue (s : State) : (liftLocks s).fbsDue = s.fbsDue := by simp only [liftLocks, setLamps]
@[simp] theorem liftLocks_freeIndex (s : State) : (liftLocks s).freeIndex = s.freeIndex := by simp only [liftLocks, setLamps]
@[simp] theorem liftLocks_pending (s : State) : (liftLocks s).pending = s.pending := by simp only [liftLocks, setLamps]

/-! ### clearMaxedOut -/

@[simp] theorem clearMaxedOut_igm (s : State) : (clearMaxedOut s).igm = s.igm := by simp only [clearMaxedOut, setGroups]
@[simp] theorem clearMaxedOut_sel (s : State) : (clearMaxedOut s).sel = s.sel := by simp only [clearMaxedOut, setGroups]
@[simp] theorem clearMaxedOut_fbs (s : State) : (clearMaxedOut s).fbs = s.fbs := by simp only [clearMaxedOut, setGroups]
@[simp] theorem clearMaxedOut_du (s : State) : (clearMaxedOut s).du = s.du := by simp only [clearMaxedOut, setGroups]
@[simp] theorem clearMaxedOut_pu (s : State) : (clearMaxedOut s).pu = s.pu := by simp only [clearMaxedOut, setGroups]
@[simp] theorem clearMaxedOut_lou (s : State) : (clearMaxedOut s).lou = s.lou := by simp only [clearMaxedOut, setGroups]
@[simp] theorem clearMaxedOut_mfs (s : State) : (clearMaxedOut s).mfs = s.mfs := by simp only [clearMaxedOut, setGroups]
@[simp] theorem clearMaxedOut_clp (s : State) : (clearMaxedOut s).clp = s.clp := by simp only [clearMaxedOut, setGroups]
@[simp] theorem clearMaxedOut_cs (s : State) : (clearMaxedOut s).cs = s.cs := by simp only [clearMaxedOut, setGroups]
@[simp] theorem clearMaxedOut_fbsDue (s : State) : (clearMaxedOut s).fbsDue = s.fbsDue := by simp only [clearMaxedOut, setGroups]
@[simp] theorem clearMaxedOut_freeIndex (s : State) : (clearMaxedOut s).freeIndex = s.freeIndex := by simp only [clearMaxedOut, setGroups]
@[simp] theorem clearMaxedOut_pending (s : State) : (clearMaxedOut s).pending = s.pending := by simp only [clearMaxedOut, setGroups]

/-! ## What they write -/

theorem setMode_mfs (m : Mode) (sub : Option SubPhase) (goal : Option Goal) (s : State) :
    (setMode m sub goal s).mfs = updateAttn { s.mfs with
      mode := m, sub := sub, goal := goal, phaseStart := jnow s,
      pending := s.mfs.pending.map fun p => p ||| 1#11 } := by
  unfold setMode post Event.code
  rfl

theorem fbsStop_fbs (s : State) : (fbsStop s).fbs = { s.fbs with current := none } := rfl

theorem flush_pu (s : State) : (flush s).pu =
    { s.pu with list := [], overlay := Vector.replicate 24 Overlay.clear, inhibitUntil := none } := by
  unfold flush postRemoved
  dsimp only
  split <;> simp only [post]

theorem flush_mfs (s : State) : (flush s).mfs =
    if s.pu.list = [] then s.mfs
    else updateAttn { s.mfs with lastRemoval := some .flushed
                                 pending := s.mfs.pending.map fun p => p ||| 0x20#11 } := by
  unfold flush postRemoved
  dsimp only
  split
  · rfl
  · unfold post Event.code
    rfl

@[simp] theorem grp_lampsFollow (p : Group → Bool) (s : State) (g : Group) : grp (lampsFollow p s) g = grp s g := by
  simp only [grp, lampsFollow_sge]

theorem lamp_lampsFollow (p : Group → Bool) (s : State) (ch : Lamp) : lamp (lampsFollow p s) ch =
    if p (lampGroup ch) then recommand (jnow s) (derivedCommand s ch) (lamp s ch) else lamp s ch := by
  simp only [lampsFollow, lamp_setLamps]

theorem lampsFollow_lou (p : Group → Bool) (s : State) :
    (lampsFollow p s).lou = { s.lou with channels := (lampsFollow p s).lou.channels } := by
  simp only [lampsFollow, setLamps]

@[simp] theorem updateAttn_pending (m : Mfs) : (updateAttn m).pending = m.pending := rfl
@[simp] theorem updateAttn_masks (m : Mfs) : (updateAttn m).masks = m.masks := rfl
@[simp] theorem updateAttn_mode (m : Mfs) : (updateAttn m).mode = m.mode := rfl
@[simp] theorem updateAttn_sub (m : Mfs) : (updateAttn m).sub = m.sub := rfl

/-- R181: after `updateAttn` ATTN follows the pending set of station 1. -/
theorem updateAttn_attn (m : Mfs) : (updateAttn m).attnLow = unmaskedSummary (updateAttn m) 0 := by
  unfold updateAttn unmaskedSummary
  rfl

end Sys2Proof.Machine
end

