-- ==== Sys2Proof/Laws/Shuts.lean ====
section
/-! SUPPORT. Detections, red-outs and recoveries: each operation of Machine/Supervisor.lean that a fault brings keeps
to `Shuts`. -/

namespace Sys2Proof.Machine

/-! ## The relation -/

theorem GroupShuts.refl (now : Time) (a : GroupRec) : GroupShuts now a a where
  underWay := fun _ => rfl
  clearance := .inl
  stopped := fun h => ⟨h, rfl, rfl, rfl, rfl, rfl⟩
  entered := .inl ⟨rfl, rfl, rfl⟩
  demand := rfl
  proceedStart := rfl
  bonus := rfl

theorem GroupShuts.trans {now : Time} {a b c : GroupRec} (h : GroupShuts now a b) (k : GroupShuts now b c) :
    GroupShuts now a c where
  underWay := fun u => by
    have e := k.underWay u
    rw [e] at u
    rw [e, h.underWay u]
  clearance := fun e => by
    rcases k.clearance e with f | f
    · exact h.clearance f
    · right; rw [← h.underWay (by rw [f]; rfl), f]
  stopped := fun e => by
    obtain ⟨h1, h2, h3, h4, h5, h6⟩ := h.stopped e
    obtain ⟨k1, k2, k3, k4, k5, k6⟩ := k.stopped h1
    exact ⟨k1, k2.trans h2, k3.trans h3, k4.trans h4, k5.trans h5, k6.trans h6⟩
  entered := by
    rcases h.entered with ⟨h1, h2, h3⟩ | ⟨h1, h2, h3⟩
    · rcases k.entered with ⟨k1, k2, k3⟩ | ⟨k1, k2, k3⟩
      · exact .inl ⟨k1.trans h1, k2.trans h2, k3.trans h3⟩
      · exact .inr ⟨by rw [← h1]; exact k1, k2, k3⟩
    · rcases k.entered with ⟨k1, k2, k3⟩ | ⟨k1, k2, k3⟩
      · exact .inr ⟨by rw [k1]; exact h1, k2.trans h2, by rw [k1, k3]; exact h3⟩
      · refine .inr ⟨fun e => ?_, k2, k3⟩
        rcases h3 with h3 | ⟨h3, _⟩
        · rcases k3 with k3 | ⟨k3, _⟩
          · exact k1 (k3.trans h3.symm)
          · exact h1 ((h.stopped (e.symm.trans k3)).1.trans (e.symm.trans k3).symm)
        · exact k1 ((k.stopped h3).1.trans h3.symm)
  demand := k.demand.trans h.demand
  proceedStart := k.proceedStart.trans h.proceedStart
  bonus := k.bonus.trans h.bonus

theorem GroupFollows.shuts {now : Time} {cap : Nat} {a b : GroupRec} (h : GroupFollows now cap a b) :
    GroupShuts now a b := by
  cases h with
  | kept same cleared =>
    rw [same]
    exact ⟨fun _ => rfl, .inl, fun e => ⟨e, rfl, rfl, rfl, rfl, rfl⟩, .inl ⟨rfl, rfl, rfl⟩, rfl, rfl, rfl⟩
  | ended c n ext record credit max =>
    rw [record]
    exact ⟨fun u => (by cases u), fun _ => .inr ext, fun e => (by rw [ext] at e; cases e),
      .inr ⟨by rw [ext]; simp, rfl, .inl rfl⟩, rfl, rfl, rfl⟩

@[simp] theorem LampRec.core_core (r : LampRec) : r.core.core = r.core := rfl

@[simp] theorem recommand_core (now : Time) (c : LampCommand) (r : LampRec) :
    (recommand now c r).core = r.core := by
  unfold recommand
  split <;> rfl

theorem resting_not_faultEnters (g : Goal) : g.mode.faultEnters = false := by cases g <;> rfl

namespace Shuts

theorem now {s t : State} (h : Shuts s t) : jnow t = jnow s := h.clock

theorem refl (s : State) : Shuts s s where
  clock := rfl
  igm := rfl
  du := rfl
  clp := rfl
  cs := rfl
  fbsDue := rfl
  freeIndex := rfl
  pending := rfl
  sel := rfl
  fbs := rfl
  pu := rfl
  entries := .inl rfl
  lou := rfl
  lamps := fun _ => rfl
  pin := rfl
  masks := rfl
  mode := .inl ⟨rfl, rfl, rfl, rfl⟩
  latched := fun _ h => h
  events := fun _ => by simp
  attn := .inl ⟨rfl, rfl⟩
  driven := id
  groups := fun _ => .refl _ _
  credits := id
  commands := id

theorem trans {s t u : State} (h : Shuts s t) (k : Shuts t u) : Shuts s u where
  clock := k.clock.trans h.clock
  igm := k.igm.trans h.igm
  du := k.du.trans h.du
  clp := k.clp.trans h.clp
  cs := k.cs.trans h.cs
  fbsDue := k.fbsDue.trans h.fbsDue
  freeIndex := k.freeIndex.trans h.freeIndex
  pending := k.pending.trans h.pending
  sel := by rw [k.sel, h.sel]
  fbs := k.fbs.trans h.fbs
  pu := by rw [k.pu, h.pu]
  entries := by
    rcases k.entries with e | e
    · rcases h.entries with f | f
      · exact .inl (e.trans f)
      · rw [f] at e; exact .inr (by simpa using e)
    · exact .inr e
  lou := by rw [k.lou, h.lou]
  lamps := fun ch => (k.lamps ch).trans (h.lamps ch)
  pin := k.pin.trans h.pin
  masks := k.masks.trans h.masks
  mode := by
    rcases h.mode with ⟨h1, h2, h3, h4⟩ | ⟨h1, h2, h3, h4, h5, h6, h7⟩
    · rcases k.mode with ⟨k1, k2, k3, k4⟩ | ⟨k1, k2, k3, k4, k5, k6, k7⟩
      · exact .inl ⟨k1.trans h1, k2.trans h2, k3.trans h3, k4.trans h4⟩
      · exact .inr ⟨by rw [← h1]; exact k1, by rw [k2, h.cs], k3, k4, k5, k6, k7⟩
    · rcases k.mode with ⟨k1, k2, k3, k4⟩ | ⟨k1, _⟩
      · refine .inr ⟨h1, k1.trans h2, k2.trans h3, k3.trans h4, k.driven h5, ?_, fun g => ?_⟩
        · rcases k.entries with e | e
          · rw [h6] at e; simpa using e
          · exact e
        · exact ((k.groups g).stopped (h7 g)).1
      · rw [h2, resting_not_faultEnters] at k1; cases k1
  latched := fun i e => k.latched i (h.latched i e)
  events := fun i => by
    have h1 := h.events i
    have k1 := k.events i
    ext j hj
    have h2 := congrArg (BitVec.getLsbD · j) h1
    have k2 := congrArg (BitVec.getLsbD · j) k1
    simp [hj] at h2 k2 ⊢
    exact fun a => k2 (h2 a)
  attn := by
    rcases k.attn with ⟨e1, e2⟩ | a
    · rcases h.attn with ⟨f1, f2⟩ | b
      · exact .inl ⟨e1.trans f1, e2.trans f2⟩
      · right
        rw [e2, b]
        unfold unmaskedSummary
        rw [e1, k.masks]
    · exact .inr a
  driven := fun e => k.driven (h.driven e)
  groups := fun g => by
    have kg := k.groups g
    rw [h.now] at kg
    exact (h.groups g).trans kg
  credits := fun e => k.credits (h.credits e)
  commands := fun e => k.commands (h.commands e)

end Shuts

/-- A union of sets loses nothing. -/
theorem or_keeps {w : Nat} (a b : BitVec w) : a &&& ~~~(a ||| b) = 0 := by
  ext j hj
  simp only [BitVec.getElem_and, BitVec.getElem_not, BitVec.getElem_or]
  cases a[j] <;> simp

theorem Follows.shuts {s t : State} (h : Follows noGroup s t) : Shuts s t where
  clock := h.clock
  igm := h.igm
  du := h.du
  clp := h.clp
  cs := h.cs
  fbsDue := h.fbsDue
  freeIndex := h.freeIndex
  pending := h.pending
  sel := h.sel
  fbs := by rw [h.fbs]
  pu := h.pu
  entries := .inl h.entries
  lou := by rw [h.lou]
  lamps := fun ch => by
    rw [h.lamps ch rfl]
    split
    · rfl
    · exact recommand_core _ _ _
  pin := by rw [h.mfs]
  masks := by rw [h.mfs]
  mode := .inl ⟨by rw [h.mfs], by rw [h.mfs], by rw [h.mfs], by rw [h.mfs]⟩
  latched := fun k e => by rw [h.mfs]; exact e
  events := fun i => by
    obtain ⟨w, -, e⟩ := h.events
    rw [e]
    simp only [Fin.getElem_fin, Vector.getElem_map]
    exact or_keeps _ _
  attn := h.attn.imp_left fun e => by rw [e]; exact ⟨rfl, rfl⟩
  driven := fun e => by rw [h.mfs]; exact e
  groups := fun g => (h.groups g).shuts
  credits := fun e g => by
    have hb := h.groups g
    rw [h.cs]
    cases hb with
    | kept same _ => rw [same]; exact e g
    | ended c n ext record credit _ =>
      rw [credit]
      split
      · exact Nat.min_le_right _ _
      · exact e g
  commands := fun hc ch => by
    rw [h.lamps ch rfl]
    split
    · rename_i e
      rw [hc ch, derivedCommand_congr h.mode h.sub h.cs e]
    · exact recommand_command _ _ _

/-! ## Detections -/

theorem post_shuts (e : Event) (s : State) : Shuts s (post e s) :=
  { Shuts.refl s with
    clock := by simp
    igm := by simp
    du := by simp
    clp := by simp
    cs := by simp
    fbsDue := by simp
    freeIndex := by simp
    pending := by simp
    sel := by simp
    fbs := by simp
    pu := by simp
    entries := .inl (by simp)
    lou := by simp
    lamps := fun ch => by simp
    pin := by simp
    masks := by simp
    mode := .inl (by simp)
    latched := fun k h => by simpa using h
    events := fun i => by
      rw [post_adds_kind]
      simp only [Fin.getElem_fin, Vector.getElem_map]
      exact or_keeps _ _
    attn := .inr (post_attn s e)
    driven := fun h => by simpa using h
    groups := fun g => by simpa using GroupShuts.refl _ _
    credits := fun h g => by simpa using h g
    commands := fun h ch => by simpa using h ch }

theorem postIf_shuts (b : Bool) (e : Event) (s : State) : Shuts s (postIf b e s) := by
  cases b
  · exact .refl s
  · exact post_shuts e s

/-- A state in which the supervisor's fault records and FLT drive alone differ, no flag having cleared. -/
theorem Shuts.of_mfs {s t : State} (h : t = { s with mfs := t.mfs })
    (hm : t.mfs = { s.mfs with faults := t.mfs.faults, fltDriven := t.mfs.fltDriven, externalRun := t.mfs.externalRun })
    (hl : ∀ k : Fin 12, (s.mfs.faults[k]).latched = true → (t.mfs.faults[k]).latched = true)
    (hd : s.mfs.fltDriven = true → t.mfs.fltDriven = true) : Shuts s t where
  clock := by rw [h]
  igm := by rw [h]
  du := by rw [h]
  clp := by rw [h]
  cs := by rw [h]
  fbsDue := by rw [h]
  freeIndex := by rw [h]
  pending := by rw [h]
  sel := by rw [h]
  fbs := by rw [h]
  pu := by rw [h]
  entries := .inl (by rw [h])
  lou := by rw [h]
  lamps := fun _ => by rw [h]; rfl
  pin := by rw [hm]
  masks := by rw [hm]
  mode := .inl ⟨by rw [hm], by rw [hm], by rw [hm], by rw [hm]⟩
  latched := hl
  events := fun _ => by rw [hm]; simp
  attn := .inl ⟨by rw [hm], by rw [hm]⟩
  driven := hd
  groups := fun g => by rw [h]; exact GroupShuts.refl _ _
  credits := fun e g => by rw [h]; exact e g
  commands := fun e ch => by
    have hg : ∀ g, grp t g = grp s g := fun g => by rw [h]; rfl
    rw [show lamp t ch = lamp s ch by rw [h]; rfl, e ch]
    exact (derivedCommand_congr (by rw [hm]) (by rw [hm]) (by rw [h]) (by rw [hg])).symm

theorem setFault_shuts (k : Fin 12) (r : FaultRec) (s : State)
    (h : (s.mfs.faults[k]).latched = true → r.latched = true) : Shuts s (setFault s k r) :=
  .of_mfs rfl rfl (fun l e => by
    rw [faults_setFault]
    split
    · rename_i hk; exact h (by rw [hk]; exact e)
    · exact e) id

/-- R174, less the action of a critical kind. -/
theorem latch_shuts (k : FaultKind) (d : BitVec 72) (s : State) : Shuts s (latch k d s) :=
  (setFault_shuts _ _ _ (fun _ => rfl)).trans (postIf_shuts _ _ _)

theorem driveFlt_shuts (s : State) : Shuts s (driveFlt s) := .of_mfs rfl rfl (fun _ => id) (fun _ => rfl)

theorem stoppedByFault_shuts (now : Time) (r : GroupRec) : GroupShuts now r (stoppedByFault now r) := by
  unfold stoppedByFault
  split
  · exact .refl now r
  · rename_i h
    exact ⟨fun u => (by cases u), fun c => (by cases c), fun e => absurd e h,
      .inr ⟨fun e => h e.symm, rfl, .inr ⟨rfl, rfl⟩⟩, rfl, rfl, rfl⟩

theorem stoppedByFault_state (now : Time) (r : GroupRec) : (stoppedByFault now r).state = .stop := by
  unfold stoppedByFault
  split
  · assumption
  · rfl

/-! ## Entry to FLASH or DARK -/

theorem enterResting_spec (g : Goal) (s : State) : EntersResting g s (enterResting g s) := by
  have hm : (enterResting g s).mfs = (flush (setMode g.mode none none s)).mfs := by
    unfold enterResting; simp
  have hp : (setMode g.mode none none s).pu = s.pu := by simp
  rw [flush_mfs, hp, setMode_mfs] at hm
  have hd (ch : Lamp) : derivedCommand (enterResting g s) ch =
      derivedCommand (fbsStop (flush (setMode g.mode none none s))) ch := derivedCommand_lampsFollow _ _ ch
  have hc : (enterResting g s).lou.channels = (enterResting g s).lou.channels := rfl
  refine { sge := ?_, igm := ?_, sel := ?_, fbs := ?_, du := ?_, pu := ?_, lou := ?_, clp := ?_, cs := ?_,
           fbsDue := ?_, freeIndex := ?_, pending := ?_, mfs := ?_, lastRemoval := ?_, attn := ?_, events := ?_,
           lamps := fun ch => ?_ }
  · simp [enterResting]
  · simp [enterResting]
  · simp [enterResting]
  · simp [enterResting, fbsStop_fbs]
  · simp [enterResting]
  · simp [enterResting, flush_pu]
  · unfold enterResting
    rw [lampsFollow_lou]
    simp
  · simp [enterResting]
  · simp [enterResting]
  · simp [enterResting]
  · simp [enterResting]
  · simp [enterResting]
  · rw [hm]
    split <;> rfl
  · rw [hm]
    split <;> rfl
  · rw [hm]
    split <;> exact updateAttn_attn _
  · rw [hm]
    split
    · simp
    · simp only [updateAttn_pending]
      ext i hi : 1
      simp only [Vector.getElem_map, BitVec.or_assoc]
  · rw [hd]
    unfold enterResting
    rw [lamp_lampsFollow, if_pos rfl]
    simp only [jnow, fbsStop_sge, flush_sge, setMode_sge, lamp, fbsStop_lou, flush_lou, setMode_lou]

/-- R148: a state in which every channel has just been commanded anew shows the derived commands. -/
theorem EntersResting.commanded {g : Goal} {s t : State} (h : EntersResting g s t) (ch : Lamp) :
    (lamp t ch).command = derivedCommand t ch := by
  rw [h.lamps]
  exact recommand_command _ _ _

/-- R176, R27: fault entry, from a mode that has one and with FLT driven. -/
theorem faultEntry_shuts (s : State) (hm : s.mfs.mode.faultEnters = true) (hd : s.mfs.fltDriven = true) :
    Shuts s (faultEntry s) := by
  have h := enterResting_spec (faultAspect s.cs.image) (setGroups s fun g => stoppedByFault (jnow s) (grp s g))
  have hg (g : Group) : grp (faultEntry s) g = stoppedByFault (jnow s) (grp s g) := by
    have : (faultEntry s).sge = _ := h.sge
    unfold grp
    rw [this]
    exact grp_setGroups s _ g
  exact {
    clock := by rw [faultEntry, h.sge]; simp
    igm := h.igm.trans (by simp)
    du := h.du.trans (by simp)
    clp := h.clp.trans (by simp)
    cs := h.cs.trans (by simp)
    fbsDue := h.fbsDue.trans (by simp)
    freeIndex := h.freeIndex.trans (by simp)
    pending := h.pending.trans (by simp)
    sel := by rw [faultEntry, h.sel]; simp
    fbs := by rw [faultEntry, h.fbs]; simp
    pu := by rw [faultEntry, h.pu]; simp
    entries := .inr (by rw [faultEntry, h.pu])
    lou := by rw [faultEntry, h.lou]; simp
    lamps := fun ch => by rw [faultEntry, h.lamps, recommand_core]; simp
    pin := by rw [faultEntry, h.mfs]; simp
    masks := by rw [faultEntry, h.mfs]; simp
    mode := .inr ⟨hm, by rw [faultEntry, h.mfs], by rw [faultEntry, h.mfs], by rw [faultEntry, h.mfs],
      by rw [faultEntry, h.mfs]; simpa using hd, by rw [faultEntry, h.pu],
      fun g => by rw [hg]; exact stoppedByFault_state _ _⟩
    latched := fun k e => by rw [faultEntry, h.mfs]; simpa using e
    events := fun i => by
      have e : (faultEntry s).mfs.pending = _ := h.events
      rw [e]
      simp only [Fin.getElem_fin, Vector.getElem_map, setGroups_mfs]
      exact or_keeps _ _
    attn := .inr h.attn
    driven := fun _ => by rw [faultEntry, h.mfs]; simpa using hd
    groups := fun g => by rw [hg]; exact stoppedByFault_shuts _ _
    credits := fun e g => by
      rw [hg, show (faultEntry s).cs = s.cs from h.cs.trans (by simp)]
      refine le_trans (le_of_eq ?_) (e g)
      unfold stoppedByFault
      split <;> rfl
    commands := fun _ ch => h.commanded ch }

/-- R174, R175: one detection. -/
theorem detect_shuts (k : FaultKind) (d : BitVec 72) (s : State) : Shuts s (detect k d s) := by
  have h1 := latch_shuts k d s
  unfold detect
  dsimp only
  split
  · have h2 := h1.trans (driveFlt_shuts (latch k d s))
    split
    · rename_i hf
      exact h2.trans (faultEntry_shuts _ hf rfl)
    · exact h2
  · exact h1

/-! ## Red-out -/

/-- R23: the inhibits computed again. -/
theorem recomputeInhibits_shuts (s : State) : Shuts s (recomputeInhibits s) where
  clock := by simp [recomputeInhibits]
  igm := by simp
  du := by simp
  clp := by simp
  cs := by simp
  fbsDue := by simp
  freeIndex := by simp
  pending := by simp
  sel := by simp
  fbs := by simp
  pu := by simp
  entries := .inl (by simp)
  lou := by simp
  lamps := fun ch => by simp [recomputeInhibits]
  pin := by simp
  masks := by simp
  mode := .inl (by simp)
  latched := fun k e => by simpa using e
  events := fun i => by simp
  attn := .inl (by simp)
  driven := fun e => by simpa using e
  groups := fun g => by
    simp only [recomputeInhibits, grp_setGroups]
    exact ⟨fun _ => rfl, .inl, fun e => ⟨e, rfl, rfl, rfl, rfl, rfl⟩, .inl ⟨rfl, rfl, rfl⟩, rfl, rfl, rfl⟩
  credits := fun e g => by simpa [recomputeInhibits] using e g
  commands := fun e ch => by
    have hg : (grp (recomputeInhibits s) (lampGroup ch)).state = (grp s (lampGroup ch)).state := by
      simp [recomputeInhibits]
    rw [show lamp (recomputeInhibits s) ch = lamp s ch by simp [recomputeInhibits], e ch]
    exact (derivedCommand_congr (by simp) (by simp) (by simp) hg).symm

theorem reportRedOut_shuts (s : State) : Shuts s (reportRedOut s) :=
  (recomputeInhibits_shuts s).trans (settleSince_follows _ _).shuts

theorem raiseMultiple_shuts (s : State) : Shuts s (raiseMultiple s) := by
  unfold raiseMultiple
  split
  · exact detect_shuts _ _ _
  · exact .refl s

/-- A state in which lamp records differ in their consecutive-lit counters alone, and the red-out set differs. -/
theorem Shuts.of_lou {s t : State} (h : t = { s with lou := t.lou })
    (hl : t.lou = { s.lou with channels := t.lou.channels, redOut := t.lou.redOut })
    (hc : ∀ ch, (lamp t ch).core = (lamp s ch).core) (hk : ∀ ch, (lamp t ch).command = (lamp s ch).command) :
    Shuts s t where
  clock := by rw [h]
  igm := by rw [h]
  du := by rw [h]
  clp := by rw [h]
  cs := by rw [h]
  fbsDue := by rw [h]
  freeIndex := by rw [h]
  pending := by rw [h]
  sel := by rw [h]
  fbs := by rw [h]
  pu := by rw [h]
  entries := .inl (by rw [h])
  lou := hl
  lamps := hc
  pin := by rw [h]
  masks := by rw [h]
  mode := .inl ⟨by rw [h], by rw [h], by rw [h], by rw [h]⟩
  latched := fun k e => by rw [h]; exact e
  events := fun _ => by rw [h]; simp
  attn := .inl ⟨by rw [h], by rw [h]⟩
  driven := fun e => by rw [h]; exact e
  groups := fun g => by rw [h]; exact GroupShuts.refl _ _
  credits := fun e g => by rw [h]; exact e g
  commands := fun e ch => by
    rw [hk, e ch]
    exact (derivedCommand_congr (by rw [h]) (by rw [h]) (by rw [h]) (by rw [h]; rfl)).symm

theorem setLamp_shuts (ch : Lamp) (r : LampRec) (s : State) (hc : r.core = (lamp s ch).core)
    (hk : r.command = (lamp s ch).command) : Shuts s (setLamp s ch r) :=
  .of_lou rfl rfl
    (fun c => by
      rw [lamp_setLamp]
      split
      · rename_i e; rw [← e]; exact hc
      · rfl)
    (fun c => by
      rw [lamp_setLamp]
      split
      · rename_i e; rw [← e]; exact hk
      · rfl)

/-- R158. -/
theorem becomeRedOut_shuts (g : Group) (s : State) : Shuts s (becomeRedOut g s) := by
  unfold becomeRedOut
  split
  · exact .refl s
  · dsimp only
    refine Shuts.trans ?_ (raiseMultiple_shuts _)
    refine Shuts.trans ?_ (reportRedOut_shuts _)
    refine Shuts.trans ?_ (detect_shuts _ _ _)
    refine Shuts.trans (setLamp_shuts (stopLamp g) { lamp s (stopLamp g) with litCount := 0 } s rfl rfl) ?_
    exact .of_lou rfl rfl (fun _ => rfl) (fun _ => rfl)

theorem leaveRedOut_shuts (g : Group) (s : State) : Shuts s (leaveRedOut g s) := by
  unfold leaveRedOut
  split
  · refine Shuts.trans ?_ (reportRedOut_shuts _)
    exact .of_lou rfl rfl (fun _ => rfl) (fun _ => rfl)
  · exact .refl s

theorem foldl_shuts {α : Type} (f : State → α → State) (h : ∀ s a, Shuts s (f s a)) (l : List α) (s : State) :
    Shuts s (l.foldl f s) := by
  induction l generalizing s with
  | nil => exact .refl s
  | cons a l ih => exact (h s a).trans (ih _)

/-- R153, R158, R160: what one channel's evaluation brings. -/
theorem handOn_shuts (ch : Lamp) (e : Evaluated) (s : State) : Shuts s (handOn ch e s) := by
  have h1 (u : State) : Shuts u (match e.raised with
      | some m => raiseMismatch ch m u
      | none => u) := by
    split
    · unfold raiseMismatch
      repeat' split
      all_goals exact detect_shuts _ _ _
    · exact .refl u
  have h2 (b : Bool) (u : State) : Shuts u (if b then becomeRedOut (lampGroup ch) u else u) := by
    split
    · exact becomeRedOut_shuts _ _
    · exact .refl u
  have h3 (b : Bool) (u : State) : Shuts u (if b then leaveRedOut (lampGroup ch) u else u) := by
    split
    · exact leaveRedOut_shuts _ _
    · exact .refl u
  exact ((h1 s).trans (h2 _ _)).trans (h3 _ _)

theorem raiseConflict_shuts (p : Group × Group) (s : State) : Shuts s (raiseConflict p s) := detect_shuts _ _ _

end Sys2Proof.Machine
end

