-- ==== Sys2Proof/Laws/Keeps.lean ====
section
/-! SUPPORT. The laws of Safety.lean across one operation: `Keeps s t` says that `t` meets each that `s` meets. What
follows inside an arrival keeps them all. -/

namespace Sys2Proof.Machine

/-- Every law but those of the lamp commands and of the modes that `s` meets, `t` meets. -/
structure Keeps (s t : State) : Prop where
  pending : t.pending = s.pending
  image : imageWf s.cs.image = true → imageWf t.cs.image = true
  attn : AttnLaw s → AttnLaw t
  list : ListLaw s.pu.list → ListLaw t.pu.list
  rank : imageWf s.cs.image = true → RankLaw s → RankLaw t
  credit : imageWf s.cs.image = true → CreditLaw s → CreditLaw t
  detector : DetectorLaw s → DetectorLaw t

namespace Keeps

theorem refl (s : State) : Keeps s s := ⟨rfl, id, id, id, fun _ => id, fun _ => id, id⟩

theorem trans {s t u : State} (h : Keeps s t) (k : Keeps t u) : Keeps s u where
  pending := k.pending.trans h.pending
  image x := k.image (h.image x)
  attn x := k.attn (h.attn x)
  list x := k.list (h.list x)
  rank i x := k.rank (h.image i) (h.rank i x)
  credit i x := k.credit (h.image i) (h.credit i x)
  detector x := k.detector (h.detector x)

/-- A state that agrees in all that the laws read. -/
theorem of_parts {s t : State} (pending : t.pending = s.pending) (cs : t.cs.image = s.cs.image)
    (mfs : t.mfs.pending = s.mfs.pending ∧ t.mfs.masks = s.mfs.masks ∧ t.mfs.attnLow = s.mfs.attnLow)
    (list : t.pu.list = s.pu.list) (sel : t.sel.owner = s.sel.owner ∧ t.sel.rank = s.sel.rank)
    (credit : ∀ g, (grp t g).credit = (grp s g).credit) (du : t.du.channels = s.du.channels) : Keeps s t where
  pending := pending
  image := by rw [cs]; exact id
  attn := by
    unfold AttnLaw unmaskedSummary
    rw [mfs.1, mfs.2.1, mfs.2.2]
    exact id
  list := by rw [list]; exact id
  rank _ := by
    unfold RankLaw
    rw [sel.1, sel.2, cs]
    exact id
  credit _ h g := by rw [credit, cs]; exact h g
  detector h ch := by
    have := h ch
    unfold det at this ⊢
    rw [du]
    exact this

end Keeps

/-! ## The list law reads the cores alone -/

theorem ListLaw.of_core {l k : List Entry} (h : k.map Entry.core = l.map Entry.core) (hl : ListLaw l) :
    ListLaw k := by
  have pull {α : Type} (f : Entry → α) (hf : ∀ e, f e.core = f e) : k.map f = l.map f := by
    have : (k.map Entry.core).map f = (l.map Entry.core).map f := by rw [h]
    simpa [List.map_map, Function.comp_def, hf] using this
  refine ⟨?_, ?_, ?_, ?_⟩
  · have := congrArg List.length h
    simp only [List.length_map] at this
    rw [this]
    exact hl.length
  · rw [pull Entry.number (fun _ => rfl)]
    exact hl.numbers
  · have hp := hl.idents
    have e := pull (fun e => (e.ident, e.approach)) (fun _ => rfl)
    have up (l : List Entry) : (l.Pairwise fun a b => a.ident.isSome = true → ¬(a.ident = b.ident ∧ a.approach = b.approach)) ↔
        (l.map fun e => (e.ident, e.approach)).Pairwise fun a b => a.1.isSome = true → ¬(a.1 = b.1 ∧ a.2 = b.2) := by
      rw [List.pairwise_map]
    rw [up] at hp ⊢
    rw [e]
    exact hp
  · intro e he
    have hm : e.core ∈ l.map Entry.core := by rw [← h]; exact List.mem_map_of_mem he
    obtain ⟨x, hx, hc⟩ := List.mem_map.1 hm
    have hf := hl.figures x hx
    have e1 : x.eta = e.eta := (congrArg Entry.eta hc : x.core.eta = e.core.eta)
    have e2 : x.ci = e.ci := (congrArg Entry.ci hc : x.core.ci = e.core.ci)
    have e3 : x.ea = e.ea := (congrArg Entry.ea hc : x.core.ea = e.core.ea)
    have e4 : x.la = e.la := (congrArg Entry.la hc : x.core.la = e.core.la)
    rw [e1, e2, e3, e4] at hf
    exact hf

theorem ListLaw.nil : ListLaw [] := ⟨by simp, by simp, by simp, by simp⟩

/-- Entries may leave. -/
theorem ListLaw.sublist {l k : List Entry} (h : k.Sublist l) (hl : ListLaw l) : ListLaw k where
  length := Nat.le_trans h.length_le hl.length
  numbers := hl.numbers.sublist (h.map _)
  idents := hl.idents.sublist h
  figures e he := hl.figures e (h.subset he)

/-! ## What follows keeps the laws -/

theorem Follows.keeps {own : Group → Bool} {s t : State} (h : Follows own s t) : Keeps s t where
  pending := h.pending
  image := by rw [h.cs]; exact id
  attn x := by
    rcases h.attn with e | e
    · unfold AttnLaw at x ⊢; rw [e]; exact x
    · exact e
  list := ListLaw.of_core h.entries
  rank _ := by
    unfold RankLaw
    rw [h.sel, h.cs]
    exact id
  credit _ x g := by
    have hg := x g
    rw [h.cs]
    cases h.groups g with
    | kept same _ => rw [same]; exact hg
    | ended c n ext record credit max =>
      rw [credit]
      split
      · exact Nat.min_le_right _ _
      · exact hg
  detector := by unfold DetectorLaw det; rw [h.du]; exact id

theorem Shuts.keeps {s t : State} (h : Shuts s t) : Keeps s t where
  pending := h.pending
  image := by rw [h.cs]; exact id
  attn x := by
    rcases h.attn with ⟨e1, e2⟩ | e
    · unfold AttnLaw unmaskedSummary at x ⊢; rw [e1, e2, h.masks]; exact x
    · exact e
  list x := by
    rcases h.entries with e | e
    · exact x.of_core e
    · rw [e]; exact .nil
  rank _ := by
    unfold RankLaw
    rw [h.sel, h.cs]
    exact id
  credit _ := h.credits
  detector := by unfold DetectorLaw det; rw [h.du]; exact id

theorem EntersResting.keeps {g : Goal} {s t : State} (h : EntersResting g s t) : Keeps s t where
  pending := h.pending
  image := by rw [h.cs]; exact id
  attn _ := h.attn
  list _ := by rw [h.pu]; exact .nil
  rank _ := by unfold RankLaw; rw [h.sel, h.cs]; exact id
  credit _ := by unfold CreditLaw grp; rw [h.sge, h.cs]; exact id
  detector := by unfold DetectorLaw det; rw [h.du]; exact id

/-! ## The writers keep the laws -/

theorem setGrp_keeps (s : State) (g : Group) (r : GroupRec)
    (h : (grp s g).credit ≤ compensationCap s.cs.image g → r.credit ≤ compensationCap s.cs.image g) :
    Keeps s (setGrp s g r) :=
  { Keeps.refl s with
    credit := fun _ x k => by
      rw [grp_setGrp]
      split
      · rename_i e; rw [← e]; exact h (x g)
      · exact x k
    rank := fun _ => id }

theorem setGroups_keeps (s : State) (f : Group → GroupRec)
    (h : ∀ g, (grp s g).credit ≤ compensationCap s.cs.image g → (f g).credit ≤ compensationCap s.cs.image g) :
    Keeps s (setGroups s f) where
  pending := by simp only [setGroups]
  image := by simp only [setGroups]; exact id
  attn := by unfold AttnLaw; simp only [setGroups]; exact id
  list := by simp only [setGroups]; exact id
  rank _ := by unfold RankLaw; simp only [setGroups]; exact id
  credit _ x k := by rw [grp_setGroups, setGroups_cs]; exact h k (x k)
  detector := by unfold DetectorLaw; simp only [setGroups_det]; exact id

theorem setLamp_keeps (s : State) (ch : Lamp) (r : LampRec) : Keeps s (setLamp s ch r) :=
  .of_parts rfl rfl ⟨rfl, rfl, rfl⟩ rfl ⟨rfl, rfl⟩ (fun _ => rfl) rfl

theorem setLamps_keeps (s : State) (f : Lamp → LampRec) : Keeps s (setLamps s f) := by
  refine .of_parts ?_ ?_ ⟨?_, ?_, ?_⟩ ?_ ⟨?_, ?_⟩ (fun g => ?_) ?_ <;> simp only [setLamps, grp]

theorem setApr_keeps (s : State) (a : Approach) (r : ApproachRec) : Keeps s (setApr s a r) :=
  .of_parts rfl rfl ⟨rfl, rfl, rfl⟩ rfl ⟨rfl, rfl⟩ (fun _ => rfl) rfl

theorem setStation_keeps (s : State) (i : Station) (r : StationRec) : Keeps s (setStation s i r) :=
  .of_parts rfl rfl ⟨rfl, rfl, rfl⟩ rfl ⟨rfl, rfl⟩ (fun _ => rfl) rfl

theorem setDet_keeps (s : State) (ch : Channel) (r : DetRec) (h : ChannelLaw (det s ch) → ChannelLaw r) :
    Keeps s (setDet s ch r) :=
  { Keeps.refl s with
    detector := fun x c => by
      rw [det_setDet]
      split
      · exact h (x ch)
      · exact x c
    credit := fun _ => id
    rank := fun _ => id }

theorem post_keeps (e : Event) (s : State) : Keeps s (post e s) := (post_shuts e s).keeps

theorem postIf_keeps (b : Bool) (e : Event) (s : State) : Keeps s (postIf b e s) := (postIf_shuts b e s).keeps

theorem answer_keeps (k : RequestKind) (v : Verdict) (l : List Byte) (s : State) : Keeps s (answer k v l s) :=
  .of_parts rfl rfl ⟨rfl, rfl, rfl⟩ rfl ⟨rfl, rfl⟩ (fun _ => rfl) rfl

theorem foldl_keeps {α : Type} (f : State → α → State) (h : ∀ s a, Keeps s (f s a)) (l : List α) (s : State) :
    Keeps s (l.foldl f s) := by
  induction l generalizing s with
  | nil => exact .refl s
  | cons a l ih => exact (h s a).trans (ih _)

theorem setMode_keeps (m : Mode) (sub : Option SubPhase) (goal : Option Goal) (s : State) :
    Keeps s (setMode m sub goal s) := by
  unfold setMode
  refine Keeps.trans ?_ (post_keeps _ _)
  exact .of_parts rfl rfl ⟨rfl, rfl, rfl⟩ rfl ⟨rfl, rfl⟩ (fun _ => rfl) rfl

theorem postRemoved_keeps (c : RemovalCause) (s : State) : Keeps s (postRemoved c s) := by
  unfold postRemoved
  refine Keeps.trans ?_ (post_keeps _ _)
  exact .of_parts rfl rfl ⟨rfl, rfl, rfl⟩ rfl ⟨rfl, rfl⟩ (fun _ => rfl) rfl

/-- A state whose list alone of what the laws read differs, entries having left or changed their walk's fields. -/
theorem Keeps.of_list {s t : State} (h : t = { s with pu := t.pu }) (l : ListLaw s.pu.list → ListLaw t.pu.list) :
    Keeps s t where
  pending := by rw [h]
  image := by rw [h]; exact id
  attn := by rw [h]; exact id
  list := l
  rank _ := by rw [h]; exact id
  credit _ := by rw [h]; exact id
  detector := by rw [h]; exact id

theorem flush_keeps (s : State) : Keeps s (flush s) := by
  have h : Keeps s { s with pu := { s.pu with
      list := [], overlay := Vector.replicate 24 Overlay.clear, inhibitUntil := none } } :=
    .of_list rfl (fun _ => .nil)
  unfold flush
  dsimp only
  split
  · exact h
  · exact h.trans (postRemoved_keeps _ _)

theorem removeEntries_keeps (p : Entry → Bool) (c : RemovalCause) (s : State) : Keeps s (removeEntries p c s) := by
  unfold removeEntries
  refine Keeps.trans ?_ (postRemoved_keeps _ _)
  exact .of_list rfl (fun x => x.sublist List.filter_sublist)

theorem lampsFollow_keeps (p : Group → Bool) (s : State) : Keeps s (lampsFollow p s) := setLamps_keeps _ _

theorem detect_keeps (k : FaultKind) (d : BitVec 72) (s : State) : Keeps s (detect k d s) := (detect_shuts k d s).keeps

/-- R46, R48: a selector change to an owner at a rank within its station's authority. -/
theorem changeOwner_keeps (o : Owner) (r : Rank) (s : State)
    (h : match ownerStation o with
      | some i => authorityRank s.cs.image i ≤ r
      | none => r = 3) : Keeps s (changeOwner o r s) := by
  by_cases e : s.sel.owner = o ∧ s.sel.rank = r
  · rw [changeOwner_same o r s e]
    exact .refl s
  · refine Keeps.trans ?_ (changeOwner_follows o r s e).keeps
    unfold ownerWritten
    refine Keeps.trans ?_ (post_keeps _ _)
    exact { Keeps.refl s with rank := fun _ _ => h, credit := fun _ => id }

theorem defaultOwner_lawful (s : State) (l : Option Station) :
    match ownerStation (defaultOwner s l).1 with
      | some i => authorityRank s.cs.image i ≤ (defaultOwner s l).2
      | none => (defaultOwner s l).2 = 3 := by
  unfold defaultOwner
  by_cases h : (station s 0).silent = false ∧ l ≠ some 0
  · rw [if_pos h]
    exact Nat.le_refl _
  · rw [if_neg h]
    rfl

theorem passSelector_keeps (i : Station) (s : State) : Keeps s (passSelector i s) :=
  changeOwner_keeps _ _ s (defaultOwner_lawful s _)

end Sys2Proof.Machine
end

