-- ==== Sys2Proof/Laws/Settles.lean ====
section
/-! SUPPORT. What follows inside an arrival comes to an end: the rounds of `settle`, `react` and `settleSince` leave no
group in PROCEED_EXT for which a condition of R13 holds. -/

namespace Sys2Proof.Machine

/-- The number of groups in PROCEED_EXT. -/
def extCount (s : State) : Nat := allGroups.countP fun g => decide ((grp s g).state = .proceedExt)

/-- Some maxed-out flag is set, as a number. -/
def flagged (s : State) : Nat := if allGroups.any fun g => (grp s g).maxedOut then 1 else 0

theorem flagged_le (s : State) : flagged s ≤ 1 := by unfold flagged; split <;> omega

theorem extCount_le (s : State) : extCount s ≤ 24 := List.countP_le_length

theorem evalReached_sge (s : State) : (evalReached s).sge = s.sge := by
  unfold evalReached; split
  · simp only [post]
  · rfl

theorem terminating_evalReached (s : State) : terminating (evalReached s) = terminating s := by
  unfold terminating
  congr 1
  funext g
  unfold evalReached
  split <;> rfl

/-- The measure reads the group records alone. -/
theorem measure_congr {s t : State} (h : t.sge = s.sge) : extCount t = extCount s ∧ flagged t = flagged s := by
  unfold extCount flagged grp
  rw [h]
  exact ⟨rfl, rfl⟩

theorem setTarget_maxedOut (w : GroupSet) (s : State) (g : Group) :
    grp (setTarget w s) g = { grp s g with maxedOut := false } := by
  unfold setTarget
  simp only [grp, evalReached_sge]
  simp only [clearMaxedOut, setGroups]
  simp [grp]

/-- R72: the sequencer's evaluation moves no group; where it changes the flag of a member, it clears every maxed-out
flag. -/
theorem evalStage_measure (s : State) :
    extCount (evalStage s) = extCount s ∧ flagged (evalStage s) ≤ flagged s ∧
      (memberFlagChanged s (evalStage s) = true → flagged s = 1 ∧ flagged (evalStage s) = 0) := by
  have same : extCount s = extCount s ∧ flagged s ≤ flagged s ∧
      (memberFlagChanged s s = true → flagged s = 1 ∧ flagged s = 0) := by
    refine ⟨rfl, Nat.le_refl _, fun h => ?_⟩
    unfold memberFlagChanged at h
    split at h
    · simp at h
    · cases h
  unfold evalStage
  split
  · split
    · split
      · split
        · rename_i k _
          have hg (g : Group) : grp (setTarget s.sel.stages[k] { s with fbs := { s.fbs with current := some k } }) g =
              { grp s g with maxedOut := false } := setTarget_maxedOut _ _ g
          generalize ht : setTarget s.sel.stages[k] { s with fbs := { s.fbs with current := some k } } = t at hg
          have h0 : flagged t = 0 := by simp [flagged, hg]
          refine ⟨by simp only [extCount, hg], by omega, fun h => ⟨?_, h0⟩⟩
          have ho (g : Group) : ovl t g = ovl s g := by
            rw [← ht]
            unfold setTarget evalReached
            split <;> simp [clearMaxedOut, setGroups, ovl, post]
          unfold memberFlagChanged at h
          split at h
          · simp only [List.any_eq_true, hg, ho, bne_self_eq_false, Bool.false_or, Bool.and_eq_true] at h
            obtain ⟨g, hm, _, hx⟩ := h
            have : (grp s g).maxedOut = true := by simpa using hx
            unfold flagged
            rw [if_pos (List.any_eq_true.mpr ⟨g, hm, this⟩)]
          · cases h
        · exact same
      · exact same
    · exact same
  · exact same

/-- R13: a round of terminations takes at least one group out of PROCEED_EXT and none into it. -/
theorem engineRound_extCount (s : State) (h : terminating s ≠ []) : extCount (engineRound s) < extCount s := by
  have hf := engineRound_follows s
  obtain ⟨g, hg⟩ := List.exists_mem_of_ne_nil _ h
  rw [mem_terminating] at hg
  have h1 : (grp s g).state = .proceedExt := by
    rcases afterEvaluation_state s g with ⟨_, _, k⟩ | ⟨k, _⟩
    · exact k
    · rw [hg] at k; cases k
  have h2 : (grp (engineRound s) g).state ≠ .proceedExt := by
    have hp := (foldl_puOnChange_follows (terminating s) (lampsFollow (terminating s).contains (endProceeds s))).groups g
    have he : (grp (lampsFollow (terminating s).contains (endProceeds s)) g).state = .clearance := by
      rcases afterEvaluation_state s g with ⟨_, k, _⟩ | ⟨k, _⟩
      · simpa [lampsFollow, endProceeds] using k
      · rw [hg] at k; cases k
    change (grp (List.foldl puOnChange _ _) g).state ≠ _
    cases hp with
    | kept same _ => rw [same]; rw [he]; decide
    | ended _ _ ext _ _ _ => rw [he] at ext; cases ext
  have hs (c : Group) : (grp (engineRound s) c).state = .proceedExt → (grp s c).state = .proceedExt := by
    intro k
    cases hf.groups c with
    | kept same _ => rw [same] at k; exact k
    | ended _ _ ext _ _ _ => exact ext
  unfold extCount
  have key (l : List Group) (hl : g ∈ l) :
      l.countP (fun c => decide ((grp (engineRound s) c).state = .proceedExt)) <
        l.countP (fun c => decide ((grp s c).state = .proceedExt)) := by
    induction l with
    | nil => cases hl
    | cons c l ih =>
      have le : l.countP (fun c => decide ((grp (engineRound s) c).state = .proceedExt)) ≤
          l.countP (fun c => decide ((grp s c).state = .proceedExt)) :=
        List.countP_mono_left fun x _ k => by simpa using hs x (by simpa using k)
      simp only [List.countP_cons]
      rcases List.mem_cons.mp hl with rfl | hm
      · simp only [h1, h2, decide_true, decide_false, if_true]
        simp only [Bool.false_eq_true, if_false]
        omega
      · have := ih hm
        by_cases k : (grp (engineRound s) c).state = .proceedExt
        · simp only [k, hs c k, decide_true, if_true]; omega
        · simp only [k, decide_false]
          simp only [Bool.false_eq_true, if_false]
          omega
  exact key allGroups (by simp [allGroups])

theorem settleRounds_settles (n : Nat) (sel fbs : Bool) (s : State)
    (h : 3 * extCount s + flagged s + (if fbs then 1 else 0) < n) : terminating (settleRounds n sel fbs s) = [] := by
  induction n generalizing sel fbs s with
  | zero => omega
  | succ n ih =>
    unfold settleRounds
    split
    · rename_i h0
      have h1 : terminating (if sel then evalReached s else s) = [] := by
        split
        · rw [terminating_evalReached]; exact h0
        · exact h0
      have m : extCount (if sel then evalReached s else s) = extCount s ∧
          flagged (if sel then evalReached s else s) = flagged s := by
        split
        · exact measure_congr (evalReached_sge s)
        · exact ⟨rfl, rfl⟩
      generalize (if sel then evalReached s else s) = u at h1 m
      dsimp only
      split
      · rename_i hd
        subst hd
        have e := evalStage_measure u
        refine ih _ _ _ ?_
        cases hc : memberFlagChanged u (evalStage u) with
        | false => simp only [if_true, Bool.false_eq_true, if_false] at h ⊢; omega
        | true => have := e.2.2 hc; simp only [if_true] at h ⊢; omega
      · exact h1
    · rename_i h0
      have d := engineRound_extCount s h0
      have f := flagged_le (engineRound s)
      refine ih _ _ _ ?_
      simp only [if_true]
      split at h <;> omega

/-- R13: after an arrival that settles, no termination is left to take. -/
theorem settle_settles (s : State) : terminating (settle s) = [] :=
  settleRounds_settles 80 false false s (by have := extCount_le s; have := flagged_le s; split <;> omega)

theorem react_settles (s : State) : terminating (react s) = [] :=
  settleRounds_settles 80 true true s (by have := extCount_le s; have := flagged_le s; split <;> omega)

theorem settleSince_settles (before s : State) : terminating (settleSince before s) = [] :=
  settleRounds_settles 80 true _ s (by have := extCount_le s; have := flagged_le s; split <;> omega)

theorem settleStage_settles (s : State) : terminating (settleStage s) = [] :=
  settleRounds_settles 80 false _ _ (by
    have := extCount_le (evalStage s); have := flagged_le (evalStage s); split <;> omega)

end Sys2Proof.Machine
end

