-- ==== Sys2Proof/WellFormed.lean ====
section
/-! DEFINITION. Which commands name something that exists: item numbers, measured currents and sample counts
within the ranges the manual gives (00_scope "Numbering", R81, R147, R184). A command with an item number outside its
range is no event of the part, and the machine's meaning of it changes nothing. The other three are read as the machine
reads them (log entry 1): a list of currents that is short or too high (a missing one as 0, one above 4,000 as 4,000), a
period of 128,000 ticks or more (NO_OSC), and a WRITE_CONFIG record longer than a frame holds (BAD_LENGTH). -/

namespace Sys2Proof

/-- Item number `k` lies within 1 to `n`. -/
def numberOk (n k : Nat) : Bool := decide (1 ≤ k) && decide (k ≤ n)

/-- The command names items that exist and carries measured values that can be measured. -/
def Instr.wellFormed : Instr → Bool
  | .reset _ _ => true
  | .powerUpCheckCompletion => true
  | .junctionClockAdvance cs => decide (cs.length = 72) && cs.all (fun c => decide (c ≤ 4000))
  | .dimBoundary => true
  | .flashToggle => true
  | .groupStart g => numberOk 24 g
  | .prepareEnd g => numberOk 24 g
  | .minProceedEnd g => numberOk 24 g
  | .maxOut g => numberOk 24 g
  | .clearanceEnd g => numberOk 24 g
  | .holdEnd => true
  | .recallInhibitEnd => true
  | .expiry => true
  | .gapOut g => numberOk 24 g
  | .silenceExpiry n => numberOk 4 n
  | .suFlashEnd => true
  | .suAllredEnd => true
  | .clAllredEnd => true
  | .overcurrentTrip ch => numberOk 72 ch
  | .tripRetry ch => numberOk 72 ch
  | .tripCounterReset ch => numberOk 72 ch
  | .detectorClockAdvance _ => true
  | .externalFault => true
  | .loopSample ch p => numberOk 32 ch && p.all (fun t => decide (t < 128000))
  | .loopLongPresence ch => numberOk 32 ch
  | .contactSample ch _ => numberOk 32 ch
  | .contactLongPresence ch => numberOk 32 ch
  | .windowClose ch => numberOk 32 ch
  | .armingLapse => true
  | .frameReceived _ => true
  | .linkSilenceTimeout => true
  | .frameOverrun => true
  | .replySent => true
  | .readStatus n => numberOk 4 n
  | .readGroups n _ => numberOk 4 n
  | .readDetectors n _ => numberOk 4 n
  | .readPriority n _ => numberOk 4 n
  | .readFaults n _ => numberOk 4 n
  | .readEvents n => numberOk 4 n
  | .clearEvents n _ _ _ => numberOk 4 n
  | .takeSelector n _ => numberOk 4 n
  | .releaseSelector n => numberOk 4 n
  | .setStage n _ => numberOk 4 n
  | .selectStage n _ => numberOk 4 n
  | .callGroups n _ => numberOk 4 n
  | .modeRequestFlash n => numberOk 4 n
  | .modeRequestDark n => numberOk 4 n
  | .modeRequestResume n => numberOk 4 n
  | .validationCompletion => true
  | .clearFaults n _ _ _ => numberOk 4 n
  | .setDim n _ => numberOk 4 n
  | .enablePriority n _ => numberOk 4 n
  | .readConfig n _ _ => numberOk 4 n
  | .writeConfig n _ _ r => numberOk 4 n && decide (r.length ≤ 198)
  | .nonvolatileCopyCompletion => true
  | .checkIn n _ _ _ _ _ _ _ => numberOk 4 n
  | .checkOut n _ _ => numberOk 4 n
  | .cancelPriorityByNumber n _ => numberOk 4 n
  | .cancelPriorityByIdent n _ => numberOk 4 n
  | .byteReceived _ _ => true

end Sys2Proof
end

