-- ==== Sys2Proof/Tests/Slice0.lean ====
section
/-! SUPPORT. Tests: the well-formedness smoke tests, single steps whose expected results come from the manual's worked
cases and tables, and for every obligation that has hypotheses a witness, named `test_meets_<obligation>`, that shows
states and operands that meet them, clause by clause. -/

namespace Sys2Proof.Tests

set_option Elab.async false

open Sys2Proof.Machine

/-! ## Builders of small states -/

/-- The state after a command. -/
def run (c : Instr) (s : State) : State :=
  match exec c s with
  | .next t => t
  | _ => s

/-- Bytes written into the image. -/
def poke (a : Nat) (bs : List Byte) (s : State) : State :=
  { s with cs := { s.cs with image := imageWriteBytes s.cs.image a bs } }

/-- A GROUP record: kind, prepare, min and max proceed, clearance, min stop, gap, cap; nominal currents of 100 mA. -/
def groupRow (g : Group) (kind prep minP maxP clr minS gap cap : Nat) : State → State :=
  poke (groupBase g) (natBytes 1 kind ++ natBytes 1 prep ++ natBytes 2 minP ++ natBytes 2 maxP ++ natBytes 2 clr ++
    natBytes 2 minS ++ natBytes 1 gap ++ natBytes 2 cap ++ natBytes 2 100 ++ natBytes 2 100 ++ natBytes 2 100)

/-- The first eight bytes of a DETECTOR record: kind, on-threshold 20, max presence in steps, error budget, role, and
one group reference. -/
def detectorRow (ch : Channel) (kind maxP bud role ref : Nat) : State → State :=
  poke (detectorBase ch) (natBytes 1 kind ++ natBytes 2 20 ++ natBytes 1 maxP ++ natBytes 1 bud ++ natBytes 1 role ++
    [1] ++ natBytes 1 ref)

/-- Approach 3 of the worked cases of chapter 6, on tram group `g`, with loops 21, 22 and 23. -/
def approachRow (g : Nat) : State → State :=
  poke (approachBase 2) (natBytes 1 g ++ [1, 21, 1, 22, 1, 23] ++ natBytes 3 14250 ++ natBytes 2 600 ++
    natBytes 2 200 ++ natBytes 2 2000 ++ natBytes 2 0 ++ natBytes 1 20 ++ natBytes 2 100 ++ natBytes 1 45 ++
    natBytes 2 300 ++ natBytes 2 300 ++ natBytes 2 100 ++ natBytes 2 100 ++ natBytes 2 200 ++ natBytes 1 2)

def inMode (m : Mode) (sub : Option SubPhase) (goal : Option Goal) (s : State) : State :=
  { s with mfs := { s.mfs with mode := m, sub := sub, goal := goal } }

def atTime (t : Time) (s : State) : State := { s with sge := { s.sge with clock := t } }

/-- Detector time `t`, a sample completion. -/
def atDetector (t : Time) (s : State) : State := { s with du := { s.du with clock := t, sampleIn := 0 } }

def owned (o : Owner) (r : Rank) (s : State) : State := { s with sel := { s.sel with owner := o, rank := r } }

def targeted (w : GroupSet) (s : State) : State := { s with sel := { s.sel with target := w } }

def withFault (k : FaultKind) (s : State) : State :=
  setFault s k.code { s.mfs.faults[k.code] with latched := true }

def inState (g : Group) (st : GroupState) (s : State) : State := setGrp s g { grp s g with state := st }

/-- NORMAL at junction time 1,000 with four groups in STOP: 1 and 2 TRAFFIC, 3 WALK, 4 TRAM on approach 3; every pair
conflicts with the matrix of R30. -/
def junction : State :=
  atTime 1000 (inMode .normal none none
    (groupRow 0 1 20 50 60 30 10 10 100 (groupRow 1 1 0 50 0 30 10 10 0 (groupRow 2 2 0 40 0 60 10 10 0
      (groupRow 3 3 10 30 300 20 10 10 0 (approachRow 4 State.reset))))))

def flashing : State := inMode .flash none none junction

/-! ## Well-formedness -/

theorem test_wellFormed_refuses_groups :
    (Instr.groupStart 0).wellFormed = false ∧ (Instr.prepareEnd 25).wellFormed = false ∧
    (Instr.minProceedEnd 0).wellFormed = false ∧ (Instr.maxOut 25).wellFormed = false ∧
    (Instr.clearanceEnd 0).wellFormed = false ∧ (Instr.gapOut 25).wellFormed = false := by decide

theorem test_wellFormed_refuses_channels :
    (Instr.overcurrentTrip 73).wellFormed = false ∧ (Instr.tripRetry 0).wellFormed = false ∧
    (Instr.tripCounterReset 73).wellFormed = false ∧ (Instr.loopSample 33 none).wellFormed = false ∧
    (Instr.loopLongPresence 0).wellFormed = false ∧ (Instr.contactSample 33 true).wellFormed = false ∧
    (Instr.contactLongPresence 0).wellFormed = false ∧ (Instr.windowClose 33).wellFormed = false := by decide

theorem test_wellFormed_refuses_measures :
    (Instr.junctionClockAdvance []).wellFormed = false ∧
    (Instr.junctionClockAdvance (4001 :: List.replicate 71 0)).wellFormed = false ∧
    (Instr.loopSample 1 (some 128000)).wellFormed = false ∧
    (Instr.writeConfig 1 0 0 (List.replicate 199 0)).wellFormed = false := by decide +kernel

theorem test_wellFormed_refuses_stations :
    (Instr.silenceExpiry 5).wellFormed = false ∧ (Instr.readStatus 0).wellFormed = false ∧
    (Instr.readGroups 5 1).wellFormed = false ∧ (Instr.readDetectors 0 1).wellFormed = false ∧
    (Instr.readPriority 5 0).wellFormed = false ∧ (Instr.readFaults 0 0).wellFormed = false ∧
    (Instr.readEvents 5).wellFormed = false ∧ (Instr.clearEvents 0 0 false 0).wellFormed = false ∧
    (Instr.takeSelector 5 0).wellFormed = false ∧ (Instr.releaseSelector 0).wellFormed = false ∧
    (Instr.setStage 5 0).wellFormed = false ∧ (Instr.selectStage 0 1).wellFormed = false ∧
    (Instr.callGroups 5 0).wellFormed = false ∧ (Instr.modeRequestFlash 0).wellFormed = false ∧
    (Instr.modeRequestDark 5).wellFormed = false ∧ (Instr.modeRequestResume 0).wellFormed = false ∧
    (Instr.clearFaults 5 0 false 0).wellFormed = false ∧ (Instr.setDim 0 0).wellFormed = false ∧
    (Instr.enablePriority 5 0).wellFormed = false ∧ (Instr.readConfig 0 0 0).wellFormed = false ∧
    (Instr.writeConfig 5 0 0 []).wellFormed = false ∧
    (Instr.checkIn 0 0 0 1 0 false none none).wellFormed = false ∧ (Instr.checkOut 5 0 1).wellFormed = false ∧
    (Instr.cancelPriorityByNumber 0 0).wellFormed = false ∧
    (Instr.cancelPriorityByIdent 5 0).wellFormed = false := by decide

/-! ## Tables and worked cases of the manual -/

/-- R184: the check value of the link CRC over the characters 1 to 9. -/
theorem test_crc16_check_value :
    crc16 [0x31, 0x32, 0x33, 0x34, 0x35, 0x36, 0x37, 0x38, 0x39] = 0x29B1#16 := by decide +kernel

/-- R206: the check value of the image CRC over the characters 1 to 9. -/
theorem test_crc32_check_value :
    crc32From (fun a => BitVec.ofNat 8 (0x31 + a)) 9 0 0xFFFFFFFF#32 = 0x0376E6E7#32 := by decide +kernel

/-- Chapter 1, "a proceed with bonus, max-out and restart", 20,380: maximum and bonus, 360 together (here 60
and 300, in the manual 300 and 60), have run at 20,380 and not at 20,379. -/
theorem test_maxOut_after_bonus :
    let s := atTime 20380 (setGrp (setGrp (targeted 1 junction) 0
      { grp junction 0 with state := .proceedExt, proceedStart := 20020, bonus := 300 }) 1
      { grp junction 1 with demand := true })
    (grp (run (.maxOut 1) s) 0).state = .clearance ∧ (grp (run (.maxOut 1) s) 0).cause = some .max ∧
    (grp (run (.maxOut 1) s) 0).maxedOut = true ∧ (grp (run (.maxOut 1) (atTime 20379 s)) 0).state = .proceedExt := by
  decide +kernel

/-- Chapter 1, "a truncation and its credit": 70 + 45 meets the cap of 100. -/
theorem test_truncation_credit :
    (terminated 31000 .priorityTruncate 45 100 { GroupRec.reset with state := .proceedExt, credit := 70 }).credit =
      100 := by decide

/-- No pair conflicts. -/
def openMatrix (s : State) : State :=
  { s with igm := { entry := Vector.replicate 24 (Vector.replicate 24 none) } }

/-- IG(c,g) of the working copy. -/
def pair (c g : Group) (v : Nat) (s : State) : State :=
  { s with igm := { entry := s.igm.entry.set c.val ((s.igm.entry[c]).set g.val (some v)) } }

/-- Chapter 2, "across the clock wrap": group 16 in CLEARANCE since 16 ds before the wrap, group 11 not yet eligible at
count 0 and eligible at 14. -/
theorem test_eligible_across_wrap :
    let s := pair 15 10 40 (openMatrix (groupRow 10 3 10 30 300 20 20 10 0
      (setGrp (inMode .normal none none State.reset) 15
        { GroupRec.reset with state := .clearance, proceedEnd := 4294967280 })))
    let r := setGrp s 10 { GroupRec.reset with stopEntry := 4294967200 }
    eligible r 10 = false ∧ eligible (atTime 13 r) 10 = false ∧ eligible (atTime 14 r) 10 = true := by decide +kernel

/-- Chapter 2, "projection with three conflicting groups": group 14's intergreen binds, and the earliest green is
1,170. -/
theorem test_projection_three_groups :
    let s := groupRow 6 3 10 30 300 20 20 10 0 (groupRow 1 1 20 70 0 40 30 10 0 (groupRow 2 1 20 70 0 40 30 10 0
      (groupRow 13 2 0 60 0 60 30 10 0 (pair 1 6 55 (pair 2 6 60 (pair 13 6 80 (openMatrix (atTime 1050 State.reset))))))))
    let r := setGrp (setGrp (setGrp (setGrp s 6 { GroupRec.reset with stopEntry := 1000 }) 1
      { GroupRec.reset with state := .proceedMin, proceedStart := 1000 }) 2
      { GroupRec.reset with state := .clearance, proceedEnd := 1040 }) 13
      { GroupRec.reset with state := .proceedMin, proceedStart := 1030 }
    projectedGreen r 6 = 1170 := by decide +kernel

/-- Chapter 2, "saturation near the clock's start": the negative offsets count as 0. -/
theorem test_projection_saturates :
    projectedGreen (groupRow 18 3 30 30 300 20 10 10 0 (pair 20 18 20 (openMatrix (atTime 45 State.reset)))) 18 = 75 := by
  decide +kernel

/-- Chapter 3, "an exchange of owners", 50,010: the central link unit's rank 1 beats the controller's 2. -/
theorem test_take_selector_by_rank :
    (run (.takeSelector 4 1) (owned .controller 2 junction)).sel.owner = .central ∧
    (run (.takeSelector 4 1) (owned .controller 2 junction)).clp.reply =
      some { kind := 0x90, payload := [0x00, 0, 2] } := by decide +kernel

/-- Chapter 3, 50,020: the controller's rank 0 is clamped to its authority 2, which does not beat 1. -/
theorem test_take_selector_clamped :
    (run (.takeSelector 1 0) (owned .central 1 junction)).clp.reply =
      some { kind := 0x90, payload := [0x11, 2, 1] } := by decide +kernel

/-- Chapter 5, "tuning, a vehicle and drift": three rows of the table. -/
theorem test_loop_samples :
    let r := { DetRec.reset .vacant false 20 with baseline := some 40000, entryCount := 4117 }
    let a := loopSampled 20 15 100010 false (some 39990) r
    let b := loopSampled 20 15 100020 false (some 39900) a
    let c := loopSampled 20 15 100030 false (some 39880) b
    a.lastDeviation = some 2 ∧ a.baseline = some 39999 ∧ b.lastDeviation = some 24 ∧ b.baseline = some 39998 ∧
    b.aboveRun = 1 ∧ c.lastDeviation = some 29 ∧ c.state = .occupied ∧ c.entryCount = 4118 ∧
    c.lastEntry = some 100030 ∧ c.baseline = some 39998 := by decide +kernel

/-- Chapter 5, 100,050: an invalid sample keeps the deviation and costs one of the budget. -/
theorem test_loop_invalid_sample :
    let r := { DetRec.reset .occupied false 20 with baseline := some 39998, lastDeviation := some 32 }
    let a := loopSampled 20 15 100050 false none r
    a.lastDeviation = some 32 ∧ a.budget = 19 ∧ a.invalidRun = 1 ∧ a.state = .occupied := by decide +kernel

/-- Chapter 6, the paired check-in: Δt = 520 gives 124, and Δt = 250 is clamped to 300 and gives 72. -/
theorem test_paired_eta :
    pairedEta junction.cs.image 2 520 = 124 ∧ pairClamped junction.cs.image 2 250 = 300 ∧
    pairedEta junction.cs.image 2 250 = 72 := by decide +kernel

/-- Chapter 6, the figures of ETA 124 at CI 5,000. -/
theorem test_window_of_paired_check_in :
    let e := newEntry junction.cs.image .loop none none 2 2 5000 124 false false
    e.ea = 5109 ∧ e.la = 5139 ∧ e.need = 5159 ∧ e.expiry = 5439 := by decide +kernel

/-- Chapter 6, "receiver estimates", on an approach with vmin 200, vmax 2,000, dwell 40 and default ETA 200. -/
theorem test_receiver_estimates :
    let m := (poke (approachBase 2 + 16) (natBytes 2 40) junction).cs.image
    let r : Report := { ident := 1, route := 1, lateness := 75, special := false, distance := some 9000, speed := some 650 }
    let late : Report := { r with lateness := BitVec.ofInt 16 (-900), distance := none }
    reportEta m 2 r = (179, false) ∧ reportRank m r = 1 ∧ reportEta m 2 { r with speed := some 4000 } = (85, true) ∧
    reportRank m { r with lateness := 0 } = 2 ∧ reportEta m 2 late = (240, false) ∧ reportRank m late = 3 ∧
    derivedRank m { r with special := true } = 0 ∧ reportRank m { r with special := true } = 1 := by decide +kernel

/-- R151 with chapter 8's nominal 450 mA: the two bounds, and 210 mA between them. -/
theorem test_classify_bounds :
    classify 338 450 100 = .lit ∧ classify 337 450 100 = .partly ∧ classify 210 450 100 = .partly ∧
    classify 46 450 100 = .partly ∧ classify 45 450 100 = .dark ∧ classify 135 450 40 = .lit := by decide

/-- Chapter 8, "a shorted stop bar locked off": the fifth trip locks the channel. -/
theorem test_fifth_trip_locks :
    (tripped 50000 { LampRec.reset with command := .on, output := true }).retry = some 50020 ∧
    (tripped 50080 { LampRec.reset with command := .on, output := true, trips := 4 }).drive = .lockedOff ∧
    (tripped 50080 { LampRec.reset with command := .on, output := true, trips := 4 }).trips = 5 := by decide

/-- Chapter 9, 61,000: RESUME is refused with the latched critical kinds, RED_OUT_MULTIPLE and UNCOMMANDED_PROCEED. -/
theorem test_resume_refused_for_faults :
    (run (.modeRequestResume 3) (inMode .dark none none (withFault .redOutMultiple (withFault .uncommandedProceed
      (withFault .redOut junction))))).clp.reply =
      some { kind := 0x98, payload := [0x15, 5, 0, 0, 0, 0, 0, 0x0A] } := by decide +kernel

/-- Chapter 9, "pending sets and ATTN", 70,020 and 70,025. -/
theorem test_attention_follows_unmasked_events :
    let s := run (.clearEvents 1 0 true 0x84) junction
    let t := post .selectorChanged (post .stageReached (post .detectorChanged s))
    (post .stageReached (post .detectorChanged s)).mfs.attnLow = false ∧ t.mfs.attnLow = true ∧
    (run (.clearEvents 1 2 false 0) t).mfs.attnLow = false ∧
    (run (.clearEvents 1 2 false 0) t).mfs.pending[2] = 0x86 := by decide +kernel

/-- Chapter 10: a request kind outside the table is answered with kind 0xFE and UNKNOWN_KIND alone; a station that the
kind does not allow with REFUSED_ROLE alone. -/
theorem test_unknown_kind_and_role :
    (takeRequest 0x7E [] 0 junction).clp.reply = some { kind := 0xFE, payload := [0x31] } ∧
    (takeRequest 0x12 [0, 0, 1] 1 junction).clp.reply = some { kind := 0x92, payload := [0x10] } := by decide +kernel

/-- Chapter 11, "an edit": prepare 45 and clearance 75 of a TRAFFIC group are clamped, positions 1 and 4; the matrix
entry 252 is clamped, position 7. -/
theorem test_clamped_positions :
    clampedPositions (.group 3) ([1, 45] ++ natBytes 2 60 ++ natBytes 2 300 ++ natBytes 2 75 ++ natBytes 2 50 ++ [30] ++
      natBytes 2 0 ++ natBytes 2 450 ++ natBytes 2 450 ++ natBytes 2 450) = [1, 4] ∧
    clampedPositions (.matrix 3) (List.replicate 7 255 ++ [252] ++ List.replicate 16 255) = [7] := by decide +kernel

/-! ## Witnesses

Each theorem meets the hypotheses of the obligation it names; where a statement has clauses, each clause, at the limits
of its range. -/

theorem test_meets_StepRunsFrontCommandOrIdles : State.reset.pending = [] := rfl

theorem test_meets_ResetStopsEveryGroup : State.reset.cs.copy = none := rfl

theorem test_meets_ResetDuringCopyKeepsOldOrNewRecord :
    ∃ t u, imageWf flashing.cs.image = true ∧ flashing.cs.copy = none ∧
      exec (.writeConfig 1 4 1 [0, 0, 1]) flashing = .next t ∧ t.cs.copy.isSome = true ∧
      exec (.reset 3 1) t = .next u :=
  ⟨_, _, by decide +kernel, by decide +kernel, rfl, by decide +kernel, rfl⟩

/-- A state with the given stored CRC. -/
def withCrc (c : BitVec 32) (s : State) : State := { s with cs := { s.cs with storedCrc := c } }

theorem withCrc_image (c : BitVec 32) (s : State) : (withCrc c s).cs.image = s.cs.image := rfl

theorem withCrc_storedCrc (c : BitVec 32) (s : State) : (withCrc c s).cs.storedCrc = c := rfl

theorem crc_matches (s : State) :
    imageCrc (withCrc (imageCrc s.cs.image) s).cs.image = (withCrc (imageCrc s.cs.image) s).cs.storedCrc := by
  rw [withCrc_image, withCrc_storedCrc]

theorem word_ne_succ (x : BitVec 32) : x ≠ x + 1 := by bv_omega

theorem crc_differs (s : State) :
    imageCrc (withCrc (imageCrc s.cs.image + 1) s).cs.image ≠ (withCrc (imageCrc s.cs.image + 1) s).cs.storedCrc := by
  rw [withCrc_image, withCrc_storedCrc]
  exact word_ne_succ _

/-- With no flash time and with one of 600 ds. -/
theorem test_meets_PowerUpMatchStartsUp :
    (State.reset.mfs.mode = .powerUp ∧ (imageCrc (withCrc (imageCrc State.reset.cs.image) State.reset).cs.image =
        (withCrc (imageCrc State.reset.cs.image) State.reset).cs.storedCrc) ∧
      criticalLatched State.reset = false ∧ startMode State.reset.cs.image = .run ∧
      startUpFlashTime State.reset.cs.image = 0 ∧ ∀ g, (lamp State.reset (stopLamp g)).drive = .enabled) ∧
    startUpFlashTime (poke 3 [2, 0x58] State.reset).cs.image = 600 ∧
    startMode (poke 3 [2, 0x58] State.reset).cs.image = .run :=
  ⟨⟨rfl, crc_matches _, by decide +kernel, by decide +kernel, by decide +kernel, by decide +kernel⟩,
    by decide +kernel, by decide +kernel⟩

theorem test_meets_PowerUpMismatchOrHoldRests :
    (State.reset.mfs.mode = .powerUp ∧
      imageCrc (withCrc (imageCrc State.reset.cs.image + 1) State.reset).cs.image ≠
        (withCrc (imageCrc State.reset.cs.image + 1) State.reset).cs.storedCrc) ∧
    criticalLatched (withFault .configCrc State.reset) = true ∧ startMode (poke 0 [1] State.reset).cs.image = .hold ∧
    (poke 0 [1] State.reset).mfs.mode = .powerUp :=
  ⟨⟨rfl, crc_differs _⟩, by decide +kernel, by decide +kernel, rfl⟩

/-- Groups 1 and 2 wanted, and in conflict. -/
def rivals : State := targeted 3 junction

theorem test_meets_GroupStartByArbiter :
    (mayStart rivals 1 = true ∧ (1 : Group) ∉ arbiterPicks rivals) ∧
    ((0 : Group) ∈ arbiterPicks rivals ∧ prepareTime rivals.cs.image 0 ≠ 0) ∧
    ((1 : Group) ∈ arbiterPicks (targeted 2 junction) ∧ prepareTime junction.cs.image 1 = 0) ∧
    (grp (inState 0 .prepare rivals) 0).state ≠ .stop ∧ flashing.mfs.mode ≠ .normal ∧
    groupKind rivals.cs.image 4 = .none ∧ wanted rivals 2 = false ∧
    (grp (setGrp rivals 0 { GroupRec.reset with inhibited := true }) 0).inhibited = true ∧
    eligible (atTime 9 rivals) 0 = false := by decide +kernel

/-- Group 1 in PROCEED_MIN since 950, its min proceed of 50 just run, with the controller as the owner. -/
def minRun : State :=
  setGrp (owned .controller 2 junction) 0 { GroupRec.reset with state := .proceedMin, proceedStart := 950 }

/-- Group `g` of a state moved on to PROCEED_EXT. -/
def extended (g : Group) (s : State) : State :=
  setGrp s g { grp s g with state := .proceedExt, stateEntry := jnow s }

/-- Group 1 in PREPARE since 980, its prepare time of 20 just run; and at the end of its min proceed, with no cause and
with two. -/
theorem test_meets_PrepareAndMinProceedEnd :
    (let s := setGrp junction 0 { GroupRec.reset with state := .prepare, stateEntry := 980 }
     (grp s 0).state = .prepare ∧ prepareTime s.cs.image 0 = elapsed (jnow s) (grp s 0).stateEntry) ∧
    ((grp minRun 0).state = .proceedMin ∧ minProceed minRun.cs.image 0 = elapsed (jnow minRun) (grp minRun 0).proceedStart) ∧
    (terminationCause (extended 0 (targeted 1 minRun)) 0 = none ∧ fbsActs (targeted 1 minRun) = false ∧
      (targeted 1 minRun).pu.list = []) ∧ terminationCause (extended 0 minRun) 0 = some .target ∧
    (let s := { targeted 1 minRun with pu := { minRun.pu with
        overlay := minRun.pu.overlay.set 0 { Overlay.clear with truncate := true } } }
     terminationCause (extended 0 s) 0 = some .priorityTruncate) := by decide +kernel

/-- Group 1 in PROCEED_EXT since its maximum of 60, with demand on group 2. -/
def maxRun : State :=
  setGrp (setGrp (targeted 1 junction) 0 { GroupRec.reset with state := .proceedExt, proceedStart := 940 }) 1
    { GroupRec.reset with demand := true }

theorem test_meets_MaxOutEndsProceed :
    (grp maxRun 0).state = .proceedExt ∧ (grp maxRun 0).inhibited = false ∧ maxRun.mfs.mode ≠ .closing ∧
    maxProceed maxRun.cs.image 0 ≠ 0 ∧
    maxProceed maxRun.cs.image 0 + (grp maxRun 0).bonus = elapsed (jnow maxRun) (grp maxRun 0).proceedStart ∧
    (∃ c, conflicts maxRun c 0 = true ∧ (grp maxRun c).demand = true) ∧ holdRunning maxRun 0 = false ∧
    wanted maxRun 0 = true ∧ fbsActs (owned .controller 2 maxRun) = false ∧
    maxOutCondition (owned .controller 2 maxRun) 0 = true := by decide +kernel

/-- R75: a demand posting at which the stage's only member has run its maximum. The member ends with cause MAX, is maxed
out, and the stage ends to the next one. -/
theorem test_demand_maxes_out_before_stage_ends :
    let s := { setGrp (targeted 1 junction) 0 { GroupRec.reset with state := .proceedExt, proceedStart := 940 } with
      fbs := { junction.fbs with current := some 0 }
      sel := { (targeted 1 junction).sel with stages := (junction.sel.stages.set 0 1).set 1 2 } }
    let t := postDemand false [1] s
    (grp t 0).state = .clearance ∧ (grp t 0).cause = some .max ∧
    (t.mfs.pending[(0 : Station)]).getLsbD Event.groupMaxedOut.code.val = true ∧ t.fbs.current = some 1 ∧
    t.sel.target = 2 := by decide +kernel

/-- Group 1 in CLEARANCE, its clearance time of 30 just run, in NORMAL and as the last group of CLOSING. -/
theorem test_meets_ClearanceEndEntersStop :
    let s := setGrp junction 0 { GroupRec.reset with state := .clearance, proceedEnd := 970 }
    let c := inMode .closing (some .clClearing) (some .flash) s
    ((grp s 0).state = .clearance ∧ clearanceTime s.cs.image 0 = elapsed (jnow s) (grp s 0).proceedEnd ∧
      s.mfs.mode ≠ .closing) ∧
    (c.mfs.mode = .closing ∧ c.mfs.sub = some .clClearing ∧ (lamp c (stopLamp 0)).drive = .enabled ∧
      (∀ g, g ≠ 0 → (grp c g).state = .stop) ∧ ∃ g, g ≠ 0 ∧ (grp (inState 1 .proceedMin c) g).state ≠ .stop) ∧
    (inMode .closing (some .clAllred) (some .flash) s).mfs.sub ≠ some .clClearing ∧
    (∀ g, (grp (run (.clearanceEnd 1) c) g).state = .stop) ∧
    ∃ g, (grp (run (.clearanceEnd 1) (inState 1 .proceedMin c)) g).state ≠ .stop := by decide +kernel

/-- A loop check-in of approach 3 at junction time 1,000. -/
def entryOf (st : EntryState) (hold : Option Time) : Entry :=
  { newEntry junction.cs.image .loop none none 2 2 1000 124 false false with state := some st, holdUntil := hold }

def listing (l : List Entry) (s : State) : State := { s with pu := { s.pu with list := l } }

/-- A SERVING and an EXTENDING entry at their hold-until, and the inhibit at its end; the first pass that follows leaves
no SERVING entry, and with the controller as the owner nothing terminates after the walk. -/
theorem test_meets_PriorityTimesEndHoldsAndEntries :
    let s := listing [entryOf .serving (some 1000)] junction
    let m := { s with pu := { s.pu with list := [{ entryOf .released none with holdUntil := none }], inhibitUntil := some 1600 } }
    let c := owned .controller 2 { s with pu := { s.pu with inhibitUntil := some 1000 } }
    ((∃ e ∈ s.pu.list, holdDue s e = true) ∧ (s.pu.list[0]?).isSome = true ∧
      ∀ e ∈ (firstPass m false m.pu.inhibitUntil m.pu.list).1, e.state ≠ some .serving) ∧
    (∃ e ∈ (listing [entryOf .extending (some 1000)] junction).pu.list, holdDue junction e = true) ∧
    (isAfter (jnow c) 1000 = false ∧ c.pu.inhibitUntil = some 1000 ∧ fbsActs c = false ∧
      terminating (walkWith true { c with pu := { c.pu with inhibitUntil := none } }) = []) ∧
    ∃ e ∈ s.pu.list, isAfter (jnow (atTime 1439 s)) e.expiry = false := by decide +kernel

/-! ### The evaluation walk -/

/-- The junction with priority on and the central link unit as the owner at rank 2, and a list. -/
def walking (l : List Entry) : State :=
  let s := owned .central 2 (listing l junction)
  { s with pu := { s.pu with enabled := true } }

/-- The hypotheses on the command, at the end of the inhibit and at both changes of the enable, with no group moving. -/
theorem test_meets_WalkDecidesEntriesAndOverlay :
    (let s := { walking [entryOf .noted none] with
        pu := { (walking [entryOf .noted none]).pu with inhibitUntil := some 1000 } }
     isAfter (jnow s) 1000 = false ∧ (∀ g, (grp (run .recallInhibitEnd s) g).state = (grp s g).state) ∧
       (run .recallInhibitEnd s).pu.list.length = 1 ∧
       (run .recallInhibitEnd s).pu.list.map Entry.state = [some .recalling]) ∧
    (let s := walking [entryOf .recalling none]
     inFlight s = false ∧ s.pu.enabled ≠ decide ((0 : Byte) = 1) ∧
       ∀ g, (grp (run (.enablePriority 1 0) s) g).state = (grp s g).state) ∧
    (let s := { walking [entryOf .noted none] with pu := { (walking [entryOf .noted none]).pu with enabled := false } }
     s.pu.enabled ≠ decide ((1 : Byte) = 1) ∧
       ∀ g, (grp (run (.enablePriority 4 1) s) g).state = (grp s g).state) := by decide +kernel

/-- The cases of a walk, entry by entry: released, rank 3, gate shut by mode, enable and rank, a committed recall, a lost
group, the two refreshments, no tram group, a crossing entry before it, an extension that fits and one that does not, the
inhibit, and a recall. Group 4 is the tram group of approach 3. -/
theorem test_meets_WalkDecidesEntriesAndOverlay_cases :
    let e := entryOf .noted none
    let green := fun (s : State) => setGrp s 3 { GroupRec.reset with state := .proceedExt, proceedStart := 980 }
    (e.state ≠ some .released ∧ e.rank ≠ 3 ∧ { e with rank := 3 }.rank = 3) ∧
    (flashing.mfs.mode ≠ .normal ∧ junction.pu.enabled = false ∧ ¬{ e with rank := 2 }.rank ≤ (owned .central 1 junction).sel.rank) ∧
    ((walking [e]).mfs.mode = .normal ∧ (walking [e]).pu.enabled = true ∧ e.rank ≤ (walking [e]).sel.rank) ∧
    (committed (green (walking [])) (entryOf .recalling none) = true ∧ entryGroup (walking []) e = some 3) ∧
    (grp (walking []) 3).state.underWay = false ∧ (grp (green (walking [])) 3).state.underWay = true ∧
    (isAfter (jnow junction) (earlierOf (jnow junction) e.need (holdBound (green (walking [])) 3 e.approach)) = true ∧
      isAfter (jnow junction) e.need = true ∧ extensionFits (green (walking [])) 3 e = true ∧
      offset (jnow junction) e.need ≤ offset (jnow junction) (holdBound (green (walking [])) 3 e.approach)) ∧
    isAfter (jnow (atTime 1159 junction)) e.need = false ∧
    entryGroup junction { e with approach := 0 } = none ∧
    (EntryState.recalling.acting = true ∧ committed (walking []) e = false ∧
      conflicts (poke (approachBase 0) [1] (groupRow 0 3 20 50 60 30 10 10 100 (walking []))) 0 3 = true ∧
      entryGroup (poke (approachBase 0) [1] (groupRow 0 3 20 50 60 30 10 10 100 (walking []))) { e with approach := 0 } =
        some 0) ∧
    (isAfter (jnow junction) 1001 = true ∧ isAfter (jnow junction) 1000 = false ∧ e.rank ≠ 0 ∧ { e with rank := 0 }.rank = 0) := by
  decide +kernel

/-- Two crossings at junction time 1,000, where nothing conflicts: one SERVING whose hold-until and inhibit end are due on
approach 3 and group 4, one waiting on approach 1 and group 1. -/
def crossings : State :=
  let s := poke (approachBase 0) [1] (openMatrix (groupRow 0 3 20 50 60 30 10 10 100 (targeted 8 (walking
    [{ entryOf .serving (some 1000) with need := 1000 }, { entryOf .noted none with approach := 0, number := 1, seq := 1 }]))))
  { setGrp s 3 { GroupRec.reset with state := .proceedExt, proceedStart := 980 } with
    pu := { s.pu with inhibitUntil := some 1000 } }

/-- R131: the end of the inhibit and a hold end at one count, in both orders. The inhibit end first leaves the SERVING
entry to the hold end and lets the other recall; the hold end first inhibits it. -/
theorem test_inhibit_end_and_hold_end :
    let states := fun (s : State) => s.pu.list.map Entry.state
    states (run .recallInhibitEnd crossings) = [some .serving, some .recalling] ∧
    states (run .holdEnd (run .recallInhibitEnd crossings)) = [some .released, some (.waiting .inhibited)] ∧
    states (run .holdEnd crossings) = [some .released, some (.waiting .inhibited)] ∧
    (run .holdEnd crossings).pu.inhibitUntil.isSome = true := by decide +kernel

/-- The hypotheses of the entry that the end of the inhibit leaves. -/
theorem test_meets_WalkDecidesEntriesAndOverlay_left :
    let m := { crossings with pu := { crossings.pu with inhibitUntil := none } }
    let e := { entryOf .serving (some 1000) with need := 1000 }
    m.pu.list[0]? = some e ∧ e.rank ≠ 3 ∧ (m.mfs.mode = .normal ∧ m.pu.enabled = true ∧ e.rank ≤ m.sel.rank) ∧ entryGroup m e = some 3 ∧
    (grp m 3).state.underWay = true ∧ isAfter (jnow m) 1000 = false ∧
    ∀ g, (grp (run .recallInhibitEnd crossings) g).state = (grp crossings g).state := by decide +kernel

/-- The sequencer acting on stage 1 = group 1, alone in PROCEED_EXT, with stage 2 = group 2. -/
def sequencing (demand : Bool) : State :=
  let s := setGrp (setGrp (owned .fallback 3 (targeted 1 junction)) 0
    { GroupRec.reset with state := .proceedExt, proceedStart := 980 }) 1 { GroupRec.reset with demand := demand }
  { s with fbs := { s.fbs with current := some 0 }, sel := { s.sel with stages := (s.sel.stages.set 0 1).set 1 2 } }

theorem test_meets_GapOutMayEndStage :
    (fbsActs (sequencing false) = true ∧ (sequencing false).fbs.current = some 0 ∧
      inSet (sequencing false).sel.stages[(0 : Stage)] 0 = true ∧ gappedOut (sequencing false) 0 = true ∧
      stageEnds (sequencing false) 0 = false ∧ terminating (sequencing false) = []) ∧
    (let s := setGrp (sequencing false) 2 { GroupRec.reset with demand := true }
     gappedOut s 0 = true ∧ stageEnds s 0 = true ∧ nextStage s 0 = none) ∧
    (fbsActs (sequencing true) = true ∧ gappedOut (sequencing true) 0 = true ∧ stageEnds (sequencing true) 0 = true ∧
      nextStage (sequencing true) 0 = some 1) ∧
    (inSet (sequencing true).sel.stages[(1 : Stage)] 1 = true ∧ (grp (sequencing true) 1).state = .stop ∧
      (sequencing true).pu.list = [] ∧ groupKind (sequencing true).cs.image 1 ≠ .none ∧
      (grp (sequencing true) 1).inhibited = false ∧ (ovl (sequencing true) 1).block = false) ∧
    (grp (inState 1 .prepare (sequencing true)) 1).state = .prepare ∧
    (let s := setGrp (sequencing true) 1 { GroupRec.reset with state := .proceedMin, proceedStart := 951, demand := true }
     maxHasRun s 1 = false ∧ stageEnds s 0 = true) := by decide +kernel

/-- By a release of station 3 with station 1 silent and of station 1, by a silence expiry, and at the end of the
start-up all-red; with stage 1 ahead, with two stages equal, and with every stage empty. -/
theorem test_meets_FallbackTakesOver :
    (let s := owned .manual 0 (sequencing false)
     let q := { s with clp := { s.clp with stations := s.clp.stations.set 0 { lastHeard := 0, silent := true } } }
     q.mfs.mode = .normal ∧ q.sel.owner = stationOwner 2 ∧ (station q 0).silent = true ∧ inFlight q = false ∧
       (owned .controller 2 s).sel.owner = stationOwner 0 ∧ (∀ g, inSet 1 g = false → (grp q g).demand = false) ∧
       proceedingMembers q 1 < proceedingMembers q 0 ∧ q.sel.stages[(0 : Stage)] = 1) ∧
    (let s := owned .controller 2 (poke 12 [0, 100] (atTime 100 (setGrp (sequencing false) 0 GroupRec.reset)))
     silenceLimit s.cs.image 0 = elapsed (jnow s) (station s 0).lastHeard ∧ silenceLimit s.cs.image 0 ≠ 0 ∧
       (station s 0).silent = false ∧ proceedingMembers s 0 = proceedingMembers s 1) ∧
    (let s := inMode .startUp (some .suAllred) none (atTime 30 (owned .fallback 3 junction))
     startUpAllRedTime s.cs.image = elapsed (jnow s) s.mfs.phaseStart ∧ setSize s.lou.redOut < 2 ∧
       ∀ j : Stage, s.sel.stages[j] = 0) := by decide +kernel

/-- The arrivals of the statement, each with a group that is in PROCEED_EXT at its end. -/
theorem test_meets_TerminationsAreTaken :
    let ext := fun (t : State) => decide ((grp t 0).state = .proceedExt)
    let s := sequencing false
    let o := owned .controller 2 s
    let idle := setGrp s 0 GroupRec.reset
    (ext (run (.callGroups 1 0) s) = true ∧ inFlight s = false) ∧
    (ext (run (.setStage 1 1) o) = true ∧ (run (.setStage 1 1) o).sel.generation ≠ o.sel.generation) ∧
    (ext (run (.selectStage 1 1) o) = true ∧ (run (.selectStage 1 1) o).sel.generation ≠ o.sel.generation) ∧
    (ext (run (.takeSelector 3 0) s) = true ∧ (run (.takeSelector 3 0) s).sel.owner ≠ s.sel.owner) ∧
    (ext (run (.releaseSelector 1) o) = true ∧ (run (.releaseSelector 1) o).sel.owner ≠ o.sel.owner) ∧
    (let h := listing [entryOf .serving (some 1000)] s
     let h := { h with pu := { h.pu with overlay := h.pu.overlay.set 3 { Overlay.clear with holdUntil := some 1000 } } }
     ext (run .holdEnd h) = true ∧ (run .holdEnd h).pu.overlay ≠ h.pu.overlay) ∧
    (0 ∈ arbiterPicks (targeted 1 idle)) ∧
    ((grp minRun 0).state = .proceedMin ∧ ext (run (.minProceedEnd 1) (targeted 1 minRun)) = true) ∧
    (let d := setGrp s 1 { GroupRec.reset with state := .prepare, stateEntry := 980 }
     prepareTime d.cs.image 1 ≤ elapsed (jnow d) (grp d 1).stateEntry ∧ ext (run (.prepareEnd 2) d) = true) ∧
    (let d := setGrp s 1 { GroupRec.reset with state := .clearance, proceedEnd := 970 }
     clearanceTime d.cs.image 1 ≤ elapsed (jnow d) (grp d 1).proceedEnd ∧ ext (run (.clearanceEnd 2) d) = true) ∧
    ((grp maxRun 0).state = .proceedExt ∧ maxOutCondition maxRun 0 = true) ∧
    (gappedOut s 0 = true ∧ ext (run (.gapOut 1) s) = true) := by decide +kernel

/-- A walk's arrivals and a silence expiry, each with group 1 in PROCEED_EXT at its end, and no pair in conflict: a
check-in that calls group 4; a check-out, both forms of a cancel, an expiry, and an ENABLE_PRIORITY that withdraw the
call of a recall; the end of the inhibit. -/
theorem test_meets_TerminationsAreTaken_walks :
    let ext := fun (t : State) => decide ((grp t 0).state = .proceedExt)
    let r := fun (l : List Entry) => setGrp (openMatrix (targeted 1 (walking l))) 0
      { GroupRec.reset with state := .proceedExt, proceedStart := 980 }
    let q := r [{ entryOf .recalling none with source := .receiver, ident := some 7 }]
    let called := { q with pu := { q.pu with overlay := q.pu.overlay.set 3 { Overlay.clear with call := true } } }
    let moved := fun (c : Instr) (s : State) =>
      ext (run c s) && decide ((run c s).pu.overlay ≠ s.pu.overlay)
    (requestRow (.checkIn 2 7 1 3 0 false none none) = some (2, .checkIn) ∧
      moved (.checkIn 2 7 1 3 0 false none none) (r []) = true) ∧
    (requestRow (.checkOut 2 7 3) = some (2, .checkOut) ∧ moved (.checkOut 2 7 3) called = true) ∧
    (requestRow (.cancelPriorityByNumber 1 0) = some (1, .cancelPriority) ∧
      moved (.cancelPriorityByNumber 1 0) called = true) ∧
    (requestRow (.cancelPriorityByIdent 2 7) = some (2, .cancelPriority) ∧
      moved (.cancelPriorityByIdent 2 7) called = true) ∧
    (requestRow (.enablePriority 4 0) = some (4, .enablePriority) ∧ moved (.enablePriority 4 0) called = true) ∧
    moved .expiry (atTime 1439 called) = true ∧
    (let s := r [entryOf .noted none]
     moved .recallInhibitEnd { s with pu := { s.pu with inhibitUntil := some 1000 } } = true) ∧
    (let s := owned .manual 0 (poke 18 [0, 100] (r []))
     ext (run (.silenceExpiry 3) s) = true ∧ (run (.silenceExpiry 3) s).sel.owner ≠ s.sel.owner) := by decide +kernel


/-- Station 1, owner and not owner, at its limit of 100 ds. -/
theorem test_meets_SilenceExpiryRevertsSelector :
    let s := owned .controller 2 (poke 12 [0, 100] (atTime 100 junction))
    silenceLimit s.cs.image 0 ≠ 0 ∧ (station s 0).silent = false ∧
    silenceLimit s.cs.image 0 = elapsed (jnow s) (station s 0).lastHeard ∧ ownerStation s.sel.owner = some 0 ∧
    ownerStation (owned .manual 0 s).sel.owner ≠ some (0 : Station) ∧
    (silenceLimit (poke 12 [0, 0] s).cs.image 0 = 0 ∧ elapsed (jnow (atTime 99 s)) (station s 0).lastHeard < 100 ∧
      (station (setStation s 0 { station s 0 with silent := true }) 0).silent = true) := by decide +kernel

theorem test_meets_FlashAndClosingAllRedEnd :
    let s := inMode .startUp (some .suFlash) none (poke 3 [0, 50] (atTime 50 State.reset))
    let c := inMode .closing (some .clAllred) (some .dark) (atTime 20 State.reset)
    (s.mfs.sub = some .suFlash ∧ startUpFlashTime s.cs.image = elapsed (jnow s) s.mfs.phaseStart ∧
      ∀ g, (lamp s (stopLamp g)).drive = .enabled) ∧
    c.mfs.sub = some .clAllred ∧ elapsed (jnow c) c.mfs.phaseStart = 20 ∧ c.mfs.goal = some .dark := by decide +kernel

theorem test_meets_StartUpAllRedEndEntersNormal :
    let s := inMode .startUp (some .suAllred) none (atTime 30 junction)
    s.mfs.mode = .startUp ∧ s.mfs.sub = some .suAllred ∧
    startUpAllRedTime s.cs.image = elapsed (jnow s) s.mfs.phaseStart ∧
    setSize { s.lou with redOut := 1 }.redOut < 2 ∧ 2 ≤ setSize { s.lou with redOut := 3 }.redOut := by decide +kernel

/-- Channel 1, the stop lamp of group 1, enabled and commanded ON; and tripped. -/
def lampOn : State := setLamp junction 0 { LampRec.reset with command := .on, output := true }

def lampTripped : State :=
  setLamp junction 0 { LampRec.reset with command := .on, drive := .tripped, trips := 1, lastTrip := some 900, retry := some 1000 }

theorem test_meets_OvercurrentTripsChannel :
    ((lamp lampOn 0).drive = .enabled ∧ lampPos 0 = 0 ∧ (lamp lampOn 0).command = .on) ∧
    (lamp lampTripped 0).drive ≠ .enabled ∧
    (4 ≤ { LampRec.reset with trips := 4 }.trips ∧ { LampRec.reset with trips := 4 }.trips < 5 ∧
      ¬4 ≤ { LampRec.reset with trips := 3 }.trips) := by decide +kernel

theorem test_meets_LampTimedStepsSwitchChannels :
    ((lamp lampTripped 0).drive = .tripped ∧ (lamp lampTripped 0).retry = some 1000 ∧
      isAfter (jnow lampTripped) 1000 = false) ∧
    ((lamp lampTripped 0).drive ≠ .lockedOff ∧ 0 < (lamp lampTripped 0).trips ∧
      (lamp lampTripped 0).lastTrip = some 900 ∧ elapsed (jnow lampTripped) 900 = 100) ∧
    ({ lampTripped.lou with boundaryDue := true }.boundaryDue = true ∧ lampTripped.lou.boundaryDue = false) := by
  decide +kernel

/-- The sequencer on stage 1 with group 1 past its maximum of 60 under a passage on its extension channel, demand on
group 2 that conflicts with nothing, and group 3 in stage 1 as well, in PROCEED_EXT with no extension detector. -/
def pastMax : State :=
  let s := openMatrix (detectorRow 0 0 1 5 2 1 (setDet (setGrp (setGrp (sequencing true) 0
    { GroupRec.reset with state := .proceedExt, proceedStart := 940 }) 2
    { GroupRec.reset with state := .proceedExt, proceedStart := 940 }) 0 (DetRec.reset .occupied false 5)))
  { s with sel := { s.sel with target := 5, stages := s.sel.stages.set 0 5 } }

/-- Group 1 with its extension channel vacant since `x`, a gap time of 10 and no maximum run. -/
def gapping (x : Time) : State :=
  let s := detectorRow 0 0 1 5 2 1 (setDet (sequencing true) 0 (DetRec.reset .vacant false 5))
  { s with fbs := { s.fbs with lastGapExit := s.fbs.lastGapExit.set 0 (some x) } }

/-- The clauses on the stage at an advance, at the state `v` after the evaluation: not acting, a stage that does not end,
one whose member's gap time runs out at this count, and since the count before; and one with a member past its maximum
beside one that stands gapped out, with a next stage and with none. -/
theorem test_meets_JunctionClockAdvanceCounts :
    fbsActs (owned .controller 2 junction) = false ∧ (junction.fbs.current = none) ∧
    ((sequencing false).fbs.current = some 0 ∧ stageEnds (sequencing false) 0 = false) ∧
    (gapTime (gapping 990).cs.image 0 = 10 ∧ gapRunsOut (gapping 990) 0 = true ∧ stageEnds (gapping 990) 0 = true ∧
      gapRunsOut (gapping 989) 0 = false ∧ gappedOut (gapping 989) 0 = true ∧ stageEnds (gapping 989) 0 = true) ∧
    ((grp maxRun 0).state = .proceedExt ∧ maxOutCondition maxRun 0 = true ∧
      minProceed minRun.cs.image 0 = elapsed (jnow minRun) (grp minRun 0).proceedStart) ∧
    (fbsActs pastMax = true ∧ pastMax.fbs.current = some 0 ∧ stageEnds pastMax 0 = true ∧ gappedOut pastMax 0 = false ∧
      gappedOut pastMax 2 = true ∧ (∀ g, gapRunsOut pastMax g = false ∧ maxOutCondition pastMax g = false ∧
        (grp pastMax g).state ≠ .proceedMin) ∧
      nextStage pastMax 0 = some 1 ∧ inSet pastMax.sel.stages[(1 : Stage)] 1 = true ∧ pastMax.pu.list = [] ∧
      (grp pastMax 1).state = .stop ∧ groupKind pastMax.cs.image 1 ≠ .none ∧ (grp pastMax 1).inhibited = false ∧
      (ovl pastMax 1).block = false ∧
      nextStage { pastMax with sel := { pastMax.sel with stages := pastMax.sel.stages.set 1 0 } } 0 = none) := by
  decide +kernel

/-- R72: an end by maximum with demand outside that does not conflict comes at the advance, also beside a member that
stands gapped out since an earlier count; where a gap time runs out at the count, the GAP_OUT row brings it. -/
theorem test_advance_ends_stage :
    let t := advanceStage pastMax
    t.fbs.current = some 1 ∧ t.sel.target = 2 ∧ (grp t 0).cause = some .target ∧ (grp t 2).cause = some .target ∧
    (grp t 0).maxedOut = false ∧ (advanceStage (gapping 989)).fbs.current = some 1 ∧
    (advanceStage (gapping 990)).fbs.current = some 0 ∧ (run (.gapOut 1) (gapping 990)).fbs.current = some 1 := by
  decide +kernel

/-- An evaluation of the first channel at 75 % and at 10 % of its nominal 100 mA, with a settling channel and one in a
run of two. -/
theorem test_meets_JunctionClockAdvanceJudgesLamps :
    let u := advanceCount (takeDue lampOn)
    let v := setLamp u 0 { lamp u 0 with run := some .out, mismatches := 2 }
    usedLamp u.cs.image 0 = true ∧ (lamp u 0).settling = false ∧ (lamp u 0).output = true ∧
    nominalCurrent u.cs.image (lampGroup 0) (lampPos 0) = 100 ∧ u.lou.dim = .bright ∧
    classify 75 100 100 = .lit ∧ classify 74 100 100 = .partly ∧ classify 10 100 100 = .dark ∧
    (lamp u 1).output = false ∧ usedLamp u.cs.image 1 = true ∧ (lamp u 1).settling = false ∧
    (lamp v 0).run = some .out ∧ (lamp v 0).mismatches + 1 = 3 ∧
    (lamp (setLamp u 0 { lamp u 0 with settling := true }) 0).settling = true := by decide +kernel

/-- The stop lamp of group 1 driven on, with nine LIT results while the group is red-out, and with two OUT results. -/
def proving (lit : Nat) (r : Option Mismatch) (n : Nat) (redOut : GroupSet) : State :=
  let s := setLamp junction 0
    { LampRec.reset with command := .on, output := true, litCount := lit, run := r, mismatches := n }
  { s with lou := { s.lou with redOut := redOut } }

/-- R158, R160: at the tenth LIT result a red-out group leaves the red-out set, at the ninth it does not; at the third OUT
result a group becomes red-out, at the second it does not. -/
theorem test_meets_JunctionClockAdvanceJudgesLamps_redOut :
    (let u := advanceCount (takeDue (proving 9 none 0 1))
     (lamp u 0).litCount = 9 ∧ (lamp u 0).settling = false ∧ (lamp u 0).output = true ∧ u.lou.redOut = 1) ∧
    (run (.junctionClockAdvance [100]) (proving 9 none 0 1)).lou.redOut = 0 ∧
    (run (.junctionClockAdvance [100]) (proving 8 none 0 1)).lou.redOut = 1 ∧
    (run (.junctionClockAdvance []) (proving 0 (some .out) 2 0)).lou.redOut = 1 ∧
    (run (.junctionClockAdvance []) (proving 0 (some .out) 1 0)).lou.redOut = 0 := by decide +kernel

/-- R152, R153: a raising at the threshold of three, one of a re-armed run, and a proceed lamp of group 1 that is lit
uncommanded for the second time, with the fault aspect; before the threshold none raises. -/
theorem test_meets_JunctionClockAdvanceJudgesLamps_raises :
    let armed := fun (b : Bool) => setLamp junction 0 { LampRec.reset with
      command := .on, output := true, run := some .out, mismatches := 5, rearmed := b }
    let lit := fun (n : Nat) => setLamp junction 2 { LampRec.reset with run := some .uncommanded, mismatches := n }
    let after := fun (s : State) => run (.junctionClockAdvance [0, 0, 100]) s
    let code := FaultKind.lampOut.code
    ((after (proving 0 (some .out) 2 0)).mfs.faults[code].latched = true ∧
      (after (proving 0 (some .out) 2 0)).mfs.faults[code].detail.getLsbD 0 = true ∧
      (lamp (after (proving 0 (some .out) 1 0)) 0).lastRaised = none) ∧
    ((lamp (after (armed true)) 0).lastRaised = some .out ∧ (lamp (after (armed false)) 0).lastRaised = none ∧
      (lamp (after (armed true)) 0).rearmed = false) ∧
    (lamp (after (lit 1)) 2).lastRaised = some .uncommanded ∧ (after (lit 1)).mfs.mode = .flash ∧
    (after (lit 1)).mfs.fltDriven = true ∧ (lamp (after (lit 0)) 2).lastRaised = none ∧
    (after (lit 0)).mfs.mode = .normal := by decide +kernel

/-- The proceed lamps of groups 1 and 2 carry more than a tenth of their 100 mA in BRIGHT. -/
theorem test_meets_ConflictTakesFaultAspect :
    let u := advanceCount (takeDue junction)
    u.mfs.mode = .normal ∧ conflicts u 0 1 = true ∧
    (∀ k : Group, k = 0 ∨ k = 1 → usedLamp u.cs.image (proceedLamp k) = true ∧ (lamp u (proceedLamp k)).settling = false ∧
      10 * (nominalCurrent u.cs.image k 2 * (match u.lou.dim with | .bright => 100 | .dim => 40)) <
        min 4000 (([0, 0, 11, 0, 0, 11] : List Nat).getD (proceedLamp k).val 0) * 10000) := by decide +kernel

/-- A state at a completion and one that is not; an arming of 10,001 ms and one of 10,000 ms. -/
theorem test_meets_DetectorClockSamplesLineAndArmingsLapse :
    let s := setApr (atDetector 20000 junction) 2 { ApproachRec.reset with armedA := some 9999 }
    ((∀ ch, (det s ch).sampled = false) ∧ s.mfs.externalRun ≠ 100) ∧
    (State.reset.du.sampleIn ≠ 0 ∧ (det (setDet s 0 { det s 0 with sampled := true }) 0).sampled = true) ∧
    (s.du.sampleIn = 0 ∧ channelKind s.cs.image 0 = .loop ∧ channelKind (detectorRow 1 1 1 5 1 1 s).cs.image 1 = .contact) ∧
    ((apr s 2).armedA = some 9999 ∧ 10000 < elapsed (dnow s) 9999) ∧ elapsed (dnow s) 10000 = 10000 ∧
    (apr s 0).armedA = none := by decide +kernel

/-- R78: a completion ten counts after the last one, round the wrap, and sample rows at it and beside it. -/
theorem test_sample_completions :
    let before := { State.reset with du := { State.reset.du with clock := 4294967295, sampleIn := 1 } }
    let here := atDetector 0 State.reset
    (run (.detectorClockAdvance false) before).du.sampleIn = 0 ∧ (run (.detectorClockAdvance false) before).du.clock = 0 ∧
    (run (.detectorClockAdvance false) here).du.sampleIn = 9 ∧
    (det (run (.loopSample 1 (some 40000)) here) 0).validRun = 1 ∧
    (det (run (.loopSample 1 (some 40000)) before) 0).validRun = 0 := by decide +kernel

/-- R78: a channel that has sampled at a completion samples at the next one again. -/
theorem test_sample_at_each_completion :
    let once := run (.loopSample 1 (some 40000)) (atDetector 0 State.reset)
    let next := atDetector 10 (run (.detectorClockAdvance false) once)
    (det once 0).sampled = true ∧ (det next 0).sampled = false ∧
    (det (run (.loopSample 1 (some 40000)) once) 0).validRun = 1 ∧
    (det (run (.loopSample 1 (some 40000)) next) 0).validRun = 2 := by decide +kernel

theorem test_meets_ExternalFaultEntersFaultAspect :
    let s := { junction with mfs := { junction.mfs with externalRun := 100 } }
    s.mfs.externalRun = 100 ∧ s.mfs.mode = .normal ∧ (inMode .dark none none s).mfs.mode = .dark := by decide +kernel

/-- Channel 1, a LOOP with role DEMAND for group 1, max presence 10 s and budget 5; channel 2, a CONTACT alike. -/
def watched : State := detectorRow 0 0 1 5 1 1 (detectorRow 1 1 1 5 1 1 (atDetector 70000 junction))

/-- Channel 1 or 2 of that junction with a record of its own. -/
def seeing (ch : Channel) (r : DetRec) : State := setDet watched ch r

/-- A record in a state with baseline 40,000. -/
def tuned (st : DetState) : DetRec := { DetRec.reset st false 5 with baseline := some 40000 }

/-- 39,921 deviates by 19 and 39,920 by 20, the on-threshold; 39,941 by 14 and 39,940 by 15, the off-threshold. -/
theorem test_meets_LoopSampleEntersAndExits :
    (channelKind watched.cs.image 0 = .loop ∧ onThreshold watched.cs.image 0 = 20 ∧ offThreshold watched.cs.image 0 = 15) ∧
    ((det (seeing 0 { tuned .vacant with aboveRun := 1 }) 0).state = .vacant ∧
      (det (seeing 0 { tuned .vacant with aboveRun := 1 }) 0).aboveRun = 1 ∧
      (det (seeing 0 { tuned .vacant with aboveRun := 1 }) 0).sampled = false) ∧
    (det (seeing 0 { tuned .occupied with belowRun := 2 }) 0).belowRun = 2 ∧
    deviation 40000 39920 = 20 ∧ deviation 40000 39921 = 19 ∧ deviation 40000 39940 = 15 ∧ deviation 40000 39941 = 14 ∧
    deviation 16000 110000 = -9999 ∧ watched.du.sampleIn = 0 ∧
    ((det (seeing 0 (tuned .vacant)) 0).aboveRun = 0 ∧ (det (seeing 0 { tuned .occupied with belowRun := 1 }) 0).belowRun < 2 ∧
      (det (seeing 0 (tuned .occupied)) 0).belowRun < 2) ∧
    (((39936 : Int) - 40000).tdiv 64 = -1 ∧ ((39937 : Int) - 40000).tdiv 64 = 0 ∧ ((110000 : Int) - 16000).tdiv 64 = 1468) ∧
    (det (run (.loopSample 1 (some 39920)) (seeing 0 (tuned .vacant))) 0).aboveRun = 1 ∧
    (det (run (.loopSample 1 (some 39920)) (seeing 0 (tuned .vacant))) 0).baseline = some 39999 := by decide +kernel

/-- Channel 1 as the extension detector of group 1, with the references as they stand. -/
def extending (r : DetRec) : State := detectorRow 0 0 1 5 2 1 (seeing 0 r)

/-- R69: an exit and the end of a tuning with forced demand set the last gap exit of group 1; an entry and the end of a
tuning without it do not, nor does the exit of a channel that extends nothing. -/
theorem test_meets_LoopSampleEntersAndExits_gaps :
    (channelKind (extending (tuned .vacant)).cs.image 0 ≠ .unused ∧
      channelRole (extending (tuned .vacant)).cs.image 0 = .extend ∧
      (groupRefs (extending (tuned .vacant)).cs.image 0).contains 0 = true ∧
      groupKind (extending (tuned .vacant)).cs.image 0 ≠ .walk ∧ channelRole watched.cs.image 0 = .demand) ∧
    (let gap := fun (p : Nat) (s : State) => (run (.loopSample 1 (some p)) s).fbs.lastGapExit[(0 : Group)]
     gap 40000 (extending { tuned .occupied with belowRun := 2 }) = some 1000 ∧
     gap 39000 (extending { tuned .vacant with aboveRun := 1 }) = none ∧
     gap 40000 (seeing 0 { tuned .occupied with belowRun := 2 }) = none ∧
     gap 40000 (extending { tuned .tuning with validRun := 31, forced := true }) = some 1000 ∧
     gap 40000 (extending { tuned .tuning with validRun := 31 }) = none) := by decide +kernel

theorem test_meets_LoopSampleTunes :
    (det (seeing 0 { tuned .tuning with validRun := 31 }) 0).validRun = 31 ∧
    (det (seeing 0 { tuned .tuning with validRun := 30 }) 0).validRun < 31 ∧
    ((det (seeing 0 { tuned .fault with validRun := 7 }) 0).validRun = 7 ∧
      (det (seeing 0 { tuned .fault with validRun := 7 }) 0).sampled = false) ∧
    (det (seeing 0 { tuned .fault with validRun := 6 }) 0).validRun < 7 ∧
    channelKind (seeing 0 (tuned .tuning)).cs.image 0 = .loop ∧ (seeing 0 (tuned .tuning)).du.sampleIn = 0 := by
  decide +kernel

/-- Channel 1 in NOISY with baseline 40,000, present since `x`. -/
def noisily (inner : InnerState) (x : Time) (above below : Nat) : State :=
  seeing 0 { DetRec.reset .noisy true 0 with
    baseline := some 40000, inner := some inner, presenceStart := some x, aboveRun := above, belowRun := below, validRun := 31 }

/-- The inner states of NOISY, with a max presence of 10 s that has run and that has not: an inner entry and its first
sample, an inner exit and its first samples, an inner long presence, and the end of an inner tuning. -/
theorem test_meets_LoopSampleTunes_noisy :
    maxPresence watched.cs.image 0 = 10 ∧ elapsed (dnow watched) 60000 = 10000 ∧ elapsed (dnow watched) 59999 = 10001 ∧
    (let r := fun (i : InnerState) (x : Time) (a b p : Nat) => det (run (.loopSample 1 (some p)) (noisily i x a b)) 0
     ((r .vacant 1 1 0 39920).inner = some .occupied ∧ (r .vacant 1 1 0 39920).presenceStart = some 70000 ∧
       (r .vacant 1 0 0 39920).aboveRun = 1 ∧ (r .vacant 1 1 0 39921).baseline = some 39999) ∧
     ((r .occupied 59999 0 2 39941).inner = some .vacant ∧ (r .occupied 59999 0 2 39941).presenceStart = some 59999 ∧
       (r .occupied 60000 0 1 39941).belowRun = 2 ∧ (r .occupied 60000 0 1 39940).inner = some .occupied ∧
       (r .occupied 59999 0 1 39940).inner = some .tuning) ∧
     (r .tuning 1 0 0 40000).inner = some .vacant ∧ (r .tuning 1 0 0 40000).state = .noisy) := by decide +kernel

theorem test_meets_LoopSampleFaultsAndTurnsNoisy :
    (∀ q, some 15999 = some q → q < 16000 ∨ 110000 < q) ∧ (∀ q, some 110001 = some q → q < 16000 ∨ 110000 < q) ∧
    ((det (seeing 0 { tuned .noisy with invalidRun := 7 }) 0).state ≠ .fault ∧
      (det (seeing 0 { tuned .noisy with invalidRun := 7 }) 0).invalidRun = 7) ∧
    (innerOf (det (seeing 0 { tuned .vacant with budget := 1, invalidRun := 6 }) 0).state = some .vacant ∧
      (det (seeing 0 { tuned .vacant with budget := 1, invalidRun := 6 }) 0).budget = 1 ∧
      (det (seeing 0 { tuned .vacant with budget := 1, invalidRun := 6 }) 0).invalidRun < 7) ∧
    (1 < (det (seeing 0 { tuned .occupied with budget := 2 }) 0).budget ∧ (seeing 0 (tuned .noisy)).du.sampleIn = 0) :=
  ⟨fun q h => by cases h; omega, fun q h => by cases h; omega, by decide +kernel, by decide +kernel, by decide +kernel⟩

theorem test_meets_SamplePostsDemand :
    (channelKind watched.cs.image 0 = .loop ∧ channelKind watched.cs.image 1 = .contact ∧
      (det watched 0).sampled = false ∧ (det watched 1).sampled = false ∧ watched.du.sampleIn = 0) ∧
    (channelRole watched.cs.image 0).isDemand = true ∧ (groupRefs watched.cs.image 0).contains 0 = true ∧
    (det watched 0).forced = true := by decide +kernel

theorem test_meets_ContactSampleClassifies :
    (channelKind watched.cs.image 1 = .contact ∧ (det (seeing 1 { tuned .vacant with aboveRun := 2 }) 1).aboveRun = 2 ∧
      (det (seeing 1 { tuned .vacant with aboveRun := 2 }) 1).sampled = false ∧ (seeing 1 (tuned .vacant)).du.sampleIn = 0) ∧
    (det (seeing 1 { tuned .occupied with belowRun := 2 }) 1).belowRun = 2 ∧
    (det (seeing 1 { tuned .longPresence with belowRun := 2 }) 1).state = .longPresence ∧
    ((det (seeing 1 { tuned .tuning with aboveRun := 2, level := some true }) 1).aboveRun = 2 ∧
      (det (seeing 1 { tuned .tuning with aboveRun := 2, level := some true }) 1).level = some true) ∧
    ((det (seeing 1 (tuned .tuning)) 1).level ≠ some false ∧ (det (seeing 1 { tuned .occupied with belowRun := 1 }) 1).belowRun < 2 ∧
      (det (seeing 1 { tuned .longPresence with belowRun := 1 }) 1).belowRun < 2 ∧
      (det (seeing 1 { tuned .tuning with aboveRun := 1, level := some true }) 1).aboveRun < 2) := by decide +kernel

/-- R94, R95: three pressed samples after a write as CONTACT end its TUNING in OCCUPIED, with the presence beginning there
and no entry; a released one between them begins the count again. -/
theorem test_contact_tuning_counts :
    let a := contactSampled 100 true (tuned .tuning)
    let b := contactSampled 110 true a
    let c := contactSampled 120 true b
    (a.aboveRun, b.aboveRun, (contactSampled 120 false b).aboveRun) = (1, 2, 1) ∧ c.state = .occupied ∧
    c.presenceStart = some 120 ∧ c.entryCount = 0 ∧ c.lastEntry = none ∧ c.forced = false := by decide +kernel

/-- Present since 59,999, 10,001 ms ago, with a max presence of 10 s. -/
def overlong : DetRec :=
  { tuned .occupied with presenceStart := some 59999, sampled := true, lastResult := some .valid, lastP := some 39000 }

theorem test_meets_LongPresenceForcesDemand :
    (∀ ch : Channel, ch = 0 ∨ ch = 1 → (det (seeing ch overlong) ch).state = .occupied ∧
      (det (seeing ch overlong) ch).sampled = true ∧ maxPresence (seeing ch overlong).cs.image ch = 10 ∧
      (det (seeing ch overlong) ch).presenceStart = some 59999 ∧
      1000 * 10 + 1 = elapsed (dnow (seeing ch overlong)) 59999) ∧
    channelKind watched.cs.image 0 = .loop ∧ channelKind watched.cs.image 1 = .contact ∧
    (channelRole watched.cs.image 0).isDemand = true ∧ (groupRefs watched.cs.image 0).contains 0 = true ∧
    (grp (run (.loopLongPresence 1) (seeing 0 overlong)) 0).demand = true ∧
    (grp (run (.contactLongPresence 2) (seeing 1 overlong)) 0).demand = true := by decide +kernel

/-- A window that started 60,000 ms ago. -/
def windowed (st : DetState) (inner : Option InnerState) (budget : Nat) : State :=
  seeing 0 { DetRec.reset st true budget with inner := inner, windowStart := 10000, sampled := true }

theorem test_meets_WindowCloseReloadsBudget :
    ((det (windowed .noisy (some .vacant) 1) 0).sampled = true ∧
      elapsed (dnow watched) (det (windowed .noisy (some .vacant) 1) 0).windowStart = 60000 ∧
      (det (windowed .noisy (some .vacant) 1) 0).state = .noisy ∧
      (det (windowed .noisy (some .vacant) 1) 0).inner = some .vacant ∧
      0 < (det (windowed .noisy (some .vacant) 1) 0).budget) ∧
    (det (windowed .noisy (some .tuning) 0) 0).budget = 0 ∧ (det (windowed .fault none 3) 0).state = .fault ∧
    (det (windowed .vacant none 3) 0).state ≠ .occupied ∧ channelKind (windowed .fault none 3).cs.image 0 = .loop ∧
    (let s := seeing 0 { overlong with presenceStart := some 60000, windowStart := 10000 }
     (det s 0).state = .occupied ∧ elapsed (dnow s) 60000 = 1000 * maxPresence s.cs.image 0 ∧
       (det (run (.windowClose 1) s) 0).state = .occupied) ∧
    (det (run (.windowClose 1) (seeing 0 { overlong with windowStart := 10000 })) 0).state = .tuning := by decide +kernel

/-- The detector rows that set the demand of group 1, with group 2 in PROCEED_EXT at the end of each. -/
theorem test_meets_TerminationsAreTaken_samples :
    let at2 := fun (ch : Channel) (r : DetRec) => setGrp (owned .controller 2 (targeted 2 (seeing ch r))) 1
      { GroupRec.reset with state := .proceedExt, proceedStart := 980 }
    let sets := fun (c : Instr) (s : State) => decide ((grp s 0).demand = false) && (grp (run c s) 0).demand &&
      decide ((grp (run c s) 1).state = .proceedExt)
    sets (.loopSample 1 (some 39920)) (at2 0 { tuned .vacant with aboveRun := 1 }) = true ∧
    sets (.contactSample 2 true) (at2 1 { tuned .vacant with aboveRun := 2 }) = true ∧
    sets (.loopLongPresence 1) (at2 0 overlong) = true ∧ sets (.contactLongPresence 2) (at2 1 overlong) = true ∧
    sets (.windowClose 1) (at2 0 { overlong with windowStart := 10000 }) = true := by decide +kernel

/-- Approach 3 with its check-in loops A, B and its check-out loop, channels 21, 22 and 23, in the given states, the A
loop's entry armed at `x`. -/
def looped (a b : DetState) (x : Option Time) (l : List Entry) : State :=
  let s := setApr (atDetector 20000 (listing l junction)) 2 { ApproachRec.reset with armedA := x }
  setDet (setDet (setDet s 20 { tuned a with aboveRun := 1 }) 21 { tuned b with aboveRun := 1 }) 22
    { tuned .vacant with aboveRun := 1 }

/-- An entry at the second sample above the on-threshold of 5, on each loop; the paired B entry at the limits of 10,000
ms and above; check-outs with no entry, a served one, a due one and one not due; a loop lost at its eighth invalid
sample; and the list with room, full of weaker entries, and full of stronger ones. -/
theorem test_meets_LoopEntriesArmCheckInAndCheckOut :
    let s := looped .vacant .vacant (some 10000) []
    (∀ ch : Channel, ch = 20 ∨ ch = 21 ∨ ch = 22 →
      channelKind s.cs.image ch = .loop ∧ (det s ch).sampled = false ∧ (det s ch).state = .vacant ∧
      1 ≤ (det s ch).aboveRun ∧ (det s ch).baseline = some 40000 ∧ onThreshold s.cs.image ch = 5 ∧
      ∀ x, x ≠ 2 → loopA s.cs.image x ≠ some ch ∧ loopB s.cs.image x ≠ some ch ∧ loopOut s.cs.image x ≠ some ch) ∧
    (s.du.sampleIn = 0 ∧ deviation 40000 39980 = 5) ∧
    (loopA s.cs.image 2 = some 20 ∧ loopB s.cs.image 2 = some 21 ∧ loopOut s.cs.image 2 = some 22) ∧
    (det (looped .vacant .tuning none []) 21).state = .tuning ∧
    (elapsed (dnow s) 10000 = 10000 ∧ elapsed (dnow s) 9999 = 10001 ∧ (apr (looped .vacant .vacant none []) 2).armedA = none ∧
      (det (looped .fault .vacant none []) 20).state = .fault) ∧
    channelRole s.cs.image 22 = .none ∧
    ((entryOf .noted none).ea = 1109 ∧ 2 ^ 31 ≤ (jnow s - (1109 : Time)).toNat ∧
      (jnow (atTime 1109 s) - (1109 : Time)).toNat < 2 ^ 31 ∧ (entryOf .extending none).approach = 2) ∧
    { tuned .vacant with invalidRun := 7 }.invalidRun = 7 ∧
    (s.pu.list.length < 8 ∧ (List.replicate 8 { entryOf .noted none with rank := 3 }).length = 8 ∧
      max (loopRank s.cs.image 2) 1 < 3 ∧ (2 : Rank) ≤ max (loopRank s.cs.image 2) 1 ∧
      (inMode .dark none none s).mfs.mode ≠ .startUp) := by
  refine ⟨by decide +kernel, by decide +kernel, by decide +kernel, by decide +kernel, by decide +kernel, by decide +kernel,
    by decide +kernel, by decide +kernel, by decide +kernel⟩

/-- The receiver at the last CRC byte of a frame. -/
def checking (buf : List Byte) : State :=
  { junction with clp := { junction.clp with receiver := .check, buffer := buf } }

/-- The bytes of a frame after the start byte, less the last. -/
def almost (address kind : Byte) (payload : List Byte) : List Byte :=
  let body := [address, kind] ++ natBytes 1 payload.length ++ payload
  body ++ [(crc16 body).extractLsb' 8 8]

/-- The last byte of that frame. -/
def lastByte (address kind : Byte) (payload : List Byte) : Byte :=
  (crc16 ([address, kind] ++ natBytes 1 payload.length ++ payload)).extractLsb' 0 8

theorem test_meets_InvalidFrameIsDiscarded :
    (∀ a : Byte, a = 0x10 ∨ a = 0x15 ∨ a = 0x00 ∨ a = 0x50 →
      (checking (almost a 1 [])).clp.receiver = .check ∧ 3 ≤ (checking (almost a 1 [])).clp.buffer.length ∧
      (checking (almost a 1 [])).clp.buffer.length + 1 = 5 + ((checking (almost a 1 [])).clp.buffer.getD 2 0).toNat ∧
      crcRight (almost a 1 [] ++ [lastByte a 1 []]) = true ∧ crcRight (almost a 1 [] ++ [lastByte a 1 [] + 1]) = false) ∧
    junction.clp.partAddress = 0 ∧ (0x15 : Byte).setWidth 4 ≠ (0 : BitVec 4) := by decide +kernel

/-- Frames from station 1 that carry a request, a kind outside the table, a kind not allowed to it, a wrong length; and,
below, bytes that the kinds of the last clauses refuse, each at its limit. -/
theorem test_meets_ValidFrameCarriesRequest :
    (∀ k : Byte, k = 0x02 ∨ k = 0x7E ∨ k = 0x30 → crcRight (almost 0x10 k [1] ++ [lastByte 0x10 k [1]]) = true ∧
      (checking (almost 0x10 k [1])).clp.buffer.length + 1 =
        5 + ((checking (almost 0x10 k [1])).clp.buffer.getD 2 0).toNat) ∧
    inFlight (checking (almost 0x10 2 [1])) = false ∧ ((0x10 : Byte).setWidth 4 = junction.clp.partAddress) ∧
    (0x10 : Byte).toNat / 16 = number (0 : Station) ∧ requestOf 0 0x02 [1] = some (.readGroups 1 1) ∧
    kindOf 0x7E = none ∧ (kindOf 0x30 = some .checkIn ∧ RequestKind.checkIn.allows 0 = false) ∧
    (kindOf 0x02 = some .readGroups ∧ RequestKind.readGroups.allows 0 = true ∧
      RequestKind.readGroups.lengthOk 2 = false) := by decide +kernel

theorem test_meets_ValidFrameCarriesRequest_encodings :
    (∀ x : RequestKind × Byte × Station × List Byte,
      x ∈ [(.clearEvents, 0x07, 0, [0, 0, 2, 0, 0]), (.clearFaults, 0x19, 0, [0, 0, 255, 0, 0]),
        (.checkIn, 0x30, 1, [0, 7, 1, 3, 0, 0, 2, 0, 0, 0, 0, 0, 0, 0]),
        (.checkIn, 0x30, 1, [0, 7, 1, 3, 0, 0, 0, 2, 0, 0, 0, 0, 0, 0]),
        (.checkIn, 0x30, 1, [0, 7, 1, 3, 0, 0, 0, 0, 0, 0, 0, 2, 0, 0]),
        (.checkIn, 0x30, 1, [0, 7, 1, 3, 0, 0, 0, 0, 0, 0, 1, 0, 0, 0]),
        (.checkIn, 0x30, 1, [0, 7, 1, 3, 0, 0, 0, 0, 0, 0, 0, 0, 0, 1]),
        (.modeRequest, 0x18, 0, [3]), (.cancelPriority, 0x32, 1, [2, 0, 0])] →
      kindOf x.2.1 = some x.1 ∧ x.1.allows x.2.2.1 = true ∧ x.1.lengthOk x.2.2.2.length = true ∧
        requestOf x.2.2.1 x.2.1 x.2.2.2 = none) ∧
    (∀ a : Byte, a = 0x10 ∨ a = 0x20 → crcRight (almost a 0x32 [2, 0, 0] ++ [lastByte a 0x32 [2, 0, 0]]) = true) := by
  decide +kernel

/-- A receiver in a state with some bytes stored. -/
def receiving (r : Receiver) (buf : List Byte) : State :=
  { junction with clp := { junction.clp with receiver := r, buffer := buf } }

theorem test_meets_ByteReceivedMovesReceiver :
    (receiving .hunt []).clp.receiver = .hunt ∧ (receiving .skip []).clp.receiver = .skip ∧
    (receiving .busy []).clp.receiver = .busy ∧ (receiving .header [0x10]).clp.buffer.length < 2 ∧
    (receiving .header [0x10, 1]).clp.buffer.length = 2 ∧ (200 : Byte).toNat ≤ 200 ∧ 200 < (201 : Byte).toNat ∧
    ((receiving .payload [0x10, 1, 2]).clp.receiver = .payload ∧ 3 + 1 < 3 + ([0x10, 1, 2].getD 2 0 : Byte).toNat ∧
      ¬(4 + 1 < 3 + ([0x10, 1, 2, 9].getD 2 0 : Byte).toNat) ∧ 4 + 1 ≠ 5 + ([0x10, 1, 2, 9].getD 2 0 : Byte).toNat) ∧
    ((receiving .check [0x10, 1, 0]).clp.receiver = .check ∧ 3 + 1 ≠ 5 + ([0x10, 1, 0].getD 2 0 : Byte).toNat) := by
  decide +kernel

theorem test_meets_SilenceOverrunAndReplyEndFrames :
    (receiving .check [0x10]).clp.receiver = .check ∧
    ((run (.readEvents 1) junction).clp.receiver = .busy ∧ (run (.readEvents 1) junction).clp.reply.isSome = true ∧
      (run (.readEvents 1) junction).clp.ignoring = false) ∧
    (let s := run .frameOverrun (run (.readEvents 1) junction)
     s.clp.receiver = .busy ∧ s.clp.reply.isSome = true ∧ s.clp.ignoring = true) := by decide +kernel

/-- A WRITE_CONFIG awaits its copy. -/
def copying : State := run (.writeConfig 1 4 1 [0, 0, 1]) flashing

theorem test_meets_RequestsTurnedAway :
    requestRow (.checkIn 1 0 0 1 0 false none none) = some (number (0 : Station), .checkIn) ∧
    inFlight junction = false ∧ RequestKind.checkIn.allows 0 = false ∧ inFlight copying = true := by decide +kernel

/-- The limits of each number: groups 1 and 24, channels 1 and 32, parts 1 and 8, kinds 0 and 11. -/
theorem test_meets_ReadsAnswerFromRecords :
    inFlight junction = false ∧ (1 : Byte).toNat = number (0 : Group) ∧ (24 : Byte).toNat = number (23 : Group) ∧
    24 < (25 : Byte).toNat ∧ (1 : Byte).toNat = number (0 : Channel) ∧ (32 : Byte).toNat = number (31 : Channel) ∧
    32 < (33 : Byte).toNat ∧ ((listing [entryOf .noted none] junction).pu.list[(1 : Byte).toNat - 1]?).isSome = true ∧
    ((listing (List.replicate 8 (entryOf .noted none)) junction).pu.list[(8 : Byte).toNat - 1]?).isSome = true ∧
    (listing (List.replicate 7 (entryOf .noted none)) junction).pu.list.length < (8 : Byte).toNat ∧
    ((9 : Byte).toNat = 9 ∧ (10 : Byte).toNat = 10 ∧ 10 < (11 : Byte).toNat) ∧
    (0 : Byte).toNat = (0 : Fin 12).val ∧ (11 : Byte).toNat = (11 : Fin 12).val ∧ 11 < (12 : Byte).toNat := by
  decide +kernel

theorem test_meets_ClearEventsRemovesListedKinds :
    inFlight junction = false ∧ (∃ n, 11 ≤ n ∧ ((0x0800 : BitVec 16).getLsbD n = true ∨ (0 : BitVec 16).getLsbD n = true)) ∧
    ∀ n, 11 ≤ n → (0x07FF : BitVec 16).getLsbD n = false ∧ (0x07FF : BitVec 16).getLsbD n = false := by
  refine ⟨by decide +kernel, ⟨11, by decide⟩, fun n hn => ?_⟩
  have h : (0x07FF : BitVec 16).getLsbD n = false := by
    by_cases hk : n < 16
    · interval_cases n <;> decide
    · exact BitVec.getLsbD_of_ge _ _ (by omega)
  exact ⟨h, h⟩

/-- The controller at its authority 2: refused by mode, rank and contest, a re-take, a rank that it changes, a take. -/
theorem test_meets_TakeSelectorByRankContest :
    inFlight junction = false ∧ (0 : Station) ≠ 1 ∧
    (2 : Rank).val = max (min 3 (2 : Byte).toNat) (authorityRank junction.cs.image 0).val ∧
    (flashing.mfs.mode ≠ .startUp ∧ flashing.mfs.mode ≠ .normal) ∧ junction.mfs.mode = .normal ∧ 3 < (4 : Byte).toNat ∧
    (3 : Byte).toNat ≤ 3 ∧
    ((owned .central 2 junction).sel.owner ≠ stationOwner 0 ∧ (owned .central 2 junction).sel.rank ≤ 2) ∧
    ((owned .controller 2 junction).sel.owner = stationOwner 0 ∧ (owned .controller 2 junction).sel.rank = 2) ∧
    ((owned .controller 3 junction).sel.owner = stationOwner 0 ∧ (owned .controller 3 junction).sel.rank ≠ 2) ∧
    (owned .fallback 3 junction).sel.owner ≠ stationOwner 0 ∧ (2 : Rank) < (owned .fallback 3 junction).sel.rank := by
  decide +kernel

theorem test_meets_ReleaseSelectorPassesOwnership :
    inFlight junction = false ∧ (owned .manual 0 junction).sel.owner = stationOwner 2 ∧
    (owned .manual 0 junction).sel.owner ≠ stationOwner 0 := by decide +kernel

theorem test_meets_StageRequestsSetTarget :
    inFlight junction = false ∧ (flashing.mfs.mode ≠ .startUp ∧ flashing.mfs.mode ≠ .normal) ∧
    (owned .controller 2 junction).sel.owner = stationOwner 0 ∧ (owned .fallback 3 junction).sel.owner ≠ stationOwner 0 ∧
    (∃ x y, inSet 3 x = true ∧ inSet 3 y = true ∧ conflicts junction x y = true) ∧
    (∀ x y, inSet 1 x = true → inSet 1 y = true → conflicts junction x y = false) ∧
    ((8 : Byte).toNat = number (7 : Stage) ∧ junction.sel.stages[(7 : Stage)] = 0) ∧ 8 < (9 : Byte).toNat ∧
    ((1 : Byte).toNat = number (0 : Stage) ∧ (sequencing true).sel.stages[(0 : Stage)] ≠ 0) := by decide +kernel

theorem test_meets_CallGroupsSetsDemand : inFlight junction = false ∧ (0 : Station) ≠ 1 := by decide +kernel

theorem test_meets_ModeRequestTowardsRest :
    inFlight junction = false ∧ State.reset.mfs.mode = .powerUp ∧ junction.mfs.mode = .normal ∧
    (inMode .startUp (some .suFlash) none junction).mfs.mode = .startUp ∧
    (inMode .closing (some .clAllred) (some .dark) junction).mfs.mode = .closing ∧
    (inMode .closing (some .clAllred) (some .dark) junction).mfs.goal ≠ some .flash ∧ flashing.mfs.mode = Goal.flash.mode ∧
    (flashing.mfs.mode.resting = true ∧ flashing.mfs.mode ≠ Goal.dark.mode) := by decide +kernel

theorem test_meets_ResumeStartsUpOrValidates :
    inFlight flashing = false ∧ (junction.mfs.mode ≠ .flash ∧ junction.mfs.mode ≠ .dark) ∧ flashing.mfs.mode = .flash ∧
    criticalLatched (withFault .conflict flashing) = true ∧ criticalLatched flashing = false ∧
    (flashing.cs.edited = false ∧ flashing.cs.mismatch = false) ∧
    (poke 0 [1] { flashing with cs := { flashing.cs with edited := true } }).cs.edited = true ∧
    (startUpFlashTime flashing.cs.image = 0 ∧ ∀ g, (lamp flashing (stopLamp g)).drive ≠ .tripped) := by decide +kernel

/-- The image, in canonical form, whose first `n` bytes are those of `f`. -/
def imageOf (f : Nat → Byte) (n : Nat) : Image :=
  (List.range n).filterMap fun a => if f a = factoryByte a then none else some (a, f a)

theorem imageByte_append_miss {m : Image} {l : Image} {a : Nat} (h : ∀ c ∈ m, c.1 ≠ a) :
    imageByte (m ++ l) a = imageByte l a := by
  induction m with
  | nil => rfl
  | cons c m ih =>
    obtain ⟨k, v⟩ := c
    have hk : k ≠ a := h (k, v) (by simp)
    simp only [List.cons_append, imageByte, if_neg hk]
    exact ih fun c hc => h c (by simp [hc])

theorem imageByte_append_hit {m : Image} {l : Image} {a : Nat} (h : imageByte m a ≠ factoryByte a ∨ ∀ c ∈ l, c.1 ≠ a) :
    imageByte (m ++ l) a = imageByte m a := by
  induction m with
  | nil =>
    rcases h with h | h
    · exact absurd rfl h
    · have := imageByte_append_miss (l := []) h
      simpa [imageByte] using this
  | cons c m ih =>
    obtain ⟨k, v⟩ := c
    simp only [List.cons_append, imageByte] at h ⊢
    split
    · rfl
    · rename_i hk
      rw [if_neg hk] at h
      exact ih h

theorem imageByte_imageOf (f : Nat → Byte) (n a : Nat) :
    imageByte (imageOf f n) a = if a < n then f a else factoryByte a := by
  have keys (n : Nat) : ∀ c ∈ imageOf f n, c.1 < n := by
    intro c hc
    simp only [imageOf, List.mem_filterMap, List.mem_range] at hc
    obtain ⟨x, hx, hc⟩ := hc
    split at hc
    · cases hc
    · cases hc; exact hx
  induction n with
  | zero => simp [imageOf, imageByte]
  | succ n ih =>
    have step : imageOf f (n + 1) = imageOf f n ++ if f n = factoryByte n then [] else [(n, f n)] := by
      simp only [imageOf, List.range_succ, List.filterMap_append]
      split <;> simp [*]
    rw [step]
    by_cases ha : a = n
    · subst ha
      rw [imageByte_append_miss fun c hc => (keys _ c hc).ne, if_pos (Nat.lt_succ_self a)]
      split
      · rename_i e
        exact e.symm
      · simp [imageByte]
    · rw [imageByte_append_hit, ih]
      · by_cases h : a < n
        · rw [if_pos h, if_pos (by omega)]
        · rw [if_neg h, if_neg (by omega)]
      · refine .inr fun c hc => ?_
        split at hc
        · cases hc
        · simp only [List.mem_singleton] at hc
          subst hc
          exact fun e => ha e.symm

theorem imageBytes_eq_map (m : Image) (a n : Nat) : imageBytes m a n = (List.range' a n).map (imageByte m) := by
  induction n generalizing a with
  | zero => rfl
  | succ n ih => simp [imageBytes, ih, List.range'_succ]

/-- A validated image's bytes: all groups NONE, all channels UNUSED, no approach in use, the matrix empty, every number
at the least of its range. -/
def plainByte (a : Nat) : Byte :=
  if a = 5 then 30
  else if 23 ≤ a ∧ a < 479 then [0, 0, 0, 50, 0, 0, 0, 30, 0, 10, 10, 0, 0, 0, 10, 0, 10, 0, 10].getD ((a - 23) % 19) 0
  else if 479 ≤ a ∧ a < 1055 then 255
  else if 1079 ≤ a ∧ a < 1431 then [2, 0, 5, 0, 20].getD ((a - 1079) % 11) 0
  else if 1431 ≤ a then
    [0, 0, 0, 0, 0, 0, 0, 0, 1, 244, 0, 100, 0, 100, 1, 244, 0, 0, 0, 0, 0, 0, 0, 0, 0, 50, 0, 1, 0, 1, 0, 1, 1].getD
      ((a - 1431) % 33) 0
  else factoryByte a

def plainImage : Image := imageOf plainByte 1695

/-- What the plain image's bytes read as. -/
def plainRead (a : Nat) : Byte := if a < 1695 then plainByte a else factoryByte a

theorem imageByte_plain : imageByte plainImage = plainRead := funext fun a => imageByte_imageOf plainByte 1695 a

set_option maxRecDepth 4000 in
theorem failingCheck_plain : failingCheck plainImage = none := by
  simp only [failingCheck, matrixForm, rawPresent, rawEntry, groupKind, intergreensCoverClearance, groupTimings,
    stagesCompatible, storedStage, approachesRight, approachExamined, tramRight, loopsRight, approachNamed, allNamedChannels, namedChannels, channelKind, speedsRight,
    referencesRight, fieldsInRange, recordBytes, imageNum, imageBytes_eq_map, imageByte_plain]
  decide +kernel

/-- R208: check 5 leaves out an approach whose tram group is 0, and examines the channels of every other, one whose tram
group names no group among them. -/
theorem test_check_five_examines :
    let contact := imageWriteBytes [] (detectorBase 20) [1]
    approachesRight (imageWriteBytes contact (approachBase 2) [0, 1, 21, 1, 21]) = true ∧
    approachesRight (imageWriteBytes contact (approachBase 2) [25, 1, 21]) = false ∧
    approachesRight (imageWriteBytes [] (approachBase 2) [200, 1, 21, 1, 21]) = false ∧
    approachesRight (imageWriteBytes [] (approachBase 2) [255, 1, 21, 1, 22]) = true := by decide +kernel

/-- The hypotheses of the validation: an image that fails the first check, and one that fails none. -/
theorem test_meets_ValidationCompletionAnswersResume_checks :
    (FailsCheck [] 1 ∧ ∀ k < 1, ¬FailsCheck [] k) ∧ ∀ k, ¬FailsCheck plainImage k :=
  ⟨(failingCheck_some [] 1).1 (by decide +kernel), (failingCheck_none plainImage).1 failingCheck_plain⟩

/-- The reset image fails check 1, its matrix holding an entry for every pair while the groups are of kind NONE; the
plain image passes, without and with a critical flag. -/
theorem test_meets_ValidationCompletionAnswersResume :
    (run (.modeRequestResume 1) { flashing with cs := { flashing.cs with mismatch := true } }).cs.validating = true ∧
    failingCheck [] = some 1 ∧ failingCheck plainImage = none ∧ startUpFlashTime plainImage = 0 ∧
    (∀ g, (lamp flashing (stopLamp g)).drive ≠ .tripped) ∧ criticalLatched flashing = false ∧
    criticalLatched (withFault .conflict flashing) = true := by
  refine ⟨by decide +kernel, by decide +kernel, failingCheck_plain, ?_, by decide +kernel, by decide +kernel,
    by decide +kernel⟩
  simp only [startUpFlashTime, imageNum, imageBytes_eq_map, imageByte_plain]
  decide +kernel

theorem test_meets_ClearFaultsClearsListedKinds :
    inFlight junction = false ∧ (∃ n, 12 ≤ n ∧ ((0x1000 : BitVec 16).getLsbD n = true ∨ (0 : BitVec 16).getLsbD n = true)) ∧
    (∀ n, 12 ≤ n → (0x0FFF : BitVec 16).getLsbD n = false ∧ (0x0FFF : BitVec 16).getLsbD n = false) ∧
    (junction.mfs.mode ≠ .flash ∧ junction.mfs.mode ≠ .dark ∧
      ∃ k : Fin 12, (1 : BitVec 16).getLsbD k.val = true ∧ criticalCode k = true) ∧
    (∀ k : Fin 12, (0x03F4 : BitVec 16).getLsbD k.val = true → criticalCode k = false) ∧
    (flashing.mfs.mode = .flash ∧ flashing.mfs.mode.resting = true ∧ (0x0040 : BitVec 16).getLsbD 6 = true ∧
      (lamp (setLamp flashing 0 { LampRec.reset with drive := .lockedOff, trips := 5 }) 0).drive = .lockedOff ∧
      (lamp flashing 0).drive ≠ .lockedOff ∧ junction.mfs.mode.resting = false) := by
  refine ⟨by decide +kernel, ⟨12, by decide⟩, fun n hn => ?_, by decide +kernel, by decide +kernel, by decide +kernel⟩
  have h : (0x0FFF : BitVec 16).getLsbD n = false := by
    by_cases hk : n < 16
    · interval_cases n <;> decide
    · exact BitVec.getLsbD_of_ge _ _ (by omega)
  exact ⟨h, h⟩

theorem test_meets_SetDimAndEnablePriority :
    (inFlight junction = false ∧ (0 : Byte) = Dim.bright.byte ∧ (1 : Byte) = Dim.dim.byte ∧ 1 < (2 : Byte).toNat) ∧
    ((1 : Byte).toNat ≤ 1 ∧ junction.pu.enabled = decide ((0 : Byte) = 1) ∧
      junction.pu.enabled ≠ decide ((1 : Byte) = 1) ∧
      { junction.pu with enabled := true }.enabled ≠ decide ((0 : Byte) = 1)) ∧
    (∀ g, (grp (run (.enablePriority 1 1) junction) g).state = (grp junction g).state) := by decide +kernel

/-- Every block's first and last record, the indexes beside them, and a code above 6. -/
theorem test_meets_ReadConfigReturnsRecord :
    inFlight flashing = false ∧ flashing.mfs.mode = .flash ∧ (junction.mfs.mode ≠ .flash ∧ junction.mfs.mode ≠ .dark) ∧
    6 < (7 : Byte).toNat ∧ ((0 : Byte) = 0 ∧ (1 : Byte) ≠ 0) ∧
    (∀ b : Fin 7, b.val ≠ 0 → [1, 4, 24, 24, 8, 32, 8].getD b.val 0 < [1, 5, 25, 25, 9, 33, 9].getD b.val 0 ∧
      0 < [1, 4, 24, 24, 8, 32, 8].getD b.val 0) := by decide +kernel

theorem test_meets_WriteConfigStoresClampedRecord :
    (inFlight flashing = false ∧ imageWf flashing.cs.image = true ∧ flashing.mfs.mode = .flash) ∧
    placeOf 7 0 = none ∧ (placeOf 6 8 = some (.approach 7) ∧ placeOf 0 0 = some .device) ∧
    ([0, 0] : List Byte).length ≠ (Place.stage 0).size ∧
    (∃ f ∈ recordFields .device (2 :: List.replicate 10 0), f.1.encodingOk f.2 = false ∨ f.1.codeOk f.2 = false) ∧
    (∀ f ∈ recordFields (.stage 0) [0, 0, 1], f.1.encodingOk f.2 = true ∧ f.1.codeOk f.2 = true) ∧
    copying.cs.copy.isSome = true := by decide +kernel

theorem test_meets_WriteConfigActsOnLiveRecords :
    (inFlight flashing = false ∧ flashing.mfs.mode = .flash ∧ ∀ g, (grp flashing g).state = .stop) ∧
    placeOf 2 1 = some (.group 0) ∧ placeOf 5 1 = some (.detector 0) ∧ placeOf 1 1 = some (.station 0) ∧
    placeOf 6 1 = some (.approach 0) ∧ placeOf 0 0 = some .device ∧
    (usedLamp flashing.cs.image 0 = true ∧ usedLamp (groupRow 0 0 20 50 60 30 10 10 100 flashing).cs.image 0 = false ∧
      usedLamp (groupRow 0 2 20 50 60 30 10 10 100 flashing).cs.image 0 = true) ∧
    (∀ p : Place, p = .device ∨ p = .group 0 ∨ p = .detector 0 ∨ p = .station 0 ∨ p = .approach 0 →
      (List.replicate p.size (0 : Byte)).length = p.size ∧
      ∀ f ∈ recordFields p (List.replicate p.size 0), f.1.encodingOk f.2 = true ∧ f.1.codeOk f.2 = true) := by
  refine ⟨by decide +kernel, by decide, by decide, by decide, by decide, by decide, by decide +kernel, ?_⟩
  rintro p (rfl | rfl | rfl | rfl | rfl) <;> decide +kernel

/-- An entry of the receiver on approach 3, and eight entries of the weakest rank. -/
def named : Entry := { entryOf .noted none with source := .receiver, ident := some 7 }

def crowd : List Entry := (List.range 8).map fun k => { entryOf .noted none with number := BitVec.ofNat 8 k, rank := 3, ci := 900 }

theorem test_meets_CheckInUpdatesMergesOrAdmits :
    inFlight junction = false ∧ (flashing.mfs.mode ≠ .startUp ∧ flashing.mfs.mode ≠ .normal) ∧
    approachInUse junction.cs.image 1 = none ∧ approachInUse junction.cs.image 9 = none ∧
    approachInUse junction.cs.image 3 = some 2 ∧
    (listing [named] junction).pu.list.find? (heldBy 7 2) = some named ∧
    ((listing [entryOf .noted none] junction).pu.list.find? (heldBy 7 2) = none ∧
      oldest (mergeable (jnow (atTime 1030 junction)) 2) [entryOf .noted none] = some (entryOf .noted none)) ∧
    (oldest (mergeable (jnow junction) 2) (crowd.take 7) = none ∧ (crowd.take 7).length < 8) ∧
    (oldest (mergeable (jnow junction) 2) crowd = none ∧ 8 ≤ crowd.length ∧ crowd.getLast?.isSome = true ∧
      crowd.find? (heldBy 7 2) = none) := by decide +kernel

theorem test_meets_CheckOutAndCancelRemoveEntries :
    inFlight junction = false ∧ (1 ≤ (3 : Byte).toNat ∧ (3 : Byte).toNat ≤ 8) ∧
    (listing [named] junction).pu.list.countP
      (fun e => decide (e.ident = some 7) && decide (number e.approach = (3 : Byte).toNat)) ≤ 1 ∧
    (listing [named] junction).pu.list.find?
      (fun e => decide (e.ident = some 7) && decide (number e.approach = (3 : Byte).toNat)) = some named ∧
    (listing [named] junction).pu.list.find? (fun e => decide (e.number.toNat = (0 : BitVec 16).toNat)) = some named ∧
    (255 : BitVec 16).toNat ≤ 255 ∧ 255 < (256 : BitVec 16).toNat ∧ 8 < (9 : Byte).toNat ∧ (0 : Byte).toNat = 0 := by
  decide +kernel

/-- The laws' premises at the state after reset, and a step from it that answers a next state. -/
theorem test_meets_StepKeepsImageAttentionAndLampCommands :
    (imageWf State.reset.cs.image = true ∧ AttnLaw State.reset ∧ step State.reset = .next State.reset) ∧
    CommandLaw State.reset :=
  ⟨⟨rfl, by unfold AttnLaw; decide +kernel, rfl⟩, fun ch => by revert ch; decide +kernel⟩

theorem test_meets_StepKeepsCreditsAndOwnerRank : CreditLaw State.reset ∧ RankLaw State.reset :=
  ⟨fun g => by revert g; decide +kernel, rfl⟩

theorem test_meets_StepKeepsPriorityListAndDetectorRecords : ListLaw [entryOf .noted none] ∧ ChannelLaw (tuned .vacant) where
  left :=
    { length := by decide +kernel
      numbers := by decide +kernel
      idents := by decide +kernel
      figures := by decide +kernel }
  right :=
    { baseline := fun b h => by cases h; omega
      last := fun h => by cases h
      tuning := fun h => by rcases h with h | h <;> simp [tuned, DetRec.reset] at h }

/-- Two entries of one rank, checked in 100 and 50 ds ago, in the order of R119. -/
def ordered : State :=
  let s := listing [{ entryOf .noted none with ci := 900, expiry := 2000 },
    { entryOf .noted none with number := 1, ci := 950, expiry := 2000, seq := 1 }] junction
  { s with pu := { s.pu with nextSeq := 2 } }

theorem test_meets_StepKeepsPriorityListAndDetectorRecords_order : OrderLaw ordered where
  order := by unfold StandsBefore; decide +kernel
  created := by decide +kernel
  recent := by
    intro e he
    have h : e.expiry = later e.ci (elapsed e.expiry e.ci) ∧ elapsed e.expiry e.ci ≤ 6000 + 750 + 1200 ∧
        elapsed (jnow ordered) e.ci ≤ elapsed e.expiry e.ci := by
      revert e; decide +kernel
    exact ⟨_, h.2.1, h.1, h.2.2⟩

theorem test_meets_StepKeepsFirstLaw : Orderly (inState 0 .proceedMin junction) where
  mode := by decide +kernel
  first := by decide +kernel
  rest := .inl rfl
  flight := fun h => absurd h (by decide +kernel)
  single := .inl rfl

end Sys2Proof.Tests
end

/-! ## Admission keeps the law of the list (R111, R116, R119, R122) -/

namespace Sys2Proof.Machine

theorem insertBefore_perm {α : Type} (before : α → α → Bool) (x : α) (l : List α) :
    (insertBefore before x l).Perm (x :: l) := by
  induction l with
  | nil => exact .refl _
  | cons y ys ih =>
    unfold insertBefore
    split
    · exact .refl _
    · exact (ih.cons y).trans (.swap x y ys)

/-- The law of the list does not read the order of the entries. -/
theorem ListLaw.perm {l k : List Entry} (h : k.Perm l) (hl : ListLaw l) : ListLaw k where
  length := h.length_eq ▸ hl.length
  numbers := (h.map _).nodup_iff.2 hl.numbers
  idents := h.symm.pairwise hl.idents fun r hb e => r (e.1 ▸ hb) ⟨e.1.symm, e.2.symm⟩
  figures e he := hl.figures e (h.subset he)

/-- R111: the figures of an entry agree. -/
def FiguresAgree (e : Entry) : Prop :=
  1 ≤ e.eta ∧ e.eta ≤ 6000 ∧ e.ea = later e.ci (e.eta - max 5 (e.eta / 8)) ∧
    e.la = later e.ci (e.eta + max 5 (e.eta / 8))

/-- An entry that shares its number and its ident with none may join. -/
theorem ListLaw.join {e : Entry} {l : List Entry} (hl : ListLaw l) (room : l.length < 8)
    (number : ∀ x ∈ l, x.number ≠ e.number)
    (ident : e.ident.isSome = true → ∀ x ∈ l, ¬(e.ident = x.ident ∧ e.approach = x.approach))
    (figures : FiguresAgree e) : ListLaw (e :: l) where
  length := room
  numbers := List.nodup_cons.2 ⟨fun h => by
    obtain ⟨x, hx, hn⟩ := List.mem_map.1 h
    exact number x hx hn, hl.numbers⟩
  idents := List.pairwise_cons.2 ⟨fun x hx hi => ident hi x hx, hl.idents⟩
  figures x hx := by
    rcases List.mem_cons.1 hx with rfl | hx
    · exact figures
    · exact hl.figures x hx

theorem freeNumber_free (start : BitVec 8) (l : List Entry) (h : l.length < 256) :
    ∀ e ∈ l, e.number ≠ freeNumber start l := by
  unfold freeNumber
  split
  · rename_i k hk
    have := List.find?_some hk
    simpa using this
  · rename_i hk
    exfalso
    rw [List.find?_eq_none] at hk
    have held : ∀ k ∈ List.range 256, k ∈ l.map fun e => (e.number - start).toNat := by
      intro k hk256
      have := hk k hk256
      simp only [Bool.not_eq_true, Bool.not_eq_false', List.any_eq_true, beq_iff_eq] at this
      obtain ⟨e, he, hn⟩ := this
      refine List.mem_map.2 ⟨e, he, ?_⟩
      rw [hn]
      have : k < 256 := List.mem_range.1 hk256
      bv_omega
    have := (List.subperm_of_subset List.nodup_range held).length_le
    simp only [List.length_range, List.length_map] at this
    omega

theorem clampEta_bounds (n : Nat) : 1 ≤ clampEta n ∧ clampEta n ≤ 6000 := clamp_bounds _ _ _ (by omega)

theorem withFigures_agree (m : Image) (ci : Time) (eta : Nat) (e : Entry) (h : 1 ≤ eta ∧ eta ≤ 6000) :
    FiguresAgree (withFigures m ci eta e) := ⟨h.1, h.2, rfl, rfl⟩

theorem reportEta_bounds (m : Image) (a : Approach) (r : Report) :
    1 ≤ (reportEta m a r).1 ∧ (reportEta m a r).1 ≤ 6000 := by
  unfold reportEta
  split <;> exact clampEta_bounds _

/-- R116: a new entry takes a free number, and its place. -/
theorem placeEntry_list (e : Entry) (s : State) (room : s.pu.list.length < 8)
    (ident : e.ident.isSome = true → ∀ x ∈ s.pu.list, ¬(e.ident = x.ident ∧ e.approach = x.approach))
    (figures : FiguresAgree e) (h : ListLaw s.pu.list) : ListLaw (placeEntry e s).pu.list :=
  .perm (insertBefore_perm _ _ _)
    (h.join room (freeNumber_free _ _ (by omega)) ident figures)

/-- R122: an entry that no entry of the list has the ident of is admitted within the law of the list. -/
theorem admitEntry_list (e : Entry) (s t : State) (ha : admitEntry e s = some t)
    (ident : e.ident.isSome = true → ∀ x ∈ s.pu.list, ¬(e.ident = x.ident ∧ e.approach = x.approach))
    (figures : FiguresAgree e) (h : ListLaw s.pu.list) : ListLaw t.pu.list := by
  unfold admitEntry at ha
  split at ha
  · rename_i room
    cases ha
    exact placeEntry_list e s room ident figures h
  · rename_i full
    split at ha
    · rename_i hn
      rw [List.getLast?_eq_none_iff] at hn
      exact absurd (by rw [hn]; decide) full
    · rename_i last _
      split at ha
      · cases ha
        have hd : (displace last s).pu.list = s.pu.list.dropLast := by simp only [displace, post_pu]
        have hlen := h.length
        refine placeEntry_list e _ ?_ ?_ figures ?_
        · rw [hd, List.length_dropLast]; omega
        · rw [hd]
          exact fun hi x hx => ident hi x ((List.dropLast_sublist _).subset hx)
        · rw [hd]
          exact h.sublist (List.dropLast_sublist _)
      · cases ha

/-- An entry of the list replaced by its new self, with its number kept. -/
theorem replaceEntry_list (old new : Entry) (s : State) (mem : old ∈ s.pu.list) (number : new.number = old.number)
    (ident : new.ident.isSome = true → ∀ x ∈ s.pu.list, x ≠ old → ¬(new.ident = x.ident ∧ new.approach = x.approach))
    (figures : FiguresAgree new) (h : ListLaw s.pu.list) : ListLaw (replaceEntry old new s).pu.list := by
  refine .perm (insertBefore_perm _ _ _) (.join (h.sublist List.filter_sublist) ?_ ?_ ?_ figures)
  · have : (s.pu.list.filter fun e => decide (e ≠ old)).length < s.pu.list.length :=
      List.length_filter_lt_length_iff_exists.2 ⟨old, mem, by simp⟩
    have := h.length
    omega
  · intro x hx hn
    obtain ⟨hx, hne⟩ := List.mem_filter.1 hx
    exact (of_decide_eq_true hne) (List.inj_on_of_nodup_map h.numbers hx mem (hn.trans number))
  · intro hi x hx
    obtain ⟨hx, hne⟩ := List.mem_filter.1 hx
    exact ident hi x hx (of_decide_eq_true hne)

/-- No two entries of a lawful list have one ident and approach. -/
theorem ListLaw.ident_unique {l : List Entry} (h : ListLaw l) {x y : Entry} (hx : x ∈ l) (hy : y ∈ l)
    (hi : x.ident.isSome = true) (e : x.ident = y.ident ∧ x.approach = y.approach) : x = y := by
  by_contra hne
  have : Std.Symm fun a b : Entry => a.ident.isSome = true → ¬(a.ident = b.ident ∧ a.approach = b.approach) :=
    ⟨fun _ _ r hb f => r (f.1 ▸ hb) ⟨f.1.symm, f.2.symm⟩⟩
  exact h.idents.forall hx hy hne hi e

end Sys2Proof.Machine

/-! ## Calm operations

Most operations start no group, order no mode and take or complete no request. `Calm s t` says what such an operation
does to all that the laws of Safety.lean read; it composes, and it keeps each of them. -/

namespace Sys2Proof.Machine

/-- `t` is `s` after an operation that starts no group, orders no mode and neither takes nor completes a request; the
mode stands or fault entry (R176) has taken the part to FLASH or DARK. -/
structure Calm (s t : State) : Prop where
  keeps : Keeps s t
  igm : t.igm = s.igm
  copy : t.cs.copy = s.cs.copy
  validating : t.cs.validating = s.cs.validating
  receiver : t.clp.receiver = s.clp.receiver
  reply : t.clp.reply = s.clp.reply
  mode : (t.mfs.mode = s.mfs.mode ∧ t.mfs.sub = s.mfs.sub ∧ t.mfs.goal = s.mfs.goal) ∨
    (s.mfs.mode.faultEnters = true ∧ t.mfs.mode.resting = true ∧ t.mfs.sub = none ∧ t.mfs.goal = none ∧
      ∀ g, (grp t g).state = .stop)
  underWay : ∀ g, (grp t g).state.underWay = true → (grp s g).state.underWay = true
  stopped : ∀ g, (grp s g).state = .stop → (grp t g).state = .stop

theorem Goal.mode_resting (g : Goal) : g.mode.resting = true := by cases g <;> rfl

theorem resting_no_faultEntry {m : Mode} (h : m.resting = true) : m.faultEnters = false := by
  cases m <;> first | rfl | cases h

namespace Calm

theorem refl (s : State) : Calm s s :=
  ⟨.refl s, rfl, rfl, rfl, rfl, rfl, .inl ⟨rfl, rfl, rfl⟩, fun _ => id, fun _ => id⟩

theorem trans {s t u : State} (h : Calm s t) (k : Calm t u) : Calm s u where
  keeps := h.keeps.trans k.keeps
  igm := k.igm.trans h.igm
  copy := k.copy.trans h.copy
  validating := k.validating.trans h.validating
  receiver := k.receiver.trans h.receiver
  reply := k.reply.trans h.reply
  mode := by
    rcases h.mode with ⟨m, sub, goal⟩ | ⟨enters, rests, sub, goal, stop⟩
    · rcases k.mode with ⟨m', sub', goal'⟩ | ⟨enters', rest'⟩
      · exact .inl ⟨m'.trans m, sub'.trans sub, goal'.trans goal⟩
      · exact .inr ⟨m ▸ enters', rest'⟩
    · rcases k.mode with ⟨m', sub', goal'⟩ | ⟨enters', _⟩
      · exact .inr ⟨enters, m' ▸ rests, sub'.trans sub, goal'.trans goal, fun g => k.stopped g (stop g)⟩
      · rw [resting_no_faultEntry rests] at enters'; cases enters'
  underWay g u := h.underWay g (k.underWay g u)
  stopped g e := k.stopped g (h.stopped g e)

/-- An operation that keeps the laws and leaves the group states, the matrix, the requests and the mode. -/
theorem of_keeps {s t : State} (k : Keeps s t) (groups : ∀ g, (grp t g).state = (grp s g).state) (igm : t.igm = s.igm)
    (cs : t.cs.copy = s.cs.copy ∧ t.cs.validating = s.cs.validating)
    (clp : t.clp.receiver = s.clp.receiver ∧ t.clp.reply = s.clp.reply)
    (mfs : t.mfs.mode = s.mfs.mode ∧ t.mfs.sub = s.mfs.sub ∧ t.mfs.goal = s.mfs.goal) : Calm s t :=
  ⟨k, igm, cs.1, cs.2, clp.1, clp.2, .inl mfs, fun g => by rw [groups]; exact id, fun g => by rw [groups]; exact id⟩

/-- A mode that no critical fault ends stands. -/
theorem mode_eq {s t : State} (h : Calm s t) (hm : s.mfs.mode.faultEnters = false) :
    t.mfs.mode = s.mfs.mode ∧ t.mfs.sub = s.mfs.sub ∧ t.mfs.goal = s.mfs.goal :=
  h.mode.resolve_right fun ⟨enters, _⟩ => by rw [hm] at enters; cases enters

theorem inFlight_eq {s t : State} (h : Calm s t) : inFlight t = inFlight s := by
  unfold inFlight; rw [h.copy, h.validating]

theorem conflicts_eq {s t : State} (h : Calm s t) (c g : Group) : conflicts t c g = conflicts s c g := by
  unfold conflicts intergreen; rw [h.igm]

theorem orderly {s t : State} (h : Calm s t) (o : Orderly s) : Orderly t where
  mode := by
    have legal := o.mode
    rcases h.mode with ⟨m, sub, goal⟩ | ⟨_, rests, sub, goal, _⟩
    · unfold modeLegal at legal ⊢; rw [m, sub, goal]; exact legal
    · unfold modeLegal
      rw [sub, goal]
      cases hm : t.mfs.mode <;> first | rfl | (rw [hm] at rests; cases rests)
  first c g hc hu := o.first c g (h.conflicts_eq c g ▸ hc) ⟨h.underWay c hu.1, h.underWay g hu.2⟩
  rest := by
    rcases h.mode with ⟨m, sub, _⟩ | ⟨_, _, _, _, stop⟩
    · rw [m, sub]
      exact o.rest.imp_right fun r => r.imp_right fun stop g => h.stopped g (stop g)
    · exact .inr (.inr stop)
  flight hf := by
    obtain ⟨rests, busy, none⟩ := o.flight (h.inFlight_eq ▸ hf)
    exact ⟨(h.mode_eq (resting_no_faultEntry rests)).1 ▸ rests, h.receiver.trans busy, h.reply.trans none⟩
  single := by rw [h.copy, h.validating]; exact o.single

theorem of_foldl {α : Type} (f : State → α → State) (h : ∀ s a, Calm s (f s a)) (l : List α) (s : State) :
    Calm s (l.foldl f s) := by
  induction l generalizing s with
  | nil => exact .refl s
  | cons a l ih => exact (h s a).trans (ih _)

/-- A branch that does nothing. -/
theorem of_ite {s t : State} {p : Prop} [Decidable p] (h : p → Calm s t) : Calm s (if p then t else s) := by
  split
  · rename_i hp; exact h hp
  · exact .refl s

/-- A step after another that may be left out. -/
theorem then_ite {s t u : State} {p : Prop} [Decidable p] (h : Calm s t) (k : Calm t u) :
    Calm s (if p then u else t) := by
  split
  · exact h.trans k
  · exact h

end Calm

theorem Follows.calm {own : Group → Bool} {s t : State} (h : Follows own s t) : Calm s t where
  keeps := h.keeps
  igm := h.igm
  copy := by rw [h.cs]
  validating := by rw [h.cs]
  receiver := by rw [h.clp]
  reply := by rw [h.clp]
  mode := .inl ⟨by rw [h.mfs], by rw [h.mfs], by rw [h.mfs]⟩
  underWay g := by
    rcases (h.groups g).state with e | ⟨_, e⟩
    · rw [e]; exact id
    · rw [e]; exact fun u => by cases u
  stopped g e := by
    rcases (h.groups g).state with f | ⟨f, _⟩
    · rw [f]; exact e
    · rw [e] at f; cases f

theorem Shuts.calm {s t : State} (h : Shuts s t) : Calm s t where
  keeps := h.keeps
  igm := h.igm
  copy := by rw [h.cs]
  validating := by rw [h.cs]
  receiver := by rw [h.clp]
  reply := by rw [h.clp]
  mode := h.mode.imp (fun ⟨m, sub, goal, _⟩ => ⟨m, sub, goal⟩)
    fun ⟨enters, m, sub, goal, _, _, stop⟩ => ⟨enters, m ▸ Goal.mode_resting _, sub, goal, stop⟩
  underWay g u := by rw [← (h.groups g).underWay u]; exact u
  stopped g e := ((h.groups g).stopped e).1

/-! ### The writers -/

theorem setLamp_calm (s : State) (ch : Lamp) (r : LampRec) : Calm s (setLamp s ch r) :=
  .of_keeps (setLamp_keeps s ch r) (fun _ => by simp) (by simp) (by simp) (by simp) (by simp)

theorem setLamps_calm (s : State) (f : Lamp → LampRec) : Calm s (setLamps s f) :=
  .of_keeps (setLamps_keeps s f) (fun _ => by simp) (by simp) (by simp) (by simp) (by simp)

theorem setApr_calm (s : State) (a : Approach) (r : ApproachRec) : Calm s (setApr s a r) :=
  .of_keeps (setApr_keeps s a r) (fun _ => by simp) (by simp) (by simp) (by simp) (by simp)

theorem setStation_calm (s : State) (i : Station) (r : StationRec) : Calm s (setStation s i r) :=
  .of_keeps (setStation_keeps s i r) (fun _ => by simp) (by simp) (by simp) (by simp) (by simp)

theorem setDet_calm (s : State) (ch : Channel) (r : DetRec) (h : ChannelLaw (det s ch) → ChannelLaw r) :
    Calm s (setDet s ch r) :=
  .of_keeps (setDet_keeps s ch r h) (fun _ => by simp) (by simp) (by simp) (by simp) (by simp)

/-- Group records that differ in no state, each credit within its cap as it was. -/
theorem setGroups_calm (s : State) (f : Group → GroupRec) (hs : ∀ g, (f g).state = (grp s g).state)
    (hc : ∀ g, (f g).credit = (grp s g).credit) : Calm s (setGroups s f) :=
  .of_keeps (setGroups_keeps s f fun g h => by rw [hc]; exact h) (fun g => by simp [hs]) (by simp) (by simp) (by simp)
    (by simp)

/-- A group that moves to a state which is no start. -/
theorem setGrp_calm (s : State) (g : Group) (r : GroupRec) (moving : (grp s g).state ≠ .stop)
    (hu : r.state.underWay = true → (grp s g).state.underWay = true)
    (hc : (grp s g).credit ≤ compensationCap s.cs.image g → r.credit ≤ compensationCap s.cs.image g) :
    Calm s (setGrp s g r) where
  keeps := setGrp_keeps s g r hc
  igm := by simp
  copy := by simp
  validating := by simp
  receiver := by simp
  reply := by simp
  mode := .inl (by simp)
  underWay c := by
    rw [grp_setGrp]
    split
    · rename_i e; rw [← e]; exact hu
    · exact id
  stopped c e := by
    have hne : g ≠ c := fun h => moving (by rw [h]; exact e)
    rw [grp_setGrp, if_neg hne]; exact e

theorem post_calm (e : Event) (s : State) : Calm s (post e s) := (post_shuts e s).calm
theorem postIf_calm (b : Bool) (e : Event) (s : State) : Calm s (postIf b e s) := (postIf_shuts b e s).calm
theorem detect_calm (k : FaultKind) (d : BitVec 72) (s : State) : Calm s (detect k d s) := (detect_shuts k d s).calm

/-- A state that differs in the priority unit's part alone, its list lawful where the one before was. -/
theorem Calm.of_pu {s t : State} (h : t = { s with pu := t.pu }) (l : ListLaw s.pu.list → ListLaw t.pu.list) :
    Calm s t :=
  .of_keeps (.of_list h l) (fun _ => by rw [h]; rfl) (by rw [h]) ⟨by rw [h], by rw [h]⟩ ⟨by rw [h], by rw [h]⟩
    ⟨by rw [h], by rw [h], by rw [h]⟩

/-- A state that differs in the selector's target fields, the sequencer's part and the lamp unit's alone. -/
theorem Calm.of_target {s t : State} (h : t = { s with sel := t.sel, fbs := t.fbs, lou := t.lou, fbsDue := t.fbsDue })
    (owner : t.sel.owner = s.sel.owner ∧ t.sel.rank = s.sel.rank) : Calm s t :=
  .of_keeps (.of_parts (by rw [h]) (by rw [h]) ⟨by rw [h], by rw [h], by rw [h]⟩ (by rw [h]) owner
      (fun _ => by rw [h]; rfl) (by rw [h]))
    (fun _ => by rw [h]; rfl) (by rw [h]) ⟨by rw [h], by rw [h]⟩ ⟨by rw [h], by rw [h]⟩
    ⟨by rw [h], by rw [h], by rw [h]⟩

/-! ### The selector and the sequencer -/

/-- R18. -/
theorem clearMaxedOut_calm (s : State) : Calm s (clearMaxedOut s) :=
  setGroups_calm s (fun g => { grp s g with maxedOut := false }) (fun _ => rfl) (fun _ => rfl)

/-- R58, R62. -/
theorem setTarget_calm (w : GroupSet) (s : State) : Calm s (setTarget w s) :=
  ((Calm.of_target (t := { s with sel := { s.sel with
      target := w, generation := s.sel.generation + 1, reported := false } }) rfl ⟨rfl, rfl⟩).trans
    (clearMaxedOut_calm _)).trans (setTarget_follows_written w s).calm

/-- R68. -/
theorem takeover_calm (s : State) : Calm s (takeover s) :=
  (Calm.of_target (t := { s with fbs := { s.fbs with current := takeoverStage s } }) rfl ⟨rfl, rfl⟩).trans
    (setTarget_calm _ _)

/-- R46, R48: a selector change to an owner at a rank within its station's authority. -/
theorem changeOwner_calm (o : Owner) (r : Rank) (s : State)
    (h : match ownerStation o with
      | some i => authorityRank s.cs.image i ≤ r
      | none => r = 3) : Calm s (changeOwner o r s) := by
  have k := changeOwner_keeps o r s h
  by_cases e : s.sel.owner = o ∧ s.sel.rank = r
  · rw [changeOwner_same o r s e]
    exact .refl s
  · have f := (changeOwner_follows o r s e).calm
    have w : Calm (ownerWritten o r s) (changeOwner o r s) := f
    unfold ownerWritten at w
    have states (g : Group) : (grp (ownerWritten o r s) g).state = (grp s g).state := by simp [ownerWritten, grp]
    have inert : (ownerWritten o r s).igm = s.igm ∧ (ownerWritten o r s).cs = s.cs ∧
        (ownerWritten o r s).clp = s.clp ∧ (ownerWritten o r s).mfs.mode = s.mfs.mode ∧
        (ownerWritten o r s).mfs.sub = s.mfs.sub ∧ (ownerWritten o r s).mfs.goal = s.mfs.goal := by
      simp [ownerWritten]
    obtain ⟨igm, cs, clp, mode, sub, goal⟩ := inert
    exact ⟨k, f.igm.trans igm, by rw [f.copy, cs], by rw [f.validating, cs], by rw [f.receiver, clp],
      by rw [f.reply, clp], by rw [← mode, ← sub, ← goal]; exact f.mode,
      fun g u => by rw [← states]; exact f.underWay g u, fun g e => f.stopped g (by rw [states]; exact e)⟩

/-- R51. -/
theorem passSelector_calm (i : Station) (s : State) : Calm s (passSelector i s) :=
  changeOwner_calm _ _ s (defaultOwner_lawful s _)

/-- R55. -/
theorem startUpDefault_calm (s : State) : Calm s (startUpDefault s) := by
  have h : defaultOwner s none = defaultOwner (setTarget 0 s) none := by
    unfold setTarget
    have e := (evalReached_follows (clearMaxedOut { s with sel := { s.sel with
      target := 0, generation := s.sel.generation + 1, reported := false } }))
    unfold defaultOwner station
    rw [e.clp, e.cs]
    simp
  unfold startUpDefault
  rw [h]
  exact (setTarget_calm 0 s).trans (changeOwner_calm _ _ _ (defaultOwner_lawful _ _))

/-! ### Lamps and phases -/

/-- R26, R158: the lamps follow, and tripped stop lamps make their groups red-out. -/
theorem followAndRedOut_calm (p : Group → Bool) (s : State) : Calm s (followAndRedOut p s) :=
  (lampsFollow_follows p s).calm.trans (.of_foldl _ (fun t g => (becomeRedOut_shuts g t).calm) _ _)

theorem beginAllRed_calm (s : State) : Calm s (beginAllRed s) :=
  (setGroups_calm s (fun g => allRedStarted (jnow s) (grp s g)) (fun _ => rfl) (fun _ => rfl)).trans
    (followAndRedOut_calm _ _)

/-- R157. -/
theorem liftLocks_calm (s : State) : Calm s (liftLocks s) := setLamps_calm _ _

theorem evaluateLamps_calm (currents : List Nat) (s : State) : Calm s (evaluateLamps currents s) := by
  unfold evaluateLamps
  dsimp only
  refine .trans ?_ (.of_foldl _ (fun t _ => (raiseConflict_shuts _ t).calm) _ _)
  exact (setLamps_calm s _).trans (.of_foldl _ (fun t _ => (handOn_shuts _ _ t).calm) _ _)

theorem overcurrentTrip_calm (ch : Lamp) (s : State) : Calm s (overcurrentTrip ch s) := by
  unfold overcurrentTrip
  refine .of_ite fun _ => ?_
  dsimp only
  exact ((setLamp_calm s ch _).trans (detect_calm _ _ _)).then_ite (becomeRedOut_shuts _ _).calm

theorem tripRetry_calm (ch : Lamp) (s : State) : Calm s (tripRetry ch s) := .of_ite fun _ => setLamp_calm _ _ _

theorem tripCounterReset_calm (ch : Lamp) (s : State) : Calm s (tripCounterReset ch s) :=
  .of_ite fun _ => setLamp_calm _ _ _

theorem dimBoundary_calm (s : State) : Calm s (dimBoundary s) := by
  unfold dimBoundary
  refine .of_ite fun _ => ?_
  split <;> exact .of_target rfl ⟨rfl, rfl⟩

theorem flashToggle_calm (s : State) : Calm s (flashToggle s) := setLamps_calm _ _

/-- R7. -/
theorem groupMoved_calm (g : Group) (s : State) : Calm s (groupMoved g s) := (groupMoved_follows g s).calm

/-- R10, R11. -/
theorem endPrepare_calm (g : Group) (s : State) : Calm s (endPrepare g s) := by
  unfold endPrepare prepareRun
  refine .of_ite fun h => ?_
  simp only [Bool.and_eq_true, decide_eq_true_eq] at h
  have start : Calm s (setGrp s g (enterProceedMin (jnow s) (grp s g))) :=
    setGrp_calm s g _ (by rw [h.1]; decide) (fun _ => by rw [h.1]; rfl) (fun _ => Nat.zero_le _)
  exact start.trans (groupMoved_calm _ _)

/-- R14: the evaluation of one group in PROCEED_EXT. -/
theorem evaluateGroup_calm (g : Group) (s : State) : Calm s (evaluateGroup g s) := by
  unfold evaluateGroup
  refine Calm.trans ?_ (postIf_calm _ _ _)
  rcases afterEvaluation_state s g with ⟨_, hc, he⟩ | ⟨_, e⟩
  · refine setGrp_calm s g _ (by rw [he]; decide) (fun u => by rw [hc] at u; cases u) fun h => ?_
    cases afterEvaluation_follows s g with
    | kept same _ => rw [same]; exact h
    | ended c n _ _ credit _ =>
      rw [credit]
      split
      · exact Nat.min_le_right _ _
      · exact h
  · rw [e, setGrp_grp]
    exact .refl s

/-- R12. -/
theorem endMinProceed_calm (g : Group) (s : State) : Calm s (endMinProceed g s) := by
  unfold endMinProceed minProceedRun
  refine .of_ite fun h => ?_
  simp only [Bool.and_eq_true, decide_eq_true_eq] at h
  have ext : Calm s (setGrp s g { grp s g with state := .proceedExt, stateEntry := jnow s }) :=
    setGrp_calm s g _ (by rw [h.1]; decide) (fun _ => by rw [h.1]; rfl) id
  exact (ext.trans (evaluateGroup_calm _ _)).trans (groupMoved_calm _ _)

/-- R15. -/
theorem maxOut_calm (g : Group) (s : State) : Calm s (maxOut g s) :=
  .of_ite fun _ => (evaluateGroup_calm _ _).trans (groupMoved_calm _ _)

/-! ### The priority unit's times and the gap-out -/

/-- R133. -/
theorem endHolds_calm (s : State) : Calm s (endHolds s) := by
  refine .of_pu rfl (.of_core ?_)
  show (s.pu.list.map fun e => if holdDue s e then released e else e).map Entry.core = _
  rw [List.map_map]
  refine List.map_congr_left fun e _ => ?_
  simp only [Function.comp]
  split <;> rfl

theorem walkArrival_calm (before s : State) : Calm s (walkArrival before s) := (walkArrival_follows before s).calm

theorem holdEnd_calm (s : State) : Calm s (holdEnd s) :=
  .of_ite fun _ => (endHolds_calm s).trans (walkArrival_calm _ _)

/-- R134. -/
theorem recallInhibitEnd_calm (s : State) : Calm s (recallInhibitEnd s) :=
  .of_ite fun _ => (Calm.of_pu (t := { s with pu := { s.pu with inhibitUntil := none } }) rfl id).trans
    ((walkWith_follows true _).calm.trans (overlayArrival_follows _ _).calm)

/-- R136. -/
theorem removeEntries_calm (p : Entry → Bool) (c : RemovalCause) (s : State) : Calm s (removeEntries p c s) := by
  refine .of_keeps (removeEntries_keeps p c s) (fun g => ?_) ?_ ?_ ?_ ?_ <;>
    simp [removeEntries, postRemoved, grp]

/-- R139. -/
theorem flush_calm (s : State) : Calm s (flush s) := by
  refine .of_keeps (flush_keeps s) (fun g => by simp [grp]) (by simp) (by simp) (by simp) ?_
  rw [flush_mfs]
  split <;> exact ⟨rfl, rfl, rfl⟩

/-- R137. -/
theorem expire_calm (s : State) : Calm s (expire s) :=
  .of_ite fun _ => (removeEntries_calm _ _ _).trans (walkArrival_calm _ _)

theorem fbsEvaluate_calm (s : State) : Calm s (fbsEvaluate s) :=
  (Calm.of_target (t := { s with fbsDue := false }) rfl ⟨rfl, rfl⟩).trans (settleStage_follows _).calm

theorem gapOut_calm (g : Group) (s : State) : Calm s (gapOut g s) := .of_ite fun _ => fbsEvaluate_calm s

theorem advanceStage_calm (s : State) : Calm s (advanceStage s) := .of_ite fun _ => fbsEvaluate_calm s

/-- R199, R53. -/
theorem silenceExpiry_calm (i : Station) (s : State) : Calm s (silenceExpiry i s) := by
  unfold silenceExpiry
  refine .of_ite fun _ => ?_
  dsimp only
  exact (((setStation_calm s i _).trans (detect_calm _ _ _)).trans (post_calm .stationSilent _)).then_ite
    (passSelector_calm _ _)

/-! ### The tram approaches -/

/-- R116, R122: an admission writes the priority unit's part, and posts the displacement it may bring. -/
theorem admitEntry_frame (e : Entry) (s t : State) (ha : admitEntry e s = some t) :
    t = { s with pu := t.pu, mfs := t.mfs } ∧
      t.mfs = { s.mfs with pending := t.mfs.pending, attnLow := t.mfs.attnLow } ∧ (AttnLaw s → AttnLaw t) := by
  have displaced (last : Entry) : AttnLaw (placeEntry e (displace last s)) := by
    unfold AttnLaw placeEntry displace
    exact post_attn _ _
  unfold admitEntry at ha
  split at ha
  · cases ha; exact ⟨rfl, rfl, id⟩
  · split at ha
    · cases ha; exact ⟨rfl, rfl, id⟩
    · split at ha
      · cases ha; exact ⟨rfl, rfl, fun _ => displaced _⟩
      · cases ha

/-- R116, R122. -/
theorem admitEntry_calm (e : Entry) (s t : State) (ha : admitEntry e s = some t)
    (ident : ListLaw s.pu.list → e.ident.isSome = true → ∀ x ∈ s.pu.list,
      ¬(e.ident = x.ident ∧ e.approach = x.approach))
    (figures : FiguresAgree e) : Calm s t := by
  obtain ⟨rest, mfs, attn⟩ := admitEntry_frame e s t ha
  refine .of_keeps ⟨by rw [rest], by rw [rest]; exact id, attn, fun h => admitEntry_list e s t ha (ident h) figures h,
      fun _ => by rw [rest]; exact id, fun _ => by rw [rest]; exact id, by rw [rest]; exact id⟩
    (fun _ => by rw [rest]; rfl) (by rw [rest]) ⟨by rw [rest], by rw [rest]⟩ ⟨by rw [rest], by rw [rest]⟩
    ⟨by rw [mfs], by rw [mfs], by rw [mfs]⟩

end Sys2Proof.Machine

namespace Sys2Proof.Machine

/-! ### The tram approaches -/

theorem loopCheckIn_calm (a : Approach) (eta : Nat) (clamped single : Bool) (s : State) :
    Calm s (loopCheckIn a eta clamped single s) := by
  unfold loopCheckIn
  dsimp only
  split
  · split
    · rename_i t ht
      exact (admitEntry_calm _ s t ht (fun _ h => by cases h)
        (withFigures_agree _ _ _ _ (clampEta_bounds _))).trans (walkArrival_calm _ _)
    · exact setApr_calm _ _ _
  · exact setApr_calm _ _ _

theorem disarm_calm (a : Approach) (s : State) : Calm s (disarm a s) := setApr_calm _ _ _

theorem entryOnA_calm (a : Approach) (stamp : Time) (s : State) : Calm s (entryOnA a stamp s) := by
  unfold entryOnA
  split
  · split
    · exact setApr_calm _ _ _
    · exact .refl s
  · exact loopCheckIn_calm _ _ _ _ _

theorem entryOnB_calm (a : Approach) (stamp : Time) (s : State) : Calm s (entryOnB a stamp s) := by
  unfold entryOnB
  dsimp only
  split <;> exact (disarm_calm a s).trans (loopCheckIn_calm _ _ _ _ _)

theorem removeEntry_calm (x : Entry) (c : RemovalCause) (s : State) : Calm s (removeEntry x c s) :=
  (removeEntries_calm _ c s).trans (walkArrival_calm _ _)

theorem loopCheckOut_calm (a : Approach) (s : State) : Calm s (loopCheckOut a s) := by
  unfold loopCheckOut
  split
  · exact removeEntry_calm _ _ _
  · exact setApr_calm _ _ _

theorem entryAtApproach_calm (ch : Channel) (stamp : Time) (a : Approach) (s : State) :
    Calm s (entryAtApproach ch stamp a s) := by
  unfold entryAtApproach
  dsimp only
  have onA := Calm.of_ite (p := loopA s.cs.image a = some ch) fun _ => entryOnA_calm a stamp s
  exact (onA.then_ite (entryOnB_calm a stamp _)).then_ite (loopCheckOut_calm a _)

theorem loopEntered_calm (ch : Channel) (s : State) : Calm s (loopEntered ch s) := by
  unfold loopEntered
  split
  · exact .of_foldl _ (fun t a => entryAtApproach_calm ch _ a t) _ _
  · exact .refl s

theorem loseB_calm (a : Approach) (s : State) : Calm s (loseB a s) := by
  unfold loseB
  split
  · exact (disarm_calm a s).trans (loopCheckIn_calm _ _ _ _ _)
  · exact .refl s

theorem loseAtApproach_calm (ch : Channel) (a : Approach) (s : State) : Calm s (loseAtApproach ch a s) := by
  unfold loseAtApproach
  dsimp only
  have lostA := Calm.of_ite (p := loopA s.cs.image a = some ch) fun _ => disarm_calm a s
  exact lostA.then_ite (loseB_calm a _)

theorem loopStateChanged_calm (ch : Channel) (st : DetState) (s : State) : Calm s (loopStateChanged ch st s) := by
  unfold loopStateChanged
  split
  · exact .refl s
  · exact .of_foldl _ (fun t a => loseAtApproach_calm ch a t) _ _

theorem armingLapse_calm (s : State) : Calm s (armingLapse s) := .of_ite fun _ => .of_pu rfl id

/-- R114: the updated entry keeps its ident, so that no other of a lawful list has it. -/
theorem updateEntry_calm (s : State) (r : Report) (a : Approach) (e : Entry)
    (he : s.pu.list.find? (heldBy r.ident a) = some e) : Calm s (replaceEntry e (updatedEntry s r e) s) := by
  have mem := List.mem_of_find?_eq_some he
  refine .of_pu rfl fun h => replaceEntry_list e _ s mem rfl (fun hi x hx hne => ?_)
    ⟨(reportEta_bounds _ _ r).1, (reportEta_bounds _ _ r).2, rfl, rfl⟩ h
  exact fun same => hne (h.ident_unique mem hx hi same).symm

/-- R115: a merged entry takes an ident that no entry of the approach has. -/
theorem mergeEntry_calm (s : State) (r : Report) (a : Approach) (e : Entry)
    (free : s.pu.list.find? (heldBy r.ident a) = none) (mem : e ∈ s.pu.list) (approach : e.approach = a) :
    Calm s (replaceEntry e (mergedEntry s r e) s) := by
  refine .of_pu rfl fun h => replaceEntry_list e _ s mem rfl (fun _ x hx _ same => ?_) (h.figures e mem) h
  rw [List.find?_eq_none] at free
  exact free x hx (by
    simp only [heldBy, Bool.and_eq_true, decide_eq_true_eq]
    exact ⟨same.1.symm, same.2.symm.trans approach⟩)

theorem oldest_mem (p : Entry → Bool) (l : List Entry) (e : Entry) (h : oldest p l = some e) :
    e ∈ l ∧ p e = true := by
  have step (k : List Entry) (x : Option Entry) (hx : ∀ y, x = some y → y ∈ l ∧ p y = true)
      (hk : ∀ y ∈ k, y ∈ l ∧ p y = true) : ∀ y, k.foldl older x = some y → y ∈ l ∧ p y = true := by
    induction k generalizing x with
    | nil => exact hx
    | cons z k ih =>
      refine ih _ (fun y hy => ?_) fun y hy => hk y (List.mem_cons_of_mem _ hy)
      have hz := hk z List.mem_cons_self
      unfold older at hy
      split at hy
      · cases hy; exact hz
      · split at hy
        · cases hy; exact hz
        · cases hy; exact hx _ rfl
  exact step _ none (fun y hy => by cases hy) (fun y hy => List.mem_filter.1 hy) e h

/-! ### The detector unit -/

theorem noteGapExit_calm (gs : List Group) (s : State) : Calm s (noteGapExit gs s) := by
  unfold noteGapExit
  exact .of_target rfl ⟨rfl, rfl⟩

theorem postDemand_calm (fromLoop : Bool) (gs : List Group) (s : State) : Calm s (postDemand fromLoop gs s) := by
  refine Calm.trans ?_ (postDemand_follows fromLoop gs s).calm
  refine setGroups_calm s _ (fun g => ?_) (fun g => ?_) <;> split <;> rfl

theorem postChannelDemand_calm (ch : Channel) (s : State) : Calm s (postChannelDemand ch s) :=
  .of_ite fun _ => postDemand_calm _ _ _

theorem forcedDemand_calm (ch : Channel) (b : Bool) (s : State) : Calm s (forcedDemand ch b s) :=
  .of_ite fun _ => postChannelDemand_calm _ _

theorem handToSequencer_calm (ch : Channel) (old : DetRec) (exit : Bool) (s : State) :
    Calm s (handToSequencer ch old exit s) := by
  unfold handToSequencer
  dsimp only
  split
  · exact .refl s
  · exact (Calm.of_ite fun _ => noteGapExit_calm _ s).then_ite (settleStage_follows _).calm

/-- R97 to R100: what a channel hands on. -/
theorem handChange_calm (ch : Channel) (old new : DetRec) (entry exit : Bool) (s : State)
    (h : ChannelLaw (det s ch) → ChannelLaw new) : Calm s (handChange ch old new entry exit s) := by
  unfold handChange
  dsimp only
  have event := (setDet_calm s ch new h).trans (postIf_calm (reportedChange old.state new.state) .detectorChanged _)
  have handed := (event.then_ite (p := entry = true) (postChannelDemand_calm ch _)).trans
    (handToSequencer_calm ch old exit _)
  exact (handed.then_ite (loopStateChanged_calm ch _ _)).then_ite (loopEntered_calm ch _)

theorem loopLongPresence_calm (ch : Channel) (s : State) : Calm s (loopLongPresence ch s) :=
  .of_ite fun h => (handChange_calm _ _ _ _ _ _ fun l => loopLongRecord_law l h.2.2.1).trans (forcedDemand_calm _ _ _)

theorem contactLongPresence_calm (ch : Channel) (s : State) : Calm s (contactLongPresence ch s) :=
  .of_ite fun _ => (handChange_calm _ _ _ _ _ _ contactLongRecord_law).trans (forcedDemand_calm _ _ _)

theorem raiseAtClose_calm (ch : Channel) (old : DetRec) (s : State) : Calm s (raiseAtClose ch old s) := by
  unfold raiseAtClose
  split
  · exact detect_calm _ _ _
  · exact .of_ite fun _ => detect_calm _ _ _

theorem windowClose_calm (ch : Channel) (s : State) : Calm s (windowClose ch s) := by
  unfold windowClose
  refine .of_ite fun _ => ?_
  exact ((loopLongPresence_calm ch s).trans (handChange_calm _ _ _ _ _ _ windowClosed_law)).trans
    (raiseAtClose_calm _ _ _)

/-- R89, R92. -/
theorem raiseAtSample_shuts (ch : Channel) (old new : DetRec) (s : State) : Shuts s (raiseAtSample ch old new s) := by
  unfold raiseAtSample
  split
  · exact detect_shuts _ _ _
  · split
    · exact detect_shuts _ _ _
    · exact .refl s

theorem det_congr {s t : State} (h : t.du = s.du) (ch : Channel) : det t ch = det s ch := by unfold det; rw [h]

theorem loopRecord_law (s : State) (ch : Channel) (p : Option Nat) (h : ChannelLaw (det s ch)) :
    ChannelLaw (loopRecord s ch p) := (loopSampled_law h).sampled true

theorem takeLoopSample_calm (ch : Channel) (p : Option Nat) (s : State) : Calm s (takeLoopSample ch p s) := by
  have raised := (raiseAtSample_shuts ch (det s ch) (loopRecord s ch p) s).calm
  have same := det_congr (raiseAtSample_shuts ch (det s ch) (loopRecord s ch p) s).du ch
  refine (raised.trans (handChange_calm _ _ _ _ _ _ fun l => ?_)).trans (forcedDemand_calm _ _ _)
  exact loopRecord_law s ch p (same ▸ l)

theorem loopSample_calm (p : Option Nat) (ch : Channel) (s : State) : Calm s (loopSample p ch s) :=
  .of_ite fun _ => takeLoopSample_calm ch p s

theorem contactSample_calm (pressed : Bool) (ch : Channel) (s : State) : Calm s (contactSample pressed ch s) :=
  .of_ite fun _ => (handChange_calm _ _ _ _ _ _ fun l => (contactSampled_law l).sampled true).trans
    (forcedDemand_calm _ _ _)

theorem sampleLeft_calm (ch : Channel) (s : State) : Calm s (sampleLeft ch s) :=
  ((loopLongPresence_calm ch s).trans (windowClose_calm ch _)).trans (contactLongPresence_calm ch _)

theorem externalFault_calm (s : State) : Calm s (externalFault s) := .of_ite fun _ => detect_calm _ _ _

theorem eachItem_calm {n : Nat} (f : Fin n → State → State) (h : ∀ i s, Calm s (f i s)) (s : State) :
    Calm s (eachItem f s) := .of_foldl _ (fun t i => h i t) _ _

/-- R78, R179. -/
theorem advanceDetectors_calm (low : Bool) (s : State) : Calm s (advanceDetectors low s) := by
  have parts : Keeps s (advanceDetectors low s) :=
    { Keeps.refl s with
      detector := fun h ch => by
        have e : det (advanceDetectors low s) ch = { det s ch with sampled := false } := by
          simp [det, advanceDetectors]
        rw [e]
        exact (h ch).sampled false
      rank := fun _ => id
      credit := fun _ => id }
  exact .of_keeps parts (fun _ => rfl) rfl ⟨rfl, rfl⟩ ⟨rfl, rfl⟩ ⟨rfl, rfl, rfl⟩

theorem takeDueSamples_calm (s : State) : Calm s (takeDueSamples s) :=
  ((((eachItem_calm _ loopLongPresence_calm s).trans (eachItem_calm _ windowClose_calm _)).trans
    (eachItem_calm _ contactLongPresence_calm _)).trans (armingLapse_calm _)).trans (externalFault_calm _)

theorem detectorAdvance_calm (low : Bool) (s : State) : Calm s (detectorAdvance low s) :=
  (takeDueSamples_calm s).trans (advanceDetectors_calm low _)

end Sys2Proof.Machine

namespace Sys2Proof.Machine

/-! ## What every step upholds

`Upholds s t` says that a command keeps the laws of `Keeps` and the first law; `Serves s t` says the same of the
block that takes a request, which finds no other request in flight. -/

structure Upholds (s t : State) : Prop where
  keeps : Keeps s t
  orderly : Orderly s → Orderly t

structure Serves (s t : State) : Prop where
  keeps : Keeps s t
  orderly : inFlight s = false → Orderly s → Orderly t

theorem Upholds.refl (s : State) : Upholds s s := ⟨.refl s, id⟩

theorem Upholds.trans {s t u : State} (h : Upholds s t) (k : Upholds t u) : Upholds s u :=
  ⟨h.keeps.trans k.keeps, fun o => k.orderly (h.orderly o)⟩

theorem Calm.upholds {s t : State} (h : Calm s t) : Upholds s t := ⟨h.keeps, h.orderly⟩

theorem Calm.serves {s t : State} (h : Calm s t) : Serves s t := ⟨h.keeps, fun _ => h.orderly⟩

theorem Calm.then_serves {s t u : State} (h : Calm s t) (k : Serves t u) : Serves s u :=
  ⟨h.keeps.trans k.keeps, fun hf o => k.orderly (h.inFlight_eq.trans hf) (h.orderly o)⟩

/-- R187: the answer to a request when none is in flight any more. -/
theorem answer_orderly (k : RequestKind) (v : Verdict) (l : List Byte) {s : State} (hf : inFlight s = false)
    (o : Orderly s) : Orderly (answer k v l s) where
  mode := o.mode
  first := o.first
  rest := o.rest
  flight h := by rw [show inFlight (answer k v l s) = inFlight s from rfl, hf] at h; cases h
  single := o.single

theorem Calm.answered {s t : State} (h : Calm s t) (k : RequestKind) (v : Verdict) (l : List Byte) :
    Serves s (answer k v l t) :=
  ⟨h.keeps.trans (answer_keeps k v l t), fun hf o => answer_orderly k v l (h.inFlight_eq.trans hf) (h.orderly o)⟩

theorem answer_serves (k : RequestKind) (v : Verdict) (l : List Byte) (s : State) : Serves s (answer k v l s) :=
  (Calm.refl s).answered k v l

/-- A request row upholds what the block that takes it serves. -/
theorem asked_upholds (k : RequestKind) (n : Nat) (f : Station → State → State) (s : State)
    (h : ∀ i, k.allows i = true → Serves s (f i s)) : Upholds s (asked k n f s) := by
  refine asked_cases k n f s (Upholds s) (.refl s) (fun hf => ?_) fun i hf ha => ?_
  · exact ⟨answer_keeps _ _ _ s, answer_orderly _ _ _ hf⟩
  · exact ⟨(h i ha).keeps, (h i ha).orderly hf⟩

theorem withItem_upholds {n : Nat} (k : Nat) (f : Fin n → State → State) (s : State) (h : ∀ i, Upholds s (f i s)) :
    Upholds s (withItem k f s) := withItem_cases k f s _ (.refl s) h

theorem eachItem_upholds {n : Nat} (f : Fin n → State → State) (h : ∀ i s, Upholds s (f i s)) (s : State) :
    Upholds s (eachItem f s) := by
  unfold eachItem
  induction List.finRange n generalizing s with
  | nil => exact .refl s
  | cons i l ih => exact (h i s).trans (ih _)

/-! ### The first law in a mode at rest -/

/-- R26: outside NORMAL and the clearing of CLOSING every group is in STOP. -/
theorem Orderly.stopped {s : State} (o : Orderly s) (hm : s.mfs.mode ≠ .normal) (hs : s.mfs.sub ≠ some .clClearing) :
    ∀ g, (grp s g).state = .stop := (o.rest.resolve_left hm).resolve_left hs

/-- R163: the sub-phases of START_UP. -/
theorem Orderly.startUp {s : State} (o : Orderly s) (h : s.mfs.sub = some .suFlash ∨ s.mfs.sub = some .suAllred) :
    s.mfs.mode = .startUp := by
  have legal := o.mode
  unfold modeLegal at legal
  split at legal
  · assumption
  · rcases h with h | h <;> simp [h] at legal
  · rcases h with h | h <;> simp [h] at legal

/-- R163: the sub-phases of CLOSING. -/
theorem Orderly.closing {s : State} (o : Orderly s) (h : s.mfs.sub = some .clClearing ∨ s.mfs.sub = some .clAllred) :
    s.mfs.mode = .closing := by
  have legal := o.mode
  unfold modeLegal at legal
  split at legal
  · rcases h with h | h <;> simp [h] at legal
  · assumption
  · rcases h with h | h <;> simp [h] at legal

/-- R171, R204: outside FLASH and DARK no request is in flight. -/
theorem Orderly.quiet {s : State} (o : Orderly s) (hm : s.mfs.mode.resting = false) : inFlight s = false := by
  by_contra h
  have := (o.flight (by simpa using h)).1
  rw [hm] at this; cases this

theorem underWay_of_stop {st : GroupState} (h : st = .stop) : st.underWay = false := by rw [h]; rfl

/-- With every group in STOP the first law asks for a legal mode record and for the requests alone. -/
theorem Orderly.of_stopped {s : State} (mode : modeLegal s.mfs = true) (stopped : ∀ g, (grp s g).state = .stop)
    (flight : inFlight s = true → s.mfs.mode.resting = true ∧ s.clp.receiver = .busy ∧ s.clp.reply = none)
    (single : s.cs.copy = none ∨ s.cs.validating = false) : Orderly s where
  mode := mode
  first c g _ hu := by rw [underWay_of_stop (stopped c)] at hu; cases hu.1
  rest := .inr (.inr stopped)
  flight := flight
  single := single

/-- R163: a change of the mode record. -/
theorem setMode_orderly {m : Mode} {sub : Option SubPhase} {goal : Option Goal} {s : State} (o : Orderly s)
    (quiet : inFlight s = false) (legal : modeLegal { s.mfs with mode := m, sub := sub, goal := goal } = true)
    (rest : m = .normal ∨ sub = some .clClearing ∨ ∀ g, (grp s g).state = .stop) : Orderly (setMode m sub goal s) where
  mode := by rw [setMode_mfs]; exact legal
  first c g := by simpa [conflicts, intergreen, grp] using o.first c g
  rest := by
    rw [setMode_mfs]
    exact rest.imp_right (.imp_right fun h g => by simpa [grp] using h g)
  flight h := by
    have : inFlight (setMode m sub goal s) = inFlight s := by simp [inFlight]
    rw [this, quiet] at h; cases h
  single := by simpa using o.single

/-! ### Mode commands -/

theorem lampsFollow_calm (p : Group → Bool) (s : State) : Calm s (lampsFollow p s) := (lampsFollow_follows p s).calm

theorem fbsStop_calm (s : State) : Calm s (fbsStop s) := (fbsStop_follows s).calm

/-- R139, R67, R148: what an entry to FLASH or DARK brings beside the mode record. -/
theorem enterResting_from_mode (g : Goal) (s : State) : Calm (setMode g.mode none none s) (enterResting g s) :=
  ((flush_calm _).trans (fbsStop_calm _)).trans (lampsFollow_calm _ _)

theorem enterResting_orderly {g : Goal} {s : State} (o : Orderly s) (quiet : inFlight s = false)
    (stopped : ∀ g, (grp s g).state = .stop) : Orderly (enterResting g s) :=
  (enterResting_from_mode g s).orderly (setMode_orderly o quiet (by cases g <;> rfl) (.inr (.inr stopped)))

theorem enterResting_keeps (g : Goal) (s : State) : Keeps s (enterResting g s) := (enterResting_spec g s).keeps

/-- R168. -/
theorem checkClosing_upholds (s : State) : Upholds s (checkClosing s) := by
  unfold checkClosing
  split
  · rename_i h
    obtain ⟨hm, hs, hg⟩ := h
    refine ⟨setMode_keeps _ _ _ s, fun o => setMode_orderly o (o.quiet (by rw [hm]; rfl)) ?_ (.inr (.inr fun g => ?_))⟩
    · have legal := o.mode
      unfold modeLegal at legal ⊢
      simp only [hm, hs] at legal ⊢
      simpa using legal
    · simpa [allStopped, allGroups] using (List.all_eq_true.1 hg g (by simp [allGroups]))
  · exact .refl s

/-- R168, R65, R139, R67: what an entry to CLOSING brings beside the mode record, up to the check of its end. -/
theorem enterClosing_upholds (g : Goal) (s : State) (hm : s.mfs.mode = .normal) : Upholds s (enterClosing g s) := by
  have marked : Upholds s (setMode .closing (some .clClearing) (some g) s) :=
    ⟨setMode_keeps _ _ _ s, fun o => setMode_orderly o (o.quiet (by rw [hm]; rfl)) rfl (.inr (.inl rfl))⟩
  unfold enterClosing
  dsimp only
  generalize setMode .closing (some .clClearing) (some g) s = u at marked
  have target : Calm u { u with sel := { u.sel with target := 0 } } := .of_target rfl ⟨rfl, rfl⟩
  have rest := (((target.trans (flush_calm _)).trans (fbsStop_calm _)).trans
    (lampsFollow_calm (fun _ => true) _)).trans (settle_follows _).calm
  exact (marked.trans rest.upholds).trans (checkClosing_upholds _)

/-- R16, R158, R168. -/
theorem endClearance_upholds (g : Group) (s : State) : Upholds s (endClearance g s) := by
  unfold endClearance clearanceRun
  split
  · rename_i h
    simp only [Bool.and_eq_true, decide_eq_true_eq] at h
    have stop : Calm s (setGrp s g (enterStop (jnow s) (grp s g))) :=
      setGrp_calm s g _ (by rw [h.1]; decide) (fun u => by cases u) id
    unfold groupStopped
    exact ((stop.trans (groupMoved_calm g _)).trans (.of_foldl _ (fun t g => (becomeRedOut_shuts g t).calm) _ _)).upholds.trans
      (checkClosing_upholds _)
  · exact .refl s

/-- R64, R68, R126: what the entry to NORMAL brings beside the mode record. -/
theorem enterNormal_from_mode (s : State) : Calm (setMode .normal none none s) (enterNormal s) := by
  unfold enterNormal
  dsimp only
  generalize setMode .normal none none s = u
  have handed : Calm u _ := (evalReached_follows u).calm.then_ite (p := (evalReached u).sel.owner = .fallback)
    (takeover_calm _)
  exact ((handed.trans (walk_follows _).calm).trans (lampsFollow_calm _ _)).trans (settleSince_follows s _).calm

theorem enterNormal_keeps (s : State) : Keeps s (enterNormal s) :=
  (setMode_keeps _ _ _ s).trans (enterNormal_from_mode s).keeps

/-- R166: the entry to NORMAL, from a mode in which no request is in flight. -/
theorem enterNormal_orderly {s : State} (o : Orderly s) (quiet : inFlight s = false) : Orderly (enterNormal s) :=
  (enterNormal_from_mode s).orderly (setMode_orderly o quiet rfl (.inl rfl))

/-- R55, R126, R26: what the entry to START_UP brings beside the mode record. -/
theorem enterStartUp_from_mode (s : State) : ∃ p, (p = .suFlash ∨ p = .suAllred) ∧
    Calm (setMode .startUp (some p) none s) (enterStartUp s) := by
  have began (u : State) : Calm u (walk (startUpDefault u)) := (startUpDefault_calm u).trans (walk_follows _).calm
  unfold enterStartUp
  split
  · exact ⟨.suAllred, .inr rfl, (began _).trans (beginAllRed_calm _)⟩
  · exact ⟨.suFlash, .inl rfl, (began _).trans (lampsFollow_calm _ _)⟩

theorem enterStartUp_keeps (s : State) : Keeps s (enterStartUp s) := by
  obtain ⟨p, _, h⟩ := enterStartUp_from_mode s
  exact (setMode_keeps _ _ _ s).trans h.keeps

/-- R165: START_UP is entered with every group in STOP. -/
theorem enterStartUp_orderly {s : State} (o : Orderly s) (quiet : inFlight s = false)
    (stopped : ∀ g, (grp s g).state = .stop) : Orderly (enterStartUp s) := by
  obtain ⟨p, hp, h⟩ := enterStartUp_from_mode s
  exact h.orderly (setMode_orderly o quiet (by rcases hp with rfl | rfl <;> rfl) (.inr (.inr stopped)))

/-- R165. -/
theorem suFlashEnd_upholds (s : State) : Upholds s (suFlashEnd s) := by
  unfold suFlashEnd phaseRun
  split
  · rename_i h
    simp only [Bool.and_eq_true, decide_eq_true_eq] at h
    have startUp (o : Orderly s) : s.mfs.mode = .startUp := o.startUp (.inl h.1)
    refine Upholds.trans ⟨setMode_keeps .startUp (some .suAllred) none s, fun o => setMode_orderly o (o.quiet ?_) rfl
      (.inr (.inr (o.stopped ?_ ?_)))⟩ (beginAllRed_calm _).upholds
    · rw [startUp o]; rfl
    · rw [startUp o]; decide
    · rw [h.1]; decide
  · exact .refl s

/-- R166. -/
theorem suAllredEnd_upholds (s : State) : Upholds s (suAllredEnd s) := by
  unfold suAllredEnd phaseRun
  split
  · rename_i h
    simp only [Bool.and_eq_true, decide_eq_true_eq] at h
    split
    · exact (raiseMultiple_shuts s).calm.upholds
    · exact ⟨enterNormal_keeps s, fun o => enterNormal_orderly o (o.quiet (by rw [o.startUp (.inr h.1)]; rfl))⟩
  · exact .refl s

/-- R169. -/
theorem clAllredEnd_upholds (s : State) : Upholds s (clAllredEnd s) := by
  unfold clAllredEnd phaseRun
  split
  · rename_i h
    simp only [Bool.and_eq_true, decide_eq_true_eq] at h
    split
    · refine ⟨enterResting_keeps _ s, fun o => ?_⟩
      have closing := o.closing (.inr h.1)
      exact enterResting_orderly o (o.quiet (by rw [closing]; rfl))
        (o.stopped (by rw [closing]; decide) (by rw [h.1]; decide))
    · exact .refl s
  · exact .refl s

end Sys2Proof.Machine

namespace Sys2Proof.Machine

/-! ### Power-up, requests for a mode, and validation -/

/-- A mode that has no sub-phase, other than NORMAL, finds every group in STOP. -/
theorem Orderly.at_rest {s : State} (o : Orderly s) (h : s.mfs.mode = .powerUp ∨ s.mfs.mode.resting = true) :
    ∀ g, (grp s g).state = .stop := by
  refine o.stopped (fun hm => ?_) (fun hs => ?_)
  · rw [hm] at h; rcases h with h | h <;> cases h
  · rw [o.closing (.inl hs)] at h; rcases h with h | h <;> cases h

/-- A store that keeps its image and its requests. -/
theorem setCs_calm (s : State) (c : Cs) (image : c.image = s.cs.image)
    (requests : c.copy = s.cs.copy ∧ c.validating = s.cs.validating) : Calm s { s with cs := c } :=
  .of_keeps (.of_parts rfl image ⟨rfl, rfl, rfl⟩ rfl ⟨rfl, rfl⟩ (fun _ => rfl) rfl) (fun _ => rfl) rfl requests
    ⟨rfl, rfl⟩ ⟨rfl, rfl, rfl⟩

/-- R29, R56: the working copies are loaded, which with every group in STOP keeps the first law; then come the
inhibits. -/
theorem loadWorkingCopies_loads (s : State) : ∃ u : State, u.mfs = s.mfs ∧ u.cs = s.cs ∧ Keeps s u ∧
    (Orderly s → (∀ g, (grp s g).state = .stop) → Orderly u) ∧ Shuts u (loadWorkingCopies s) := by
  have loaded (i : Igm) (l : Vector GroupSet 8) : Keeps s { s with igm := i, sel := { s.sel with stages := l } } ∧
      (Orderly s → (∀ g, (grp s g).state = .stop) →
        Orderly { s with igm := i, sel := { s.sel with stages := l } }) :=
    ⟨.of_parts rfl rfl ⟨rfl, rfl, rfl⟩ rfl ⟨rfl, rfl⟩ (fun _ => rfl) rfl,
      fun o stopped => .of_stopped o.mode stopped o.flight o.single⟩
  unfold loadWorkingCopies
  dsimp only
  refine ⟨_, ?_, ?_, (loaded _ _).1, (loaded _ _).2, reportRedOut_shuts _⟩ <;> rfl

theorem loadWorkingCopies_keeps (s : State) : Keeps s (loadWorkingCopies s) := by
  obtain ⟨u, _, _, keeps, _, shuts⟩ := loadWorkingCopies_loads s
  exact keeps.trans shuts.keeps

/-- The loading in POWER_UP, FLASH or DARK leaves the mode and the requests. -/
theorem loadWorkingCopies_at_rest (s : State) (hm : s.mfs.mode = .powerUp ∨ s.mfs.mode.resting = true) :
    (Orderly s → Orderly (loadWorkingCopies s)) ∧ (loadWorkingCopies s).mfs.mode = s.mfs.mode ∧
      inFlight (loadWorkingCopies s) = inFlight s := by
  obtain ⟨u, mfs, cs, _, orderly, shuts⟩ := loadWorkingCopies_loads s
  have noEntry : s.mfs.mode.faultEnters = false := by
    rcases hm with hm | hm
    · rw [hm]; rfl
    · exact resting_no_faultEntry hm
  refine ⟨fun o => shuts.calm.orderly (orderly o (o.at_rest hm)), ?_, ?_⟩
  · rw [(shuts.calm.mode_eq (by rw [mfs]; exact noEntry)).1, mfs]
  · rw [shuts.calm.inFlight_eq]
    unfold inFlight
    rw [cs]

/-- R164, R206. -/
theorem powerUpCheck_upholds (s : State) : Upholds s (powerUpCheck s) := by
  unfold powerUpCheck
  split
  · rename_i hm
    split
    · obtain ⟨orderly, mode, _⟩ := loadWorkingCopies_at_rest s (.inl hm)
      rw [hm] at mode
      have loaded : Upholds s (loadWorkingCopies s) := ⟨loadWorkingCopies_keeps s, orderly⟩
      generalize loadWorkingCopies s = u at loaded mode
      have rest (o : Orderly u) : inFlight u = false ∧ ∀ g, (grp u g).state = .stop :=
        ⟨o.quiet (by rw [mode]; rfl), o.at_rest (.inl mode)⟩
      refine loaded.trans ?_
      unfold afterMatch
      split
      · exact ⟨enterResting_keeps _ _, fun o => enterResting_orderly o (rest o).1 (rest o).2⟩
      · exact ⟨enterStartUp_keeps _, fun o => enterStartUp_orderly o (rest o).1 (rest o).2⟩
    · unfold afterMismatch
      have raised := (setCs_calm s { s.cs with mismatch := true } rfl ⟨rfl, rfl⟩).trans (detect_calm .configCrc 0 _)
      have mode := (raised.mode_eq (by rw [hm]; rfl)).1.trans hm
      exact raised.upholds.trans ⟨enterResting_keeps _ _, fun o =>
        enterResting_orderly o (o.quiet (by rw [mode]; rfl)) (o.at_rest (.inl mode))⟩
  · exact .refl s

/-- R167, R168: a closing goal replaced by the other. -/
theorem goalReplaced_upholds (g : Goal) (s : State) (hm : s.mfs.mode = .closing) :
    Upholds s (post .modeChanged { s with mfs := { s.mfs with goal := some g } }) := by
  have replaced : Upholds s { s with mfs := { s.mfs with goal := some g } } := by
    refine ⟨.of_parts rfl rfl ⟨rfl, rfl, rfl⟩ rfl ⟨rfl, rfl⟩ (fun _ => rfl) rfl, fun o =>
      ⟨?_, o.first, o.rest, fun h => o.flight h, o.single⟩⟩
    have legal := o.mode
    unfold modeLegal at legal ⊢
    simp only [hm] at legal ⊢
    simp only [Bool.and_eq_true] at legal ⊢
    exact ⟨legal.1, rfl⟩
  exact replaced.trans (post_calm _ _).upholds

/-- R167: a request for FLASH or DARK by mode; no request is in flight afterwards. -/
theorem requestGoal_serves (g : Goal) (s : State) : Serves s (requestGoal g s) := by
  have resting (goal : Goal) (h : s.mfs.mode ≠ .normal ∧ s.mfs.mode ≠ .closing) : Serves s (enterResting goal s) :=
    ⟨enterResting_keeps _ s, fun hf o => enterResting_orderly o hf
      (o.stopped h.1 fun hs => h.2 (o.closing (.inl hs)))⟩
  unfold requestGoal
  split
  · exact (Calm.refl s).serves
  · rename_i hm; exact resting g (by rw [hm]; decide)
  · rename_i hm
    exact ⟨(enterClosing_upholds g s hm).keeps, fun _ => (enterClosing_upholds g s hm).orderly⟩
  · rename_i hm
    split
    · exact (Calm.refl s).serves
    · exact ⟨(goalReplaced_upholds g s hm).keeps, fun _ => (goalReplaced_upholds g s hm).orderly⟩
  · rename_i hm
    split
    · exact resting .dark (by rw [hm]; decide)
    · exact (Calm.refl s).serves
  · rename_i hm
    split
    · exact resting .flash (by rw [hm]; decide)
    · exact (Calm.refl s).serves

theorem enterResting_cs (g : Goal) (s : State) : (enterResting g s).cs = s.cs := (enterResting_spec g s).cs

theorem checkClosing_cs (s : State) : (checkClosing s).cs = s.cs := by
  unfold checkClosing
  split <;> simp

theorem enterClosing_cs (g : Goal) (s : State) : (enterClosing g s).cs = s.cs := by
  unfold enterClosing
  dsimp only
  rw [checkClosing_cs, (settle_follows _).cs]
  simp

theorem requestGoal_cs (g : Goal) (s : State) : (requestGoal g s).cs = s.cs := by
  unfold requestGoal
  repeat' split
  all_goals simp only [enterResting_cs, enterClosing_cs, post_cs]

/-- A request that leaves the store alone is answered with none in flight. -/
theorem Serves.answered {s t : State} (h : Serves s t) (cs : t.cs = s.cs) (k : RequestKind) (v : Verdict)
    (l : List Byte) : Serves s (answer k v l t) :=
  ⟨h.keeps.trans (answer_keeps k v l t), fun hf o =>
    answer_orderly k v l (by unfold inFlight at hf ⊢; rw [cs]; exact hf) (h.orderly hf o)⟩

theorem modeRequestGoal_serves (g : Goal) (i : Station) (s : State) : Serves s (modeRequestGoal g i s) :=
  (requestGoal_serves g s).answered (requestGoal_cs g s) _ _ _

/-- R157, R172: what an accepted RESUME does before START_UP is entered. -/
theorem released_calm (s : State) : Calm s (liftLocks { s with mfs := { s.mfs with fltDriven := false } }) :=
  Calm.trans (t := { s with mfs := { s.mfs with fltDriven := false } })
    (.of_keeps (.of_parts rfl rfl ⟨rfl, rfl, rfl⟩ rfl ⟨rfl, rfl⟩ (fun _ => rfl) rfl) (fun _ => rfl) rfl
      ⟨rfl, rfl⟩ ⟨rfl, rfl⟩ ⟨rfl, rfl, rfl⟩) (liftLocks_calm _)

theorem startResume_keeps (s : State) : Keeps s (startResume s) :=
  (released_calm s).keeps.trans (enterStartUp_keeps _)

theorem enterStartUp_inFlight (s : State) : inFlight (enterStartUp s) = inFlight s := by
  obtain ⟨p, _, h⟩ := enterStartUp_from_mode s
  rw [h.inFlight_eq]
  simp [inFlight]

/-- R171, R172: an accepted RESUME, answered. -/
theorem resumeAccepted_serves (s : State) (hm : s.mfs.mode.resting = true) : Serves s (resumeAccepted s) := by
  have calm := released_calm s
  refine ⟨(startResume_keeps s).trans (answer_keeps _ _ _ _), fun hf o => ?_⟩
  have quiet := calm.inFlight_eq.trans hf
  exact answer_orderly _ _ _ ((enterStartUp_inFlight _).trans quiet) (enterStartUp_orderly (calm.orderly o) quiet
    fun g => calm.stopped g (o.at_rest (.inr hm) g))

theorem await_keeps (s : State) : Keeps s (await s) :=
  .of_parts rfl rfl ⟨rfl, rfl, rfl⟩ rfl ⟨rfl, rfl⟩ (fun _ => rfl) rfl

theorem orderValidation_serves (s : State) (hm : s.mfs.mode.resting = true) : Serves s (orderValidation s) := by
  have ordered : Keeps s { s with cs := { s.cs with validating := true } } :=
    .of_parts rfl rfl ⟨rfl, rfl, rfl⟩ rfl ⟨rfl, rfl⟩ (fun _ => rfl) rfl
  refine ⟨ordered.trans (await_keeps _), fun hf o => ?_⟩
  have copy : s.cs.copy = none := by
    unfold inFlight at hf
    simpa using (Bool.or_eq_false_iff.1 hf).1
  exact ⟨o.mode, o.first, o.rest, fun _ => ⟨hm, rfl, rfl⟩, .inl copy⟩

theorem modeRequestResume_serves (i : Station) (s : State) : Serves s (modeRequestResume i s) := by
  unfold modeRequestResume
  split
  · exact answer_serves _ _ _ s
  · rename_i hm
    have hm : s.mfs.mode.resting = true := by simpa using hm
    split
    · exact answer_serves _ _ _ s
    · split
      · exact orderValidation_serves s hm
      · exact resumeAccepted_serves s hm

/-- R209: what a validation that passes writes before the working copies are loaded. -/
theorem validated_eq (s : State) : ∃ v, Calm s v ∧ validated s = loadWorkingCopies v := by
  have calm := setCs_calm s { s.cs with storedCrc := imageCrc s.cs.image, edited := false, mismatch := false } rfl
    ⟨rfl, rfl⟩
  exact ⟨_, calm, by unfold validated; rfl⟩

theorem validated_keeps (s : State) : Keeps s (validated s) := by
  obtain ⟨v, calm, e⟩ := validated_eq s
  rw [e]
  exact calm.keeps.trans (loadWorkingCopies_keeps v)

theorem validated_at_rest (s : State) (hm : s.mfs.mode.resting = true) :
    (Orderly s → Orderly (validated s)) ∧ (validated s).mfs.mode.resting = true ∧
      inFlight (validated s) = inFlight s := by
  obtain ⟨v, calm, e⟩ := validated_eq s
  have mode : v.mfs.mode.resting = true := by rw [(calm.mode_eq (resting_no_faultEntry hm)).1]; exact hm
  obtain ⟨orderly, mode', quiet⟩ := loadWorkingCopies_at_rest v (.inr mode)
  rw [e, mode', quiet, calm.inFlight_eq]
  exact ⟨fun o => orderly (calm.orderly o), mode, rfl⟩

/-- R209: a completion in FLASH or DARK with the validation no longer in flight. -/
theorem completeValidation_keeps (s : State) : Keeps s (completeValidation s) := by
  unfold completeValidation
  split
  · exact answer_keeps _ _ _ s
  · split
    · exact (validated_keeps s).trans (answer_keeps _ _ _ _)
    · exact (validated_keeps s).trans ((startResume_keeps _).trans (answer_keeps _ _ _ _))

theorem completeValidation_orderly {s : State} (o : Orderly s) (hf : inFlight s = false)
    (hm : s.mfs.mode.resting = true) : Orderly (completeValidation s) := by
  obtain ⟨orderly, mode, quiet⟩ := validated_at_rest s hm
  unfold completeValidation
  split
  · exact answer_orderly _ _ _ hf o
  · split
    · exact answer_orderly _ _ _ (quiet.trans hf) (orderly o)
    · exact (resumeAccepted_serves _ mode).orderly (quiet.trans hf) (orderly o)

/-- R209, R171: the completion of the one validation in flight. -/
theorem validationCompletion_upholds (s : State) : Upholds s (validationCompletion s) := by
  unfold validationCompletion
  split
  · rename_i hv
    have taken : Keeps s { s with cs := { s.cs with validating := false } } :=
      .of_parts rfl rfl ⟨rfl, rfl, rfl⟩ rfl ⟨rfl, rfl⟩ (fun _ => rfl) rfl
    refine ⟨taken.trans (completeValidation_keeps _), fun o => ?_⟩
    have flying : inFlight s = true := by unfold inFlight; rw [hv, Bool.or_true]
    have copy : s.cs.copy = none := o.single.resolve_right (by rw [hv]; decide)
    have quiet : inFlight { s with cs := { s.cs with validating := false } } = false := by
      unfold inFlight; simp [copy]
    refine completeValidation_orderly ⟨o.mode, o.first, o.rest, fun h => ?_, .inr rfl⟩ quiet (o.flight flying).1
    rw [quiet] at h; cases h
  · exact .refl s

/-- R204: the completion of the one copy in flight. -/
theorem copyCompletion_upholds (s : State) : Upholds s (copyCompletion s) := by
  unfold copyCompletion
  split
  · rename_i c hc
    have taken : Keeps s { s with cs := { s.cs with copy := none } } :=
      .of_parts rfl rfl ⟨rfl, rfl, rfl⟩ rfl ⟨rfl, rfl⟩ (fun _ => rfl) rfl
    refine ⟨taken.trans (answer_keeps _ _ _ _), fun o => ?_⟩
    have validating : s.cs.validating = false := o.single.resolve_left (by rw [hc]; simp)
    have quiet : inFlight { s with cs := { s.cs with copy := none } } = false := by
      unfold inFlight; simp [validating]
    refine answer_orderly _ _ _ quiet ⟨o.mode, o.first, o.rest, fun h => ?_, .inl rfl⟩
    rw [quiet] at h; cases h
  · exact .refl s

end Sys2Proof.Machine

namespace Sys2Proof.Machine

/-! ### The start of a group -/

theorem insertBefore_mem {α : Type} (before : α → α → Bool) (x y : α) (l : List α) :
    y ∈ insertBefore before x l ↔ y = x ∨ y ∈ l := by
  rw [(insertBefore_perm before x l).mem_iff, List.mem_cons]

theorem foldr_insertBefore_perm {α : Type} (before : α → α → Bool) (l : List α) :
    (l.foldr (insertBefore before) []).Perm l := by
  induction l with
  | nil => exact .refl _
  | cons x l ih => exact (insertBefore_perm before x _).trans (ih.cons x)

/-- R9: the groups that may start, in the order in which the arbiter considers them. -/
def arbiterOrder (s : State) : List Group := (allGroups.filter (mayStart s)).foldr (insertBefore (startsBefore s)) []

theorem mem_arbiterOrder (s : State) (g : Group) : g ∈ arbiterOrder s ↔ mayStart s g = true := by
  unfold arbiterOrder
  rw [(foldr_insertBefore_perm _ _).mem_iff]
  simp [allGroups]

/-- R9: one consideration of the arbiter. -/
def pick (s : State) (picked : List Group) (g : Group) : List Group :=
  if picked.any (fun c => conflicts s c g) then picked else picked ++ [g]

theorem arbiterPicks_eq (s : State) : arbiterPicks s = (arbiterOrder s).foldl (pick s) [] := rfl

/-- The arbiter picks from what it had picked and what it considers. -/
theorem foldl_pick_subset (s : State) (l p : List Group) : ∀ g ∈ l.foldl (pick s) p, g ∈ p ∨ g ∈ l := by
  induction l generalizing p with
  | nil => exact fun g h => .inl h
  | cons x l ih =>
    intro g h
    rcases ih _ g h with h | h
    · unfold pick at h
      split at h
      · exact .inl h
      · rcases List.mem_append.1 h with h | h
        · exact .inl h
        · exact .inr (by rw [List.mem_singleton.1 h]; exact List.mem_cons_self)
    · exact .inr (List.mem_cons_of_mem _ h)

/-- R8, R9: every pick meets the conditions of a start. -/
theorem arbiterPicks_mayStart (s : State) : ∀ g ∈ arbiterPicks s, mayStart s g = true := fun g h =>
  (mem_arbiterOrder s g).1 ((foldl_pick_subset s _ [] g h).resolve_left List.not_mem_nil)

theorem conflicts_symm (s : State) (c g : Group) : conflicts s c g = conflicts s g c := by
  unfold conflicts
  rw [Bool.or_comm, bne_comm]

theorem conflicts_irrefl (s : State) (g : Group) : conflicts s g g = false := by simp [conflicts]

/-- R8. -/
theorem mayStart_iff (s : State) (g : Group) : mayStart s g = true ↔
    (grp s g).state = .stop ∧ s.mfs.mode = .normal ∧ groupKind s.cs.image g ≠ .none ∧ wanted s g = true ∧
      (grp s g).inhibited = false ∧ eligible s g = true := by
  simp [mayStart, and_assoc]

/-- R32: no group that conflicts with an eligible one has right of way. -/
theorem eligible_clear {s : State} {g : Group} (h : eligible s g = true) (c : Group) (hc : conflicts s c g = true) :
    (grp s c).state.underWay = false := by
  unfold eligible at h
  simp only [Bool.and_eq_true, List.all_eq_true] at h
  have := h.2 c (by simp [allGroups])
  simp only [hc, Bool.not_true, Bool.false_or, Bool.and_eq_true, Bool.not_eq_true'] at this
  exact this.1

theorem started_credit (s : State) (g : Group) (h : (grp s g).credit ≤ compensationCap s.cs.image g) :
    (started s g).credit ≤ compensationCap s.cs.image g := by
  unfold started
  split
  · exact Nat.zero_le _
  · exact h

/-- R8, R9: the first law at a start. -/
theorem setGrp_started_orderly {s : State} (g : Group) (h : mayStart s g = true) (o : Orderly s) (r : GroupRec) :
    Orderly (setGrp s g r) := by
  obtain ⟨_, normal, _, _, _, clear⟩ := (mayStart_iff s g).1 h
  refine ⟨by simpa using o.mode, fun a b hc hu => ?_, .inl (by simpa using normal),
    fun hf => by simpa using o.flight (by simpa [inFlight] using hf), by simpa using o.single⟩
  have hc : conflicts s a b = true := by simpa [conflicts, intergreen] using hc
  obtain ⟨ua, ub⟩ := hu
  rw [grp_setGrp] at ua ub
  by_cases ea : g = a
  · subst ea
    rw [if_neg fun e => by rw [e, conflicts_irrefl] at hc; cases hc] at ub
    rw [eligible_clear clear b (conflicts_symm s _ _ ▸ hc)] at ub
    cases ub
  · rw [if_neg ea] at ua
    by_cases eb : g = b
    · subst eb
      rw [eligible_clear clear a hc] at ua
      cases ua
    · rw [if_neg eb] at ub
      exact o.first a b hc ⟨ua, ub⟩

theorem startGroup_upholds (g : Group) (s : State) : Upholds s (startGroup g s) := by
  unfold startGroup
  split
  · rename_i h
    have may := arbiterPicks_mayStart s g (List.contains_iff_mem.1 h)
    refine Upholds.trans ⟨setGrp_keeps s g _ (started_credit s g), fun o => ?_⟩ (groupMoved_calm _ _).upholds
    exact setGrp_started_orderly g may o _
  · exact .refl s

/-! ### The clocks -/

theorem takeStarts_upholds (n : Nat) (s : State) : Upholds s (takeStarts n s) := by
  induction n generalizing s with
  | zero => exact .refl s
  | succ n ih =>
    unfold takeStarts
    split
    · exact .refl s
    · exact (startGroup_upholds _ s).trans (ih _)

theorem takeDue_upholds (s : State) : Upholds s (takeDue s) := by
  have lamps (u : State) : Upholds u (takeDueLamps u) :=
    (((((eachItem_calm _ tripRetry_calm u).trans (eachItem_calm _ tripCounterReset_calm _)).trans
      (dimBoundary_calm _)).trans (flashToggle_calm _))).upholds
  have phases (u : State) : Upholds u (takeDuePhases u) :=
    (((suFlashEnd_upholds u).trans (suAllredEnd_upholds _)).trans (clAllredEnd_upholds _)).trans
      (eachItem_calm _ silenceExpiry_calm _).upholds
  have groups (u : State) : Upholds u (takeDueGroups u) :=
    (((eachItem_calm _ endPrepare_calm u).trans (eachItem_calm _ endMinProceed_calm _)).upholds.trans
      (eachItem_upholds _ endClearance_upholds _)).trans
      (((holdEnd_calm _).trans (expire_calm _)).trans (recallInhibitEnd_calm _)).upholds
  have evaluations (u : State) : Upholds u (takeDueEvaluations u) :=
    ((settle_follows u).calm.then_ite (fbsEvaluate_calm _)).upholds.trans (takeStarts_upholds 24 _)
  exact (((lamps s).trans (phases _)).trans (groups _)).trans (evaluations _)

theorem grp_advanceCount (s : State) (g : Group) : grp (advanceCount s) g = agedGroup (jnow s + 1) (grp s g) := by
  simp [grp, advanceCount]

theorem advanceCount_calm (s : State) : Calm s (advanceCount s) :=
  .of_keeps (.of_parts rfl rfl ⟨rfl, rfl, rfl⟩ rfl ⟨rfl, rfl⟩ (fun g => by rw [grp_advanceCount]; rfl) rfl)
    (fun g => by rw [grp_advanceCount]; rfl) rfl ⟨rfl, rfl⟩ ⟨rfl, rfl⟩ ⟨rfl, rfl, rfl⟩

theorem junctionAdvance_upholds (currents : List Nat) (s : State) : Upholds s (junctionAdvance currents s) :=
  (takeDue_upholds s).trans (((advanceCount_calm _).trans (evaluateLamps_calm currents _)).trans
    (advanceStage_calm _)).upholds

/-! ### A reset -/

theorem imageAfterReset_wf (s : State) (h : imageWf s.cs.image = true) : imageWf (imageAfterReset s) = true := by
  unfold imageAfterReset
  split
  · split
    · exact h
    · exact imageWriteBytes_wf _ _ _ h
  · exact h

theorem grp_resetWith (m : Image) (crc : BitVec 32) (addr : BitVec 4) (rate : BitVec 2) (s : State) (g : Group) :
    grp (resetWith m crc addr rate s) g = GroupRec.reset := by
  simp [grp, resetWith]

theorem det_resetWith (m : Image) (crc : BitVec 32) (addr : BitVec 4) (rate : BitVec 2) (s : State) (ch : Channel) :
    det (resetWith m crc addr rate s) ch = resetChannel m ch := by
  simp [det, resetWith]

theorem reset_upholds (crc : BitVec 32) (addr : BitVec 4) (rate : BitVec 2) (s : State) :
    Upholds s (resetWith (imageAfterReset s) crc addr rate s) := by
  refine ⟨⟨rfl, imageAfterReset_wf s, fun _ => ?_, fun _ => .nil, fun _ _ => rfl, fun _ _ g => ?_, fun _ ch => ?_⟩,
    fun _ => .of_stopped rfl (fun g => by rw [grp_resetWith]; rfl) (fun h => by cases h) (.inl rfl)⟩
  · simp [AttnLaw, unmaskedSummary, resetWith, Mfs.reset]
  · rw [grp_resetWith]; exact Nat.zero_le _
  · rw [det_resetWith]
    unfold resetChannel
    split <;> exact ChannelLaw.reset _ _ _

end Sys2Proof.Machine

namespace Sys2Proof.Machine

/-! ### A write of the configuration -/

/-- R204: a record that stands in the image, where the laws of credit and rank stand under the new image. -/
theorem imageWritten_calm (s : State) (m : Image) (hw : imageWf s.cs.image = true → imageWf m = true)
    (hc : imageWf s.cs.image = true → CreditLaw s → ∀ g, (grp s g).credit ≤ compensationCap m g)
    (hr : imageWf s.cs.image = true → RankLaw s → RankLaw { s with cs := { s.cs with image := m, edited := true } }) :
    Calm s { s with cs := { s.cs with image := m, edited := true } } :=
  .of_keeps ⟨rfl, hw, id, id, hr, fun i l g => hc i l g, id⟩ (fun _ => rfl) rfl ⟨rfl, rfl⟩ ⟨rfl, rfl⟩ ⟨rfl, rfl, rfl⟩

/-- R204: the image with a record written, clamped. -/
def writtenImage (p : Place) (bs : List Byte) (m : Image) : Image := imageWriteBytes m p.base (clampedRecord p bs)

/-- R204: the state with a record standing in the image. -/
def withRecord (p : Place) (bs : List Byte) (s : State) : State :=
  { s with cs := { s.cs with image := writtenImage p bs s.cs.image, edited := true } }

@[simp] theorem withRecord_sel (p : Place) (bs : List Byte) (s : State) : (withRecord p bs s).sel = s.sel := rfl

@[simp] theorem withRecord_image (p : Place) (bs : List Byte) (s : State) :
    (withRecord p bs s).cs.image = writtenImage p bs s.cs.image := rfl

theorem writtenImage_agrees {p : Place} {bs : List Byte} (hl : bs.length = p.size) {m : Image}
    (h : imageWf m = true) : AgreeBut p m (writtenImage p bs m) :=
  write_agrees m p _ h (Nat.le_of_eq (clampedRecord_length p bs hl))

/-- The law of the rank under a record that holds no authority of the owner. -/
theorem rankLaw_writtenImage {p : Place} {bs : List Byte} (hl : bs.length = p.size) (s : State)
    (hp : ∀ i, ownerStation s.sel.owner = some i → p ≠ .station i) (h : imageWf s.cs.image = true) (l : RankLaw s) :
    RankLaw (withRecord p bs s) := by
  unfold RankLaw at l ⊢
  unfold withRecord
  dsimp only
  cases hi : ownerStation s.sel.owner with
  | none => rwa [hi] at l
  | some i =>
    rw [hi] at l
    dsimp only at l ⊢
    rw [authorityRank_agrees (writtenImage_agrees hl h) i (hp i hi)]
    exact l

/-- R204: a record that is neither a group nor a station stands in the image. -/
theorem imageWritten_calm_of {p : Place} {bs : List Byte} (hl : bs.length = p.size) (s : State)
    (hg : ∀ g, p ≠ .group g) (hs : ∀ i, p ≠ .station i) :
    Calm s (withRecord p bs s) := by
  refine imageWritten_calm s _ (imageWriteBytes_wf _ _ _) (fun h l g => ?_) (rankLaw_writtenImage hl s fun i _ => hs i)
  rw [compensationCap_agrees (writtenImage_agrees hl h) g (hg g)]
  exact l g

theorem deviceWritten_calm (s : State) : Calm s (deviceWritten s) :=
  .of_keeps (.of_parts rfl rfl ⟨rfl, rfl, rfl⟩ rfl ⟨rfl, rfl⟩ (fun _ => rfl) rfl) (fun _ => rfl) rfl ⟨rfl, rfl⟩
    ⟨rfl, rfl⟩ ⟨rfl, rfl, rfl⟩

theorem detectorWritten_calm (old : Image) (ch : Channel) (s : State) : Calm s (detectorWritten old ch s) := by
  unfold detectorWritten
  dsimp only
  have event := (setDet_calm s ch (writtenChannel s.cs.image ch (dnow s) (det s ch)) writtenChannel_law).trans
    (postIf_calm (decide ((det s ch).state ≠ (writtenChannel s.cs.image ch (dnow s) (det s ch)).state))
      .detectorChanged _)
  refine Calm.then_ite (event.trans ?_) (loopStateChanged_calm ch _ _)
  exact .of_ite fun _ => noteGapExit_calm _ _

theorem writtenGroup_state (m : Image) (g : Group) (r : GroupRec) : (writtenGroup m g r).state = r.state := by
  unfold writtenGroup; split <;> rfl

theorem writtenGroup_credit (m : Image) (g : Group) (r : GroupRec) :
    (writtenGroup m g r).credit ≤ r.credit ∧ (writtenGroup m g r).credit ≤ compensationCap m g := by
  unfold writtenGroup
  split
  · exact ⟨Nat.zero_le _, Nat.zero_le _⟩
  · exact ⟨Nat.min_le_left _ _, Nat.min_le_right _ _⟩

/-- R5, R204: a GROUP record stands in the image with the group's own record cut to it. -/
theorem groupRecordWritten_calm {bs : List Byte} (g : Group) (hl : bs.length = (Place.group g).size) (s : State) :
    Calm s (setGrp (withRecord (.group g) bs s) g
      (writtenGroup (writtenImage (.group g) bs s.cs.image) g (grp s g))) := by
  have cut : Calm s (setGrp s g (writtenGroup (writtenImage (.group g) bs s.cs.image) g (grp s g))) := by
    refine .of_keeps (setGrp_keeps s g _ fun h => (writtenGroup_credit _ _ _).1.trans h) (fun c => ?_) (by simp)
      (by simp) (by simp) (by simp)
    rw [grp_setGrp]
    split
    · rename_i e; rw [← e]; exact writtenGroup_state _ _ _
    · rfl
  refine cut.trans (imageWritten_calm _ _ (imageWriteBytes_wf _ _ _) (fun h l c => ?_) ?_)
  · by_cases e : g = c
    · subst e
      rw [grp_setGrp_self]
      exact (writtenGroup_credit _ _ _).2
    · have agree := compensationCap_agrees (writtenImage_agrees hl h) c (by simpa using e)
      rw [setGrp_cs] at agree
      rw [agree]
      exact l c
  · exact rankLaw_writtenImage hl (setGrp s g _) (fun i _ => by simp)

theorem groupWritten_calm {bs : List Byte} (g : Group) (hl : bs.length = (Place.group g).size) (s : State) :
    Calm s (groupWritten s.cs.image g
      (withRecord (.group g) bs s)) := by
  unfold groupWritten
  dsimp only
  exact (((groupRecordWritten_calm g hl s).trans (lampsFollow_calm _ _)).trans (setLamps_calm _ _)).then_ite
    (leaveRedOut_shuts g _).calm

/-- A STATION record stands in the image with a selector record that its new authority allows. -/
theorem stationRecordWritten_calm {bs : List Byte} (i : Station) (hl : bs.length = (Place.station i).size) (s : State)
    (sel : Sel) (h : imageWf s.cs.image = true → RankLaw s →
      RankLaw { withRecord (.station i) bs s with sel := sel }) :
    Calm s { withRecord (.station i) bs s with sel := sel } :=
  .of_keeps ⟨rfl, imageWriteBytes_wf _ _ _, id, id, h, fun h l g => by
      refine Nat.le_trans (l g) (Nat.le_of_eq ?_)
      exact (compensationCap_agrees (writtenImage_agrees hl h) g (by simp)).symm, id⟩
    (fun _ => rfl) rfl ⟨rfl, rfl⟩ ⟨rfl, rfl⟩ ⟨rfl, rfl, rfl⟩

theorem postIf_setStation_sel (b : Bool) (e : Event) (s : State) (i : Station) (r : StationRec) (sel : Sel) :
    { postIf b e (setStation s i r) with sel := sel } = postIf b e (setStation { s with sel := sel } i r) := by
  cases b <;> rfl

/-- R47, R198: a STATION record is written, and the owner's rank rises to its authority. -/
theorem stationWritten_calm {bs : List Byte} (i : Station) (hl : bs.length = (Place.station i).size) (s : State) :
    Calm s (stationWritten i
      (withRecord (.station i) bs s)) := by
  unfold stationWritten authorityWritten
  dsimp only
  simp only [postIf_sel, setStation_sel, postIf_cs, setStation_cs, withRecord_sel, withRecord_image]
  have heard (wakes : Bool) (r : StationRec) (sel : Sel) (h : Calm s { withRecord (.station i) bs s with sel := sel }) :=
    (h.trans (setStation_calm _ i r)).trans (postIf_calm wakes .stationResumed _)
  split
  · rename_i raised
    obtain ⟨owner, weaker⟩ := raised
    refine Calm.trans ?_ (changeOwner_follows _ _ _ fun same => ?_).calm
    · have lawful (change : Time) := stationRecordWritten_calm i hl s
        { s.sel with rank := authorityRank (writtenImage (.station i) bs s.cs.image) i, lastChange := change }
        fun _ _ => by
          simp only [RankLaw, withRecord_image, owner]
          exact Nat.le_refl _
      unfold ownerWritten
      rw [postIf_setStation_sel]
      simp only [postIf_sel, setStation_sel, withRecord_sel]
      refine Calm.trans (heard _ _ _ ?_) (post_calm _ _)
      exact lawful _
    · have := same.2
      simp only [postIf_sel, setStation_sel, withRecord_sel] at this
      rw [this] at weaker
      exact absurd weaker (lt_irrefl _)
  · rename_i stays
    refine heard _ _ s.sel (stationRecordWritten_calm i hl s s.sel fun h l => ?_)
    by_cases owner : ownerStation s.sel.owner = some i
    · unfold RankLaw
      dsimp only
      rw [owner]
      exact not_lt.1 fun lt => stays ⟨owner, lt⟩
    · exact rankLaw_writtenImage hl s (fun j hj e => owner (by rw [hj]; simpa using e.symm)) h l

/-- R202 to R204: an accepted record with its effects at the other blocks. -/
theorem storeRecord_calm (p : Place) (bs : List Byte) (hl : bs.length = p.size) (s : State) :
    Calm s (storeRecord p bs s) := by
  unfold storeRecord
  have before : Calm s (beforeWrite p s) := by
    unfold beforeWrite
    split
    · exact sampleLeft_calm _ s
    · exact .refl s
  refine before.trans ?_
  generalize beforeWrite p s = u
  cases p with
  | device => exact (imageWritten_calm_of hl u (by simp) (by simp)).trans (deviceWritten_calm _)
  | station i => exact stationWritten_calm i hl u
  | group g => exact groupWritten_calm g hl u
  | matrix c => exact imageWritten_calm_of hl u (by simp) (by simp)
  | stage n => exact imageWritten_calm_of hl u (by simp) (by simp)
  | detector ch => exact (imageWritten_calm_of hl u (by simp) (by simp)).trans (detectorWritten_calm _ ch _)
  | approach a => exact (imageWritten_calm_of hl u (by simp) (by simp)).trans (disarm_calm a _)

theorem recordVerdict_length {p : Place} {bs : List Byte} (h : recordVerdict p bs = .done) : bs.length = p.size := by
  unfold recordVerdict at h
  split at h
  · cases h
  · rename_i hl; exact not_not.1 hl

theorem acceptRecord_serves (p : Place) (bs : List Byte) (hl : bs.length = p.size) (s : State)
    (hm : s.mfs.mode.resting = true) : Serves s (acceptRecord p bs s) := by
  have stored := storeRecord_calm p bs hl s
  unfold acceptRecord
  dsimp only
  generalize storeRecord p bs s = t at stored
  refine ⟨stored.keeps.trans (.of_parts rfl rfl ⟨rfl, rfl, rfl⟩ rfl ⟨rfl, rfl⟩ (fun _ => rfl) rfl), fun hf o => ?_⟩
  have o' := stored.orderly o
  have validating : t.cs.validating = false := by
    rw [stored.validating]
    exact (Bool.or_eq_false_iff.1 hf).2
  refine ⟨o'.mode, o'.first, o'.rest, fun _ => ⟨?_, rfl, rfl⟩, .inr validating⟩
  exact (congrArg Mode.resting (stored.mode_eq (resting_no_faultEntry hm)).1).trans hm

theorem writeConfig_serves (block index : Byte) (bs : List Byte) (i : Station) (s : State) :
    Serves s (writeConfig block index bs i s) := by
  unfold writeConfig
  split
  · exact answer_serves _ _ _ s
  · rename_i hm
    split
    · exact answer_serves _ _ _ s
    · split
      · rename_i hv
        exact acceptRecord_serves _ bs (recordVerdict_length hv) s (by simpa using hm)
      · exact answer_serves _ _ _ s

end Sys2Proof.Machine

namespace Sys2Proof.Machine

/-! ### The other requests -/

theorem takeReport_serves (a : Approach) (r : Report) (s : State) : Serves s (takeReport a r s) := by
  unfold takeReport
  split
  · rename_i e he
    exact ((updateEntry_calm s r a e he).trans (walkArrival_calm _ _)).answered _ _ _
  · rename_i free
    split
    · rename_i e he
      obtain ⟨mem, merges⟩ := oldest_mem _ _ _ he
      simp only [mergeable, Bool.and_eq_true, decide_eq_true_eq] at merges
      exact ((mergeEntry_calm s r a e free mem merges.1.1.2).trans (walkArrival_calm _ _)).answered _ _ _
    · split
      · rename_i t ht
        refine ((admitEntry_calm _ s t ht (fun _ _ x hx same => ?_)
          (withFigures_agree _ _ _ _ (reportEta_bounds _ _ _))).trans (walkArrival_calm _ _)).answered _ _ _
        rw [List.find?_eq_none] at free
        exact free x hx (by
          simp only [heldBy, Bool.and_eq_true, decide_eq_true_eq]
          exact ⟨same.1.symm, same.2.symm⟩)
      · exact answer_serves _ _ _ s

theorem checkIn_serves (r : Report) (approach : Byte) (i : Station) (s : State) :
    Serves s (checkIn r approach i s) := by
  unfold checkIn
  split
  · exact answer_serves _ _ _ s
  · split
    · exact takeReport_serves _ r s
    · exact answer_serves _ _ _ s

theorem checkOut_serves (ident : BitVec 16) (approach : Byte) (i : Station) (s : State) :
    Serves s (checkOut ident approach i s) := by
  unfold checkOut
  split
  · exact answer_serves _ _ _ s
  · split
    · exact (removeEntry_calm _ _ s).answered _ _ _
    · exact answer_serves _ _ _ s

theorem cancelEntries_serves (p : Entry → Bool) (s : State) : Serves s (cancelEntries p s) := by
  unfold cancelEntries
  split
  · exact ((removeEntries_calm p .cancelled s).trans (walkArrival_calm _ _)).answered _ _ _
  · exact answer_serves _ _ _ s

theorem cancelByNumber_serves (value : BitVec 16) (i : Station) (s : State) : Serves s (cancelByNumber value i s) := by
  unfold cancelByNumber
  split
  · exact answer_serves _ _ _ s
  · exact cancelEntries_serves _ s

theorem enablePriority_serves (b : Byte) (i : Station) (s : State) : Serves s (enablePriority b i s) := by
  have enable (on : Bool) : Calm s (setEnable on s) := by
    unfold setEnable
    split
    · exact .refl s
    · exact (Calm.of_pu (t := { s with pu := { s.pu with enabled := on } }) rfl id).trans (walkArrival_calm _ _)
  unfold enablePriority
  split
  · exact answer_serves _ _ _ s
  · exact (enable _).answered _ _ _

theorem ownerStation_stationOwner {i : Station} (h : i ≠ 1) : ownerStation (stationOwner i) = some i := by
  revert i; decide

/-- R49, R46: a station takes the selector at a rank within its authority. -/
theorem takeSelector_serves (r : Byte) (i : Station) (s : State) (hi : i ≠ 1) : Serves s (takeSelector r i s) := by
  unfold takeSelector
  refine Calm.answered (.of_ite fun _ => changeOwner_calm _ _ s ?_) _ _ _
  rw [ownerStation_stationOwner hi]
  exact le_max_right _ _

theorem releaseSelector_serves (i : Station) (s : State) : Serves s (releaseSelector i s) := by
  unfold releaseSelector
  split
  · exact (passSelector_calm i s).answered _ _ _
  · exact answer_serves _ _ _ s

theorem acceptTarget_calm (w : GroupSet) (s : State) : Calm s (acceptTarget w s) :=
  (setTarget_calm w s).trans (settle_follows _).calm

theorem setStage_serves (w : GroupSet) (i : Station) (s : State) : Serves s (setStage w i s) := by
  unfold setStage
  exact (Calm.of_ite fun _ => acceptTarget_calm w s).answered _ _ _

theorem selectStage_serves (b : Byte) (i : Station) (s : State) : Serves s (selectStage b i s) := by
  unfold selectStage
  exact (Calm.of_ite fun _ => acceptTarget_calm _ s).answered _ _ _

theorem callGroups_serves (w : GroupSet) (i : Station) (s : State) : Serves s (callGroups w i s) :=
  (postDemand_calm _ _ s).answered _ _ _

/-- R177: a table of fault records and the lamps' re-armings touch no law. -/
theorem clearFaultKinds_calm (kinds : BitVec 16) (mask : Option (BitVec 16)) (s : State) :
    Calm s (clearFaultKinds kinds mask s) := by
  have table (f : Vector FaultRec 12) : Calm s { s with mfs := { s.mfs with faults := f } } :=
    .of_keeps (.of_parts rfl rfl ⟨rfl, rfl, rfl⟩ rfl ⟨rfl, rfl⟩ (fun _ => rfl) rfl) (fun _ => rfl) rfl ⟨rfl, rfl⟩
      ⟨rfl, rfl⟩ ⟨rfl, rfl, rfl⟩
  unfold clearFaultKinds
  dsimp only
  exact ((table _).trans (setLamps_calm _ _)).then_ite (liftLocks_calm _)

theorem clearFaults_serves (kinds : BitVec 16) (given : Bool) (mask : BitVec 16) (i : Station) (s : State) :
    Serves s (clearFaults kinds given mask i s) := by
  unfold clearFaults
  split
  · exact answer_serves _ _ _ s
  · exact (Calm.of_ite fun _ => clearFaultKinds_calm _ _ s).answered _ _ _

theorem clearEvents_serves (kinds : BitVec 16) (given : Bool) (mask : BitVec 16) (i : Station) (s : State) :
    Serves s (clearEvents kinds given mask i s) := by
  have cleared (m : Mfs) (h : m.mode = s.mfs.mode ∧ m.sub = s.mfs.sub ∧ m.goal = s.mfs.goal) :
      Calm s { s with mfs := updateAttn m } :=
    .of_keeps ⟨rfl, id, fun _ => updateAttn_attn m, id, fun _ => id, fun _ => id, id⟩ (fun _ => rfl) rfl ⟨rfl, rfl⟩
      ⟨rfl, rfl⟩ h
  unfold clearEvents
  split
  · exact answer_serves _ _ _ s
  · dsimp only
    refine Calm.answered ?_ _ _ _
    unfold clearStationEvents
    refine cleared _ ⟨?_, ?_, ?_⟩ <;> rfl

theorem setDim_serves (b : Byte) (i : Station) (s : State) : Serves s (setDim b i s) := by
  have pending (d : Dim) : Calm s (setPendingDim d s) := .of_target rfl ⟨rfl, rfl⟩
  unfold setDim
  split
  · exact (pending _).answered _ _ _
  · split
    · exact (pending _).answered _ _ _
    · exact answer_serves _ _ _ s

theorem answerRead_serves (k : RequestKind) (fields : Option (List Byte)) (s : State) :
    Serves s (answerRead k fields s) := by
  unfold answerRead
  split <;> exact answer_serves _ _ _ s

theorem readGroups_serves (b : Byte) (i : Station) (s : State) : Serves s (readGroups b i s) := answerRead_serves _ _ s

theorem readDetectors_serves (b : Byte) (i : Station) (s : State) : Serves s (readDetectors b i s) := answerRead_serves _ _ s

theorem readFaults_serves (b : Byte) (i : Station) (s : State) : Serves s (readFaults b i s) := answerRead_serves _ _ s

theorem readPriority_serves (b : Byte) (i : Station) (s : State) : Serves s (readPriority b i s) := by
  unfold readPriority
  dsimp only
  repeat' split
  all_goals exact answer_serves _ _ _ s

theorem readConfig_serves (block index : Byte) (i : Station) (s : State) : Serves s (readConfig block index i s) := by
  unfold readConfig
  repeat' split
  all_goals exact answer_serves _ _ _ s

/-! ### The link port -/

theorem refuseEncoding_serves (k : RequestKind) (s : State) : Serves s (refuseEncoding k s) := answer_serves _ _ _ s

theorem serveClear_serves (k : RequestKind) (f : BitVec 16 → Bool → BitVec 16 → Station → State → State)
    (a b given c d : Byte) (i : Station) (s : State) (h : ∀ x y z, Serves s (f x y z i s)) :
    Serves s (serveClear k f a b given c d i s) := by
  unfold serveClear
  split
  · exact h _ _ _
  · exact refuseEncoding_serves k s

theorem serveMode_serves (g : Byte) (i : Station) (s : State) : Serves s (serveMode g i s) := by
  unfold serveMode
  split
  · exact modeRequestGoal_serves _ i s
  · split
    · exact modeRequestGoal_serves _ i s
    · split
      · exact modeRequestResume_serves i s
      · exact answer_serves _ _ _ s

theorem serveCancel_serves (b : Byte) (v : BitVec 16) (i : Station) (s : State) : Serves s (serveCancel b v i s) := by
  unfold serveCancel
  split
  · exact cancelByNumber_serves v i s
  · split
    · exact cancelEntries_serves _ s
    · exact answer_serves _ _ _ s

theorem serveCheckIn_serves (ident : BitVec 16) (route approach : Byte) (lateness : BitVec 16) (special dp : Byte)
    (d : BitVec 24) (vp : Byte) (v : BitVec 16) (i : Station) (s : State) :
    Serves s (serveCheckIn ident route approach lateness special dp d vp v i s) := by
  unfold serveCheckIn
  split
  · exact checkIn_serves _ _ i s
  · exact refuseEncoding_serves _ s

/-- R192: the blocks' part of a request whose kind the station is allowed. -/
theorem serve_serves (k : RequestKind) (payload : List Byte) (i : Station) (s : State) (ha : k.allows i = true) :
    Serves s (serve k payload i s) := by
  cases k
  case readStatus =>
    rcases payload with _ | ⟨_, _⟩
    · exact answer_serves _ _ _ s
    · exact answer_serves _ _ _ s
  case readGroups =>
    rcases payload with _ | ⟨_, _ | ⟨_, _⟩⟩
    · exact answer_serves _ _ _ s
    · exact readGroups_serves _ i s
    · exact answer_serves _ _ _ s
  case readDetectors =>
    rcases payload with _ | ⟨_, _ | ⟨_, _⟩⟩
    · exact answer_serves _ _ _ s
    · exact readDetectors_serves _ i s
    · exact answer_serves _ _ _ s
  case readPriority =>
    rcases payload with _ | ⟨_, _ | ⟨_, _⟩⟩
    · exact answer_serves _ _ _ s
    · exact readPriority_serves _ i s
    · exact answer_serves _ _ _ s
  case readFaults =>
    rcases payload with _ | ⟨_, _ | ⟨_, _⟩⟩
    · exact answer_serves _ _ _ s
    · exact readFaults_serves _ i s
    · exact answer_serves _ _ _ s
  case readEvents =>
    rcases payload with _ | ⟨_, _⟩
    · exact answer_serves _ _ _ s
    · exact answer_serves _ _ _ s
  case clearEvents =>
    rcases payload with _ | ⟨_, _ | ⟨_, _ | ⟨_, _ | ⟨_, _ | ⟨_, _ | ⟨_, _⟩⟩⟩⟩⟩⟩
    iterate 5 · exact answer_serves _ _ _ s
    · exact serveClear_serves _ _ _ _ _ _ _ i s fun x y z => clearEvents_serves x y z i s
    · exact answer_serves _ _ _ s
  case takeSelector =>
    rcases payload with _ | ⟨_, _ | ⟨_, _⟩⟩
    · exact answer_serves _ _ _ s
    · exact takeSelector_serves _ i s (of_decide_eq_true ha)
    · exact answer_serves _ _ _ s
  case releaseSelector =>
    rcases payload with _ | ⟨_, _⟩
    · exact releaseSelector_serves i s
    · exact answer_serves _ _ _ s
  case setStage =>
    rcases payload with _ | ⟨_, _ | ⟨_, _ | ⟨_, _ | ⟨_, _⟩⟩⟩⟩
    · exact answer_serves _ _ _ s
    · exact answer_serves _ _ _ s
    · exact answer_serves _ _ _ s
    · exact setStage_serves _ i s
    · exact answer_serves _ _ _ s
  case selectStage =>
    rcases payload with _ | ⟨_, _ | ⟨_, _⟩⟩
    · exact answer_serves _ _ _ s
    · exact selectStage_serves _ i s
    · exact answer_serves _ _ _ s
  case callGroups =>
    rcases payload with _ | ⟨_, _ | ⟨_, _ | ⟨_, _ | ⟨_, _⟩⟩⟩⟩
    · exact answer_serves _ _ _ s
    · exact answer_serves _ _ _ s
    · exact answer_serves _ _ _ s
    · exact callGroups_serves _ i s
    · exact answer_serves _ _ _ s
  case modeRequest =>
    rcases payload with _ | ⟨_, _ | ⟨_, _⟩⟩
    · exact answer_serves _ _ _ s
    · exact serveMode_serves _ i s
    · exact answer_serves _ _ _ s
  case clearFaults =>
    rcases payload with _ | ⟨_, _ | ⟨_, _ | ⟨_, _ | ⟨_, _ | ⟨_, _ | ⟨_, _⟩⟩⟩⟩⟩⟩
    iterate 5 · exact answer_serves _ _ _ s
    · exact serveClear_serves _ _ _ _ _ _ _ i s fun x y z => clearFaults_serves x y z i s
    · exact answer_serves _ _ _ s
  case setDim =>
    rcases payload with _ | ⟨_, _ | ⟨_, _⟩⟩
    · exact answer_serves _ _ _ s
    · exact setDim_serves _ i s
    · exact answer_serves _ _ _ s
  case enablePriority =>
    rcases payload with _ | ⟨_, _ | ⟨_, _⟩⟩
    · exact answer_serves _ _ _ s
    · exact enablePriority_serves _ i s
    · exact answer_serves _ _ _ s
  case readConfig =>
    rcases payload with _ | ⟨_, _ | ⟨_, _ | ⟨_, _⟩⟩⟩
    · exact answer_serves _ _ _ s
    · exact answer_serves _ _ _ s
    · exact readConfig_serves _ _ i s
    · exact answer_serves _ _ _ s
  case checkOut =>
    rcases payload with _ | ⟨_, _ | ⟨_, _ | ⟨_, _ | ⟨_, _⟩⟩⟩⟩
    · exact answer_serves _ _ _ s
    · exact answer_serves _ _ _ s
    · exact answer_serves _ _ _ s
    · exact checkOut_serves _ _ i s
    · exact answer_serves _ _ _ s
  case cancelPriority =>
    rcases payload with _ | ⟨_, _ | ⟨_, _ | ⟨_, _ | ⟨_, _⟩⟩⟩⟩
    · exact answer_serves _ _ _ s
    · exact answer_serves _ _ _ s
    · exact answer_serves _ _ _ s
    · exact serveCancel_serves _ _ i s
    · exact answer_serves _ _ _ s
  case checkIn =>
    rcases payload with _ | ⟨_, _ | ⟨_, _ | ⟨_, _ | ⟨_, _ | ⟨_, _ | ⟨_, _ | ⟨_, _ | ⟨_, _ | ⟨_, _ | ⟨_, _ | ⟨_, _ | ⟨_, _ | ⟨_, _ | ⟨_, _ | ⟨_, _⟩⟩⟩⟩⟩⟩⟩⟩⟩⟩⟩⟩⟩⟩⟩
    iterate 14 · exact answer_serves _ _ _ s
    · exact serveCheckIn_serves _ _ _ _ _ _ _ _ _ i s
    · exact answer_serves _ _ _ s
  case writeConfig =>
    rcases payload with _ | ⟨_, _ | ⟨_, _⟩⟩
    · exact answer_serves _ _ _ s
    · exact answer_serves _ _ _ s
    · exact writeConfig_serves _ _ _ i s

/-- R185 to R187: a change of the receiver while no request is in flight. -/
theorem setClp_serves (s : State) (c : Clp) : Serves s { s with clp := c } :=
  ⟨.of_parts rfl rfl ⟨rfl, rfl, rfl⟩ rfl ⟨rfl, rfl⟩ (fun _ => rfl) rfl, fun hf o =>
    ⟨o.mode, o.first, o.rest, fun h => absurd (h.symm.trans hf) Bool.noConfusion,
      o.single⟩⟩

/-- A change of the link port that leaves the receiver's state and the reply. -/
theorem setClp_calm (s : State) (c : Clp) (receiver : c.receiver = s.clp.receiver) (reply : c.reply = s.clp.reply) :
    Calm s { s with clp := c } :=
  .of_keeps (.of_parts rfl rfl ⟨rfl, rfl, rfl⟩ rfl ⟨rfl, rfl⟩ (fun _ => rfl) rfl) (fun _ => rfl) rfl ⟨rfl, rfl⟩
    ⟨receiver, reply⟩ ⟨rfl, rfl, rfl⟩

theorem takeRequest_serves (kind : Byte) (payload : List Byte) (i : Station) (s : State) :
    Serves s (takeRequest kind payload i s) := by
  unfold takeRequest
  split
  · exact setClp_serves s _
  · rename_i k _
    split
    · exact answer_serves _ _ _ s
    · rename_i ha
      split
      · exact answer_serves _ _ _ s
      · exact serve_serves k payload i s (by simpa using ha)

theorem hear_calm (i : Station) (s : State) : Calm s (hear i s) :=
  (setStation_calm s i _).trans (postIf_calm _ _ _)

theorem judgeFrame_serves (buf : List Byte) (s : State) : Serves s (judgeFrame buf s) := by
  unfold judgeFrame discard
  split
  · exact setClp_serves s _
  · split
    · exact setClp_serves s _
    · split
      · exact setClp_serves s _
      · exact (hear_calm _ s).then_serves (takeRequest_serves _ _ _ _)

theorem storeByte_serves (b : Byte) (s : State) : Serves s (storeByte b s) := by
  unfold storeByte discard
  dsimp only
  split
  · exact setClp_serves s _
  · split
    · exact judgeFrame_serves _ s
    · exact setClp_serves s _

/-- R187: the receiver of a request in flight is in BUSY. -/
theorem Serves.upholds {s t : State} (h : Serves s t) (hr : s.clp.receiver ≠ .busy) : Upholds s t :=
  ⟨h.keeps, fun o => h.orderly (by
    by_contra hf
    exact hr (o.flight (by simpa using hf)).2.1) o⟩

theorem receiveByte_upholds (b : Byte) (framingError : Bool) (s : State) : Upholds s (receiveByte b framingError s) := by
  unfold receiveByte
  refine (setClp_calm s { s.clp with lastByte := dnow s } rfl rfl).upholds.trans ?_
  change Upholds (noteByte s) (takeByte b framingError (noteByte s))
  generalize noteByte s = u
  have stored (hr : u.clp.receiver ≠ .busy) :
      Upholds u (if framingError then discard (addressed u.clp) .skip u else storeByte b u) := by
    split
    · exact (setClp_serves u _).upholds hr
    · exact (storeByte_serves b u).upholds hr
  unfold takeByte
  split
  · rename_i hr
    split
    · exact (setClp_serves u _).upholds (by rw [hr]; decide)
    · exact .refl u
  · rename_i hr; exact stored (by rw [hr]; decide)
  · rename_i hr; exact stored (by rw [hr]; decide)
  · rename_i hr; exact stored (by rw [hr]; decide)
  · exact .refl u
  · split
    · unfold overrun
      split
      · exact .refl u
      · exact (setClp_calm u { u.clp with discarded := saturate16 u.clp.discarded, ignoring := true } rfl rfl).upholds
    · exact .refl u

theorem silenceTimeout_upholds (s : State) : Upholds s (silenceTimeout s) := by
  unfold silenceTimeout discard
  split
  · exact .refl s
  · rename_i hr; exact (setClp_serves s _).upholds (by rw [hr]; decide)
  · rename_i hr; exact (setClp_serves s _).upholds (by rw [hr]; decide)
  · rename_i hr; exact (setClp_serves s _).upholds (by rw [hr]; decide)
  · rename_i hr; exact (setClp_serves s _).upholds (by rw [hr]; decide)
  · exact (setClp_calm s { s.clp with ignoring := false } rfl rfl).upholds

/-- R187: a reply that has been formed is no reply to a request in flight. -/
theorem replySent_upholds (s : State) : Upholds s (replySent s) := by
  unfold replySent
  split
  · rename_i h
    refine ⟨(setClp_serves s _).keeps, fun o => (setClp_serves s _).orderly ?_ o⟩
    by_contra hf
    have := (o.flight (by simpa using hf)).2.2
    rw [this] at h
    cases h.2
  · exact .refl s

theorem frameReceived_upholds (b : Byte) (s : State) : Upholds s (frameReceived b s) := by
  unfold frameReceived
  split
  · exact receiveByte_upholds _ _ s
  · exact .refl s

theorem frameOverrun_upholds (s : State) : Upholds s (frameOverrun s) := by
  unfold frameOverrun
  split
  · exact receiveByte_upholds _ _ s
  · exact .refl s

/-! ### Every command -/

/-- Every command has a next state; it keeps the laws of `Keeps`, and the first law with what it rests on. -/
theorem exec_next_upholds (c : Instr) (s : State) : ∃ t, exec c s = .next t ∧ Upholds s t := by
  cases c
  case reset => exact ⟨_, rfl, reset_upholds _ _ _ s⟩
  case powerUpCheckCompletion => exact ⟨_, rfl, powerUpCheck_upholds s⟩
  case junctionClockAdvance => exact ⟨_, rfl, junctionAdvance_upholds _ s⟩
  case dimBoundary => exact ⟨_, rfl, (dimBoundary_calm s).upholds⟩
  case flashToggle => exact ⟨_, rfl, (flashToggle_calm s).upholds⟩
  case groupStart => exact ⟨_, rfl, withItem_upholds _ _ s fun g => startGroup_upholds g s⟩
  case prepareEnd => exact ⟨_, rfl, withItem_upholds _ _ s fun g => (endPrepare_calm g s).upholds⟩
  case minProceedEnd => exact ⟨_, rfl, withItem_upholds _ _ s fun g => (endMinProceed_calm g s).upholds⟩
  case maxOut => exact ⟨_, rfl, withItem_upholds _ _ s fun g => (maxOut_calm g s).upholds⟩
  case clearanceEnd => exact ⟨_, rfl, withItem_upholds _ _ s fun g => endClearance_upholds g s⟩
  case holdEnd => exact ⟨_, rfl, (holdEnd_calm s).upholds⟩
  case recallInhibitEnd => exact ⟨_, rfl, (recallInhibitEnd_calm s).upholds⟩
  case expiry => exact ⟨_, rfl, (expire_calm s).upholds⟩
  case gapOut => exact ⟨_, rfl, withItem_upholds _ _ s fun g => (gapOut_calm g s).upholds⟩
  case silenceExpiry => exact ⟨_, rfl, withItem_upholds _ _ s fun i => (silenceExpiry_calm i s).upholds⟩
  case suFlashEnd => exact ⟨_, rfl, suFlashEnd_upholds s⟩
  case suAllredEnd => exact ⟨_, rfl, suAllredEnd_upholds s⟩
  case clAllredEnd => exact ⟨_, rfl, clAllredEnd_upholds s⟩
  case overcurrentTrip => exact ⟨_, rfl, withItem_upholds _ _ s fun ch => (overcurrentTrip_calm ch s).upholds⟩
  case tripRetry => exact ⟨_, rfl, withItem_upholds _ _ s fun ch => (tripRetry_calm ch s).upholds⟩
  case tripCounterReset => exact ⟨_, rfl, withItem_upholds _ _ s fun ch => (tripCounterReset_calm ch s).upholds⟩
  case detectorClockAdvance => exact ⟨_, rfl, (detectorAdvance_calm _ s).upholds⟩
  case externalFault => exact ⟨_, rfl, (externalFault_calm s).upholds⟩
  case loopSample => exact ⟨_, rfl, withItem_upholds _ _ s fun ch => (loopSample_calm _ ch s).upholds⟩
  case loopLongPresence => exact ⟨_, rfl, withItem_upholds _ _ s fun ch => (loopLongPresence_calm ch s).upholds⟩
  case contactSample => exact ⟨_, rfl, withItem_upholds _ _ s fun ch => (contactSample_calm _ ch s).upholds⟩
  case contactLongPresence => exact ⟨_, rfl, withItem_upholds _ _ s fun ch => (contactLongPresence_calm ch s).upholds⟩
  case windowClose => exact ⟨_, rfl, withItem_upholds _ _ s fun ch => (windowClose_calm ch s).upholds⟩
  case armingLapse => exact ⟨_, rfl, (armingLapse_calm s).upholds⟩
  case frameReceived => exact ⟨_, rfl, frameReceived_upholds _ s⟩
  case linkSilenceTimeout => exact ⟨_, rfl, silenceTimeout_upholds s⟩
  case frameOverrun => exact ⟨_, rfl, frameOverrun_upholds s⟩
  case replySent => exact ⟨_, rfl, replySent_upholds s⟩
  case readStatus => exact ⟨_, rfl, asked_upholds _ _ _ s fun _ _ => answer_serves _ _ _ s⟩
  case readGroups => exact ⟨_, rfl, asked_upholds _ _ _ s fun _ _ => answerRead_serves _ _ s⟩
  case readDetectors => exact ⟨_, rfl, asked_upholds _ _ _ s fun _ _ => answerRead_serves _ _ s⟩
  case readPriority => exact ⟨_, rfl, asked_upholds _ _ _ s fun i _ => readPriority_serves _ i s⟩
  case readFaults => exact ⟨_, rfl, asked_upholds _ _ _ s fun _ _ => answerRead_serves _ _ s⟩
  case readEvents => exact ⟨_, rfl, asked_upholds _ _ _ s fun _ _ => answer_serves _ _ _ s⟩
  case clearEvents => exact ⟨_, rfl, asked_upholds _ _ _ s fun i _ => clearEvents_serves _ _ _ i s⟩
  case takeSelector => exact ⟨_, rfl, asked_upholds _ _ _ s fun i ha => takeSelector_serves _ i s (of_decide_eq_true ha)⟩
  case releaseSelector => exact ⟨_, rfl, asked_upholds _ _ _ s fun i _ => releaseSelector_serves i s⟩
  case setStage => exact ⟨_, rfl, asked_upholds _ _ _ s fun i _ => setStage_serves _ i s⟩
  case selectStage => exact ⟨_, rfl, asked_upholds _ _ _ s fun i _ => selectStage_serves _ i s⟩
  case callGroups => exact ⟨_, rfl, asked_upholds _ _ _ s fun i _ => callGroups_serves _ i s⟩
  case modeRequestFlash => exact ⟨_, rfl, asked_upholds _ _ _ s fun i _ => modeRequestGoal_serves _ i s⟩
  case modeRequestDark => exact ⟨_, rfl, asked_upholds _ _ _ s fun i _ => modeRequestGoal_serves _ i s⟩
  case modeRequestResume => exact ⟨_, rfl, asked_upholds _ _ _ s fun i _ => modeRequestResume_serves i s⟩
  case validationCompletion => exact ⟨_, rfl, validationCompletion_upholds s⟩
  case clearFaults => exact ⟨_, rfl, asked_upholds _ _ _ s fun i _ => clearFaults_serves _ _ _ i s⟩
  case setDim => exact ⟨_, rfl, asked_upholds _ _ _ s fun i _ => setDim_serves _ i s⟩
  case enablePriority => exact ⟨_, rfl, asked_upholds _ _ _ s fun i _ => enablePriority_serves _ i s⟩
  case readConfig => exact ⟨_, rfl, asked_upholds _ _ _ s fun i _ => readConfig_serves _ _ i s⟩
  case writeConfig => exact ⟨_, rfl, asked_upholds _ _ _ s fun i _ => writeConfig_serves _ _ _ i s⟩
  case nonvolatileCopyCompletion => exact ⟨_, rfl, copyCompletion_upholds s⟩
  case checkIn => exact ⟨_, rfl, asked_upholds _ _ _ s fun i _ => checkIn_serves _ _ i s⟩
  case checkOut => exact ⟨_, rfl, asked_upholds _ _ _ s fun i _ => checkOut_serves _ _ i s⟩
  case cancelPriorityByNumber => exact ⟨_, rfl, asked_upholds _ _ _ s fun i _ => cancelByNumber_serves _ i s⟩
  case cancelPriorityByIdent => exact ⟨_, rfl, asked_upholds _ _ _ s fun _ _ => cancelEntries_serves _ s⟩
  case byteReceived => exact ⟨_, rfl, receiveByte_upholds _ _ s⟩

theorem exec_upholds (c : Instr) (s t : State) (h : exec c s = .next t) : Upholds s t := by
  obtain ⟨u, hu, upholds⟩ := exec_next_upholds c s
  cases hu.symm.trans h
  exact upholds

/-- A step takes the command at the front of the queue off it, or idles; none of the laws reads the queue. -/
theorem step_upholds (s t : State) (h : step s = .next t) :
    (imageWf s.cs.image = true → CreditLaw s → CreditLaw t) ∧ (imageWf s.cs.image = true → RankLaw s → RankLaw t) ∧
      (Orderly s → Orderly t) := by
  unfold step at h
  split at h
  · cases h; exact ⟨fun _ => id, fun _ => id, id⟩
  · rename_i c rest _
    have ran := exec_upholds c { s with pending := rest } t h
    exact ⟨ran.keeps.credit, ran.keeps.rank, fun o => ran.orderly ⟨o.mode, o.first, o.rest, o.flight, o.single⟩⟩

/-- Settles O58, by the laws that every command keeps. -/
theorem stepKeepsCreditsAndOwnerRank : Obligations.StepKeepsCreditsAndOwnerRank := by
  unfold Obligations.StepKeepsCreditsAndOwnerRank
  exact ⟨fun s t hw hc h => (step_upholds s t h).1 hw hc, fun s t hw hr h => (step_upholds s t h).2.1 hw hr⟩

/-- Settles O60: `Orderly` is kept by every command, a start by the conditions of R8 and R9, a mode change by all
groups standing in STOP. -/
theorem stepKeepsFirstLaw : Obligations.StepKeepsFirstLaw := by
  unfold Obligations.StepKeepsFirstLaw
  exact fun s t o h => (step_upholds s t h).2.2 o

end Sys2Proof.Machine

/-! ## Reset (R28) -/

namespace Sys2Proof.Machine

theorem mayStart_of_mode {s : State} (h : s.mfs.mode ≠ .normal) (g : Group) : mayStart s g = false := by
  simp [mayStart, h]

/-- Settles O3: every field of the record that a reset writes. -/
theorem resetStopsEveryGroup : Obligations.ResetStopsEveryGroup := by
  unfold Obligations.ResetStopsEveryGroup
  intro addr rate s
  refine ⟨_, rfl, rfl, fun g => grp_resetWith _ _ _ _ s g, rfl, fun g => mayStart_of_mode (s := resetWith _ _ _ _ s) (by simp [resetWith, Mfs.reset]) g, fun h => ?_⟩
  change imageAfterReset s = s.cs.image
  unfold imageAfterReset
  rw [h]

/-! ## The laws at `State.reset` -/

theorem grp_reset (g : Group) : grp State.reset g = GroupRec.reset := by
  simp [grp, State.reset]

theorem det_reset (ch : Channel) : det State.reset ch = DetRec.reset .tuning true 20 := by
  simp [det, State.reset]

theorem lamp_reset (ch : Lamp) : lamp State.reset ch = LampRec.reset := by
  simp [lamp, State.reset, Lou.reset]

/-- Settles O56: law by law on the reset values. -/
theorem lawsHoldAtReset : Obligations.LawsHoldAtReset := by
  unfold Obligations.LawsHoldAtReset
  refine ⟨by decide, ?attn, fun ch => ?command, fun g => ?credit, rfl, .nil, ?order, fun ch => ?detector, ?orderly⟩
  case attn => simp [AttnLaw, unmaskedSummary, State.reset, Mfs.reset]
  case command => rw [lamp_reset]; rfl
  case credit => rw [grp_reset]; exact Nat.zero_le _
  case order => exact ⟨.nil, ⟨.nil, fun _ h => absurd h List.not_mem_nil⟩, fun _ h => absurd h List.not_mem_nil⟩
  case detector => rw [det_reset]; exact ChannelLaw.reset _ _ _
  case orderly => exact .of_stopped rfl (fun g => by rw [grp_reset]; rfl) (fun h => by cases h) (.inl rfl)

/-! ## The external fault (R179) -/

/-- R175: a critical detection drives FLT, and in START_UP, NORMAL and CLOSING brings fault entry. -/
theorem detect_critical (k : FaultKind) (d : BitVec 72) (s : State) (hk : k.critical = true) :
    detect k d s = if s.mfs.mode.faultEnters then faultEntry (driveFlt (latch k d s)) else driveFlt (latch k d s) := by
  have hm : (driveFlt (latch k d s)).mfs.mode = s.mfs.mode := by simp [driveFlt, latch, setFault]
  unfold detect
  simp only [hk, if_true, hm]

theorem driveFlt_latch_frame (k : FaultKind) (d : BitVec 72) (s : State) :
    (driveFlt (latch k d s)).sge = s.sge ∧ (driveFlt (latch k d s)).cs = s.cs := by
  simp [latch]

/-- R176, R27: the entry to the fault aspect, on the group records written out. -/
theorem faultEntry_spec (k : FaultKind) (d : BitVec 72) (s : State) :
    EntersResting (faultAspect s.cs.image) (setGroups (driveFlt (latch k d s)) fun g =>
      if (grp s g).state = .stop then grp s g
      else { grp s g with
        state := .stop, stateEntry := jnow s, stopEntry := jnow s, proceedEnd := jnow s
        cause := if (grp s g).state = .clearance then (grp s g).cause else some .fault })
      (faultEntry (driveFlt (latch k d s))) := by
  have entered := enterResting_spec (faultAspect (driveFlt (latch k d s)).cs.image)
    (setGroups (driveFlt (latch k d s)) fun g =>
      stoppedByFault (jnow (driveFlt (latch k d s))) (grp (driveFlt (latch k d s)) g))
  obtain ⟨sge, cs⟩ := driveFlt_latch_frame k d s
  simp only [stoppedByFault, jnow, grp, sge, cs] at entered
  unfold faultEntry
  simp only [stoppedByFault, jnow, grp, sge, cs]
  exact entered

/-- Settles O26, by the detection of a critical kind and the entry to FLASH or DARK. -/
theorem externalFaultEntersFaultAspect : Obligations.ExternalFaultEntersFaultAspect := by
  unfold Obligations.ExternalFaultEntersFaultAspect
  intro s m run hm
  subst hm
  have ran : exec .externalFault s = .next (detect .externalFault 0 s) := by
    change Host.Outcome.next (externalFault s) = _
    unfold externalFault
    rw [if_pos run]
  have critical := detect_critical .externalFault 0 s rfl
  refine ⟨fun hmode => ⟨_, ran, ?_⟩, fun hmode => ?_⟩
  · rw [critical, if_pos (by rcases hmode with h | h | h <;> rw [h] <;> rfl)]
    exact faultEntry_spec .externalFault 0 s
  · rw [ran, critical, if_neg (by rcases hmode with h | h | h <;> rw [h] <;> decide)]
    rfl

end Sys2Proof.Machine

/-! ## The start arbiter (R8, R9) -/

namespace Sys2Proof.Machine

/-- R9: the arbiter's order is strict: called groups, then the oldest stop entry, then the lower number. -/
theorem startsBefore_trans {s : State} {a b c : Group} (h : startsBefore s a b = true) (k : startsBefore s b c = true) :
    startsBefore s a c = true := by
  unfold startsBefore at h k ⊢
  generalize (ovl s a).call = ca at h k ⊢
  generalize (ovl s b).call = cb at h k ⊢
  generalize (ovl s c).call = cc at h k ⊢
  dsimp only at h k ⊢
  cases ca <;> cases cb <;> cases cc <;> grind

theorem startsBefore_total {s : State} {a b : Group} (ne : a ≠ b) (h : startsBefore s a b = false) :
    startsBefore s b a = true := by
  have ne : a.val ≠ b.val := fun e => ne (Fin.ext e)
  unfold startsBefore at h ⊢
  dsimp only at h ⊢
  grind

theorem insertBefore_startsBefore_sorted {s : State} {x : Group} {l : List Group} (new : x ∉ l)
    (h : l.Pairwise fun a b => startsBefore s a b = true) :
    (insertBefore (startsBefore s) x l).Pairwise fun a b => startsBefore s a b = true := by
  induction l with
  | nil => exact List.pairwise_singleton _ _
  | cons y l ih =>
    obtain ⟨first, rest⟩ := List.pairwise_cons.1 h
    unfold insertBefore
    split
    · rename_i hx
      refine List.pairwise_cons.2 ⟨fun z hz => ?_, h⟩
      rcases List.mem_cons.1 hz with rfl | hz
      · exact hx
      · exact startsBefore_trans hx (first z hz)
    · rename_i hx
      have later := startsBefore_total (List.ne_of_not_mem_cons new) (by simpa using hx)
      refine List.pairwise_cons.2 ⟨fun z hz => ?_, ih (List.not_mem_of_not_mem_cons new) rest⟩
      rcases (insertBefore_mem _ _ _ _).1 hz with rfl | hz
      · exact later
      · exact first z hz

theorem arbiterOrder_sorted (s : State) : (arbiterOrder s).Pairwise fun a b => startsBefore s a b = true := by
  unfold arbiterOrder
  have distinct : (allGroups.filter (mayStart s)).Nodup := (List.nodup_finRange 24).filter _
  generalize allGroups.filter (mayStart s) = l at distinct
  induction l with
  | nil => exact .nil
  | cons x l ih =>
    obtain ⟨new, rest⟩ := List.nodup_cons.1 distinct
    exact insertBefore_startsBefore_sorted (fun h => new ((foldr_insertBefore_perm _ _).mem_iff.1 h)) (ih rest)

theorem mem_pick (s : State) (p : List Group) (x g : Group) :
    g ∈ pick s p x ↔ g ∈ p ∨ g = x ∧ ∀ c ∈ p, conflicts s c x = false := by
  unfold pick
  split
  · rename_i h
    obtain ⟨c, hc, conflict⟩ := List.any_eq_true.1 h
    refine ⟨.inl, fun k => k.resolve_right fun k => ?_⟩
    rw [k.2 c hc] at conflict
    cases conflict
  · rename_i h
    have free : ∀ c ∈ p, conflicts s c x = false := by simpa using h
    simp only [List.mem_append, List.mem_singleton]
    exact ⟨.imp_right fun e => ⟨e, free⟩, .imp_right fun e => e.1⟩

theorem foldl_pick_keeps (s : State) (l p : List Group) : ∀ g ∈ p, g ∈ l.foldl (pick s) p := by
  induction l generalizing p with
  | nil => exact fun _ h => h
  | cons x l ih => exact fun g h => ih _ g ((mem_pick s p x g).2 (.inl h))

/-- R9: no two picks conflict. -/
theorem foldl_pick_safe (s : State) (l p : List Group) (h : ∀ c ∈ p, ∀ g ∈ p, conflicts s c g = false) :
    ∀ c ∈ l.foldl (pick s) p, ∀ g ∈ l.foldl (pick s) p, conflicts s c g = false := by
  induction l generalizing p with
  | nil => exact h
  | cons x l ih =>
    refine ih _ fun c hc g hg => ?_
    rcases (mem_pick s p x c).1 hc with pc | ⟨rfl, free⟩
    · rcases (mem_pick s p x g).1 hg with pg | ⟨rfl, free⟩
      · exact h c pc g pg
      · exact free c pc
    · rcases (mem_pick s p c g).1 hg with pg | ⟨rfl, _⟩
      · rw [conflicts_symm]; exact free g pg
      · exact conflicts_irrefl s _

/-- R9: a group that is considered and not picked conflicts with one that is picked and stands before it. -/
theorem foldl_pick_maximal (s : State) (l p : List Group) (sorted : l.Pairwise fun a b => startsBefore s a b = true)
    (before : ∀ c ∈ p, ∀ g ∈ l, startsBefore s c g = true) :
    ∀ g ∈ l, g ∉ l.foldl (pick s) p →
      ∃ c ∈ l.foldl (pick s) p, conflicts s c g = true ∧ startsBefore s c g = true := by
  induction l generalizing p with
  | nil => exact fun g h => absurd h List.not_mem_nil
  | cons x l ih =>
    obtain ⟨first, rest⟩ := List.pairwise_cons.1 sorted
    have next : ∀ c ∈ pick s p x, ∀ g ∈ l, startsBefore s c g = true := by
      intro c hc g hg
      rcases (mem_pick s p x c).1 hc with hc | ⟨rfl, _⟩
      · exact before c hc g (List.mem_cons_of_mem _ hg)
      · exact first g hg
    intro g hg out
    rcases List.mem_cons.1 hg with rfl | hg
    · have passed : ¬∀ c ∈ p, conflicts s c g = false := fun free =>
        out (foldl_pick_keeps s l _ g ((mem_pick s p g g).2 (.inr ⟨rfl, free⟩)))
      push Not at passed
      obtain ⟨c, hc, conflict⟩ := passed
      exact ⟨c, foldl_pick_keeps s l _ c ((mem_pick s p g c).2 (.inl hc)), by simpa using conflict,
        before c hc g List.mem_cons_self⟩
    · exact ih _ rest next g hg out

theorem startGroup_of_pick {s : State} {g : Group} (h : g ∈ arbiterPicks s) :
    startGroup g s = groupMoved g (setGrp s g (started s g)) := if_pos (List.contains_iff_mem.2 h)

theorem startGroup_of_not_mayStart {s : State} {g : Group} (h : ¬mayStart s g = true) : startGroup g s = s :=
  if_neg fun k => h (arbiterPicks_mayStart s g (List.contains_iff_mem.1 k))

theorem exec_groupStart (g : Group) (s : State) : exec (.groupStart (number g)) s = .next (startGroup g s) :=
  congrArg Host.Outcome.next (withItem_number g startGroup s)

/-- Settles O8: the arbiter's picks by induction over its order, the start by the record that it writes. -/
theorem groupStartByArbiter : Obligations.GroupStartByArbiter := by
  unfold Obligations.GroupStartByArbiter
  refine ⟨fun s => ⟨arbiterPicks_mayStart s, ?safe, fun g may out => ?maximal⟩, fun g s => ⟨fun picked => ?starts, fun h => ?stands⟩⟩
  case safe => exact foldl_pick_safe s _ [] fun c h => absurd h List.not_mem_nil
  case maximal =>
    exact foldl_pick_maximal s _ [] (arbiterOrder_sorted s) (fun c h => absurd h List.not_mem_nil) g
      ((mem_arbiterOrder s g).2 may) out
  case starts =>
    refine ⟨_, exec_groupStart g s, ?_⟩
    rw [startGroup_of_pick picked]
    exact groupMoved_follows g (setGrp s g (started s g))
  case stands =>
    rw [exec_groupStart, startGroup_of_not_mayStart]
    intro may
    obtain ⟨stop, normal, kind, want, free, el⟩ := (mayStart_iff s g).1 may
    rcases h with h | h | h | h | h | h
    · exact h stop
    · exact h normal
    · exact kind h
    · rw [want] at h; cases h
    · rw [free] at h; cases h
    · rw [el] at h; cases h

end Sys2Proof.Machine

/-! ## The ends of the phases (R10 to R15) -/

namespace Sys2Proof.Machine

theorem exec_prepareEnd (g : Group) (s : State) : exec (.prepareEnd (number g)) s = .next (endPrepare g s) :=
  congrArg Host.Outcome.next (withItem_number g endPrepare s)

theorem exec_minProceedEnd (g : Group) (s : State) : exec (.minProceedEnd (number g)) s = .next (endMinProceed g s) :=
  congrArg Host.Outcome.next (withItem_number g endMinProceed s)

theorem exec_maxOut (g : Group) (s : State) : exec (.maxOut (number g)) s = .next (maxOut g s) :=
  congrArg Host.Outcome.next (withItem_number g maxOut s)

theorem setGrp_setGrp (s : State) (g : Group) (r r' : GroupRec) : setGrp (setGrp s g r) g r' = setGrp s g r' := by
  simp [setGrp]

@[simp] theorem setGrp_fbsActs (s : State) (g : Group) (r : GroupRec) : fbsActs (setGrp s g r) = fbsActs s := by
  simp [fbsActs]

@[simp] theorem post_fbsActs (e : Event) (s : State) : fbsActs (post e s) = fbsActs s := by
  simp [fbsActs]

/-- R13, R14: what an evaluation of one group with a cause leaves. -/
theorem evaluateGroup_of_cause {s : State} {g : Group} {c : Cause} (h : terminationCause s g = some c) :
    evaluateGroup g s = postIf (decide (c = .max)) .groupMaxedOut
      (setGrp s g (terminated (jnow s) c (compensationFor s g) (compensationCap s.cs.image g) (grp s g))) := by
  have after : afterEvaluation s g =
      terminated (jnow s) c (compensationFor s g) (compensationCap s.cs.image g) (grp s g) := by
    unfold afterEvaluation
    rw [h]
  unfold evaluateGroup
  rw [after, h]
  simp only [Option.some.injEq]

theorem evaluateGroup_of_none {s : State} {g : Group} (h : terminationCause s g = none) : evaluateGroup g s = s := by
  have after : afterEvaluation s g = grp s g := by
    unfold afterEvaluation
    rw [h]
  unfold evaluateGroup
  rw [after, h, setGrp_grp]
  rfl

/-! ### Max-out -/

theorem maxOutCondition_iff (s : State) (g : Group) : maxOutCondition s g = true ↔
    (maxProceed s.cs.image g ≠ 0 ∧ maxProceed s.cs.image g + (grp s g).bonus ≤ elapsed (jnow s) (grp s g).proceedStart) ∧
      (∃ c, conflicts s c g = true ∧ (grp s c).demand = true) ∧ holdRunning s g = false ∧ wanted s g = true := by
  simp [maxOutCondition, maxHasRun, conflictingDemand, allGroups, and_assoc]

/-- R14: the max-out is the cause where no earlier condition holds. -/
theorem terminationCause_max {s : State} {g : Group} (ext : (grp s g).state = .proceedExt)
    (free : (grp s g).inhibited = false) (mode : s.mfs.mode ≠ .closing) (h : maxOutCondition s g = true) :
    terminationCause s g = some .max := by
  obtain ⟨_, _, _, want⟩ := (maxOutCondition_iff s g).1 h
  simp [terminationCause, ext, free, mode, want, h]

/-- Settles O10, by the record that a termination with cause MAX writes. -/
theorem maxOutEndsProceed : Obligations.MaxOutEndsProceed := by
  unfold Obligations.MaxOutEndsProceed
  intro g s ext free mode max run demand hold want
  have condition := (maxOutCondition_iff s g).2 ⟨⟨max, run⟩, demand, hold, want⟩
  have cause := terminationCause_max ext free mode condition
  have ran : maxOut g s = groupMoved g (evaluateGroup g s) := if_pos (by simp [ext, condition])
  have moved := groupMoved_follows g (evaluateGroup g s)
  rw [← ran, evaluateGroup_of_cause cause] at moved
  simp only [terminated, decide_true, Bool.or_true, postIf_true, reduceCtorEq, if_false] at moved
  refine ⟨maxOut g s, exec_maxOut g s, moved, fun acts => ?_⟩
  refine moved.flags ?_ g ?_
  · simpa using acts
  · simp

/-! ### Min proceed -/

/-- R13: what a group's termination depends on. -/
theorem terminationCause_congr {s t : State} {g : Group} (group : grp t g = grp s g)
    (demand : ∀ c, (grp t c).demand = (grp s c).demand) (clock : jnow t = jnow s) (mode : t.mfs.mode = s.mfs.mode)
    (cs : t.cs = s.cs) (igm : t.igm = s.igm) (overlay : ovl t g = ovl s g) (target : t.sel.target = s.sel.target) :
    terminationCause t g = terminationCause s g := by
  simp only [terminationCause, maxOutCondition, maxHasRun, conflictingDemand, conflicts, intergreen, wanted,
    inEffectiveTarget, holdRunning, group, demand, clock, mode, cs, igm, overlay, target]
  rfl

/-- R125, R126: with no entry on the list the priority unit has nothing to do. -/
theorem puOnChange_of_nil {s : State} (h : s.pu.list = []) (g : Group) : puOnChange s g = s := by
  have same : recallIntoService g s = s := by
    unfold recallIntoService
    rw [h]
    simp only [List.map_nil]
    rw [show someActed [] [] = false from rfl, postIf_false, ← h]
  unfold puOnChange
  rw [same, ite_self]
  simp [h]

theorem foldl_puOnChange_of_nil {s : State} (h : s.pu.list = []) (gs : List Group) : gs.foldl puOnChange s = s := by
  induction gs with
  | nil => rfl
  | cons g gs ih => rw [List.foldl_cons, puOnChange_of_nil h, ih]

theorem evalReached_parts (s : State) : (evalReached s).pu = s.pu ∧ (evalReached s).sel.target = s.sel.target ∧
    (evalReached s).fbs = s.fbs ∧ (evalReached s).lou = s.lou := by
  unfold evalReached
  split <;> simp [post]

/-- R72: the sequencer evaluates nothing while it does not act. -/
theorem evalStage_of_not_acts {s : State} (h : fbsActs s = false) : evalStage s = s := by
  unfold evalStage
  rw [h]
  rfl

theorem grp_endRound (p : Group → Bool) (s : State) (c : Group) :
    grp (lampsFollow p (endProceeds s)) c = afterEvaluation s c := by
  simp [endProceeds]

theorem afterEvaluation_demand (s : State) (c : Group) : (afterEvaluation s c).demand = (grp s c).demand := by
  unfold afterEvaluation
  split <;> rfl

/-- The group proceeds with no cause to end, with no entry on the list and the sequencer at rest. -/
structure Proceeds (s : State) (g : Group) : Prop where
  list : s.pu.list = []
  acts : fbsActs s = false
  ext : (grp s g).state = .proceedExt
  cause : terminationCause s g = none

theorem Proceeds.evalReached {s : State} {g : Group} (h : Proceeds s g) : Proceeds (evalReached s) g := by
  have follows := evalReached_follows s
  obtain ⟨pu, target, _, _⟩ := evalReached_parts s
  have groups (c : Group) : grp (Machine.evalReached s) c = grp s c := by unfold grp; rw [evalReached_sge]
  exact ⟨by rw [pu, h.list], follows.acts.trans h.acts, by rw [groups, h.ext], by
    rw [terminationCause_congr (groups g) (fun c => by rw [groups]) follows.now follows.mode follows.cs follows.igm
      (by rw [ovl, pu]; rfl) target, h.cause]⟩

theorem Proceeds.engineRound {s : State} {g : Group} (h : Proceeds s g) : Proceeds (engineRound s) g := by
  have follows := endProceeds_follows s
  have pu : (lampsFollow (terminating s).contains (endProceeds s)).pu = s.pu := by simp [endProceeds]
  have round : Machine.engineRound s = lampsFollow (terminating s).contains (endProceeds s) :=
    foldl_puOnChange_of_nil (by rw [pu, h.list]) _
  have group : grp (lampsFollow (terminating s).contains (endProceeds s)) g = grp s g := by
    rw [grp_endRound, afterEvaluation, h.cause]
  rw [round]
  exact ⟨by rw [pu, h.list], follows.acts.trans h.acts, by rw [group, h.ext], by
    rw [terminationCause_congr group (fun c => by rw [grp_endRound, afterEvaluation_demand]) follows.now follows.mode
      follows.cs follows.igm (by rw [ovl, pu]; rfl) (by simp [endProceeds]), h.cause]⟩

theorem Proceeds.settleRounds {s : State} {g : Group} (h : Proceeds s g) (n : Nat) (sel fbs : Bool) :
    Proceeds (settleRounds n sel fbs s) g := by
  induction n generalizing sel fbs s with
  | zero => exact h
  | succ n ih =>
    have reported : Proceeds (if sel then Machine.evalReached s else s) g := by
      split
      · exact h.evalReached
      · exact h
    unfold Machine.settleRounds
    split
    · dsimp only
      split
      · rw [evalStage_of_not_acts reported.acts]
        exact ih reported _ _
      · exact reported
    · exact ih h.engineRound _ _

/-- Settles O9, by the records that the two phase ends write; that the group stays is kept round by round. -/
theorem prepareAndMinProceedEnd : Obligations.PrepareAndMinProceedEnd := by
  unfold Obligations.PrepareAndMinProceedEnd
  refine ⟨fun g s prepare run => ⟨_, exec_prepareEnd g s, ?_⟩,
    fun g s m min run hm => ⟨_, exec_minProceedEnd g s, fun cause => ⟨?_, fun acts list => ?_⟩, fun c cause => ?_⟩⟩
  · have ran : endPrepare g s = groupMoved g (setGrp s g (enterProceedMin (jnow s) (grp s g))) :=
      if_pos (by simp [prepareRun, prepare, run])
    rw [ran]
    exact groupMoved_follows g _
  all_goals
    have ended : endMinProceed g s = groupMoved g (evaluateGroup g m) := by
      rw [hm]
      exact if_pos (by simp [minProceedRun, min, run])
    rw [ended]
  · rw [evaluateGroup_of_none cause]
    exact groupMoved_follows g m
  · rw [evaluateGroup_of_none cause]
    have list : m.pu.list = [] := by rw [hm]; simpa using list
    have acts : fbsActs m = false := by rw [hm]; simpa using acts
    have moved : groupMoved g m = react (lampsFollow (· == g) m) := by
      rw [groupMoved, puOnChange_of_nil (by simpa using list)]
    have lamps : terminationCause (lampsFollow (· == g) m) g = terminationCause m g :=
      terminationCause_congr (by simp) (by simp) (by simp [jnow]) (by simp) (by simp) (by simp) (by simp [ovl]) (by simp)
    rw [moved]
    exact (Proceeds.settleRounds ⟨by simpa using list, by simpa [fbsActs] using acts, by simp [hm], lamps.trans cause⟩
      80 true true).ext
  · have evaluated := evaluateGroup_of_cause cause
    have moved := groupMoved_follows g (evaluateGroup g m)
    rw [evaluated] at moved ⊢
    subst hm
    simp only [setGrp_setGrp, terminated, grp_setGrp_self, setGrp_jnow, setGrp_cs] at moved ⊢
    exact moved

end Sys2Proof.Machine

/-! ## CALL_GROUPS (R60) -/

namespace Sys2Proof.Machine

/-- A reply stands beside what follows. -/
theorem Follows.with_clp {own : Group → Bool} {s t : State} (h : Follows own s t) (c : Clp) :
    Follows own { s with clp := c } { t with clp := c } :=
  ⟨h.clock, h.igm, h.du, rfl, h.cs, h.fbsDue, h.freeIndex, h.pending, h.sel, h.target, h.fbs, h.pu, h.entries, h.lou,
    h.mfs, h.events, h.attn, h.groups, h.flags, h.lamps, h.ownLamps⟩

theorem exec_callGroups (i : Station) (w : GroupSet) (s : State) (hf : inFlight s = false) (hi : i ≠ 1) :
    exec (.callGroups (number i) w) s = .next (callGroups w i s) :=
  congrArg Host.Outcome.next (asked_number .callGroups i (callGroups w) s hf (decide_eq_true hi))

/-- R60: the groups that a CALL_GROUPS reaches. -/
theorem postReaches_members (w : GroupSet) (s : State) (g : Group) :
    postReaches false (allGroups.filter (inSet w)) s g = true ↔ inSet w g = true ∧ groupKind s.cs.image g ≠ .none := by
  simp [postReaches, allGroups]

/-- Settles O45, by the posting of the demand with the reply beside it. -/
theorem callGroupsSetsDemand : Obligations.CallGroupsSetsDemand := by
  unfold Obligations.CallGroupsSetsDemand
  intro i w s hf hi
  refine ⟨_, exec_callGroups i w s hf hi, ?_⟩
  have posted := postDemand_follows false (allGroups.filter (inSet w)) s
  simp only [postReaches_members] at posted
  unfold callGroups
  rw [answer_eq, posted.clp, setGroups_clp]
  exact posted.with_clp _

end Sys2Proof.Machine

/-! ## MODE_REQUEST towards FLASH and DARK (R167, R168) -/

namespace Sys2Proof.Machine

/-- A reply stands beside an entry to FLASH or DARK. -/
theorem EntersResting.with_clp {g : Goal} {s t : State} (h : EntersResting g s t) (c : Clp) :
    EntersResting g { s with clp := c } { t with clp := c } :=
  ⟨h.sge, h.igm, h.sel, h.fbs, h.du, h.pu, h.lou, rfl, h.cs, h.fbsDue, h.freeIndex, h.pending, h.mfs, h.lastRemoval,
    h.attn, h.events, h.lamps⟩

/-- R194: the reply's fields of a part at rest. -/
theorem modeFields_of_rest {s : State} {m : Mode} (mode : s.mfs.mode = m) (sub : s.mfs.sub = none)
    (goal : s.mfs.goal = none) : modeFields 0 s = [m.byte, 0, 0, 0, 0, 0, 0] := by
  unfold modeFields
  rw [mode, sub, goal]
  rfl

theorem modeFields_enterResting (g : Goal) (s : State) :
    modeFields 0 (enterResting g s) = [g.mode.byte, 0, 0, 0, 0, 0, 0] := by
  have entered := enterResting_spec g s
  refine modeFields_of_rest ?_ ?_ ?_ <;> rw [entered.mfs]

/-- R163, R187: the entry to FLASH or DARK with the reply that says it. -/
theorem answered_enterResting (g : Goal) (s : State) :
    EntersResting g { s with clp := answered .modeRequest .done [g.mode.byte, 0, 0, 0, 0, 0, 0] s.clp }
      (answer .modeRequest .done (modeFields 0 (enterResting g s)) (enterResting g s)) := by
  have entered := enterResting_spec g s
  rw [modeFields_enterResting, answer_eq, entered.clp]
  exact entered.with_clp _

/-! ### CLOSING entry -/

/-- R26: what CLOSING entry makes of a group record. -/
def closedGroup (now : Time) (r : GroupRec) : GroupRec :=
  if r.state = .proceedExt then
    { r with
      state := .clearance, stateEntry := now, proceedEnd := now
      cause := some (if r.inhibited then .fault else .closing) }
  else r

theorem closedGroup_stop (now : Time) (r : GroupRec) : (closedGroup now r).state = .stop ↔ r.state = .stop := by
  unfold closedGroup
  split
  · rename_i h; simp [h]
  · rfl

/-- R13, R14: in CLOSING every group in PROCEED_EXT ends, an inhibited one with cause FAULT. -/
theorem terminationCause_closing {s : State} (h : s.mfs.mode = .closing) (g : Group) : terminationCause s g =
    if (grp s g).state = .proceedExt then some (if (grp s g).inhibited then .fault else .closing) else none := by
  unfold terminationCause
  simp only [h, if_true, ne_eq, ite_not]
  repeat' split
  all_goals rfl

theorem afterEvaluation_closing {s : State} (h : s.mfs.mode = .closing) (g : Group) :
    afterEvaluation s g = closedGroup (jnow s) (grp s g) := by
  unfold afterEvaluation closedGroup
  rw [terminationCause_closing h]
  split
  · rename_i c hc
    split at hc
    · rename_i ext
      rw [if_pos ext]
      cases hi : (grp s g).inhibited <;> simp [hi] at hc <;> subst hc <;> simp [terminated, hi]
    · cases hc
  · rename_i hc
    split at hc
    · cases hc
    · rename_i ext
      rw [if_neg ext]

/-- R168: what CLOSING entry writes, before its terminations. -/
def closingOrdered (g : Goal) (s : State) : State :=
  let s1 := setMode .closing (some .clClearing) (some g) s
  lampsFollow (fun _ => true) (fbsStop (flush { s1 with sel := { s1.sel with target := 0 } }))

/-- R13: in CLOSING, with no entry on the list and the sequencer at rest, one round takes every termination. -/
theorem settle_closing {s : State} (mode : s.mfs.mode = .closing) (list : s.pu.list = [])
    (current : s.fbs.current = none) :
    settle s = if terminating s = [] then s else lampsFollow (terminating s).contains (endProceeds s) := by
  have acts (u : State) (h : u.mfs.mode = .closing) : fbsActs u = false := by simp [fbsActs, h]
  have reported (u : State) (h : u.mfs.mode = .closing) : evalReached u = u := if_neg fun k => by rw [h] at k; cases k.1
  have follows := endProceeds_follows s
  generalize hu : lampsFollow (terminating s).contains (endProceeds s) = u at follows ⊢
  have umode : u.mfs.mode = .closing := follows.mode.trans mode
  have quiet : terminating u = [] := by
    rw [List.eq_nil_iff_forall_not_mem]
    intro g hg
    rw [mem_terminating, terminationCause_closing umode, ← hu, grp_endRound, afterEvaluation_closing mode] at hg
    split at hg
    · rename_i ext
      unfold closedGroup at ext
      split at ext
      · cases ext
      · contradiction
    · cases hg
  have round : engineRound s = u := by
    rw [← hu]
    exact foldl_puOnChange_of_nil (by simpa [endProceeds] using list) _
  have same : memberFlagChanged u u = false := by
    unfold memberFlagChanged
    rw [← hu]
    simp [endProceeds, current]
  unfold settle
  rw [settleRounds]
  split
  · rfl
  · rw [round, settleRounds, if_pos quiet]
    simp only [if_true, reported u umode, evalStage_of_not_acts (acts u umode), same]
    rw [settleRounds, if_pos quiet]
    rfl

/-- R168: the state that CLOSING entry leaves, but for the end of the clearing. -/
structure ClosingEntered (g : Goal) (s t : State) : Prop where
  groups : ∀ c, grp t c = closedGroup (jnow s) (grp s c)
  clock : jnow t = jnow s
  mode : t.mfs.mode = .closing
  sub : t.mfs.sub = some .clClearing
  goal : t.mfs.goal = some g
  phaseStart : t.mfs.phaseStart = jnow s
  faults : t.mfs.faults = s.mfs.faults
  sel : t.sel = { s.sel with target := 0 }
  current : t.fbs.current = none
  pu : t.pu = { s.pu with list := [], overlay := Vector.replicate 24 Overlay.clear, inhibitUntil := none }
  clp : t.clp = s.clp
  cs : t.cs = s.cs
  du : t.du = s.du
  igm : t.igm = s.igm

theorem closingOrdered_mfs (g : Goal) (s : State) :
    (closingOrdered g s).mfs.mode = .closing ∧ (closingOrdered g s).mfs.sub = some .clClearing ∧
      (closingOrdered g s).mfs.goal = some g ∧ (closingOrdered g s).mfs.phaseStart = jnow s ∧
      (closingOrdered g s).mfs.faults = s.mfs.faults := by
  unfold closingOrdered
  simp only [lampsFollow_mfs, fbsStop_mfs, flush_mfs, setMode_mfs]
  split <;> exact ⟨rfl, rfl, rfl, rfl, rfl⟩

theorem settle_closingOrdered (g : Goal) (s : State) : ClosingEntered g s (settle (closingOrdered g s)) := by
  obtain ⟨mode, sub, goal, phaseStart, faults⟩ := closingOrdered_mfs g s
  have sge : (closingOrdered g s).sge = s.sge := by simp [closingOrdered]
  have sel : (closingOrdered g s).sel = { s.sel with target := 0 } := by simp [closingOrdered]
  have fbs : (closingOrdered g s).fbs.current = none := by simp [closingOrdered, fbsStop_fbs]
  have pu : (closingOrdered g s).pu =
      { s.pu with list := [], overlay := Vector.replicate 24 Overlay.clear, inhibitUntil := none } := by
    simp [closingOrdered, flush_pu]
  have other : (closingOrdered g s).clp = s.clp ∧ (closingOrdered g s).cs = s.cs ∧ (closingOrdered g s).du = s.du ∧
      (closingOrdered g s).igm = s.igm := by simp [closingOrdered]
  have follows := settle_follows (closingOrdered g s)
  have settled := settle_closing mode (by rw [pu]) fbs
  generalize closingOrdered g s = u at *
  have frame : (settle u).sel = u.sel ∧ (settle u).fbs = u.fbs ∧ (settle u).pu = u.pu := by
    rw [settled]
    split
    · exact ⟨rfl, rfl, rfl⟩
    · simp [endProceeds]
  have groups (c : Group) : grp (settle u) c = afterEvaluation u c := by
    rw [settled]
    split
    · rename_i quiet
      have cause : terminationCause u c = none := by
        have := List.eq_nil_iff_forall_not_mem.1 quiet c
        rw [mem_terminating] at this
        simpa using this
      unfold afterEvaluation
      rw [cause]
    · exact grp_endRound _ _ _
  obtain ⟨keptSel, keptFbs, keptPu⟩ := frame
  obtain ⟨clp, cs, du, igm⟩ := other
  have now : jnow u = jnow s := by unfold jnow; rw [sge]
  exact {
    groups := fun c => by rw [groups, afterEvaluation_closing mode, now, grp, sge]; rfl
    clock := follows.now.trans now
    mode := follows.mode.trans mode
    sub := follows.sub.trans sub
    goal := by rw [follows.mfs, goal]
    phaseStart := by rw [follows.mfs, phaseStart]
    faults := by rw [follows.mfs, faults]
    sel := keptSel.trans sel
    current := by rw [keptFbs, fbs]
    pu := keptPu.trans pu
    clp := follows.clp.trans clp
    cs := follows.cs.trans cs
    du := follows.du.trans du
    igm := follows.igm.trans igm }

theorem allStopped_iff (s : State) : allStopped s = true ↔ ∀ g, (grp s g).state = .stop := by
  simp [allStopped, allGroups]

/-- R168: where CLOSING entry finds every group in STOP, CL_ALLRED begins at once. -/
theorem enterClosing_eq (g : Goal) (s : State) : enterClosing g s =
    if ∀ c, (grp s c).state = .stop then setMode .closing (some .clAllred) (some g) (settle (closingOrdered g s))
    else settle (closingOrdered g s) := by
  have entered := settle_closingOrdered g s
  have stopped : allStopped (settle (closingOrdered g s)) = true ↔ ∀ c, (grp s c).state = .stop := by
    rw [allStopped_iff]
    exact forall_congr' fun c => by rw [entered.groups, closedGroup_stop]
  change checkClosing (settle (closingOrdered g s)) = _
  unfold checkClosing
  simp only [entered.mode, entered.sub, entered.goal, stopped, true_and]

/-! ### The request -/

theorem Mode.eq_of_resting {m : Mode} {g : Goal} (rest : m.resting = true) (other : m ≠ g.mode) :
    m = match g with
      | .flash => .dark
      | .dark => .flash := by
  cases g <;> cases m <;> revert rest other <;> decide

theorem requestGoal_of_rest {s : State} {g : Goal} (rest : s.mfs.mode.resting = true) (other : s.mfs.mode ≠ g.mode) :
    requestGoal g s = enterResting g s := by
  unfold requestGoal
  rw [Mode.eq_of_resting rest other]
  cases g <;> rfl

theorem requestGoal_of_goal {s : State} {g : Goal} (mode : s.mfs.mode = g.mode) : requestGoal g s = s := by
  unfold requestGoal
  rw [mode]
  cases g <;> rfl

theorem goalVerdict_of_rest {m : Mode} (rest : m.resting = true) : goalVerdict m = .done := by
  cases m <;> simp_all [Mode.resting, goalVerdict]

theorem exec_modeRequest (i : Station) (goal : Goal) (c : Instr) (s : State) (hf : inFlight s = false) (hi : i ≠ 1)
    (hc : c = (match goal with
      | .flash => .modeRequestFlash (number i)
      | .dark => .modeRequestDark (number i))) : exec c s = .next (modeRequestGoal goal i s) := by
  have asked := asked_number .modeRequest i (modeRequestGoal goal) s hf (decide_eq_true hi)
  subst hc
  cases goal <;> exact congrArg Host.Outcome.next asked

/-- R180: a posted kind is pending at every station. -/
theorem post_pends (e : Event) (s : State) (j : Station) :
    ((post e s).mfs.pending[j]).getLsbD e.code.val = true := by
  rw [post_adds_kind]
  simp

/-- R168: CLOSING entry with its end, and the reply that says it. -/
theorem enterClosing_reply (g : Goal) (s : State) :
    (enterClosing g s).mfs.mode = .closing ∧ (enterClosing g s).mfs.goal = some g ∧
      (enterClosing g s).mfs.phaseStart = jnow s ∧
      (enterClosing g s).mfs.sub = some (if ∀ c, (grp s c).state = .stop then .clAllred else .clClearing) ∧
      (enterClosing g s).mfs.faults = s.mfs.faults := by
  have entered := settle_closingOrdered g s
  rw [enterClosing_eq]
  split
  · rw [setMode_mfs]
    exact ⟨rfl, rfl, entered.clock, rfl, entered.faults⟩
  · exact ⟨entered.mode, entered.goal, entered.phaseStart, entered.sub, entered.faults⟩

theorem enterClosing_frame (g : Goal) (s : State) :
    (enterClosing g s).sge = (settle (closingOrdered g s)).sge ∧ (enterClosing g s).sel = { s.sel with target := 0 } ∧
      (enterClosing g s).fbs.current = none ∧
      (enterClosing g s).pu =
        { s.pu with list := [], overlay := Vector.replicate 24 Overlay.clear, inhibitUntil := none } ∧
      (enterClosing g s).clp = s.clp ∧ (enterClosing g s).cs = s.cs ∧ (enterClosing g s).du = s.du ∧
      (enterClosing g s).igm = s.igm := by
  have entered := settle_closingOrdered g s
  rw [enterClosing_eq]
  split
  · simpa using ⟨entered.sel, entered.current, entered.pu, entered.clp, entered.cs, entered.du, entered.igm⟩
  · exact ⟨rfl, entered.sel, entered.current, entered.pu, entered.clp, entered.cs, entered.du, entered.igm⟩

theorem enterClosing_groups (g : Goal) (s : State) (c : Group) :
    grp (enterClosing g s) c = closedGroup (jnow s) (grp s c) := by
  unfold grp
  rw [(enterClosing_frame g s).1]
  exact (settle_closingOrdered g s).groups c

/-- R168: a request in CLOSING sets the goal. -/
theorem requestGoal_closing {s : State} (g : Goal) (mode : s.mfs.mode = .closing) : requestGoal g s =
    if s.mfs.goal = some g then s else post .modeChanged { s with mfs := { s.mfs with goal := some g } } := by
  unfold requestGoal
  rw [mode]

/-- Settles O46, mode by mode. -/
theorem modeRequestTowardsRest : Obligations.ModeRequestTowardsRest := by
  unfold Obligations.ModeRequestTowardsRest
  intro i goal c s hf hi hc
  rw [exec_modeRequest i goal c s hf hi hc]
  unfold modeRequestGoal
  refine ⟨fun mode => ?powerUp, fun mode => ⟨_, rfl, ?startUp⟩, fun mode => ⟨_, rfl, ?normal⟩,
    fun mode => ⟨_, rfl, ?closing⟩, fun mode => ?same, fun rest other => ⟨_, rfl, ?resting⟩⟩
  case powerUp =>
    have stands : requestGoal goal s = s := by unfold requestGoal; rw [mode]
    rw [stands, mode]
    rfl
  case startUp =>
    have enters : requestGoal goal s = enterResting goal s := by unfold requestGoal; rw [mode]
    rw [enters, mode]
    exact answered_enterResting goal s
  case normal =>
    have enters : requestGoal goal s = enterClosing goal s := by unfold requestGoal; rw [mode]
    obtain ⟨tmode, tgoal, phaseStart, sub, faults⟩ := enterClosing_reply goal s
    obtain ⟨sge, sel, current, pu, clp, cs, du, igm⟩ := enterClosing_frame goal s
    rw [enters, mode, answer_eq]
    refine ⟨tmode, tgoal, phaseStart, sub, sel, current, ?_, ?_, fun g => ?_, enterClosing_groups goal s, ?_, faults, cs,
      du, igm⟩
    · exact congrArg Pu.list pu
    · exact congrArg Pu.inhibitUntil pu
    · change (enterClosing goal s).pu.overlay[g] = _
      rw [pu]
      simp [Overlay.clear]
    · unfold modeFields
      rw [clp, tmode, tgoal, sub]
      rfl
  case closing =>
    have sets := requestGoal_closing goal mode
    rw [mode, answer_eq]
    by_cases hg : s.mfs.goal = some goal
    · rw [sets, if_pos hg]
      exact ⟨hg, mode, rfl, rfl, rfl, rfl, rfl, rfl, rfl, fun _ => rfl, fun other => absurd hg other⟩
    · rw [sets, if_neg hg]
      exact ⟨rfl, mode, rfl, rfl, rfl, rfl, rfl, rfl, rfl, fun same => absurd same hg,
        fun _ => post_pends .modeChanged _⟩
  case same =>
    rw [requestGoal_of_goal mode, goalVerdict_of_rest (by rw [mode]; exact goal.mode_resting)]
    rfl
  case resting =>
    rw [requestGoal_of_rest rest other, goalVerdict_of_rest rest]
    exact answered_enterResting goal s

end Sys2Proof.Machine

/-! ## The all-reds and the end of CLEARANCE (R16, R165 to R169) -/

namespace Sys2Proof.Machine

/-- R148: the lamps' following of the group states. -/
theorem lampsFollow_shuts (p : Group → Bool) (s : State) : Shuts s (lampsFollow p s) :=
  { Shuts.refl s with
    clock := by simp
    igm := by simp
    du := by simp
    clp := by simp
    cs := by simp
    fbsDue := by simp
    freeIndex := by simp
    pending := by simp
    sel := by simp
    fbs := by simp
    pu := by simp
    entries := .inl (by simp)
    lou := by rw [lampsFollow_lou]
    lamps := fun ch => by
      rw [lamp_lampsFollow]
      split
      · exact recommand_core _ _ _
      · rfl
    pin := by simp
    masks := by simp
    mode := .inl (by simp)
    latched := fun k h => by simpa using h
    events := fun i => by simp
    attn := .inl (by simp)
    driven := fun h => by simpa using h
    groups := fun g => by simpa using GroupShuts.refl _ _
    credits := fun h g => by simpa using h g
    commands := fun h ch => by
      rw [lamp_lampsFollow, derivedCommand_lampsFollow]
      split
      · exact recommand_command _ _ _
      · exact h ch }

theorem groupMoved_shuts (g : Group) (s : State) : Shuts s (groupMoved g s) :=
  ((lampsFollow_shuts _ s).trans (puOnChange_follows _ g).shuts).trans (react_follows _).shuts

theorem foldl_becomeRedOut_shuts (gs : List Group) (s : State) : Shuts s (gs.foldl (fun t g => becomeRedOut g t) s) :=
  foldl_shuts _ (fun s g => becomeRedOut_shuts g s) gs s

theorem followAndRedOut_shuts (p : Group → Bool) (s : State) : Shuts s (followAndRedOut p s) :=
  (lampsFollow_shuts p s).trans (foldl_becomeRedOut_shuts _ _)

/-- R158: a command makes no group red-out whose stop lamp can be driven. -/
theorem commandRedOuts_of_enabled {p : Group → Bool} {s : State}
    (h : ∀ g, p g = true → (lamp s (stopLamp g)).drive = .enabled) : commandRedOuts p s = [] := by
  unfold commandRedOuts
  rw [List.filter_eq_nil_iff]
  intro g _ k
  simp only [Bool.and_eq_true, decide_eq_true_eq] at k
  exact k.1.2 (h g k.1.1.1.1)

theorem followAndRedOut_of_enabled {p : Group → Bool} {s : State}
    (h : ∀ g, p g = true → (lamp s (stopLamp g)).drive = .enabled) : followAndRedOut p s = lampsFollow p s := by
  unfold followAndRedOut
  rw [commandRedOuts_of_enabled h]
  rfl

theorem lampsFollow_commands (s : State) (ch : Lamp) : (lamp (lampsFollow (fun _ => true) s) ch).command =
    derivedCommand (lampsFollow (fun _ => true) s) ch := by
  rw [lamp_lampsFollow, derivedCommand_lampsFollow, if_pos rfl]
  exact recommand_command _ _ _

theorem phaseRun_of {s : State} {p : SubPhase} {n : Nat} (sub : s.mfs.sub = some p)
    (run : n ≤ elapsed (jnow s) s.mfs.phaseStart) : phaseRun s p n = true := by
  simp [phaseRun, sub, run]

/-- Settles O18, by the record that the start of an all-red writes and by the entry to FLASH or DARK. -/
theorem flashAndClosingAllRedEnd : Obligations.FlashAndClosingAllRedEnd := by
  unfold Obligations.FlashAndClosingAllRedEnd
  refine ⟨fun s sub run => ?flash, fun g s sub run goal => ?allRed⟩
  case flash =>
    have ran : suFlashEnd s = beginAllRed (setMode .startUp (some .suAllred) none s) :=
      if_pos (phaseRun_of sub run)
    have begun : beginAllRed (setMode .startUp (some .suAllred) none s) =
        followAndRedOut (fun _ => true) (setGroups (setMode .startUp (some .suAllred) none s) fun g =>
          { grp s g with stopEntry := jnow s, proceedEnd := jnow s, maxedOut := false }) := by
      simp only [beginAllRed, allRedStarted, jnow, grp, setMode_sge]
    refine ⟨suFlashEnd s, rfl, ?_, fun enabled => ?_⟩
    · rw [ran, begun]
      exact followAndRedOut_shuts _ _
    · rw [ran, begun, followAndRedOut_of_enabled fun g _ => ?_]
      · refine ⟨?_, ?_, ?_, ?_, lampsFollow_commands _, fun g => ?_⟩
        · simp [setMode_mfs, updateAttn]
        · simp [setMode_mfs, updateAttn]
        · simp [setMode_mfs, updateAttn]
        · simp [setMode_mfs, updateAttn]
        · simp
      · simpa [lamp] using enabled g
  case allRed =>
    have ran : clAllredEnd s = enterResting g s := by
      unfold clAllredEnd
      rw [if_pos (phaseRun_of sub run), goal]
    exact ⟨clAllredEnd s, rfl, ran ▸ enterResting_spec g s⟩

/-! ### The end of CLEARANCE -/

theorem exec_clearanceEnd (g : Group) (s : State) : exec (.clearanceEnd (number g)) s = .next (endClearance g s) :=
  congrArg Host.Outcome.next (withItem_number g endClearance s)

/-- While the sequencer does not act, what follows leaves a group that is not in PROCEED_EXT as it is. -/
theorem Follows.grp_eq {own : Group → Bool} {s t : State} (h : Follows own s t) (acts : fbsActs s = false) {g : Group}
    (ext : (grp s g).state ≠ .proceedExt) : grp t g = grp s g := by
  cases h.groups g with
  | kept same cleared =>
    have flag : (grp t g).maxedOut = (grp s g).maxedOut := by
      cases hs : (grp s g).maxedOut with
      | true => exact h.flags acts g hs
      | false => exact Bool.eq_false_iff.2 fun ht => by rw [cleared ht] at hs; cases hs
    rw [same, flag]
  | ended _ _ e => exact absurd e ext

theorem checkClosing_of {s : State} (mode : s.mfs.mode = .closing) (sub : s.mfs.sub = some .clClearing)
    (stopped : ∀ g, (grp s g).state = .stop) : checkClosing s = setMode .closing (some .clAllred) s.mfs.goal s :=
  if_pos ⟨mode, sub, (allStopped_iff s).2 stopped⟩

theorem checkClosing_of_not {s : State}
    (h : s.mfs.mode ≠ .closing ∨ s.mfs.sub ≠ some .clClearing ∨ ∃ g, (grp s g).state ≠ .stop) : checkClosing s = s := by
  refine if_neg fun ⟨mode, sub, stopped⟩ => ?_
  rcases h with h | h | ⟨g, h⟩
  · exact h mode
  · exact h sub
  · exact h ((allStopped_iff s).1 stopped g)

/-- R163: a detection keeps a mode other than START_UP, NORMAL and CLOSING, and no detection begins one of these. -/
theorem Shuts.mode_of_enters {s t : State} (h : Shuts s t) (e : t.mfs.mode.faultEnters = true) :
    t.mfs.mode = s.mfs.mode ∧ t.mfs.sub = s.mfs.sub ∧ t.mfs.goal = s.mfs.goal ∧ t.mfs.phaseStart = s.mfs.phaseStart := by
  rcases h.mode with kept | ⟨_, resting, _⟩
  · exact kept
  · rw [resting, resting_not_faultEnters] at e
    cases e

theorem checkClosing_of_shuts {s t : State} (h : Shuts s t)
    (other : s.mfs.mode ≠ .closing ∨ s.mfs.sub ≠ some .clClearing) : checkClosing t = t := by
  refine if_neg fun ⟨mode, sub, _⟩ => ?_
  obtain ⟨hm, hs, _⟩ := h.mode_of_enters (by rw [mode]; rfl)
  exact other.elim (fun k => k (hm.symm.trans mode)) fun k => k (hs.symm.trans sub)

/-- R168: a group has entered STOP in the clearing of CLOSING and no group has become red-out. Its record stands; where
every other group stands in STOP too the all-red begins, with no other group changed. -/
theorem checkClosing_after_stop {g : Group} {s m u : State} {r : GroupRec} (mode : s.mfs.mode = .closing)
    (sub : s.mfs.sub = some .clClearing) (mfs : m.mfs = s.mfs) (now : jnow m = jnow s) (own : grp m g = r)
    (stop : r.state = .stop) (others : ∀ c, c ≠ g → grp m c = grp s c) (follows : Follows (· == g) m u) :
    grp (checkClosing u) g = r ∧ (checkClosing u).mfs.mode = .closing ∧ (checkClosing u).mfs.goal = s.mfs.goal ∧
      ((∀ c, c ≠ g → (grp s c).state = .stop) → (∀ c, c ≠ g → grp (checkClosing u) c = grp s c) ∧
        (checkClosing u).mfs.sub = some .clAllred ∧ (checkClosing u).mfs.phaseStart = jnow s) ∧
      ((∃ c, c ≠ g ∧ (grp s c).state ≠ .stop) →
        (checkClosing u).mfs.sub = some .clClearing ∧ (checkClosing u).mfs.phaseStart = s.mfs.phaseStart) := by
  have acts : fbsActs m = false := by simp [fbsActs, mfs, mode]
  have goal : u.mfs.goal = s.mfs.goal := by rw [follows.mfs, mfs]
  have start : u.mfs.phaseStart = s.mfs.phaseStart := by rw [follows.mfs, mfs]
  have umode : u.mfs.mode = .closing := follows.mode.trans (by rw [mfs, mode])
  have usub : u.mfs.sub = some .clClearing := follows.sub.trans (by rw [mfs, sub])
  have ownKept : grp u g = r := (follows.grp_eq acts (by rw [own, stop]; decide)).trans own
  by_cases all : ∀ c, c ≠ g → (grp s c).state = .stop
  · have kept (c : Group) (hc : c ≠ g) : grp u c = grp s c := by
      rw [follows.grp_eq acts (by rw [others c hc, all c hc]; decide), others c hc]
    have stopped (c : Group) : (grp u c).state = .stop := by
      by_cases hc : c = g
      · rw [hc, ownKept, stop]
      · rw [kept c hc, all c hc]
    have same (c : Group) : grp (setMode .closing (some .clAllred) u.mfs.goal u) c = grp u c := by
      unfold grp; rw [setMode_sge]
    rw [checkClosing_of umode usub stopped, same, setMode_mfs]
    exact ⟨ownKept, rfl, goal, fun _ => ⟨fun c hc => by rw [same, kept c hc], rfl, follows.now.trans now⟩,
      fun ⟨c, hc, moving⟩ => absurd (all c hc) moving⟩
  · have running : ∃ c, (grp u c).state ≠ .stop := by
      push Not at all
      obtain ⟨c, hc, moving⟩ := all
      refine ⟨c, ?_⟩
      rcases (follows.groups c).state with e | ⟨_, e⟩
      · rw [e, others c hc]; exact moving
      · rw [e]; decide
    rw [checkClosing_of_not (.inr (.inr running))]
    exact ⟨ownKept, umode, goal, fun k => absurd k all, fun _ => ⟨usub, start⟩⟩

/-- Settles O11: the group's move with its red-outs is a detection's; the clearing ends on what it leaves. -/
theorem clearanceEndEntersStop : Obligations.ClearanceEndEntersStop := by
  unfold Obligations.ClearanceEndEntersStop
  intro g s m clearance run hm
  have ran : endClearance g s = groupStopped g m := by
    rw [hm]
    exact if_pos (by simp [clearanceRun, clearance, run])
  have mfs : m.mfs = s.mfs := by rw [hm]; simp
  have shuts : Shuts m ((commandRedOuts (· == g) m).foldl (fun t g => becomeRedOut g t) (groupMoved g m)) :=
    (groupMoved_shuts g m).trans (foldl_becomeRedOut_shuts _ _)
  refine ⟨_, exec_clearanceEnd g s, fun other => ?_, fun mode sub => ⟨⟨_, shuts, fun closing stopped => ?_, fun h => ?_⟩,
    fun enabled => ?_⟩⟩
  all_goals
    rw [ran]
    unfold groupStopped
    dsimp only
  · rw [checkClosing_of_shuts shuts (by rw [mfs]; exact other)]
    exact shuts
  · obtain ⟨_, kept, _⟩ := shuts.mode_of_enters (by rw [closing]; rfl)
    exact checkClosing_of closing (by rw [kept, mfs, sub]) stopped
  · exact checkClosing_of_not (h.imp_right .inr)
  · have quiet : commandRedOuts (· == g) m = [] := commandRedOuts_of_enabled fun c hc => by
      rw [LawfulBEq.eq_of_beq hc, hm]
      simpa using enabled
    rw [quiet, List.foldl_nil]
    refine checkClosing_after_stop mode sub mfs ?_ ?_ ?_ (fun c hc => ?_) (groupMoved_follows g m)
    · rw [hm]; simp
    · rw [hm]; simp
    · rfl
    · rw [hm, grp_setGrp, if_neg hc.symm]

end Sys2Proof.Machine

/-! ## Terminations are taken (R13)

`Tidies s t` says of an operation that it leaves no termination where it found none, and that it leaves none where it
has changed a demand flag. -/

namespace Sys2Proof.Machine

/-- What the termination conditions read. -/
theorem terminating_congr {s t : State} (sge : t.sge = s.sge) (igm : t.igm = s.igm)
    (target : t.sel.target = s.sel.target) (overlay : t.pu.overlay = s.pu.overlay) (mode : t.mfs.mode = s.mfs.mode)
    (cs : t.cs = s.cs) : terminating t = terminating s := by
  have group (g : Group) : grp t g = grp s g := by unfold grp; rw [sge]
  unfold terminating
  congr 1
  funext g
  rw [terminationCause_congr (group g) (fun c => by rw [group]) (by unfold jnow; rw [sge]) mode cs igm
    (by unfold ovl; rw [overlay]) target]

theorem terminating_eq_nil {s : State} : terminating s = [] ↔ ∀ g, terminationCause s g = none := by
  simp [terminating, allGroups, List.filter_eq_nil_iff]

/-- R13: a part with every group in STOP has nothing to terminate. -/
theorem terminating_of_stopped {s : State} (h : ∀ g, (grp s g).state = .stop) : terminating s = [] :=
  terminating_eq_nil.2 fun g => if_pos (by rw [h g]; decide)

structure Tidies (s t : State) : Prop where
  keeps : terminating s = [] → terminating t = []
  demand : terminating t = [] ∨ ∀ g, (grp t g).demand = (grp s g).demand

namespace Tidies

theorem settled {s t : State} (h : terminating t = []) : Tidies s t := ⟨fun _ => h, .inl h⟩

theorem trans {s t u : State} (h : Tidies s t) (k : Tidies t u) : Tidies s u where
  keeps q := k.keeps (h.keeps q)
  demand := by
    rcases k.demand with q | same
    · exact .inl q
    · exact h.demand.imp k.keeps fun e g => (same g).trans (e g)

theorem of_parts {s t : State} (sge : t.sge = s.sge) (igm : t.igm = s.igm) (target : t.sel.target = s.sel.target)
    (overlay : t.pu.overlay = s.pu.overlay) (mode : t.mfs.mode = s.mfs.mode) (cs : t.cs = s.cs) : Tidies s t :=
  ⟨fun h => (terminating_congr sge igm target overlay mode cs).trans h, .inr fun g => by unfold grp; rw [sge]⟩

theorem refl (s : State) : Tidies s s := ⟨id, .inr fun _ => rfl⟩

theorem of_ite {c : Prop} [Decidable c] {s t : State} (h : c → Tidies s t) : Tidies s (if c then t else s) := by
  split
  · rename_i k; exact h k
  · exact .refl s

theorem of_foldl {α : Type} {f : State → α → State} (h : ∀ s a, Tidies s (f s a)) (l : List α) (s : State) :
    Tidies s (l.foldl f s) := by
  induction l generalizing s with
  | nil => exact .refl s
  | cons a l ih => exact (h s a).trans (ih _)

end Tidies

/-! ### Detections and red-outs -/

theorem postIf_tidies (b : Bool) (e : Event) (s : State) : Tidies s (postIf b e s) :=
  .of_parts (by simp) (by simp) (by simp) (by simp) (by simp) (by simp)

/-- R174 to R176: a detection takes the part to its fault aspect or touches nothing that the engine reads. -/
theorem detect_tidies (k : FaultKind) (d : BitVec 72) (s : State) : Tidies s (detect k d s) := by
  have latched : Tidies s (latch k d s) := by
    unfold latch
    dsimp only
    refine Tidies.trans ?_ (postIf_tidies _ _ _)
    exact .of_parts rfl rfl rfl rfl rfl rfl
  have driven (u : State) : Tidies u (driveFlt u) := .of_parts rfl rfl rfl rfl rfl rfl
  unfold detect
  dsimp only
  split
  · split
    · rename_i enters
      have stopped (g : Group) : (grp (faultEntry (driveFlt (latch k d s))) g).state = .stop := by
        rcases (faultEntry_shuts _ enters rfl).mode with ⟨kept, _⟩ | ⟨_, _, _, _, _, _, stop⟩
        · have rest : (faultEntry (driveFlt (latch k d s))).mfs.mode.faultEnters = false := by
            unfold faultEntry
            rw [(enterResting_spec _ _).mfs]
            exact resting_not_faultEnters _
          rw [kept, enters] at rest
          cases rest
        · exact stop g
      exact .settled (terminating_of_stopped stopped)
    · exact latched.trans (driven _)
  · exact latched

theorem raiseMultiple_tidies (s : State) : Tidies s (raiseMultiple s) := .of_ite fun _ => detect_tidies _ _ s

theorem becomeRedOut_tidies (g : Group) (s : State) : Tidies s (becomeRedOut g s) := by
  unfold becomeRedOut
  split
  · exact .refl s
  · exact Tidies.trans (.settled (settleSince_settles _ _)) (raiseMultiple_tidies _)

theorem checkClosing_tidies (s : State) : Tidies s (checkClosing s) := by
  refine .of_ite fun ⟨_, _, stopped⟩ => .settled (terminating_of_stopped fun g => ?_)
  have same : grp (setMode .closing (some .clAllred) s.mfs.goal s) g = grp s g := by unfold grp; rw [setMode_sge]
  rw [same]
  exact (allStopped_iff s).1 stopped g

theorem groupMoved_settles (g : Group) (s : State) : terminating (groupMoved g s) = [] := react_settles _

theorem groupStopped_settles (g : Group) (s : State) : terminating (groupStopped g s) = [] :=
  ((Tidies.of_foldl (fun s g => becomeRedOut_tidies g s) _ _).trans (checkClosing_tidies _)).keeps (groupMoved_settles g s)

/-! ### The priority list -/

/-- `t` differs from `s` in nothing that the termination conditions read, but for the overlay. -/
structure EngineAlike (s t : State) : Prop where
  sge : t.sge = s.sge
  igm : t.igm = s.igm
  target : t.sel.target = s.sel.target
  mode : t.mfs.mode = s.mfs.mode
  cs : t.cs = s.cs

theorem EngineAlike.trans {s t u : State} (h : EngineAlike s t) (k : EngineAlike t u) : EngineAlike s u :=
  ⟨k.sge.trans h.sge, k.igm.trans h.igm, k.target.trans h.target, k.mode.trans h.mode, k.cs.trans h.cs⟩

theorem postIf_alike (b : Bool) (e : Event) (s : State) : EngineAlike s (postIf b e s) :=
  ⟨by simp, by simp, by simp, by simp, by simp⟩

theorem walkWith_alike (leave : Bool) (s : State) : EngineAlike s (walkWith leave s) := by
  unfold walkWith
  dsimp only
  refine EngineAlike.trans ?_ (postIf_alike _ _ _)
  exact ⟨rfl, rfl, rfl, rfl, rfl⟩

/-- R125: an arrival at the list is handed to the engine where it changes the overlay. -/
theorem overlayArrival_settles {s t : State} (h : (overlayArrival s t).pu.overlay ≠ s.pu.overlay) :
    terminating (overlayArrival s t) = [] := by
  unfold overlayArrival at h ⊢
  split
  · rename_i same
    rw [if_pos same] at h
    exact absurd same h
  · exact settleSince_settles _ _

theorem overlayArrival_tidies {s t : State} (h : EngineAlike s t) : Tidies s (overlayArrival s t) := by
  unfold overlayArrival
  split
  · rename_i same
    exact .of_parts h.sge h.igm h.target same h.mode h.cs
  · exact .settled (settleSince_settles _ _)

theorem walkArrival_tidies {s t : State} (h : EngineAlike s t) : Tidies s (walkArrival s t) :=
  overlayArrival_tidies (h.trans (walkWith_alike false t))

theorem removeEntries_alike (p : Entry → Bool) (c : RemovalCause) (s : State) : EngineAlike s (removeEntries p c s) := by
  unfold removeEntries postRemoved
  refine ⟨?_, ?_, ?_, ?_, ?_⟩ <;> simp

theorem admitEntry_alike {e : Entry} {s t : State} (h : admitEntry e s = some t) : EngineAlike s t := by
  unfold admitEntry at h
  split at h
  · cases h; exact ⟨rfl, rfl, rfl, rfl, rfl⟩
  · split at h
    · cases h; exact ⟨rfl, rfl, rfl, rfl, rfl⟩
    · split at h
      · cases h
        refine ⟨?_, ?_, ?_, ?_, ?_⟩ <;> simp [placeEntry, displace]
      · cases h

theorem setApr_tidies (s : State) (a : Approach) (r : ApproachRec) : Tidies s (setApr s a r) :=
  .of_parts (by simp) (by simp) (by simp) (by simp) (by simp) (by simp)

theorem loopCheckIn_tidies (a : Approach) (eta : Nat) (clamped single : Bool) (s : State) :
    Tidies s (loopCheckIn a eta clamped single s) := by
  unfold loopCheckIn
  dsimp only
  split
  · split
    · rename_i t ht
      exact walkArrival_tidies (admitEntry_alike ht)
    · exact setApr_tidies _ _ _
  · exact setApr_tidies _ _ _

theorem loopCheckOut_tidies (a : Approach) (s : State) : Tidies s (loopCheckOut a s) := by
  unfold loopCheckOut removeEntry
  split
  · exact walkArrival_tidies (removeEntries_alike _ _ _)
  · exact setApr_tidies _ _ _

theorem entryOnA_tidies (a : Approach) (stamp : Time) (s : State) : Tidies s (entryOnA a stamp s) := by
  unfold entryOnA
  split
  · split
    · exact setApr_tidies _ _ _
    · exact .refl s
  · exact loopCheckIn_tidies _ _ _ _ _

theorem entryOnB_tidies (a : Approach) (stamp : Time) (s : State) : Tidies s (entryOnB a stamp s) := by
  unfold entryOnB disarm
  dsimp only
  split <;> exact (setApr_tidies s a _).trans (loopCheckIn_tidies _ _ _ _ _)

theorem entryAtApproach_tidies (ch : Channel) (stamp : Time) (a : Approach) (s : State) :
    Tidies s (entryAtApproach ch stamp a s) := by
  have onA : Tidies s (if loopA s.cs.image a = some ch then entryOnA a stamp s else s) :=
    .of_ite fun _ => entryOnA_tidies _ _ _
  have onB (u : State) : Tidies u (if loopB s.cs.image a = some ch then entryOnB a stamp u else u) :=
    .of_ite fun _ => entryOnB_tidies _ _ _
  have out (u : State) : Tidies u (if loopOut s.cs.image a = some ch then loopCheckOut a u else u) :=
    .of_ite fun _ => loopCheckOut_tidies _ _
  exact (onA.trans (onB _)).trans (out _)

theorem loopEntered_tidies (ch : Channel) (s : State) : Tidies s (loopEntered ch s) := by
  unfold loopEntered
  split
  · exact .of_foldl (fun t a => entryAtApproach_tidies ch _ a t) _ _
  · exact .refl s

theorem loseAtApproach_tidies (ch : Channel) (a : Approach) (s : State) : Tidies s (loseAtApproach ch a s) := by
  have lose (u : State) : Tidies u (loseB a u) := by
    unfold loseB disarm
    split
    · exact (setApr_tidies u a _).trans (loopCheckIn_tidies _ _ _ _ _)
    · exact .refl u
  have first : Tidies s (if loopA s.cs.image a = some ch then disarm a s else s) :=
    .of_ite fun _ => setApr_tidies _ _ _
  exact first.trans (.of_ite fun _ => lose _)

theorem loopStateChanged_tidies (ch : Channel) (st : DetState) (s : State) : Tidies s (loopStateChanged ch st s) := by
  unfold loopStateChanged
  split
  · exact .refl s
  · exact .of_foldl (fun t a => loseAtApproach_tidies ch a t) _ _

/-! ### The detector unit -/

theorem postChannelDemand_tidies (ch : Channel) (s : State) : Tidies s (postChannelDemand ch s) :=
  .of_ite fun _ => .settled (react_settles _)

theorem forcedDemand_tidies (ch : Channel) (forced : Bool) (s : State) : Tidies s (forcedDemand ch forced s) :=
  .of_ite fun _ => postChannelDemand_tidies ch s

theorem noteGapExit_tidies (gs : List Group) (s : State) : Tidies s (noteGapExit gs s) := by
  unfold noteGapExit
  refine .of_parts ?_ ?_ ?_ ?_ ?_ ?_ <;> rfl

theorem handToSequencer_tidies (ch : Channel) (old : DetRec) (exit : Bool) (s : State) :
    Tidies s (handToSequencer ch old exit s) := by
  unfold handToSequencer
  dsimp only
  split
  · exact .refl s
  · have noted : Tidies s (if (exit || (countsOccupied old && !countsOccupied (det s ch))) = true then
        noteGapExit (extendedGroups s.cs.image ch) s else s) :=
      .of_ite fun _ => noteGapExit_tidies _ s
    split
    · exact .settled (settleStage_settles _)
    · exact noted

theorem Tidies.then_ite {p : Prop} [Decidable p] {s t u : State} (h : Tidies s t) (k : Tidies t u) :
    Tidies s (if p then u else t) := h.trans (.of_ite fun _ => k)

theorem handChange_tidies (ch : Channel) (old new : DetRec) (entry exit : Bool) (s : State) :
    Tidies s (handChange ch old new entry exit s) := by
  have written : Tidies s (setDet s ch new) :=
    .of_parts (by simp) (by simp) (by simp) (by simp [setDet]) (by simp) (by simp)
  unfold handChange
  dsimp only
  have event := written.trans (postIf_tidies (reportedChange old.state new.state) .detectorChanged _)
  have handed := (event.then_ite (p := entry = true) (postChannelDemand_tidies ch _)).trans
    (handToSequencer_tidies ch old exit _)
  exact (handed.then_ite (loopStateChanged_tidies ch _ _)).then_ite (loopEntered_tidies ch _)

theorem loopLongPresence_tidies (ch : Channel) (s : State) : Tidies s (loopLongPresence ch s) :=
  .of_ite fun _ => (handChange_tidies _ _ _ _ _ _).trans (forcedDemand_tidies _ _ _)

theorem contactLongPresence_tidies (ch : Channel) (s : State) : Tidies s (contactLongPresence ch s) :=
  .of_ite fun _ => (handChange_tidies _ _ _ _ _ _).trans (forcedDemand_tidies _ _ _)

theorem raiseAtClose_tidies (ch : Channel) (old : DetRec) (s : State) : Tidies s (raiseAtClose ch old s) := by
  unfold raiseAtClose
  split
  · exact detect_tidies _ _ s
  · exact .of_ite fun _ => detect_tidies _ _ s

theorem windowClose_tidies (ch : Channel) (s : State) : Tidies s (windowClose ch s) := by
  unfold windowClose
  refine .of_ite fun _ => ?_
  exact ((loopLongPresence_tidies ch s).trans (handChange_tidies _ _ _ _ _ _)).trans (raiseAtClose_tidies _ _ _)

theorem raiseAtSample_tidies (ch : Channel) (old new : DetRec) (s : State) : Tidies s (raiseAtSample ch old new s) := by
  unfold raiseAtSample
  split
  · exact detect_tidies _ _ s
  · exact .of_ite fun _ => detect_tidies _ _ s

theorem loopSample_tidies (p : Option Nat) (ch : Channel) (s : State) : Tidies s (loopSample p ch s) :=
  .of_ite fun _ => ((raiseAtSample_tidies _ _ _ s).trans (handChange_tidies _ _ _ _ _ _)).trans (forcedDemand_tidies _ _ _)

theorem contactSample_tidies (pressed : Bool) (ch : Channel) (s : State) : Tidies s (contactSample pressed ch s) :=
  .of_ite fun _ => (handChange_tidies _ _ _ _ _ _).trans (forcedDemand_tidies _ _ _)

/-! ### The arrivals -/

theorem next_eq {c : Instr} {s t u : State} (h : exec c s = .next u) (ran : exec c s = .next t) : u = t :=
  Host.Outcome.next.inj (h.symm.trans ran)

theorem terminating_answer (k : RequestKind) (v : Verdict) (l : List Byte) (s : State) :
    terminating (answer k v l s) = terminating s := rfl

/-- R48: a selector change settles. -/
theorem changeOwner_settles (o : Owner) (r : Rank) (s : State)
    (h : ((changeOwner o r s).sel.owner, (changeOwner o r s).sel.rank) ≠ (s.sel.owner, s.sel.rank)) :
    terminating (changeOwner o r s) = [] := by
  unfold changeOwner at h ⊢
  split
  · rename_i same
    rw [if_pos same] at h
    exact absurd rfl h
  · exact settleSince_settles _ _

theorem takeSelector_settles (r : Byte) (i : Station) (s : State)
    (h : ((takeSelector r i s).sel.owner, (takeSelector r i s).sel.rank) ≠ (s.sel.owner, s.sel.rank)) :
    terminating (takeSelector r i s) = [] := by
  unfold takeSelector at h ⊢
  rw [terminating_answer]
  split
  · rename_i done
    rw [if_pos done] at h
    exact changeOwner_settles _ _ s h
  · rename_i refused
    rw [if_neg refused] at h
    exact absurd rfl h

theorem releaseSelector_settles (i : Station) (s : State)
    (h : ((releaseSelector i s).sel.owner, (releaseSelector i s).sel.rank) ≠ (s.sel.owner, s.sel.rank)) :
    terminating (releaseSelector i s) = [] := by
  unfold releaseSelector at h ⊢
  split
  · rename_i owner
    rw [if_pos owner] at h
    exact changeOwner_settles _ _ s h
  · rename_i other
    rw [if_neg other] at h
    exact absurd rfl h

theorem silenceExpiry_settles (i : Station) (s : State)
    (h : ((silenceExpiry i s).sel.owner, (silenceExpiry i s).sel.rank) ≠ (s.sel.owner, s.sel.rank)) :
    terminating (silenceExpiry i s) = [] := by
  have shuts (u : State) : Shuts u (post .stationSilent (detect .stationSilent (detailItem (number i)) u)) :=
    (detect_shuts _ _ u).trans (post_shuts _ _)
  have sel := (shuts (setStation s i { station s i with silent := true })).sel
  rw [setStation_sel] at sel
  unfold silenceExpiry at h ⊢
  split
  · rename_i run
    rw [if_pos run] at h
    dsimp only at h ⊢
    generalize post .stationSilent (detect .stationSilent (detailItem (number i))
      (setStation s i { station s i with silent := true })) = u at sel h ⊢
    have same : (u.sel.owner, u.sel.rank) = (s.sel.owner, s.sel.rank) := by rw [sel]
    split
    · rename_i owner
      rw [if_pos owner, ← same] at h
      exact changeOwner_settles _ _ u h
    · rename_i other
      rw [if_neg other] at h
      exact absurd same h
  · rename_i idle
    rw [if_neg idle] at h
    exact absurd rfl h

theorem callGroups_settles (w : GroupSet) (i : Station) (s : State) : terminating (callGroups w i s) = [] := by
  unfold callGroups postDemand
  rw [terminating_answer]
  exact react_settles _

theorem setStage_settles (w : GroupSet) (i : Station) (s : State)
    (h : (setStage w i s).sel.generation ≠ s.sel.generation) : terminating (setStage w i s) = [] := by
  unfold setStage at h ⊢
  dsimp only at h ⊢
  rw [terminating_answer]
  split
  · exact settle_settles _
  · rename_i refused
    rw [if_neg refused] at h
    exact absurd rfl h

theorem selectStage_settles (b : Byte) (i : Station) (s : State)
    (h : (selectStage b i s).sel.generation ≠ s.sel.generation) : terminating (selectStage b i s) = [] := by
  unfold selectStage at h ⊢
  dsimp only at h ⊢
  rw [terminating_answer]
  split
  · exact settle_settles _
  · rename_i refused
    rw [if_neg refused] at h
    exact absurd rfl h

/-- An arrival that leaves no termination where it changes the overlay. -/
def OverlaySettles (s t : State) : Prop := t.pu.overlay ≠ s.pu.overlay → terminating t = []

theorem OverlaySettles.refl (s : State) : OverlaySettles s s := fun h => absurd rfl h

theorem OverlaySettles.answered {s t : State} (h : OverlaySettles s t) (k : RequestKind) (v : Verdict) (l : List Byte) :
    OverlaySettles s (answer k v l t) := h

theorem OverlaySettles.of_overlayArrival (s t : State) : OverlaySettles s (overlayArrival s t) := overlayArrival_settles

theorem OverlaySettles.of_ite {p : Prop} [Decidable p] {s t : State} (h : OverlaySettles s t) :
    OverlaySettles s (if p then t else s) := by
  split
  · exact h
  · exact .refl s

theorem asked_overlaySettles (k : RequestKind) (n : Nat) (f : Station → State → State) (s : State)
    (h : ∀ i, OverlaySettles s (f i s)) : OverlaySettles s (asked k n f s) :=
  asked_cases k n f s (OverlaySettles s) (.refl s) (fun _ => (OverlaySettles.refl s).answered _ _ _) fun i _ _ => h i

theorem checkIn_overlaySettles (r : Report) (approach : Byte) (i : Station) (s : State) :
    OverlaySettles s (checkIn r approach i s) := by
  unfold checkIn takeReport
  repeat' split
  all_goals first
    | exact (OverlaySettles.refl s).answered _ _ _
    | exact (OverlaySettles.of_overlayArrival s _).answered _ _ _

theorem checkOut_overlaySettles (ident : BitVec 16) (approach : Byte) (i : Station) (s : State) :
    OverlaySettles s (checkOut ident approach i s) := by
  unfold checkOut
  split
  · exact (OverlaySettles.refl s).answered _ _ _
  · split
    · exact (OverlaySettles.of_overlayArrival s _).answered _ _ _
    · exact (OverlaySettles.refl s).answered _ _ _

theorem cancelEntries_overlaySettles (p : Entry → Bool) (s : State) : OverlaySettles s (cancelEntries p s) := by
  unfold cancelEntries
  split
  · exact (OverlaySettles.of_overlayArrival s _).answered _ _ _
  · exact (OverlaySettles.refl s).answered _ _ _

theorem cancelByNumber_overlaySettles (value : BitVec 16) (i : Station) (s : State) :
    OverlaySettles s (cancelByNumber value i s) := by
  unfold cancelByNumber
  split
  · exact (OverlaySettles.refl s).answered _ _ _
  · exact cancelEntries_overlaySettles _ s

theorem enablePriority_overlaySettles (b : Byte) (i : Station) (s : State) :
    OverlaySettles s (enablePriority b i s) := by
  have enable (on : Bool) : OverlaySettles s (setEnable on s) := by
    unfold setEnable
    split
    · exact .refl s
    · exact .of_overlayArrival s _
  unfold enablePriority
  split
  · exact (OverlaySettles.refl s).answered _ _ _
  · exact (enable _).answered _ _ _

/-- R125: the requests that reach the list. -/
theorem request_overlaySettles {c : Instr} {n : Nat} {k : RequestKind} (row : requestRow c = some (n, k))
    (kind : k = .checkIn ∨ k = .checkOut ∨ k = .cancelPriority ∨ k = .enablePriority) {s t : State}
    (ran : exec c s = .next t) : OverlaySettles s t := by
  cases c
  case checkIn => cases ran; exact asked_overlaySettles _ _ _ s fun i => checkIn_overlaySettles _ _ i s
  case checkOut => cases ran; exact asked_overlaySettles _ _ _ s fun i => checkOut_overlaySettles _ _ i s
  case cancelPriorityByNumber => cases ran; exact asked_overlaySettles _ _ _ s fun i => cancelByNumber_overlaySettles _ i s
  case cancelPriorityByIdent => cases ran; exact asked_overlaySettles _ _ _ s fun _ => cancelEntries_overlaySettles _ s
  case enablePriority => cases ran; exact asked_overlaySettles _ _ _ s fun i => enablePriority_overlaySettles _ i s
  all_goals
    clear ran
    simp only [requestRow, Option.some.injEq, Prod.mk.injEq, reduceCtorEq] at row
  all_goals
    obtain ⟨_, rfl⟩ := row
    simp at kind

/-- What the end of the terminations means for each group. -/
theorem ext_of_terminating_nil {s : State} (h : terminating s = []) (g : Group) (ext : (grp s g).state = .proceedExt) :
    (grp s g).inhibited = false ∧ s.mfs.mode ≠ .closing ∧ (wanted s g = true ∨ holdRunning s g = true) ∧
      maxOutCondition s g = false ∧ (ovl s g).truncate = false := by
  have none := terminating_eq_nil.1 h g
  unfold terminationCause at none
  rw [if_neg (by simp [ext])] at none
  split at none
  · cases none
  · rename_i free
    split at none
    · cases none
    · rename_i mode
      split at none
      · cases none
      · rename_i want
        split at none
        · cases none
        · rename_i max
          split at none
          · cases none
          · rename_i truncate
            refine ⟨by simpa using free, mode, ?_, by simpa using max, by simpa using truncate⟩
            cases hw : wanted s g with
            | true => exact .inl rfl
            | false => exact .inr (by simpa [hw] using want)

/-- R22, R13: a row of the detector unit that sets a demand flag leaves no termination. -/
theorem Tidies.of_demand {s t : State} (h : Tidies s t) {g : Group} (before : (grp s g).demand = false)
    (after : (grp t g).demand = true) : terminating t = [] := by
  refine h.demand.resolve_right fun same => ?_
  rw [same, before] at after
  cases after

theorem exec_setStage (i : Station) (w : GroupSet) (s : State) (hf : inFlight s = false) (hi : i ≠ 1) :
    exec (.setStage (number i) w) s = .next (setStage w i s) :=
  congrArg Host.Outcome.next (asked_number .setStage i (setStage w) s hf (decide_eq_true hi))

theorem exec_selectStage (i : Station) (b : Byte) (s : State) (hf : inFlight s = false) (hi : i ≠ 1) :
    exec (.selectStage (number i) b) s = .next (selectStage b i s) :=
  congrArg Host.Outcome.next (asked_number .selectStage i (selectStage b) s hf (decide_eq_true hi))

theorem exec_silenceExpiry (i : Station) (s : State) : exec (.silenceExpiry (number i)) s = .next (silenceExpiry i s) :=
  congrArg Host.Outcome.next (withItem_number i silenceExpiry s)

theorem exec_gapOut (g : Group) (s : State) : exec (.gapOut (number g)) s = .next (gapOut g s) :=
  congrArg Host.Outcome.next (withItem_number g gapOut s)

theorem exec_loopSample (ch : Channel) (p : Option Nat) (s : State) :
    exec (.loopSample (number ch) p) s = .next (loopSample p ch s) :=
  congrArg Host.Outcome.next (withItem_number ch (loopSample p) s)

theorem exec_contactSample (ch : Channel) (pressed : Bool) (s : State) :
    exec (.contactSample (number ch) pressed) s = .next (contactSample pressed ch s) :=
  congrArg Host.Outcome.next (withItem_number ch (contactSample pressed) s)

theorem exec_loopLongPresence (ch : Channel) (s : State) :
    exec (.loopLongPresence (number ch)) s = .next (loopLongPresence ch s) :=
  congrArg Host.Outcome.next (withItem_number ch loopLongPresence s)

theorem exec_contactLongPresence (ch : Channel) (s : State) :
    exec (.contactLongPresence (number ch)) s = .next (contactLongPresence ch s) :=
  congrArg Host.Outcome.next (withItem_number ch contactLongPresence s)

theorem exec_windowClose (ch : Channel) (s : State) : exec (.windowClose (number ch)) s = .next (windowClose ch s) :=
  congrArg Host.Outcome.next (withItem_number ch windowClose s)

theorem asked_selectorSettles (k : RequestKind) (n : Nat) (f : Station → State → State) (s : State)
    (h : ∀ i, ((f i s).sel.owner, (f i s).sel.rank) ≠ (s.sel.owner, s.sel.rank) → terminating (f i s) = []) :
    ((asked k n f s).sel.owner, (asked k n f s).sel.rank) ≠ (s.sel.owner, s.sel.rank) →
      terminating (asked k n f s) = [] :=
  asked_cases k n f s (fun t => (t.sel.owner, t.sel.rank) ≠ (s.sel.owner, s.sel.rank) → terminating t = [])
    (fun h => absurd rfl h) (fun _ h => absurd rfl h) fun i _ _ => h i

theorem detectorRow_tidies {c : Instr} {ch : Channel} {p : Option Nat} {pressed : Bool} {s t : State}
    (hc : c = .loopSample (number ch) p ∨ c = .contactSample (number ch) pressed ∨ c = .loopLongPresence (number ch) ∨
      c = .contactLongPresence (number ch) ∨ c = .windowClose (number ch)) (ran : exec c s = .next t) : Tidies s t := by
  rcases hc with rfl | rfl | rfl | rfl | rfl
  · obtain rfl := next_eq (exec_loopSample ch p s) ran
    exact loopSample_tidies p ch s
  · obtain rfl := next_eq (exec_contactSample ch pressed s) ran
    exact contactSample_tidies pressed ch s
  · obtain rfl := next_eq (exec_loopLongPresence ch s) ran
    exact loopLongPresence_tidies ch s
  · obtain rfl := next_eq (exec_contactLongPresence ch s) ran
    exact contactLongPresence_tidies ch s
  · obtain rfl := next_eq (exec_windowClose ch s) ran
    exact windowClose_tidies ch s

/-- Settles O14: each arrival either leaves what it must change to count, or ends in rounds that settle. -/
theorem terminationsAreTaken : Obligations.TerminationsAreTaken := by
  unfold Obligations.TerminationsAreTaken
  intro c s
  obtain ⟨t, ran, _⟩ := exec_next_upholds c s
  refine ⟨t, ran, fun arrival => ext_of_terminating_nil ?_⟩
  rcases arrival with ⟨i, w, hf, hi, rfl⟩ | ⟨i, w, b, hf, hi, hc, generation⟩ | ⟨i, r, hc, selector⟩ | ⟨hc, overlay⟩ |
    ⟨g, rfl, picked⟩ | ⟨g, rfl, prepare, run⟩ | ⟨g, rfl, min, run⟩ | ⟨g, rfl, clearance, run⟩ |
    ⟨ch, p, pressed, g, hc, before, after⟩ | ⟨g, rfl, ext, max⟩ | ⟨g, n, rfl, acts, current, member, gapped⟩
  · obtain rfl := next_eq (exec_callGroups i w s hf hi) ran
    exact callGroups_settles w i s
  · rcases hc with rfl | rfl
    · obtain rfl := next_eq (exec_setStage i w s hf hi) ran
      exact setStage_settles w i s generation
    · obtain rfl := next_eq (exec_selectStage i b s hf hi) ran
      exact selectStage_settles b i s generation
  · rcases hc with rfl | rfl | rfl
    · obtain rfl := next_eq rfl ran
      exact asked_selectorSettles _ _ _ s (fun i => takeSelector_settles r i s) selector
    · obtain rfl := next_eq rfl ran
      exact asked_selectorSettles _ _ _ s (fun i => releaseSelector_settles i s) selector
    · obtain rfl := next_eq (exec_silenceExpiry i s) ran
      exact silenceExpiry_settles i s selector
  · rcases hc with rfl | rfl | rfl | ⟨i, k, row, kind⟩
    · obtain rfl := next_eq rfl ran
      exact OverlaySettles.of_ite (.of_overlayArrival s _) overlay
    · obtain rfl := next_eq rfl ran
      exact OverlaySettles.of_ite (.of_overlayArrival s _) overlay
    · obtain rfl := next_eq rfl ran
      exact OverlaySettles.of_ite (.of_overlayArrival s _) overlay
    · exact request_overlaySettles row kind ran overlay
  · obtain rfl := next_eq (exec_groupStart g s) ran
    rw [startGroup_of_pick picked]
    exact groupMoved_settles g _
  · obtain rfl := next_eq (exec_prepareEnd g s) ran
    rw [endPrepare, if_pos (by simp [prepareRun, prepare, run])]
    exact groupMoved_settles g _
  · obtain rfl := next_eq (exec_minProceedEnd g s) ran
    rw [endMinProceed, if_pos (by simp [minProceedRun, min, run])]
    exact groupMoved_settles g _
  · obtain rfl := next_eq (exec_clearanceEnd g s) ran
    rw [endClearance, if_pos (by simp [clearanceRun, clearance, run])]
    exact groupStopped_settles g _
  · exact Tidies.of_demand (detectorRow_tidies hc ran) before after
  · obtain rfl := next_eq (exec_maxOut g s) ran
    rw [Machine.maxOut, if_pos (by simp [ext, max])]
    exact groupMoved_settles g _
  · obtain rfl := next_eq (exec_gapOut g s) ran
    rw [gapOut, if_pos (by simpa [memberGapsOut, acts, current, gapped] using member)]
    exact settleStage_settles _

end Sys2Proof.Machine

/-! ## What a channel hands on (R22, R69, R96 to R100)

`DetectorAlike s t` says of an operation that it touches no detector record, no demand flag and no last gap exit, and
that it takes no kind out of a pending set. -/

namespace Sys2Proof.Machine

structure DetectorAlike (s t : State) : Prop where
  du : t.du = s.du
  cs : t.cs = s.cs
  clock : jnow t = jnow s
  demand : ∀ g, (grp t g).demand = (grp s g).demand
  gaps : t.fbs.lastGapExit = s.fbs.lastGapExit
  events : ∀ (i : Station) (b : Nat), (s.mfs.pending[i]).getLsbD b = true → (t.mfs.pending[i]).getLsbD b = true
  clp : t.clp = s.clp

namespace DetectorAlike

theorem refl (s : State) : DetectorAlike s s := ⟨rfl, rfl, rfl, fun _ => rfl, rfl, fun _ _ => id, rfl⟩

theorem trans {s t u : State} (h : DetectorAlike s t) (k : DetectorAlike t u) : DetectorAlike s u :=
  ⟨k.du.trans h.du, k.cs.trans h.cs, k.clock.trans h.clock, fun g => (k.demand g).trans (h.demand g),
    k.gaps.trans h.gaps, fun i b e => k.events i b (h.events i b e), k.clp.trans h.clp⟩

theorem of_ite {p : Prop} [Decidable p] {s t : State} (h : p → DetectorAlike s t) :
    DetectorAlike s (if p then t else s) := by
  split
  · rename_i k; exact h k
  · exact .refl s

theorem of_foldl {α : Type} {f : State → α → State} (h : ∀ s a, DetectorAlike s (f s a)) (l : List α) (s : State) :
    DetectorAlike s (l.foldl f s) := by
  induction l generalizing s with
  | nil => exact .refl s
  | cons a l ih => exact (h s a).trans (ih _)

end DetectorAlike

/-- A pending set that loses no kind. -/
theorem getLsbD_of_subset {v w : EventSet} (h : v &&& ~~~w = 0) {b : Nat} (hv : v.getLsbD b = true) :
    w.getLsbD b = true := by
  have e := congrArg (BitVec.getLsbD · b) h
  have lt := BitVec.lt_of_getLsbD hv
  simpa [hv, lt] using e

theorem Shuts.detectorAlike {s t : State} (h : Shuts s t) : DetectorAlike s t :=
  ⟨h.du, h.cs, h.now, fun g => (h.groups g).demand, h.fbs, fun i _ e => getLsbD_of_subset (h.events i) e, h.clp⟩

theorem Follows.detectorAlike {s t : State} (h : Follows noGroup s t) : DetectorAlike s t := h.shuts.detectorAlike

/-! ### The priority unit -/

theorem removeEntries_detectorAlike (p : Entry → Bool) (c : RemovalCause) (s : State) :
    DetectorAlike s (removeEntries p c s) := by
  unfold removeEntries postRemoved
  refine DetectorAlike.trans ?_ (post_shuts _ _).detectorAlike
  exact ⟨rfl, rfl, rfl, fun _ => rfl, rfl, fun _ _ => id, rfl⟩

theorem admitEntry_detectorAlike {e : Entry} {s t : State} (h : admitEntry e s = some t) : DetectorAlike s t := by
  have placed (u : State) : DetectorAlike u (placeEntry e u) := ⟨rfl, rfl, rfl, fun _ => rfl, rfl, fun _ _ => id, rfl⟩
  have displaced (last : Entry) : DetectorAlike s (displace last s) := by
    unfold displace
    refine DetectorAlike.trans ?_ (post_shuts _ _).detectorAlike
    exact ⟨rfl, rfl, rfl, fun _ => rfl, rfl, fun _ _ => id, rfl⟩
  unfold admitEntry at h
  split at h
  · cases h; exact placed s
  · split at h
    · cases h; exact placed s
    · split at h
      · cases h; exact (displaced _).trans (placed _)
      · cases h

theorem setApr_detectorAlike (s : State) (a : Approach) (r : ApproachRec) : DetectorAlike s (setApr s a r) :=
  ⟨rfl, rfl, rfl, fun _ => rfl, rfl, fun _ _ => id, rfl⟩

theorem loopCheckIn_detectorAlike (a : Approach) (eta : Nat) (clamped single : Bool) (s : State) :
    DetectorAlike s (loopCheckIn a eta clamped single s) := by
  unfold loopCheckIn
  dsimp only
  split
  · split
    · rename_i t ht
      exact (admitEntry_detectorAlike ht).trans (walkArrival_follows s t).detectorAlike
    · exact setApr_detectorAlike _ _ _
  · exact setApr_detectorAlike _ _ _

theorem loopCheckOut_detectorAlike (a : Approach) (s : State) : DetectorAlike s (loopCheckOut a s) := by
  unfold loopCheckOut removeEntry
  split
  · exact (removeEntries_detectorAlike _ _ s).trans (walkArrival_follows s _).detectorAlike
  · exact setApr_detectorAlike _ _ _

theorem entryOnA_detectorAlike (a : Approach) (stamp : Time) (s : State) : DetectorAlike s (entryOnA a stamp s) := by
  unfold entryOnA
  split
  · split
    · exact setApr_detectorAlike _ _ _
    · exact .refl s
  · exact loopCheckIn_detectorAlike _ _ _ _ _

theorem entryOnB_detectorAlike (a : Approach) (stamp : Time) (s : State) : DetectorAlike s (entryOnB a stamp s) := by
  unfold entryOnB disarm
  dsimp only
  split <;> exact (setApr_detectorAlike s a _).trans (loopCheckIn_detectorAlike _ _ _ _ _)

theorem entryAtApproach_detectorAlike (ch : Channel) (stamp : Time) (a : Approach) (s : State) :
    DetectorAlike s (entryAtApproach ch stamp a s) := by
  have onA : DetectorAlike s (if loopA s.cs.image a = some ch then entryOnA a stamp s else s) :=
    .of_ite fun _ => entryOnA_detectorAlike _ _ _
  have onB (u : State) : DetectorAlike u (if loopB s.cs.image a = some ch then entryOnB a stamp u else u) :=
    .of_ite fun _ => entryOnB_detectorAlike _ _ _
  have out (u : State) : DetectorAlike u (if loopOut s.cs.image a = some ch then loopCheckOut a u else u) :=
    .of_ite fun _ => loopCheckOut_detectorAlike _ _
  exact (onA.trans (onB _)).trans (out _)

theorem loopEntered_detectorAlike (ch : Channel) (s : State) : DetectorAlike s (loopEntered ch s) := by
  unfold loopEntered
  split
  · exact .of_foldl (fun t a => entryAtApproach_detectorAlike ch _ a t) _ _
  · exact .refl s

theorem loopStateChanged_detectorAlike (ch : Channel) (st : DetState) (s : State) :
    DetectorAlike s (loopStateChanged ch st s) := by
  have lose (a : Approach) (u : State) : DetectorAlike u (loseB a u) := by
    unfold loseB disarm
    split
    · exact (setApr_detectorAlike u a _).trans (loopCheckIn_detectorAlike _ _ _ _ _)
    · exact .refl u
  have atApproach (a : Approach) (u : State) : DetectorAlike u (loseAtApproach ch a u) := by
    have first : DetectorAlike u (if loopA u.cs.image a = some ch then disarm a u else u) :=
      .of_ite fun _ => setApr_detectorAlike _ _ _
    exact first.trans (.of_ite fun _ => lose a _)
  unfold loopStateChanged
  split
  · exact .refl s
  · exact .of_foldl (fun t a => atApproach a t) _ _

/-! ### Demand -/

/-- R22, R97: the groups that a channel's demand reaches. -/
def channelReaches (ch : Channel) (s : State) (g : Group) : Bool :=
  (channelRole s.cs.image ch).isDemand &&
    postReaches (decide (channelKind s.cs.image ch = .loop)) (groupRefs s.cs.image ch) s g

theorem channelReaches_congr {s t : State} (cs : t.cs = s.cs) (ch : Channel) (g : Group) :
    channelReaches ch t g = channelReaches ch s g := by
  simp [channelReaches, postReaches, cs]

/-- `t` is `s` after a posting, where `posted`, of a channel's demand. -/
structure DemandPosted (ch : Channel) (posted : Bool) (s t : State) : Prop where
  du : t.du = s.du
  cs : t.cs = s.cs
  clock : jnow t = jnow s
  demand : ∀ g, (grp t g).demand = ((grp s g).demand || (posted && channelReaches ch s g))
  gaps : t.fbs.lastGapExit = s.fbs.lastGapExit
  events : ∀ (i : Station) (b : Nat), (s.mfs.pending[i]).getLsbD b = true → (t.mfs.pending[i]).getLsbD b = true
  clp : t.clp = s.clp

theorem DetectorAlike.posted {s t : State} (h : DetectorAlike s t) (ch : Channel) : DemandPosted ch false s t :=
  ⟨h.du, h.cs, h.clock, fun g => by rw [h.demand, Bool.false_and, Bool.or_false], h.gaps, h.events, h.clp⟩

theorem DemandPosted.trans {ch : Channel} {p q : Bool} {s t u : State} (h : DemandPosted ch p s t)
    (k : DemandPosted ch q t u) : DemandPosted ch (p || q) s u where
  du := k.du.trans h.du
  cs := k.cs.trans h.cs
  clock := k.clock.trans h.clock
  demand g := by
    rw [k.demand, h.demand, channelReaches_congr h.cs]
    cases p <;> cases q <;> simp
  gaps := k.gaps.trans h.gaps
  events i b e := k.events i b (h.events i b e)
  clp := k.clp.trans h.clp

theorem forcedDemand_posts (ch : Channel) (forced : Bool) (s : State) :
    DemandPosted ch forced s (forcedDemand ch forced s) := by
  unfold forcedDemand postChannelDemand
  split
  · rename_i hf
    subst hf
    split
    · rename_i role
      have follows := (postDemand_follows (decide (channelKind s.cs.image ch = .loop)) (groupRefs s.cs.image ch)
        s).detectorAlike
      refine ⟨follows.du.trans (by simp), follows.cs.trans (by simp), follows.clock.trans (by simp), fun g => ?_,
        follows.gaps.trans (by simp), fun i b e => follows.events i b (by simpa using e), follows.clp.trans (by simp)⟩
      rw [follows.demand, grp_setGroups, channelReaches, role]
      split
      · rename_i reached
        simp [reached]
      · rename_i missed
        simp [missed]
    · rename_i role
      refine ⟨rfl, rfl, rfl, fun g => ?_, rfl, fun _ _ => id, rfl⟩
      simp [channelReaches, role]
  · rename_i hf
    have hf : forced = false := by simpa using hf
    subst hf
    exact (DetectorAlike.refl s).posted ch

/-! ### Gap exits -/

theorem extends_iff (m : Image) (ch : Channel) (g : Group) : Extends m ch g ↔ isExtensionDetector m ch g = true := by
  have role : (channelRole m ch = .extend ∨ channelRole m ch = .demandExtend) ↔ (channelRole m ch).isExtend = true := by
    cases channelRole m ch <;> simp [Role.isExtend]
  simp only [Extends, role, isExtensionDetector, Bool.and_eq_true, Bool.or_eq_true, decide_eq_true_eq,
    List.contains_iff_mem, and_assoc, imp_iff_not_or, ne_eq]

/-- R69: the last gap exits after a noting. -/
theorem noteGapExit_lastGapExit (gs : List Group) (s : State) (g : Group) :
    (noteGapExit gs s).fbs.lastGapExit[g] = if gs.contains g then some (jnow s) else s.fbs.lastGapExit[g] := by
  simp [noteGapExit]

theorem noteGapExit_nil (s : State) : noteGapExit [] s = s := by
  have same : (Vector.ofFn fun g : Group => s.fbs.lastGapExit[g]) = s.fbs.lastGapExit := by
    ext i hi
    simp
  simp only [noteGapExit, List.contains_nil, Bool.false_eq_true, if_false, same]

/-- R69, R98: the channel posts an exit or stops counting as occupied. -/
def gapNoted (old new : DetRec) (exit : Bool) : Bool := exit || (countsOccupied old && !countsOccupied new)

theorem noteGapExit_frame (gs : List Group) (s : State) : (noteGapExit gs s).du = s.du ∧
    (noteGapExit gs s).cs = s.cs ∧ (noteGapExit gs s).sge = s.sge ∧ (noteGapExit gs s).mfs = s.mfs ∧
    (noteGapExit gs s).clp = s.clp := by
  simp only [noteGapExit, and_self]

theorem handToSequencer_alike (ch : Channel) (old : DetRec) (exit : Bool) (s : State) :
    DetectorAlike (if gapNoted old (det s ch) exit then noteGapExit (extendedGroups s.cs.image ch) s else s)
      (handToSequencer ch old exit s) := by
  unfold handToSequencer gapNoted
  dsimp only
  by_cases empty : (extendedGroups s.cs.image ch).isEmpty = true
  · rw [if_pos empty, List.isEmpty_iff.1 empty, noteGapExit_nil, ite_self]
    exact .refl s
  · rw [if_neg empty]
    exact .of_ite fun _ => (settleStage_follows _).detectorAlike

/-- `t` is `s` with the last gap exits noted, where `noted`, of the groups that the channel extends. -/
structure GapsHanded (ch : Channel) (noted : Bool) (s t : State) : Prop where
  du : t.du = s.du
  cs : t.cs = s.cs
  clock : jnow t = jnow s
  demand : ∀ g, (grp t g).demand = (grp s g).demand
  gaps : ∀ g : Group, t.fbs.lastGapExit[g] =
    if isExtensionDetector s.cs.image ch g && noted then some (jnow s) else s.fbs.lastGapExit[g]
  events : ∀ (i : Station) (b : Nat), (s.mfs.pending[i]).getLsbD b = true → (t.mfs.pending[i]).getLsbD b = true
  clp : t.clp = s.clp

theorem handToSequencer_spec (ch : Channel) (old : DetRec) (exit : Bool) (s : State) :
    GapsHanded ch (gapNoted old (det s ch) exit) s (handToSequencer ch old exit s) := by
  have alike := handToSequencer_alike ch old exit s
  cases noted : gapNoted old (det s ch) exit with
  | false =>
    rw [noted, if_neg Bool.false_ne_true] at alike
    exact ⟨alike.du, alike.cs, alike.clock, alike.demand, fun g => by rw [alike.gaps, Bool.and_false]; rfl, alike.events, alike.clp⟩
  | true =>
    rw [noted, if_pos rfl] at alike
    obtain ⟨du, cs, sge, mfs, clp⟩ := noteGapExit_frame (extendedGroups s.cs.image ch) s
    refine ⟨alike.du.trans du, alike.cs.trans cs, alike.clock.trans (congrArg Sge.clock sge), fun g => ?_, fun g => ?_,
      fun i b e => alike.events i b (by rw [mfs]; exact e), alike.clp.trans clp⟩
    · rw [alike.demand, grp, sge]
      rfl
    · rw [alike.gaps, noteGapExit_lastGapExit]
      simp [extendedGroups, allGroups]

/-- What a channel hands on when its record has become `new`. -/
structure ChannelHanded (ch : Channel) (old new : DetRec) (entry exit : Bool) (s t : State) : Prop where
  record : det t ch = new
  others : ∀ c, c ≠ ch → det t c = det s c
  dclock : dnow t = dnow s
  sampleIn : t.du.sampleIn = s.du.sampleIn
  cs : t.cs = s.cs
  clock : jnow t = jnow s
  demand : ∀ g, (grp t g).demand = ((grp s g).demand || (entry && channelReaches ch s g))
  gaps : ∀ g : Group, t.fbs.lastGapExit[g] =
    if isExtensionDetector s.cs.image ch g && gapNoted old new exit then some (jnow s) else s.fbs.lastGapExit[g]
  events : ∀ (i : Station) (b : Nat), (s.mfs.pending[i]).getLsbD b = true → (t.mfs.pending[i]).getLsbD b = true
  clp : t.clp = s.clp
  changed : reportedChange old.state new.state = true →
    ∀ i : Station, (t.mfs.pending[i]).getLsbD Event.detectorChanged.code.val = true

/-- What an operation touching no detector record brings after a channel has handed its change on. -/
theorem ChannelHanded.then {ch : Channel} {old new : DetRec} {entry exit posted : Bool} {s t u : State}
    (h : ChannelHanded ch old new entry exit s t) (k : DemandPosted ch posted t u) :
    ChannelHanded ch old new (entry || posted) exit s u where
  record := (det_congr k.du ch).trans h.record
  others c hc := (det_congr k.du c).trans (h.others c hc)
  dclock := by unfold dnow; rw [k.du]; exact h.dclock
  sampleIn := by rw [k.du]; exact h.sampleIn
  cs := k.cs.trans h.cs
  clock := k.clock.trans h.clock
  demand g := by
    rw [k.demand, h.demand, channelReaches_congr h.cs]
    cases entry <;> cases posted <;> simp
  gaps g := by rw [k.gaps]; exact h.gaps g
  events i b e := k.events i b (h.events i b e)
  clp := k.clp.trans h.clp
  changed c i := k.events i _ (h.changed c i)

/-- R97 to R100. -/
theorem handChange_spec (ch : Channel) (old new : DetRec) (entry exit : Bool) (s : State) :
    ChannelHanded ch old new entry exit s (handChange ch old new entry exit s) := by
  have written := (postIf_shuts (reportedChange old.state new.state) .detectorChanged (setDet s ch new)).detectorAlike
  generalize hs1 : postIf (reportedChange old.state new.state) .detectorChanged (setDet s ch new) = s1 at written
  have posted := forcedDemand_posts ch entry s1
  generalize hs2 : forcedDemand ch entry s1 = s2 at posted
  have handed := handToSequencer_spec ch old exit s2
  generalize hs3 : handToSequencer ch old exit s2 = s3 at handed
  have rest : DetectorAlike s3 (handChange ch old new entry exit s) := by
    have unfolded : handChange ch old new entry exit s =
        if entry ∧ channelKind s.cs.image ch = .loop then
          loopEntered ch (if channelKind s.cs.image ch = .loop ∧ old.state ≠ new.state then
            loopStateChanged ch new.state s3 else s3)
        else if channelKind s.cs.image ch = .loop ∧ old.state ≠ new.state then
          loopStateChanged ch new.state s3 else s3 := by
      rw [← hs3, ← hs2, ← hs1]
      rfl
    rw [unfolded]
    exact DetectorAlike.trans (.of_ite fun _ => loopStateChanged_detectorAlike _ _ _)
      (.of_ite fun _ => loopEntered_detectorAlike _ _)
  have before : ∀ c, det s2 c = if ch = c then new else det s c := fun c => by
    rw [det_congr posted.du, det_congr written.du, det_setDet]
  have du : s2.du.clock = s.du.clock ∧ s2.du.sampleIn = s.du.sampleIn := by
    rw [posted.du, written.du]
    exact ⟨rfl, rfl⟩
  have cs : s2.cs = s.cs := posted.cs.trans (written.cs.trans (by simp))
  have clock : jnow s2 = jnow s := posted.clock.trans (written.clock.trans (by simp))
  have gaps : s2.fbs.lastGapExit = s.fbs.lastGapExit := posted.gaps.trans (written.gaps.trans (by simp))
  have upToSequencer : ChannelHanded ch old new entry exit s s3 := {
    record := by rw [det_congr handed.du, before, if_pos rfl]
    others := fun c hc => by rw [det_congr handed.du, before, if_neg hc.symm]
    dclock := by unfold dnow; rw [handed.du]; exact du.1
    sampleIn := by rw [handed.du]; exact du.2
    cs := handed.cs.trans cs
    clock := handed.clock.trans clock
    clp := handed.clp.trans (posted.clp.trans (written.clp.trans (by simp)))
    demand := fun g => by
      rw [handed.demand, posted.demand, written.demand, channelReaches_congr (s := s) (written.cs.trans (by simp))]
      simp
    gaps := fun g => by
      rw [handed.gaps, cs, clock, gaps, before, if_pos rfl]
    events := fun i b e => handed.events i b (posted.events i b (written.events i b (by simpa using e)))
    changed := fun c i => by
      refine handed.events i _ (posted.events i _ ?_)
      rw [← hs1, c, postIf_true]
      exact post_pends .detectorChanged _ i }
  simpa using upToSequencer.then (rest.posted ch)

end Sys2Proof.Machine

namespace Sys2Proof.Machine

/-! ### Samples (R22, R96, R97) -/

theorem channelReaches_loop {s : State} {ch : Channel} (kind : channelKind s.cs.image ch = .loop) (g : Group) :
    channelReaches ch s g = ((channelRole s.cs.image ch).isDemand && (groupRefs s.cs.image ch).contains g &&
      decide (groupKind s.cs.image g ≠ .none) && decide (groupKind s.cs.image g ≠ .walk)) := by
  simp [channelReaches, postReaches, kind, Bool.and_assoc]

theorem channelReaches_contact {s : State} {ch : Channel} (kind : channelKind s.cs.image ch = .contact) (g : Group) :
    channelReaches ch s g = ((channelRole s.cs.image ch).isDemand && (groupRefs s.cs.image ch).contains g &&
      decide (groupKind s.cs.image g ≠ .none)) := by
  simp [channelReaches, postReaches, kind, Bool.and_assoc]

theorem raiseAtSample_alike (ch : Channel) (old new : DetRec) (s : State) :
    DetectorAlike s (raiseAtSample ch old new s) := (raiseAtSample_shuts ch old new s).detectorAlike

/-- R96, R97: what a sample hands on: the entry and the forced demand post for the same groups. -/
theorem sample_demand {ch : Channel} {old new : DetRec} {s u : State} (raised : DetectorAlike s u) (g : Group) :
    (grp (forcedDemand ch (old.forced || new.forced)
        (handChange ch old new (isEntry old new) (isExit old new) u)) g).demand =
      ((grp s g).demand || (channelReaches ch s g && (old.forced || new.forced || isEntry old new))) := by
  have handed := (handChange_spec ch old new (isEntry old new) (isExit old new) u).then
    (forcedDemand_posts ch (old.forced || new.forced) _)
  rw [handed.demand, raised.demand, channelReaches_congr raised.cs, Bool.or_comm (isEntry old new), Bool.and_comm]

theorem sample_record {ch : Channel} {old new : DetRec} (u : State) :
    det (forcedDemand ch (old.forced || new.forced)
        (handChange ch old new (isEntry old new) (isExit old new) u)) ch = new :=
  ((handChange_spec ch old new (isEntry old new) (isExit old new) u).then (forcedDemand_posts ch _ _)).record

/-- Settles O30, by what a sample's change of record hands on. -/
theorem samplePostsDemand : Obligations.SamplePostsDemand := by
  unfold Obligations.SamplePostsDemand
  intro ch p pressed s due fresh
  have sampling : sampleDue s ch = true := by simp [sampleDue, due, fresh]
  refine ⟨fun kind => ⟨_, exec_loopSample ch p s, fun g => ?_⟩, fun kind => ⟨_, exec_contactSample ch pressed s, fun g => ?_⟩⟩
  · rw [loopSample, if_pos ⟨kind, sampling⟩, takeLoopSample, sample_record, sample_demand (raiseAtSample_alike _ _ _ s),
      channelReaches_loop kind]
    rfl
  · rw [contactSample, if_pos ⟨kind, sampling⟩, takeContactSample, sample_record, sample_demand (.refl s),
      channelReaches_contact kind]
    rfl

/-! ### Long presence (R88, R95) -/

theorem longPresenceDue_of {s : State} {ch : Channel} {t0 : Time} (state : (det s ch).state = .occupied)
    (max : maxPresence s.cs.image ch ≠ 0) (start : (det s ch).presenceStart = some t0)
    (run : 1000 * maxPresence s.cs.image ch < elapsed (dnow s) t0) : longPresenceDue s ch = true := by
  simp [longPresenceDue, presenceExceeded, state, max, start, run]

/-- R88, R95: what the change of a long presence hands on, with the forced demand. -/
theorem longPresence_handed {ch : Channel} {s : State} (new : DetRec) (state : (det s ch).state = .occupied)
    (changed : reportedChange .occupied new.state = true) {t : State}
    (ht : t = forcedDemand ch true (handChange ch (det s ch) new false true s)) :
    (∀ c, c ≠ ch → det t c = det s c) ∧ det t ch = new ∧ GapNoted ch True s t ∧
      (∀ g, (grp t g).demand = ((grp s g).demand || channelReaches ch s g)) ∧
      ∀ i : Station, (t.mfs.pending[i]).getLsbD Event.detectorChanged.code.val = true := by
  have handed := (handChange_spec ch (det s ch) new false true s).then (forcedDemand_posts ch true _)
  rw [← ht] at handed
  refine ⟨handed.others, handed.record, fun g => ⟨fun ext _ => ?_, fun h => ?_⟩, fun g => ?_,
    handed.changed (by rw [state]; exact changed)⟩
  · rw [handed.gaps, (extends_iff _ _ _).1 ext]
    rfl
  · have none : isExtensionDetector s.cs.image ch g = false := by
      rw [← Bool.not_eq_true, ← extends_iff]
      exact h.resolve_right fun k => k trivial
    rw [handed.gaps, none]
    rfl
  · rw [handed.demand]
    simp

theorem loopLongPresence_of {s : State} {ch : Channel} (kind : channelKind s.cs.image ch = .loop)
    (due : longPresenceDue s ch = true) (valid : (det s ch).lastResult = some .valid)
    (sampled : (det s ch).sampled = true) : loopLongPresence ch s =
      forcedDemand ch true (handChange ch (det s ch) (loopLongRecord (dnow s) (det s ch).lastP (det s ch)) false true s) :=
  if_pos ⟨kind, due, valid, sampled⟩

theorem contactLongPresence_of {s : State} {ch : Channel} (kind : channelKind s.cs.image ch = .contact)
    (due : longPresenceDue s ch = true) (sampled : (det s ch).sampled = true) : contactLongPresence ch s =
      forcedDemand ch true (handChange ch (det s ch) (contactLongRecord (dnow s) (det s ch)) false true s) :=
  if_pos ⟨kind, due, sampled⟩

/-- Settles O32, by what the change of the record hands on. -/
theorem longPresenceForcesDemand : Obligations.LongPresenceForcesDemand := by
  unfold Obligations.LongPresenceForcesDemand
  intro ch t0 s state sampled max start run
  have due := longPresenceDue_of state max start run
  refine ⟨fun p kind valid last => ⟨_, exec_loopLongPresence ch s, ?_⟩, fun kind => ⟨_, exec_contactLongPresence ch s, ?_⟩⟩
  · obtain ⟨others, record, gaps, demand, event⟩ :=
      longPresence_handed _ state rfl (loopLongPresence_of kind due valid sampled)
    generalize loopLongPresence ch s = t at *
    refine ⟨others, record.trans ?_, gaps, fun g => ?_, event⟩
    · rw [last]
      rfl
    · rw [demand, channelReaches_loop kind]
  · obtain ⟨others, record, gaps, demand, event⟩ :=
      longPresence_handed _ state rfl (contactLongPresence_of kind due sampled)
    generalize contactLongPresence ch s = t at *
    refine ⟨others, record, gaps, fun g => ?_, event⟩
    rw [demand, channelReaches_contact kind]

end Sys2Proof.Machine

/-! ## What a write does to live records (R204) -/

namespace Sys2Proof.Machine

theorem exec_writeConfig (i : Station) (block index : Byte) (bs : List Byte) (s : State) (hf : inFlight s = false)
    (hi : i = 0 ∨ i = 3) : exec (.writeConfig (number i) block index bs) s = .next (writeConfig block index bs i s) :=
  congrArg Host.Outcome.next (asked_number .writeConfig i (writeConfig block index bs) s hf (by
    rcases hi with rfl | rfl <;> rfl))

/-- R202: a record that meets the checks is accepted. -/
theorem writeConfig_accepts {block index : Byte} {bs : List Byte} {p : Place} {s : State}
    (mode : s.mfs.mode = .flash ∨ s.mfs.mode = .dark) (place : placeOf block index = some p) (length : bs.length = p.size)
    (codes : ∀ f ∈ recordFields p bs, f.1.encodingOk f.2 = true ∧ f.1.codeOk f.2 = true) (i : Station) :
    writeConfig block index bs i s = acceptRecord p bs s := by
  have rest : s.mfs.mode.resting = true := by rcases mode with h | h <;> rw [h] <;> rfl
  have encoding : ((recordFields p bs).all fun f => f.1.encodingOk f.2) = true :=
    List.all_eq_true.2 fun f hf => (codes f hf).1
  have code : ((recordFields p bs).all fun f => f.1.codeOk f.2) = true := List.all_eq_true.2 fun f hf => (codes f hf).2
  have verdict : recordVerdict p bs = .done := by
    rw [recordVerdict, if_neg (not_not.2 length), if_neg (by rw [encoding]; decide), if_neg (by rw [code]; decide)]
  simp only [writeConfig, rest, place, verdict]
  rfl

theorem acceptRecord_eq (p : Place) (bs : List Byte) (s : State) : acceptRecord p bs s =
    { storeRecord p bs s with
      cs := { (storeRecord p bs s).cs with
        copy := some { address := p.base, old := recordBytes s.cs.image p, clamped := clampedPositions p bs } }
      clp := awaiting (storeRecord p bs s).clp } := rfl

/-! ### A GROUP record -/

/-- While the sequencer does not act and every group stands in STOP, what follows leaves groups and lamps as they are. -/
theorem Follows.stopped {s t : State} (h : Follows noGroup s t) (acts : fbsActs s = false)
    (stop : ∀ g, (grp s g).state = .stop) : (∀ g, grp t g = grp s g) ∧ ∀ ch, lamp t ch = lamp s ch := by
  have groups (g : Group) : grp t g = grp s g := h.grp_eq acts (by rw [stop g]; decide)
  exact ⟨groups, fun ch => by rw [h.lamps ch rfl, if_pos (by rw [groups])]⟩

/-- R23: a change of the red-out set where every group stands in STOP: the inhibits alone are computed again. -/
structure InhibitsAlone (s t : State) : Prop where
  groups : ∀ c, grp t c = { grp s c with inhibited := (grp t c).inhibited }
  lamps : ∀ ch, lamp t ch = lamp s ch
  mode : t.mfs.mode = s.mfs.mode
  sub : t.mfs.sub = s.mfs.sub

theorem reportRedOut_stopped {s : State} (acts : fbsActs s = false) (stop : ∀ g, (grp s g).state = .stop) :
    InhibitsAlone s (reportRedOut s) ∧ (reportRedOut s).lou.redOut = s.lou.redOut := by
  have inhibited (c : Group) : grp (recomputeInhibits s) c =
      { grp s c with inhibited := (grp (recomputeInhibits s) c).inhibited } := by simp [recomputeInhibits]
  have follows := settleSince_follows s (recomputeInhibits s)
  obtain ⟨groups, lamps⟩ := follows.stopped (by simpa [fbsActs] using acts) fun c => by
    rw [inhibited c]
    exact stop c
  change Follows noGroup _ (reportRedOut s) at follows
  change ∀ g, grp (reportRedOut s) g = _ at groups
  change ∀ ch, lamp (reportRedOut s) ch = _ at lamps
  generalize reportRedOut s = t at *
  refine ⟨⟨fun c => ?_, fun ch => ?_, follows.mode.trans ?_, follows.sub.trans ?_⟩, ?_⟩
  · rw [groups]
    exact inhibited c
  · rw [lamps]
    simp [recomputeInhibits]
  · simp
  · simp
  · rw [follows.lou]
    simp

/-- R160: a group leaves the red-out set where every group stands in STOP. -/
theorem leaveRedOut_stopped {s : State} (g : Group) (acts : fbsActs s = false) (stop : ∀ g, (grp s g).state = .stop) :
    InhibitsAlone s (leaveRedOut g s) ∧ inSet (leaveRedOut g s).lou.redOut g = false := by
  unfold leaveRedOut
  split
  · generalize hv : ({ s with lou := { s.lou with redOut := clearBit s.lou.redOut g } } : State) = v
    have groups (c : Group) : grp v c = grp s c := by rw [← hv]; rfl
    have lamps (ch : Lamp) : lamp v ch = lamp s ch := by rw [← hv]; rfl
    have same : v.mfs = s.mfs ∧ v.sel = s.sel ∧ v.lou.redOut = clearBit s.lou.redOut g := by rw [← hv]; exact ⟨rfl, rfl, rfl⟩
    obtain ⟨mfs, sel, cleared⟩ := same
    obtain ⟨alone, redOut⟩ := reportRedOut_stopped (s := v) (by unfold fbsActs; rw [mfs, sel]; exact acts) fun c => by
      rw [groups]
      exact stop c
    generalize reportRedOut v = t at *
    refine ⟨⟨fun c => ?_, fun ch => ?_, alone.mode.trans (by rw [mfs]), alone.sub.trans (by rw [mfs])⟩, ?_⟩
    · rw [← groups]
      exact alone.groups c
    · rw [alone.lamps, lamps]
    · rw [redOut, cleared]
      simp [clearBit, inSet]
  · rename_i out
    exact ⟨⟨fun _ => rfl, fun _ => rfl, rfl, rfl⟩, by simpa using out⟩

/-- R161: what a GROUP write leaves of the record of a channel of the group; `both` says that the channel is used before
and after. -/
structure LampWritten (both : Bool) (command : LampCommand) (a b : LampRec) : Prop where
  command : b.command = command
  kept : b.drive = a.drive ∧ b.trips = a.trips ∧ b.lastTrip = a.lastTrip ∧ b.retry = a.retry ∧ b.sensed = a.sensed ∧
    b.lastRaised = a.lastRaised
  used : both = true → b.result = a.result ∧ b.run = a.run ∧ b.mismatches = a.mismatches ∧ b.litCount = a.litCount
  changed : both = false → b.result = none ∧ b.run = none ∧ b.mismatches = 0 ∧ b.litCount = 0

theorem lampWritten (used : Bool) (now : Time) (c : LampCommand) (r : LampRec) :
    LampWritten used c r (if used then recommand now c r else useChanged (recommand now c r)) := by
  have shape := recommand_shape now c r
  cases used with
  | true =>
    rw [if_pos rfl, shape]
    exact ⟨rfl, ⟨rfl, rfl, rfl, rfl, rfl, rfl⟩, fun _ => ⟨rfl, rfl, rfl, rfl⟩, fun h => (nomatch h)⟩
  | false =>
    rw [if_neg Bool.false_ne_true, shape]
    exact ⟨rfl, ⟨rfl, rfl, rfl, rfl, rfl, rfl⟩, fun h => (nomatch h), fun _ => ⟨rfl, rfl, rfl, rfl⟩⟩

/-- R5, R161: what a GROUP write writes, before the group leaves the red-out set. -/
def groupRecorded (old : Image) (g : Group) (s : State) : State :=
  let s2 := lampsFollow (· == g) (setGrp s g (writtenGroup s.cs.image g (grp s g)))
  setLamps s2 fun ch => if lampGroup ch = g then writtenLamp old s2 ch else lamp s2 ch

theorem groupWritten_eq (old : Image) (g : Group) (s : State) : groupWritten old g s =
    if groupKind s.cs.image g = .none then leaveRedOut g (groupRecorded old g s) else groupRecorded old g s := rfl

theorem groupRecorded_frame (old : Image) (g : Group) (s : State) :
    (groupRecorded old g s).cs = s.cs ∧ (groupRecorded old g s).mfs = s.mfs ∧ (groupRecorded old g s).sel = s.sel ∧
      (groupRecorded old g s).du = s.du ∧ (groupRecorded old g s).clp = s.clp := by
  simp [groupRecorded]

theorem grp_groupRecorded (old : Image) (g c : Group) (s : State) :
    grp (groupRecorded old g s) c = if g = c then writtenGroup s.cs.image g (grp s g) else grp s c := by
  simp [groupRecorded, grp_setGrp]

theorem groupRecorded_state (old : Image) (g c : Group) (s : State) :
    (grp (groupRecorded old g s) c).state = (grp s c).state := by
  rw [grp_groupRecorded]
  split
  · rename_i e; rw [← e]; exact writtenGroup_state _ _ _
  · rfl

theorem lamp_groupRecorded (old : Image) (g : Group) (s : State) (ch : Lamp) :
    if lampGroup ch = g then
      LampWritten (usedLamp old ch && usedLamp s.cs.image ch) (derivedCommand (groupRecorded old g s) ch) (lamp s ch)
        (lamp (groupRecorded old g s) ch)
    else lamp (groupRecorded old g s) ch = lamp s ch := by
  have derived : derivedCommand (groupRecorded old g s) ch =
      derivedCommand (setGrp s g (writtenGroup s.cs.image g (grp s g))) ch := by
    refine derivedCommand_congr ?_ ?_ ?_ ?_ <;> simp [groupRecorded]
  rw [derived]
  split
  · rename_i own
    have record : lamp (groupRecorded old g s) ch = if usedLamp old ch && usedLamp s.cs.image ch then
        recommand (jnow s) (derivedCommand (setGrp s g (writtenGroup s.cs.image g (grp s g))) ch) (lamp s ch)
      else useChanged
        (recommand (jnow s) (derivedCommand (setGrp s g (writtenGroup s.cs.image g (grp s g))) ch) (lamp s ch)) := by
      have same : (usedLamp old ch = usedLamp s.cs.image ch && usedLamp s.cs.image ch) =
          (usedLamp old ch && usedLamp s.cs.image ch) := by
        cases usedLamp old ch <;> cases usedLamp s.cs.image ch <;> rfl
      simp only [groupRecorded, lamp_setLamps, own, if_true, writtenLamp, lampsFollow_cs, setGrp_cs, same,
        lamp_lampsFollow, beq_self_eq_true, setGrp_jnow, setGrp_lamp]
    rw [record]
    exact lampWritten _ _ _ _
  · rename_i other
    simp [groupRecorded, lamp_lampsFollow, other]

/-- R5, R160, R161: a GROUP write, with every group in STOP. -/
structure GroupStored (old : Image) (g : Group) (s t : State) : Prop where
  record : grp t g = if groupKind s.cs.image g = .none then
      { grp s g with demand := false, maxedOut := false, credit := 0, bonus := 0, inhibited := (grp t g).inhibited }
    else { grp s g with credit := min (grp s g).credit (compensationCap s.cs.image g) }
  redOut : groupKind s.cs.image g = .none → inSet t.lou.redOut g = false
  lamps : ∀ ch, if lampGroup ch = g then
      LampWritten (usedLamp old ch && usedLamp s.cs.image ch) (derivedCommand t ch) (lamp s ch) (lamp t ch)
    else lamp t ch = lamp s ch
  cs : t.cs = s.cs
  du : t.du = s.du
  clp : t.clp = s.clp

theorem groupWritten_spec (old : Image) (g : Group) (s : State) (acts : fbsActs s = false)
    (stop : ∀ g, (grp s g).state = .stop) : GroupStored old g s (groupWritten old g s) := by
  obtain ⟨cs, mfs, sel, du, clp⟩ := groupRecorded_frame old g s
  have record := grp_groupRecorded old g g s
  rw [if_pos rfl, writtenGroup] at record
  have lamps := lamp_groupRecorded old g s
  have stopped (c : Group) : (grp (groupRecorded old g s) c).state = .stop := (groupRecorded_state old g c s).trans (stop c)
  have quiet : fbsActs (groupRecorded old g s) = false := by unfold fbsActs; rw [mfs, sel]; exact acts
  rw [groupWritten_eq]
  split
  · rename_i none
    rw [if_pos none] at record
    obtain ⟨⟨left, leftLamps, mode, sub⟩, out⟩ := leaveRedOut_stopped g quiet stopped
    have shuts := leaveRedOut_shuts g (groupRecorded old g s)
    generalize leaveRedOut g (groupRecorded old g s) = t at *
    have derived (ch : Lamp) : derivedCommand t ch = derivedCommand (groupRecorded old g s) ch :=
      derivedCommand_congr mode sub shuts.cs (by rw [left])
    refine ⟨?_, fun _ => out, fun ch => ?_, shuts.cs.trans cs, shuts.du.trans du, shuts.clp.trans clp⟩
    · rw [if_pos none, left, record]
    · rw [leftLamps, derived]
      exact lamps ch
  · rename_i kind
    rw [if_neg kind] at record
    exact ⟨by rw [if_neg kind, record], fun none => absurd none kind, lamps, cs, du, clp⟩

end Sys2Proof.Machine

namespace Sys2Proof.Machine

/-! ### A STATION record -/

/-- R48: what a selector change leaves, and the owner and rank that it writes. -/
theorem changeOwner_frame (o : Owner) (r : Rank) (s : State) :
    (changeOwner o r s).sel.owner = o ∧ (changeOwner o r s).sel.rank = r ∧ (changeOwner o r s).clp = s.clp ∧
      (changeOwner o r s).du = s.du ∧ (changeOwner o r s).cs = s.cs := by
  by_cases same : s.sel.owner = o ∧ s.sel.rank = r
  · rw [changeOwner_same o r s same]
    exact ⟨same.1, same.2, rfl, rfl, rfl⟩
  · have follows := changeOwner_follows o r s same
    have written : (ownerWritten o r s).sel.owner = o ∧ (ownerWritten o r s).sel.rank = r ∧
        (ownerWritten o r s).clp = s.clp ∧ (ownerWritten o r s).du = s.du ∧ (ownerWritten o r s).cs = s.cs := by
      simp [ownerWritten]
    obtain ⟨owner, rank, clp, du, cs⟩ := written
    refine ⟨?_, ?_, follows.clp.trans clp, follows.du.trans du, follows.cs.trans cs⟩
    · rw [follows.sel, owner]
    · rw [follows.sel, rank]

/-- R47, R198: a STATION write. -/
structure StationStored (j : Station) (s t : State) : Prop where
  record : station t j =
    { lastHeard := jnow s, silent := (station s j).silent && decide (silenceLimit s.cs.image j ≠ 0) }
  owner : t.sel.owner = s.sel.owner
  rank : t.sel.rank =
    if ownerStation s.sel.owner = some j then max s.sel.rank (authorityRank s.cs.image j) else s.sel.rank
  du : t.du = s.du
  cs : t.cs = s.cs

theorem authorityWritten_spec (j : Station) (s : State) :
    (authorityWritten j s).sel.owner = s.sel.owner ∧ (authorityWritten j s).sel.rank =
      (if ownerStation s.sel.owner = some j then max s.sel.rank (authorityRank s.cs.image j) else s.sel.rank) ∧
      (authorityWritten j s).clp = s.clp ∧ (authorityWritten j s).du = s.du ∧ (authorityWritten j s).cs = s.cs := by
  unfold authorityWritten
  split
  · rename_i raised
    obtain ⟨owner, rank, clp, du, cs⟩ := changeOwner_frame s.sel.owner (authorityRank s.cs.image j) s
    refine ⟨owner, ?_, clp, du, cs⟩
    rw [rank, if_pos raised.1, max_eq_right (le_of_lt raised.2)]
  · rename_i stays
    refine ⟨rfl, ?_, rfl, rfl, rfl⟩
    split
    · rename_i owner
      rw [max_eq_left (not_lt.1 fun lt => stays ⟨owner, lt⟩)]
    · rfl

theorem stationWritten_spec (j : Station) (s : State) : StationStored j s (stationWritten j s) := by
  unfold stationWritten
  dsimp only
  generalize hw : postIf (decide (silenceLimit s.cs.image j = 0) && (station s j).silent) .stationResumed (setStation s j
    { lastHeard := jnow s
      silent := (station s j).silent && !(decide (silenceLimit s.cs.image j = 0) && (station s j).silent) }) = w
  have sel : w.sel = s.sel := by rw [← hw]; simp
  have du : w.du = s.du := by rw [← hw]; simp
  have cs : w.cs = s.cs := by rw [← hw]; simp
  have record : station w j =
      { lastHeard := jnow s
        silent := (station s j).silent && !(decide (silenceLimit s.cs.image j = 0) && (station s j).silent) } := by
    rw [← hw, postIf_station, station_setStation, if_pos rfl]
  obtain ⟨owner, rank, clp, du', cs'⟩ := authorityWritten_spec j w
  refine ⟨?_, by rw [owner, sel], by rw [rank, sel, cs], du'.trans du, cs'.trans cs⟩
  rw [show station (authorityWritten j w) j = station w j by unfold station; rw [clp], record]
  by_cases limit : silenceLimit s.cs.image j = 0 <;> cases (station s j).silent <;> simp [limit]

/-! ### A DETECTOR record -/

/-- What a sample's rows leave of the rest of the state. -/
structure RowFrame (s t : State) : Prop where
  dclock : dnow t = dnow s
  cs : t.cs = s.cs
  clp : t.clp = s.clp

theorem RowFrame.refl (s : State) : RowFrame s s := ⟨rfl, rfl, rfl⟩

theorem RowFrame.trans {s t u : State} (h : RowFrame s t) (k : RowFrame t u) : RowFrame s u :=
  ⟨k.dclock.trans h.dclock, k.cs.trans h.cs, k.clp.trans h.clp⟩

theorem RowFrame.of_ite {p : Prop} [Decidable p] {s t : State} (h : p → RowFrame s t) :
    RowFrame s (if p then t else s) := by
  split
  · rename_i k; exact h k
  · exact .refl s

theorem ChannelHanded.frame {ch : Channel} {old new : DetRec} {entry exit : Bool} {s t : State}
    (h : ChannelHanded ch old new entry exit s t) : RowFrame s t := ⟨h.dclock, h.cs, h.clp⟩

theorem DetectorAlike.frame {s t : State} (h : DetectorAlike s t) : RowFrame s t :=
  ⟨by unfold dnow; rw [h.du], h.cs, h.clp⟩

theorem loopLongPresence_frame (ch : Channel) (s : State) : RowFrame s (loopLongPresence ch s) :=
  .of_ite fun _ => ((handChange_spec ch _ _ _ _ s).then (forcedDemand_posts ch true _)).frame

theorem contactLongPresence_frame (ch : Channel) (s : State) : RowFrame s (contactLongPresence ch s) :=
  .of_ite fun _ => ((handChange_spec ch _ _ _ _ s).then (forcedDemand_posts ch true _)).frame

theorem raiseAtClose_alike (ch : Channel) (old : DetRec) (s : State) : DetectorAlike s (raiseAtClose ch old s) := by
  unfold raiseAtClose
  split
  · exact (detect_shuts _ _ s).detectorAlike
  · exact .of_ite fun _ => (detect_shuts _ _ s).detectorAlike

theorem windowClose_frame (ch : Channel) (s : State) : RowFrame s (windowClose ch s) := by
  unfold windowClose
  refine .of_ite fun _ => ?_
  exact ((loopLongPresence_frame ch s).trans (handChange_spec ch _ _ _ _ _).frame).trans (raiseAtClose_alike _ _ _).frame

theorem sampleLeft_frame (ch : Channel) (s : State) : RowFrame s (sampleLeft ch s) :=
  ((loopLongPresence_frame ch s).trans (windowClose_frame ch _)).trans (contactLongPresence_frame ch _)

/-- R69, R98, R101: a DETECTOR write that makes a channel's record `new`; `old` is the image before it. -/
structure DetectorStored (old : Image) (ch : Channel) (new : DetRec) (s t : State) : Prop where
  record : det t ch = new
  gaps : ∀ g : Group, t.fbs.lastGapExit[g] =
    if (countsOccupied (det s ch) && !countsOccupied new) &&
        (isExtensionDetector old ch g || isExtensionDetector s.cs.image ch g) then some (jnow s)
    else s.fbs.lastGapExit[g]
  cs : t.cs = s.cs
  clp : t.clp = s.clp

theorem DetectorStored.then {old : Image} {ch : Channel} {new : DetRec} {s t u : State}
    (h : DetectorStored old ch new s t) (k : DetectorAlike t u) : DetectorStored old ch new s u :=
  ⟨(det_congr k.du ch).trans h.record, fun g => by rw [k.gaps]; exact h.gaps g, k.cs.trans h.cs, k.clp.trans h.clp⟩

theorem writeToSequencer_spec {old : Image} {ch : Channel} {new : DetRec} {s u : State}
    (written : DetectorAlike (setDet s ch new) u) : DetectorStored old ch new s (writeToSequencer old ch (det s ch) u) := by
  have record : det u ch = new := (det_congr written.du ch).trans (det_setDet_self s ch new)
  have cs : u.cs = s.cs := written.cs.trans (by simp)
  have clp : u.clp = s.clp := written.clp.trans (by simp)
  have gaps : u.fbs.lastGapExit = s.fbs.lastGapExit := written.gaps.trans (by simp)
  have clock : jnow u = jnow s := written.clock.trans (by simp)
  unfold writeToSequencer
  rw [record, cs]
  cases noted : countsOccupied (det s ch) && !countsOccupied new with
  | false =>
    rw [if_neg Bool.false_ne_true]
    exact ⟨record, fun g => by rw [noted, gaps]; rfl, cs, clp⟩
  | true =>
    obtain ⟨du', cs', _, _, clp'⟩ := noteGapExit_frame (writeExtends old s.cs.image ch) u
    rw [if_pos rfl]
    refine ⟨(det_congr du' ch).trans record, fun g => ?_, cs'.trans cs, clp'.trans clp⟩
    rw [noteGapExit_lastGapExit, noted, gaps, clock]
    simp [writeExtends, allGroups]

theorem detectorWritten_spec (old : Image) (ch : Channel) (s : State) :
    DetectorStored old ch (writtenChannel s.cs.image ch (dnow s) (det s ch)) s (detectorWritten old ch s) := by
  unfold detectorWritten
  dsimp only
  generalize writtenChannel s.cs.image ch (dnow s) (det s ch) = new
  have written := (postIf_shuts (decide ((det s ch).state ≠ new.state)) .detectorChanged (setDet s ch new)).detectorAlike
  exact (writeToSequencer_spec written).then (.of_ite fun _ => loopStateChanged_detectorAlike _ _ _)

/-- R69, R98: at a write the channel stops counting as occupied exactly where it is made UNUSED. -/
theorem countsOccupied_writtenChannel (m : Image) (ch : Channel) (now : Time) (r : DetRec) :
    countsOccupied (writtenChannel m ch now r) = decide (channelKind m ch ≠ .unused) := by
  by_cases kind : channelKind m ch = .unused <;> simp [countsOccupied, writtenChannel, kind]

theorem countsOccupied_iff (r : DetRec) : countsOccupied r = true ↔ r.state = .occupied ∨ r.forced = true := by
  simp [countsOccupied]

/-- R69: an UNUSED channel extends no group. -/
theorem isExtensionDetector_unused {m : Image} {ch : Channel} (kind : channelKind m ch = .unused) (g : Group) :
    isExtensionDetector m ch g = false := by simp [isExtensionDetector, kind]

theorem DetectorStored.gapNoted {old : Image} {ch : Channel} {s t u : State} (image : u.cs.image = old)
    (gap : s.fbs = u.fbs) (clock : jnow s = jnow u) (record : det s ch = det u ch)
    (h : DetectorStored old ch (writtenChannel s.cs.image ch (dnow s) (det s ch)) s t) :
    GapNoted ch (channelKind s.cs.image ch = .unused ∧ ((det u ch).state = .occupied ∨ (det u ch).forced = true)) u t := by
  intro g
  have gaps := h.gaps g
  rw [countsOccupied_writtenChannel, record, gap, clock] at gaps
  rw [extends_iff, image, ← countsOccupied_iff]
  constructor
  · rintro ext ⟨kind, occupied⟩
    rw [gaps, ext, occupied, kind]
    rfl
  · intro none
    rw [gaps, if_neg]
    simp only [Bool.and_eq_true, Bool.not_eq_true', decide_eq_false_iff_not, not_not, Bool.or_eq_true]
    rintro ⟨⟨occupied, kind⟩, ext⟩
    rw [isExtensionDetector_unused kind] at ext
    rcases none with none | none
    · exact none (ext.resolve_right Bool.false_ne_true)
    · exact none ⟨kind, occupied⟩

end Sys2Proof.Machine

namespace Sys2Proof.Machine

/-! ### The accepted record -/

/-- R204, R187: the awaited reply and the copy touch no live record. -/
structure Accepted (w t : State) : Prop where
  sge : t.sge = w.sge
  sel : t.sel = w.sel
  fbs : t.fbs = w.fbs
  du : t.du = w.du
  pu : t.pu = w.pu
  lou : t.lou = w.lou
  mfs : t.mfs = w.mfs
  image : t.cs.image = w.cs.image
  stations : t.clp.stations = w.clp.stations

theorem acceptRecord_accepted (p : Place) (bs : List Byte) (s : State) :
    Accepted (storeRecord p bs s) (acceptRecord p bs s) := by
  rw [acceptRecord_eq]
  exact ⟨rfl, rfl, rfl, rfl, rfl, rfl, rfl, rfl, rfl⟩

theorem Accepted.derivedCommand {w t : State} (h : Accepted w t) (ch : Lamp) :
    derivedCommand t ch = Machine.derivedCommand w ch := by
  unfold Machine.derivedCommand grp
  rw [h.mfs, h.image, h.sge]

/-! R204, one lemma for each place of a record. -/

theorem deviceStored (bs : List Byte) (s : State) : (storeRecord .device bs s).mfs.externalRun =
    if followEnabled (storeRecord .device bs s).cs.image = true then s.mfs.externalRun else 0 := by
  have stored : storeRecord .device bs s = deviceWritten (withRecord .device bs s) := rfl
  rw [stored]
  rfl

theorem groupStored (g : Group) (bs : List Byte) (s : State) (acts : fbsActs s = false)
    (stop : ∀ g, (grp s g).state = .stop) :
    GroupStored s.cs.image g (withRecord (.group g) bs s) (storeRecord (.group g) bs s) :=
  groupWritten_spec s.cs.image g (withRecord (.group g) bs s) acts stop

theorem stationStored (j : Station) (bs : List Byte) (s : State) :
    StationStored j (withRecord (.station j) bs s) (storeRecord (.station j) bs s) := stationWritten_spec j _

theorem storeRecord_detector (ch : Channel) (bs : List Byte) (s : State) : storeRecord (.detector ch) bs s =
    detectorWritten (sampleLeft ch s).cs.image ch (withRecord (.detector ch) bs (sampleLeft ch s)) := by
  have general (p : Place) : storeRecord p bs s =
      writeEffects (beforeWrite p s).cs.image p (withRecord p bs (beforeWrite p s)) := rfl
  rw [general]
  simp only [writeEffects, beforeWrite]

@[simp] theorem withRecord_frame (p : Place) (bs : List Byte) (s : State) : (withRecord p bs s).du = s.du ∧
    (withRecord p bs s).clp = s.clp ∧ (withRecord p bs s).fbs = s.fbs ∧ (withRecord p bs s).sge = s.sge :=
  ⟨rfl, rfl, rfl, rfl⟩

theorem detectorStored (ch : Channel) (bs : List Byte) (s : State) {v : State}
    (hv : v = withRecord (.detector ch) bs (sampleLeft ch s)) :
    DetectorStored (sampleLeft ch s).cs.image ch (writtenChannel v.cs.image ch (dnow v) (det v ch)) v
      (storeRecord (.detector ch) bs s) := by
  rw [storeRecord_detector, ← hv]
  exact detectorWritten_spec _ ch v

theorem detectorStored_clp (ch : Channel) (bs : List Byte) (s : State) : (storeRecord (.detector ch) bs s).clp = s.clp := by
  obtain ⟨_, clp, _⟩ := withRecord_frame (.detector ch) bs (sampleLeft ch s)
  exact ((detectorStored ch bs s rfl).clp.trans clp).trans (sampleLeft_frame ch s).clp

theorem approachStored (a : Approach) (bs : List Byte) (s : State) :
    apr (storeRecord (.approach a) bs s) a = { apr s a with armedA := none } := by
  have stored : storeRecord (.approach a) bs s = disarm a (withRecord (.approach a) bs s) := rfl
  rw [stored, disarm, apr_setApr, if_pos rfl]
  rfl

/-- R204: the detector records stand but at a DETECTOR write, the station records but at a STATION write. -/
theorem storeRecord_frame (p : Place) (bs : List Byte) (s : State) (acts : fbsActs s = false)
    (stop : ∀ g, (grp s g).state = .stop) :
    ((∀ ch, p ≠ .detector ch) → (storeRecord p bs s).du = s.du) ∧
      ((∀ j, p ≠ .station j) → (storeRecord p bs s).clp = s.clp) := by
  cases p with
  | device => exact ⟨fun _ => rfl, fun _ => rfl⟩
  | station j => exact ⟨fun _ => (stationStored j bs s).du, fun h => absurd rfl (h j)⟩
  | group g => exact ⟨fun _ => (groupStored g bs s acts stop).du, fun _ => (groupStored g bs s acts stop).clp⟩
  | matrix c => exact ⟨fun _ => rfl, fun _ => rfl⟩
  | stage n => exact ⟨fun _ => rfl, fun _ => rfl⟩
  | detector ch => exact ⟨fun h => absurd rfl (h ch), fun _ => detectorStored_clp ch bs s⟩
  | approach a => exact ⟨fun _ => rfl, fun _ => rfl⟩

/-- Settles O53, place by place. -/
theorem writeConfigActsOnLiveRecords : Obligations.WriteConfigActsOnLiveRecords := by
  unfold Obligations.WriteConfigActsOnLiveRecords
  intro i block index bs p s hf hi mode stop place length codes
  have acts : fbsActs s = false := by rcases mode with h | h <;> simp [fbsActs, h]
  have accepted := acceptRecord_accepted p bs s
  obtain ⟨du, clp⟩ := storeRecord_frame p bs s acts stop
  refine ⟨acceptRecord p bs s, (exec_writeConfig i block index bs s hf hi).trans
    (congrArg _ (writeConfig_accepts mode place length codes i)), ?_⟩
  generalize acceptRecord p bs s = t at accepted ⊢
  refine ⟨?device, ?lamps, ?group, ?detector, ?station, ?approach, fun h => accepted.du.trans (du h),
    fun h => accepted.stations.trans (congrArg Clp.stations (clp h))⟩
  case device =>
    rintro rfl
    rw [accepted.mfs, accepted.image]
    exact deviceStored bs s
  case lamps =>
    rintro g ch rfl
    have stored := groupStored g bs s acts stop
    have lamps := stored.lamps ch
    rw [← accepted.derivedCommand] at lamps
    have image : t.cs.image = (withRecord (.group g) bs s).cs.image := by rw [accepted.image, stored.cs]
    have same : lamp t ch = lamp (storeRecord (.group g) bs s) ch := by unfold lamp; rw [accepted.lou]
    rw [same, image]
    split
    · rename_i own
      rw [if_pos own] at lamps
      obtain ⟨drive, trips, lastTrip, retry, sensed, lastRaised⟩ := lamps.kept
      exact ⟨lamps.command, drive, trips, lastTrip, retry, sensed, lastRaised, fun a b => lamps.used (by rw [a, b]; rfl),
        fun h => lamps.changed (by
        rw [Bool.and_eq_false_iff]; exact h)⟩
    · rename_i other
      rw [if_neg other] at lamps
      exact lamps
  case group =>
    rintro g rfl
    have stored := groupStored g bs s acts stop
    have image : t.cs.image = (withRecord (.group g) bs s).cs.image := by rw [accepted.image, stored.cs]
    have same : grp t g = grp (storeRecord (.group g) bs s) g := by unfold grp; rw [accepted.sge]
    rw [same, image, accepted.lou]
    exact ⟨stored.record, stored.redOut⟩
  case detector =>
    rintro ch rfl
    refine ⟨_, _, _, exec_loopLongPresence ch s, exec_windowClose ch _, exec_contactLongPresence ch _, ?_⟩
    change det t ch = _ ∧ GapNoted ch _ (sampleLeft ch s) t
    have clock := (sampleLeft_frame ch s).dclock
    generalize hv : withRecord (.detector ch) bs (sampleLeft ch s) = v
    obtain ⟨vdu, vclp, vfbs, vsge⟩ := withRecord_frame (.detector ch) bs (sampleLeft ch s)
    have stored := detectorStored ch bs s hv.symm
    rw [hv] at vdu vclp vfbs vsge
    have image : t.cs.image = v.cs.image := by rw [accepted.image, stored.cs]
    have vdet : det v ch = det (sampleLeft ch s) ch := det_congr vdu ch
    have vclock : dnow v = dnow s := by unfold dnow at clock ⊢; rw [vdu, clock]
    rw [image]
    refine ⟨?_, ?_⟩
    · rw [det_congr accepted.du, stored.record, vdet, vclock]
      rfl
    · have gaps := DetectorStored.gapNoted rfl vfbs (congrArg Sge.clock vsge) vdet stored
      intro g
      rw [accepted.fbs]
      exact gaps g
  case station =>
    rintro j rfl
    have stored := stationStored j bs s
    have image : t.cs.image = (withRecord (.station j) bs s).cs.image := by rw [accepted.image, stored.cs]
    have same : station t j = station (storeRecord (.station j) bs s) j := by unfold station; rw [accepted.stations]
    rw [same, image, accepted.sel]
    exact ⟨stored.record, stored.owner, stored.rank⟩
  case approach =>
    rintro a rfl
    unfold apr
    rw [accepted.pu]
    exact approachStored a bs s

end Sys2Proof.Machine

/-! ## An advance of the junction clock (R1)

`TimedFrame s t` says that a timed step touches neither clock, nor the matrix, nor the store. -/

namespace Sys2Proof.Machine

structure TimedFrame (s t : State) : Prop where
  clock : t.sge.clock = s.sge.clock
  du : t.du = s.du
  cs : t.cs = s.cs
  igm : t.igm = s.igm

namespace TimedFrame

theorem refl (s : State) : TimedFrame s s := ⟨rfl, rfl, rfl, rfl⟩

theorem trans {s t u : State} (h : TimedFrame s t) (k : TimedFrame t u) : TimedFrame s u :=
  ⟨k.clock.trans h.clock, k.du.trans h.du, k.cs.trans h.cs, k.igm.trans h.igm⟩

theorem of_ite {p : Prop} [Decidable p] {s t : State} (h : p → TimedFrame s t) : TimedFrame s (if p then t else s) := by
  split
  · rename_i k; exact h k
  · exact .refl s

end TimedFrame

theorem eachItem_timed {n : Nat} {f : Fin n → State → State} (h : ∀ i s, TimedFrame s (f i s)) (s : State) :
    TimedFrame s (eachItem f s) := by
  unfold eachItem
  induction List.finRange n generalizing s with
  | nil => exact .refl s
  | cons i l ih => exact (h i s).trans (ih _)

theorem Shuts.timed {s t : State} (h : Shuts s t) : TimedFrame s t := ⟨h.clock, h.du, h.cs, h.igm⟩

theorem Follows.timed {own : Group → Bool} {s t : State} (h : Follows own s t) : TimedFrame s t :=
  ⟨h.clock, h.du, h.cs, h.igm⟩

theorem EntersResting.timed {g : Goal} {s t : State} (h : EntersResting g s t) : TimedFrame s t :=
  ⟨by rw [h.sge], h.du, h.cs, h.igm⟩

theorem setGrp_timed (s : State) (g : Group) (r : GroupRec) : TimedFrame s (setGrp s g r) := ⟨rfl, rfl, rfl, rfl⟩

theorem setMode_timed (m : Mode) (sub : Option SubPhase) (goal : Option Goal) (s : State) :
    TimedFrame s (setMode m sub goal s) := ⟨by simp, by simp, by simp, by simp⟩

theorem lampsFollow_timed (p : Group → Bool) (s : State) : TimedFrame s (lampsFollow p s) :=
  ⟨by simp, by simp, by simp, by simp⟩

theorem setPu_timed (s : State) (p : Pu) : TimedFrame s { s with pu := p } := ⟨rfl, rfl, rfl, rfl⟩

/-! ### The lamp unit's, the supervisor's and the link port's steps -/

theorem takeDueLamps_timed (s : State) : TimedFrame s (takeDueLamps s) := by
  have retry (ch : Lamp) (s : State) : TimedFrame s (tripRetry ch s) := .of_ite fun _ => ⟨rfl, rfl, rfl, rfl⟩
  have forgive (ch : Lamp) (s : State) : TimedFrame s (tripCounterReset ch s) := .of_ite fun _ => ⟨rfl, rfl, rfl, rfl⟩
  have dim (s : State) : TimedFrame s (dimBoundary s) := by
    unfold dimBoundary
    refine .of_ite fun _ => ?_
    split <;> exact ⟨rfl, rfl, rfl, rfl⟩
  have toggle (s : State) : TimedFrame s (flashToggle s) := by
    unfold flashToggle
    exact ⟨by simp, by simp, by simp, by simp⟩
  exact (((eachItem_timed retry s).trans (eachItem_timed forgive _)).trans (dim _)).trans (toggle _)

theorem takeover_timed (s : State) : TimedFrame s (takeover s) := by
  have target (w : GroupSet) (u : State) : TimedFrame u (setTarget w u) := by
    refine TimedFrame.trans ?_ (setTarget_follows_written w u).timed
    exact ⟨by simp [clearMaxedOut], by simp, by simp, by simp⟩
  unfold takeover
  exact TimedFrame.trans (t := { s with fbs := { s.fbs with current := takeoverStage s } }) ⟨rfl, rfl, rfl, rfl⟩ (target _ _)

theorem changeOwner_timed (o : Owner) (r : Rank) (s : State) : TimedFrame s (changeOwner o r s) := by
  by_cases same : s.sel.owner = o ∧ s.sel.rank = r
  · rw [changeOwner_same o r s same]
    exact .refl s
  · refine TimedFrame.trans ?_ (changeOwner_follows o r s same).timed
    exact ⟨by simp [ownerWritten], by simp [ownerWritten], by simp [ownerWritten], by simp [ownerWritten]⟩

theorem silenceExpiry_timed (i : Station) (s : State) : TimedFrame s (silenceExpiry i s) := by
  unfold silenceExpiry
  refine .of_ite fun _ => ?_
  dsimp only
  have marked : TimedFrame s (setStation s i { station s i with silent := true }) := ⟨rfl, rfl, rfl, rfl⟩
  have posted := marked.trans ((detect_shuts .stationSilent (detailItem (number i)) _).trans
    (post_shuts .stationSilent _)).timed
  exact posted.trans (.of_ite fun _ => changeOwner_timed _ _ _)

theorem enterNormal_timed (s : State) : TimedFrame s (enterNormal s) := by
  unfold enterNormal
  dsimp only
  have entered := (setMode_timed .normal none none s).trans (evalReached_follows _).timed
  exact ((((entered.trans (.of_ite fun _ => takeover_timed _)).trans (walk_follows _).timed).trans
    (lampsFollow_timed _ _)).trans (settleSince_follows _ _).timed)

theorem takeDuePhases_timed (s : State) : TimedFrame s (takeDuePhases s) := by
  have flash (s : State) : TimedFrame s (suFlashEnd s) := by
    refine .of_ite fun _ => (setMode_timed .startUp (some .suAllred) none s).trans ?_
    unfold beginAllRed
    exact TimedFrame.trans (t := setGroups (setMode .startUp (some .suAllred) none s) _)
      ⟨by simp, by simp, by simp, by simp⟩ (followAndRedOut_shuts _ _).timed
  have allRed (s : State) : TimedFrame s (suAllredEnd s) := by
    refine .of_ite fun _ => ?_
    split
    · exact (raiseMultiple_shuts s).timed
    · exact enterNormal_timed s
  have rest (s : State) : TimedFrame s (clAllredEnd s) := by
    refine .of_ite fun _ => ?_
    split
    · exact (enterResting_spec _ s).timed
    · exact .refl s
  exact (((flash s).trans (allRed _)).trans (rest _)).trans (eachItem_timed silenceExpiry_timed _)

/-! ### The groups and the priority unit -/

theorem groupMoved_timed (g : Group) (s : State) : TimedFrame s (groupMoved g s) := (groupMoved_follows g s).timed

theorem evaluateGroup_timed (g : Group) (s : State) : TimedFrame s (evaluateGroup g s) :=
  ⟨by simp [evaluateGroup], by simp [evaluateGroup], by simp [evaluateGroup], by simp [evaluateGroup]⟩

theorem checkClosing_timed (s : State) : TimedFrame s (checkClosing s) := .of_ite fun _ => setMode_timed _ _ _ s

theorem walkArrival_timed (before s : State) : TimedFrame s (walkArrival before s) := (walkArrival_follows before s).timed

theorem removeEntries_timed (p : Entry → Bool) (c : RemovalCause) (s : State) : TimedFrame s (removeEntries p c s) := by
  unfold removeEntries postRemoved
  exact ⟨by simp, by simp, by simp, by simp⟩

theorem takeDueGroups_timed (s : State) : TimedFrame s (takeDueGroups s) := by
  have prepare (g : Group) (s : State) : TimedFrame s (endPrepare g s) :=
    .of_ite fun _ => (setGrp_timed s g _).trans (groupMoved_timed g _)
  have min (g : Group) (s : State) : TimedFrame s (endMinProceed g s) :=
    .of_ite fun _ => ((setGrp_timed s g _).trans (evaluateGroup_timed g _)).trans (groupMoved_timed g _)
  have clearance (g : Group) (s : State) : TimedFrame s (endClearance g s) :=
    .of_ite fun _ => (((setGrp_timed s g _).trans (groupMoved_timed g _)).trans (foldl_becomeRedOut_shuts _ _).timed).trans
      (checkClosing_timed _)
  have hold (s : State) : TimedFrame s (holdEnd s) := .of_ite fun _ => (setPu_timed s _).trans (walkArrival_timed s _)
  have expiry (s : State) : TimedFrame s (expire s) :=
    .of_ite fun _ => (removeEntries_timed _ _ s).trans (walkArrival_timed s _)
  have inhibit (s : State) : TimedFrame s (recallInhibitEnd s) :=
    .of_ite fun _ => ((setPu_timed s { s.pu with inhibitUntil := none }).trans (walkWith_follows true _).timed).trans
      (overlayArrival_follows s _).timed
  exact (((((eachItem_timed prepare s).trans (eachItem_timed min _)).trans (eachItem_timed clearance _)).trans
    (hold _)).trans (expiry _)).trans (inhibit _)

theorem fbsEvaluate_timed (s : State) : TimedFrame s (fbsEvaluate s) :=
  TimedFrame.trans (t := { s with fbsDue := false }) ⟨rfl, rfl, rfl, rfl⟩ (settleStage_follows _).timed

theorem takeDueEvaluations_timed (s : State) : TimedFrame s (takeDueEvaluations s) := by
  have starts (n : Nat) (s : State) : TimedFrame s (takeStarts n s) := by
    induction n generalizing s with
    | zero => exact .refl s
    | succ n ih =>
      unfold takeStarts
      split
      · exact .refl s
      · refine TimedFrame.trans (.of_ite fun _ => ?_) (ih _)
        exact (setGrp_timed s _ _).trans (groupMoved_timed _ _)
  exact ((settle_follows s).timed.trans (.of_ite fun _ => fbsEvaluate_timed _)).trans (starts 24 _)

theorem takeDue_timed (s : State) : TimedFrame s (takeDue s) :=
  (((takeDueLamps_timed s).trans (takeDuePhases_timed _)).trans (takeDueGroups_timed _)).trans (takeDueEvaluations_timed _)

end Sys2Proof.Machine

namespace Sys2Proof.Machine

/-! ### What a detection leaves of times and fault records

`Detects s t` says of a detection, a red-out, a recovery or what follows them, beside `Shuts`, that every group time
stands or is now and that no fault record loses anything. -/

/-- R174: a fault record after detections. -/
structure FaultGrows (a b : FaultRec) : Prop where
  latched : a.latched = true → b.latched = true
  detail : ∀ n, a.detail.getLsbD n = true → b.detail.getLsbD n = true
  count : min 255 a.count ≤ b.count
  masked : b.masked = a.masked

theorem FaultGrows.refl (a : FaultRec) : FaultGrows a a := ⟨id, fun _ => id, Nat.min_le_right _ _, rfl⟩

theorem FaultGrows.trans {a b c : FaultRec} (h : FaultGrows a b) (k : FaultGrows b c) : FaultGrows a c :=
  ⟨fun e => k.latched (h.latched e), fun n e => k.detail n (h.detail n e), by
    have := h.count
    have := k.count
    omega, k.masked.trans h.masked⟩

/-- R174: one detection. -/
theorem detected_grows (now : Time) (d : BitVec 72) (r : FaultRec) : FaultGrows r (detected now d r) := by
  refine ⟨fun _ => rfl, fun n h => ?_, ?_, rfl⟩
  · simp [detected, h]
  · simp only [detected, saturate]
    split <;> omega

/-- The times of a group record that a detection may set are kept or are now. -/
structure TimesKept (now : Time) (a b : GroupRec) : Prop where
  stateEntry : b.stateEntry = a.stateEntry ∨ b.stateEntry = now
  stopEntry : b.stopEntry = a.stopEntry ∨ b.stopEntry = now
  proceedEnd : b.proceedEnd = a.proceedEnd ∨ b.proceedEnd = now

theorem TimesKept.refl (now : Time) (a : GroupRec) : TimesKept now a a := ⟨.inl rfl, .inl rfl, .inl rfl⟩

theorem kept_trans {a b c now : Time} (h : b = a ∨ b = now) (k : c = b ∨ c = now) : c = a ∨ c = now := by
  rcases k with rfl | k
  · exact h
  · exact .inr k

theorem TimesKept.trans {now : Time} {a b c : GroupRec} (h : TimesKept now a b) (k : TimesKept now b c) :
    TimesKept now a c :=
  ⟨kept_trans h.stateEntry k.stateEntry, kept_trans h.stopEntry k.stopEntry, kept_trans h.proceedEnd k.proceedEnd⟩

theorem GroupFollows.timesKept {now : Time} {cap : Nat} {a b : GroupRec} (h : GroupFollows now cap a b) :
    TimesKept now a b := by
  cases h with
  | kept same _ => rw [same]; exact ⟨.inl rfl, .inl rfl, .inl rfl⟩
  | ended _ _ _ record => rw [record]; exact ⟨.inr rfl, .inl rfl, .inr rfl⟩

theorem stoppedByFault_timesKept (now : Time) (r : GroupRec) : TimesKept now r (stoppedByFault now r) := by
  unfold stoppedByFault
  split
  · exact .refl now r
  · exact ⟨.inr rfl, .inr rfl, .inr rfl⟩

structure Detects (s t : State) : Prop where
  shuts : Shuts s t
  times : ∀ g, TimesKept (jnow s) (grp s g) (grp t g)
  faults : ∀ k : Fin 12, FaultGrows (s.mfs.faults[k]) (t.mfs.faults[k])

namespace Detects

theorem refl (s : State) : Detects s s := ⟨.refl s, fun _ => .refl _ _, fun _ => .refl _⟩

theorem trans {s t u : State} (h : Detects s t) (k : Detects t u) : Detects s u :=
  ⟨h.shuts.trans k.shuts, fun g => (h.times g).trans (h.shuts.now ▸ k.times g), fun i => (h.faults i).trans (k.faults i)⟩

theorem of_alike {s t : State} (shuts : Shuts s t) (groups : ∀ g, TimesKept (jnow s) (grp s g) (grp t g))
    (faults : t.mfs.faults = s.mfs.faults) : Detects s t :=
  ⟨shuts, groups, fun k => by rw [faults]; exact .refl _⟩

theorem of_ite {p : Prop} [Decidable p] {s t : State} (h : p → Detects s t) : Detects s (if p then t else s) := by
  split
  · rename_i k; exact h k
  · exact .refl s

theorem of_foldl {α : Type} {f : State → α → State} (h : ∀ s a, Detects s (f s a)) (l : List α) (s : State) :
    Detects s (l.foldl f s) := by
  induction l generalizing s with
  | nil => exact .refl s
  | cons a l ih => exact (h s a).trans (ih _)

end Detects

theorem Follows.detects {s t : State} (h : Follows noGroup s t) : Detects s t :=
  .of_alike h.shuts (fun g => (h.groups g).timesKept) (by rw [h.mfs])

theorem latch_faults (k : FaultKind) (d : BitVec 72) (s : State) (l : Fin 12) : (latch k d s).mfs.faults[l] =
    if k.code = l then detected (jnow s) d (s.mfs.faults[k.code]) else s.mfs.faults[l] := by
  unfold latch
  rw [postIf_mfs_faults, faults_setFault]

theorem latch_detects (k : FaultKind) (d : BitVec 72) (s : State) : Detects s (latch k d s) := by
  refine ⟨latch_shuts k d s, fun g => ?_, fun l => ?_⟩
  · have same : grp (latch k d s) g = grp s g := by simp [latch]
    rw [same]
    exact .refl _ _
  · rw [latch_faults]
    split
    · rename_i e
      rw [← e]
      exact detected_grows _ _ _
    · exact .refl _

theorem driveFlt_detects (s : State) : Detects s (driveFlt s) :=
  .of_alike (driveFlt_shuts s) (fun _ => .refl _ _) rfl

theorem faultEntry_faults (s : State) : (faultEntry s).mfs.faults = s.mfs.faults := by
  unfold faultEntry
  rw [(enterResting_spec _ _).mfs]
  simp

theorem grp_faultEntry (s : State) (g : Group) : grp (faultEntry s) g = stoppedByFault (jnow s) (grp s g) := by
  have sge : (faultEntry s).sge = _ := (enterResting_spec (faultAspect s.cs.image) _).sge
  unfold grp
  rw [sge]
  exact grp_setGroups s _ g

theorem detect_detects (k : FaultKind) (d : BitVec 72) (s : State) : Detects s (detect k d s) := by
  unfold detect
  dsimp only
  have driven := (latch_detects k d s).trans (driveFlt_detects _)
  split
  · split
    · rename_i enters
      refine driven.trans (.of_alike (faultEntry_shuts _ enters rfl) (fun g => ?_) (faultEntry_faults _))
      rw [grp_faultEntry]
      exact stoppedByFault_timesKept _ _
    · exact driven
  · exact latch_detects k d s

theorem reportRedOut_detects (s : State) : Detects s (reportRedOut s) := by
  have again : Detects s (recomputeInhibits s) := by
    refine .of_alike (recomputeInhibits_shuts s) (fun g => ?_) (by simp)
    simp only [recomputeInhibits, grp_setGroups]
    exact ⟨.inl rfl, .inl rfl, .inl rfl⟩
  exact again.trans (settleSince_follows _ _).detects

theorem raiseMultiple_detects (s : State) : Detects s (raiseMultiple s) := .of_ite fun _ => detect_detects _ _ s

/-- A state with another red-out set. -/
theorem setRedOut_detects (s : State) (w : GroupSet) : Detects s { s with lou := { s.lou with redOut := w } } :=
  .of_alike (.of_lou rfl rfl (fun _ => rfl) (fun _ => rfl)) (fun _ => .refl _ _) rfl

theorem unlit_detects (s : State) (ch : Lamp) : Detects s (setLamp s ch { lamp s ch with litCount := 0 }) :=
  .of_alike (setLamp_shuts ch _ s rfl rfl) (fun g => by rw [setLamp_grp]; exact .refl _ _) (by simp)

theorem becomeRedOut_detects (g : Group) (s : State) : Detects s (becomeRedOut g s) := by
  unfold becomeRedOut
  split
  · exact .refl s
  · exact ((((unlit_detects s (stopLamp g)).trans (setRedOut_detects _ _)).trans (detect_detects _ _ _)).trans
      (reportRedOut_detects _)).trans (raiseMultiple_detects _)

theorem leaveRedOut_detects (g : Group) (s : State) : Detects s (leaveRedOut g s) :=
  .of_ite fun _ => (setRedOut_detects s _).trans (reportRedOut_detects _)

theorem raiseMismatch_detects (ch : Lamp) (m : Mismatch) (s : State) : Detects s (raiseMismatch ch m s) := by
  unfold raiseMismatch
  split
  · exact detect_detects _ _ s
  · exact detect_detects _ _ s
  · split <;> exact detect_detects _ _ s

/-- R153: the raising of one channel's evaluation. -/
def handRaised (ch : Lamp) (e : Evaluated) (s : State) : State :=
  match e.raised with
  | some m => raiseMismatch ch m s
  | none => s

theorem handOn_eq (ch : Lamp) (e : Evaluated) (s : State) : handOn ch e s =
    if e.litReached && decide (lampPos ch = 0) then
      leaveRedOut (lampGroup ch) (if e.outReached && decide (lampPos ch = 0) then
        becomeRedOut (lampGroup ch) (handRaised ch e s) else handRaised ch e s)
    else if e.outReached && decide (lampPos ch = 0) then becomeRedOut (lampGroup ch) (handRaised ch e s)
    else handRaised ch e s := rfl

theorem handRaised_detects (ch : Lamp) (e : Evaluated) (s : State) : Detects s (handRaised ch e s) := by
  unfold handRaised
  split
  · exact raiseMismatch_detects _ _ s
  · exact .refl s

theorem handOn_detects (ch : Lamp) (e : Evaluated) (s : State) : Detects s (handOn ch e s) := by
  rw [handOn_eq]
  exact ((handRaised_detects ch e s).trans (.of_ite fun _ => becomeRedOut_detects _ _)).trans
    (.of_ite fun _ => leaveRedOut_detects _ _)

/-! ### The evaluation -/

/-- R151: what the evaluation finds at the used channels. -/
def found (currents : List Nat) (s : State) : List (Lamp × Evaluated) :=
  (List.finRange 72).filterMap fun ch => (evaluateLamp s currents ch).map fun e => (ch, e)

/-- R151, R152: the lamp records judged. -/
def judgedLamps (currents : List Nat) (s : State) : State := setLamps s (evaluatedRecord s currents)

/-- R153: what the channels bring is handed on. -/
def handedOn (currents : List Nat) (s : State) : State :=
  (found currents s).foldl (fun t p => handOn p.1 p.2 t) (judgedLamps currents s)

theorem evaluateLamps_eq (currents : List Nat) (s : State) : evaluateLamps currents s =
    (conflictPairs s currents).foldl (fun t p => raiseConflict p t) (handedOn currents s) := rfl

theorem handedOn_detects (currents : List Nat) (s : State) : Detects (judgedLamps currents s) (handedOn currents s) :=
  .of_foldl (fun t (p : Lamp × Evaluated) => handOn_detects p.1 p.2 t) _ _

theorem raiseConflicts_detects (l : List (Group × Group)) (s : State) :
    Detects s (l.foldl (fun t p => raiseConflict p t) s) := .of_foldl (fun t _ => detect_detects _ _ t) _ _

theorem evaluateLamps_detects (currents : List Nat) (s : State) :
    Detects (judgedLamps currents s) (evaluateLamps currents s) := by
  rw [evaluateLamps_eq]
  exact (handedOn_detects currents s).trans (raiseConflicts_detects _ _)

/-- R72: the sequencer's part of an advance, but for the field that says it is due. -/
theorem advanceStage_detects (s : State) : ∃ b, Detects { s with fbsDue := b } (advanceStage s) := by
  unfold advanceStage
  split
  · exact ⟨false, (settleStage_follows _).detects⟩
  · exact ⟨s.fbsDue, .refl s⟩

end Sys2Proof.Machine

namespace Sys2Proof.Machine

/-! ### What a detection raises (R174 to R176) -/

theorem detect_faults (k : FaultKind) (d : BitVec 72) (s : State) :
    (detect k d s).mfs.faults = (latch k d s).mfs.faults := by
  unfold detect
  dsimp only
  split
  · split
    · exact faultEntry_faults _
    · rfl
  · rfl

/-- R176: the mode after fault entry. -/
theorem faultEntry_not_enters (s : State) : (faultEntry s).mfs.mode.faultEnters = false := by
  unfold faultEntry
  rw [(enterResting_spec _ _).mfs]
  exact resting_not_faultEnters _

/-- A detection of `k` with detail `d` at `s` has been made, and `t` stands after it. -/
structure Raised (k : FaultKind) (d : BitVec 72) (s t : State) : Prop where
  latched : (t.mfs.faults[k.code]).latched = true
  detail : ∀ n, d.getLsbD n = true → (t.mfs.faults[k.code]).detail.getLsbD n = true
  count : min 255 ((s.mfs.faults[k.code]).count + 1) ≤ (t.mfs.faults[k.code]).count
  event : (s.mfs.faults[k.code]).masked = false →
    ∀ j : Station, (t.mfs.pending[j]).getLsbD Event.faultRaised.code.val = true
  critical : k.critical = true → t.mfs.fltDriven = true ∧ t.mfs.mode.faultEnters = false

theorem latch_event (k : FaultKind) (d : BitVec 72) (s : State) (masked : (s.mfs.faults[k.code]).masked = false)
    (j : Station) : ((latch k d s).mfs.pending[j]).getLsbD Event.faultRaised.code.val = true := by
  unfold latch
  dsimp only
  rw [masked]
  exact post_pends .faultRaised _ j

theorem latch_detect_shuts (k : FaultKind) (d : BitVec 72) (s : State) : Shuts (latch k d s) (detect k d s) := by
  unfold detect
  dsimp only
  split
  · split
    · rename_i enters
      exact (driveFlt_shuts _).trans (faultEntry_shuts _ enters rfl)
    · exact driveFlt_shuts _
  · exact .refl _

theorem detect_raises (k : FaultKind) (d : BitVec 72) (s : State) : Raised k d s (detect k d s) := by
  have record : (detect k d s).mfs.faults[k.code] = detected (jnow s) d (s.mfs.faults[k.code]) := by
    rw [detect_faults, latch_faults, if_pos rfl]
  refine ⟨by rw [record]; rfl, fun n h => ?_, ?_, fun masked j => ?_, fun critical => ?_⟩
  · rw [record]
    simp [detected, h]
  · rw [record]
    simp only [detected, saturate]
    split <;> omega
  · exact getLsbD_of_subset ((latch_detect_shuts k d s).events j) (latch_event k d s masked j)
  · have ran := detect_critical k d s critical
    by_cases enters : s.mfs.mode.faultEnters = true
    · rw [if_pos enters] at ran
      have mode : (driveFlt (latch k d s)).mfs.mode.faultEnters = true := by simpa [driveFlt, latch, setFault] using enters
      rw [ran]
      exact ⟨(faultEntry_shuts _ mode rfl).driven rfl, faultEntry_not_enters _⟩
    · rw [if_neg enters] at ran
      rw [ran]
      refine ⟨rfl, ?_⟩
      simpa [driveFlt, latch, setFault] using enters

/-- R163: outside START_UP, NORMAL and CLOSING the mode record stands. -/
theorem Shuts.mode_of_not_enters {s t : State} (h : Shuts s t) (rest : s.mfs.mode.faultEnters = false) :
    t.mfs.mode = s.mfs.mode ∧ t.mfs.sub = s.mfs.sub ∧ t.mfs.goal = s.mfs.goal := by
  rcases h.mode with ⟨mode, sub, goal, _⟩ | ⟨enters, _⟩
  · exact ⟨mode, sub, goal⟩
  · rw [rest] at enters
    cases enters

/-- R176: the part as fault entry leaves it. -/
structure FaultTaken (i : Image) (t : State) : Prop where
  mode : t.mfs.mode = (faultAspect i).mode
  sub : t.mfs.sub = none
  goal : t.mfs.goal = none
  driven : t.mfs.fltDriven = true
  list : t.pu.list = []
  stopped : ∀ g, (grp t g).state = .stop

/-- A mode record that has left the modes of fault entry has done so by it. -/
theorem Shuts.faultTaken {s t : State} (h : Shuts s t) (enters : s.mfs.mode.faultEnters = true)
    (rest : t.mfs.mode.faultEnters = false) : FaultTaken s.cs.image t := by
  rcases h.mode with ⟨mode, _⟩ | ⟨_, mode, sub, goal, driven, list, stopped⟩
  · rw [mode, enters] at rest
    cases rest
  · exact ⟨mode, sub, goal, driven, list, stopped⟩

theorem FaultTaken.shuts {i : Image} {s t : State} (h : FaultTaken i s) (l : Shuts s t) : FaultTaken i t := by
  obtain ⟨mode, sub, goal⟩ := l.mode_of_not_enters (h.mode ▸ resting_not_faultEnters _)
  refine ⟨mode.trans h.mode, sub.trans h.sub, goal.trans h.goal, l.driven h.driven, ?_,
    fun g => ((l.groups g).stopped (h.stopped g)).1⟩
  rcases l.entries with entries | none
  · rw [h.list] at entries
    exact List.map_eq_nil_iff.1 entries
  · exact none

theorem Raised.then {k : FaultKind} {d : BitVec 72} {s t u : State} (h : Raised k d s t) (l : Detects t u) :
    Raised k d s u where
  latched := (l.faults k.code).latched h.latched
  detail n e := (l.faults k.code).detail n (h.detail n e)
  count := by
    have := h.count
    have := (l.faults k.code).count
    omega
  event m j := getLsbD_of_subset (l.shuts.events j) (h.event m j)
  critical c := by
    obtain ⟨driven, rest⟩ := h.critical c
    exact ⟨l.shuts.driven driven, by rw [(l.shuts.mode_of_not_enters rest).1]; exact rest⟩

theorem Raised.since {k : FaultKind} {d : BitVec 72} {s t u : State} (l : Detects s t) (h : Raised k d t u) :
    Raised k d s u where
  latched := h.latched
  detail := h.detail
  count := by
    have := h.count
    have := (l.faults k.code).count
    omega
  event m := h.event (((l.faults k.code).masked).trans m)
  critical := h.critical

theorem Raised.advanceStage {k : FaultKind} {d : BitVec 72} {s t : State} (h : Raised k d s t) :
    Raised k d s (advanceStage t) := by
  obtain ⟨b, advanced⟩ := advanceStage_detects t
  have due : Raised k d s { t with fbsDue := b } := ⟨h.latched, h.detail, h.count, h.event, h.critical⟩
  exact due.then advanced

theorem FaultTaken.advanceStage {i : Image} {t : State} (h : FaultTaken i t) : FaultTaken i (advanceStage t) := by
  obtain ⟨b, advanced⟩ := advanceStage_detects t
  have due : FaultTaken i { t with fbsDue := b } := ⟨h.mode, h.sub, h.goal, h.driven, h.list, h.stopped⟩
  exact due.shuts advanced.shuts

/-- R175: a critical fault that the evaluation raises in START_UP, NORMAL or CLOSING takes the part to its fault
aspect. -/
theorem Raised.faultTaken {k : FaultKind} {d : BitVec 72} {currents : List Nat} {s : State}
    (h : Raised k d (judgedLamps currents s) (evaluateLamps currents s)) (critical : k.critical = true)
    (enters : s.mfs.mode.faultEnters = true) : FaultTaken s.cs.image (evaluateLamps currents s) :=
  (evaluateLamps_detects currents s).shuts.faultTaken enters (h.critical critical).2

/-! ### What an advance leaves alone -/

theorem advanceStage_timed (s : State) : TimedFrame s (advanceStage s) := by
  obtain ⟨b, advanced⟩ := advanceStage_detects s
  have due : TimedFrame s { s with fbsDue := b } := ⟨rfl, rfl, rfl, rfl⟩
  exact due.trans advanced.shuts.timed

/-- R151, R72: what is judged at the new count. -/
theorem judged_timed (currents : List Nat) (s : State) :
    TimedFrame s (advanceStage (evaluateLamps currents s)) := by
  have judged : TimedFrame s (judgedLamps currents s) := by
    unfold judgedLamps
    exact ⟨by simp, by simp, by simp, by simp⟩
  exact (judged.trans (evaluateLamps_detects currents s).shuts.timed).trans (advanceStage_timed _)

/-- R1: the clock counts; matrix, detectors and store stand. -/
theorem junctionAdvance_timed (currents : List Nat) (s : State) :
    (junctionAdvance currents s).sge.clock = s.sge.clock + 1 ∧ (junctionAdvance currents s).du = s.du ∧
      (junctionAdvance currents s).cs = s.cs ∧ (junctionAdvance currents s).igm = s.igm := by
  have due := takeDue_timed s
  have judged := judged_timed currents (advanceCount (takeDue s))
  have ran : junctionAdvance currents s =
    advanceStage (evaluateLamps currents (advanceCount (takeDue s))) := rfl
  rw [ran, judged.clock, judged.du, judged.cs, judged.igm, ← due.clock, ← due.du, ← due.cs, ← due.igm]
  generalize takeDue s = x
  exact ⟨rfl, rfl, rfl, rfl⟩

/-- What one element of a fold finds, and what stands after it. -/
theorem foldl_reaches {α : Type} {f : State → α → State} (h : ∀ s a, Detects s (f s a)) {l : List α} {a : α}
    (mem : a ∈ l) (s : State) : ∃ x, Detects s x ∧ Detects (f x a) (l.foldl f s) := by
  induction l generalizing s with
  | nil => exact absurd mem List.not_mem_nil
  | cons b l ih =>
    rcases List.mem_cons.1 mem with rfl | mem
    · exact ⟨s, .refl s, .of_foldl h l _⟩
    · obtain ⟨x, before, after⟩ := ih mem (f s b)
      exact ⟨x, (h s b).trans before, after⟩

/-! ### Conflicting proceeds (R154) -/

theorem lampGroup_proceedLamp (g : Group) : lampGroup (proceedLamp g) = g := by
  simp only [lampGroup, proceedLamp, Fin.ext_iff]
  omega

theorem lampPos_proceedLamp (g : Group) : lampPos (proceedLamp g) = 2 := by
  simp only [lampPos, proceedLamp, Fin.ext_iff]
  omega

theorem evaluateLamp_of_used {s : State} {currents : List Nat} {ch : Lamp} (h : usedLamp s.cs.image ch = true) :
    evaluateLamp s currents ch = some (evaluateChannel (currentAt currents ch)
      (nominalCurrent s.cs.image (lampGroup ch) (lampPos ch)) (referencePercent s.lou.dim) (lamp s ch)) := if_pos h

/-- R151, R154: a proceed channel that settles no longer and is not DARK shows proceed. -/
theorem showsProceed_of {s : State} {currents : List Nat} {g : Group} (used : usedLamp s.cs.image (proceedLamp g) = true)
    (settled : (lamp s (proceedLamp g)).settling = false)
    (bright : 10 * (nominalCurrent s.cs.image g 2 * referencePercent s.lou.dim) <
      currentAt currents (proceedLamp g) * 10000) : showsProceed s currents g = true := by
  rw [showsProceed, evaluateLamp_of_used used, lampGroup_proceedLamp, lampPos_proceedLamp]
  have result : classify (currentAt currents (proceedLamp g)) (nominalCurrent s.cs.image g 2)
      (referencePercent s.lou.dim) ≠ .dark := by
    rw [← Nat.mul_assoc] at bright
    unfold classify
    split
    · decide
    · rw [if_neg (not_le.2 bright)]
      decide
  simp [evaluateChannel, settled, result]

theorem mem_conflictPairs {s : State} {currents : List Nat} {c g : Group} (less : c < g) (conflict : conflicts s c g = true)
    (hc : showsProceed s currents c = true) (hg : showsProceed s currents g = true) : (c, g) ∈ conflictPairs s currents := by
  simp [conflictPairs, allGroups, less, conflict, hc, hg]

theorem getLsbD_detailItem {n : Nat} (i : Fin n) (h : n ≤ 72) : (detailItem (number i)).getLsbD i.val = true := by
  have := i.isLt
  simp [detailItem, number]
  omega

/-- R154: two conflicting groups that show proceed are raised, whichever has the lower number. -/
theorem conflict_raised {s : State} {currents : List Nat} {c g : Group} (conflict : conflicts s c g = true)
    (hc : showsProceed s currents c = true) (hg : showsProceed s currents g = true) : ∃ d : BitVec 72,
      d.getLsbD c.val = true ∧ d.getLsbD g.val = true ∧
        Raised .conflict d (judgedLamps currents s) (evaluateLamps currents s) := by
  have raised {a b : Group} (mem : (a, b) ∈ conflictPairs s currents) :
      Raised .conflict (detailItem (number a) ||| detailItem (number b)) (judgedLamps currents s)
        (evaluateLamps currents s) := by
    rw [evaluateLamps_eq]
    obtain ⟨x, before, after⟩ := foldl_reaches (f := fun t p => raiseConflict p t)
      (fun t _ => detect_detects _ _ t) mem (handedOn currents s)
    exact ((detect_raises .conflict _ x).then after).since ((handedOn_detects currents s).trans before)
  have bits (a b : Group) : (detailItem (number a) ||| detailItem (number b)).getLsbD a.val = true ∧
      (detailItem (number a) ||| detailItem (number b)).getLsbD b.val = true := by
    simp only [BitVec.getLsbD_or, getLsbD_detailItem a (by decide), getLsbD_detailItem b (by decide), Bool.true_or,
      Bool.or_true, and_self]
  rcases lt_trichotomy c g with less | same | less
  · exact ⟨_, (bits c g).1, (bits c g).2, raised (mem_conflictPairs less conflict hc hg)⟩
  · rw [same, conflicts_irrefl] at conflict
    cases conflict
  · exact ⟨_, (bits g c).2, (bits g c).1, raised (mem_conflictPairs less (conflicts_symm s c g ▸ conflict) hg hc)⟩

/-- Settles O24: the pair is raised among the conflicts, and what follows keeps the fault aspect. -/
theorem conflictTakesFaultAspect : Obligations.ConflictTakesFaultAspect := by
  unfold Obligations.ConflictTakesFaultAspect
  intro currents c g s u hu mode conflict proceeds
  have shows (k : Group) (hk : k = c ∨ k = g) : showsProceed u currents k = true := by
    obtain ⟨used, settled, bright⟩ := proceeds k hk
    exact showsProceed_of used settled bright
  obtain ⟨d, dc, dg, raised⟩ := conflict_raised conflict (shows c (.inl rfl)) (shows g (.inr rfl))
  have enters : u.mfs.mode.faultEnters = true := by rcases mode with h | h | h <;> rw [h] <;> rfl
  have frame := junctionAdvance_timed currents s
  have ran : junctionAdvance currents s = advanceStage (evaluateLamps currents u) := by rw [hu]; rfl
  obtain ⟨mode, sub, goal, driven, list, stopped⟩ := (raised.faultTaken rfl enters).advanceStage
  have staged := raised.advanceStage
  refine ⟨junctionAdvance currents s, rfl, ?_⟩
  rw [ran] at frame ⊢
  exact ⟨mode, sub, goal, driven, staged.latched, staged.detail _ dc, staged.detail _ dg, list, stopped, frame.2.2.1,
    frame.2.1⟩

end Sys2Proof.Machine

/-! ## What an advance leaves (R1, R2, R72 to R75) -/

namespace Sys2Proof.Machine

/-! ### Selector and sequencer during the engine's rounds -/

/-- The records of the stage selector and of the fallback sequencer stand. -/
structure SelKept (s t : State) : Prop where
  sel : t.sel = s.sel
  fbs : t.fbs = s.fbs

namespace SelKept

theorem refl (s : State) : SelKept s s := ⟨rfl, rfl⟩

theorem trans {s t u : State} (h : SelKept s t) (k : SelKept t u) : SelKept s u := ⟨k.sel.trans h.sel, k.fbs.trans h.fbs⟩

theorem of_ite {p : Prop} [Decidable p] {s t u : State} (h : SelKept s t) (k : SelKept s u) :
    SelKept s (if p then t else u) := by
  split
  · exact h
  · exact k

end SelKept

theorem reformOverlay_selKept (s : State) : SelKept s (reformOverlay s) := by
  unfold reformOverlay
  exact ⟨rfl, rfl⟩

theorem walk_selKept (s : State) : SelKept s (walk s) := by
  unfold walk walkWith
  exact ⟨by simp [reformOverlay], by simp [reformOverlay]⟩

theorem recallIntoService_selKept (g : Group) (s : State) : SelKept s (recallIntoService g s) := by
  unfold recallIntoService
  exact ⟨by simp, by simp⟩

theorem puOnChange_selKept (s : State) (g : Group) : SelKept s (puOnChange s g) := by
  have decided (u : State) : SelKept u (if u.pu.list.any (fun e => entryGroup u e == some g) then walk u
      else if u.pu.list.any (actsOn u .recalling fun t => conflicts u t g) then reformOverlay u else u) := by
    refine .of_ite (walk_selKept u) ?_
    exact .of_ite (reformOverlay_selKept u) (.refl u)
  exact (SelKept.of_ite (recallIntoService_selKept g s) (.refl s)).trans (decided _)

theorem engineRound_selKept (s : State) : SelKept s (engineRound s) := by
  have folded (gs : List Group) (u : State) : SelKept u (gs.foldl puOnChange u) := by
    induction gs generalizing u with
    | nil => exact .refl u
    | cons g gs ih => exact (puOnChange_selKept u g).trans (ih _)
  have ended : SelKept s (lampsFollow (terminating s).contains (endProceeds s)) := by
    unfold endProceeds
    exact ⟨by simp, by simp⟩
  exact ended.trans (folded _ _)

theorem engineRound_pu_of_nil {s : State} (h : s.pu.list = []) : (engineRound s).pu = s.pu := by
  have pu : (lampsFollow (terminating s).contains (endProceeds s)).pu = s.pu := by simp [endProceeds]
  unfold engineRound
  dsimp only
  rw [foldl_puOnChange_of_nil (by rw [pu, h]), pu]

/-! ### A stage that cannot end (R71) -/

/-- The group is not finished, and nothing inside one arrival finishes it. -/
def Unfinished (s : State) (x : Group) : Prop :=
  (grp s x).state = .prepare ∨ ((grp s x).state = .proceedMin ∧ maxHasRun s x = false) ∨
    (((grp s x).state = .stop ∨ (grp s x).state = .clearance) ∧ s.pu.list = [] ∧ groupKind s.cs.image x ≠ .none ∧
      (grp s x).inhibited = false ∧ (ovl s x).block = false ∧ (grp s x).maxedOut = false)

theorem Unfinished.not_finished {s : State} {x : Group} (h : Unfinished s x) : finished s x = false := by
  unfold finished
  rcases h with state | ⟨state, run⟩ | ⟨state | state, _, kind, free, unblocked, max⟩
  · simp [state]
  · simp [state, run]
  · simp [state, kind, free, unblocked, max]
  · simp [state, kind, free, unblocked, max]

theorem Unfinished.state_ne {s : State} {x : Group} (h : Unfinished s x) : (grp s x).state ≠ .proceedExt := by
  rcases h with state | ⟨state, _⟩ | ⟨state | state, _⟩ <;> rw [state] <;> decide

theorem Unfinished.follows {s t : State} {x : Group} (h : Unfinished s x) (l : Follows noGroup s t)
    (pu : s.pu.list = [] → t.pu = s.pu) : Unfinished t x := by
  cases l.groups x with
  | ended _ _ ext => exact absurd ext h.state_ne
  | kept same cleared =>
    have state : (grp t x).state = (grp s x).state := by rw [same]
    have inhibited : (grp t x).inhibited = (grp s x).inhibited := by rw [same]
    have run : maxHasRun t x = maxHasRun s x := by
      unfold maxHasRun
      rw [l.cs, l.now, same]
    unfold Unfinished
    rw [state, inhibited, run, l.cs]
    rcases h with h | h | ⟨h, list, kind, free, unblocked, max⟩
    · exact .inl h
    · exact .inr (.inl h)
    · have same := pu list
      refine .inr (.inr ⟨h, by rw [same, list], kind, free, by rw [ovl, same]; exact unblocked, ?_⟩)
      exact Bool.eq_false_iff.2 fun e => by rw [cleared e] at max; cases max

/-- The sequencer stands on stage `k`, which cannot end, with the selector's record `p` but for its reported flag. -/
structure StageStands (k : Stage) (p : Sel) (s : State) : Prop where
  current : s.fbs.current = some k
  sel : s.sel = { p with reported := s.sel.reported }
  member : ∃ x, inSet p.stages[k] x = true ∧ Unfinished s x

namespace StageStands

theorem stages {k : Stage} {p : Sel} {s : State} (h : StageStands k p s) : s.sel.stages = p.stages := by rw [h.sel]

theorem evalStage {k : Stage} {p : Sel} {s : State} (h : StageStands k p s) : evalStage s = s := by
  obtain ⟨x, mem, unfinished⟩ := h.member
  have lasts : stageEnds s k = false := by
    rw [← h.stages] at mem
    have not_all : (allGroups.all fun g => !inSet s.sel.stages[k] g || finished s g) = false :=
      List.all_eq_false.2 ⟨x, List.mem_finRange x, by rw [mem, unfinished.not_finished]; decide⟩
    rw [stageEnds, not_all, Bool.false_and]
  unfold Machine.evalStage
  split
  · rw [h.current]
    dsimp only
    rw [if_neg (by rw [lasts]; decide)]
  · rfl

theorem evalReached {k : Stage} {p : Sel} {s : State} (h : StageStands k p s) : StageStands k p (evalReached s) := by
  obtain ⟨pu, _, fbs, _⟩ := evalReached_parts s
  obtain ⟨x, mem, unfinished⟩ := h.member
  refine ⟨by rw [fbs, h.current], ?_, x, mem, unfinished.follows (evalReached_follows s) fun _ => pu⟩
  unfold Machine.evalReached
  split
  · simp only [post]
    rw [h.sel]
  · exact h.sel

theorem engineRound {k : Stage} {p : Sel} {s : State} (h : StageStands k p s) : StageStands k p (engineRound s) := by
  obtain ⟨sel, fbs⟩ := engineRound_selKept s
  obtain ⟨x, mem, unfinished⟩ := h.member
  exact ⟨by rw [fbs, h.current], by rw [sel]; exact h.sel, x, mem,
    unfinished.follows (engineRound_follows s) engineRound_pu_of_nil⟩

theorem settleRounds {k : Stage} {p : Sel} {s : State} (h : StageStands k p s) (n : Nat) (sel fbs : Bool) :
    StageStands k p (settleRounds n sel fbs s) := by
  induction n generalizing sel fbs s with
  | zero => exact h
  | succ n ih =>
    have reported : StageStands k p (if sel then Machine.evalReached s else s) := by
      split
      · exact h.evalReached
      · exact h
    unfold Machine.settleRounds
    split
    · dsimp only
      split
      · rw [reported.evalStage]
        exact ih reported _ _
      · exact reported
    · exact ih h.engineRound _ _

end StageStands

end Sys2Proof.Machine

namespace Sys2Proof.Machine

/-! ### The stored times (R2, R66) -/

theorem elapsed_self (now : Time) : elapsed now now = 0 := by simp [elapsed]

theorem elapsed_aged_le (now t : Time) : elapsed now (aged now t) ≤ 2 ^ 30 := by
  unfold aged
  split
  · simp [elapsed]
  · omega

/-- R2, R66: no stored time of a group lies further back than 2^30 counts. -/
structure TimesWithin (s : State) : Prop where
  stateEntry : ∀ g, elapsed (jnow s) (grp s g).stateEntry ≤ 2 ^ 30
  stopEntry : ∀ g, elapsed (jnow s) (grp s g).stopEntry ≤ 2 ^ 30
  proceedStart : ∀ g, elapsed (jnow s) (grp s g).proceedStart ≤ 2 ^ 30
  proceedEnd : ∀ g, elapsed (jnow s) (grp s g).proceedEnd ≤ 2 ^ 30
  gapExit : ∀ g : Group, ∀ x, s.fbs.lastGapExit[g] = some x → elapsed (jnow s) x ≤ 2 ^ 30

theorem elapsed_kept {now a b : Time} (kept : b = a ∨ b = now) (h : elapsed now a ≤ 2 ^ 30) : elapsed now b ≤ 2 ^ 30 := by
  rcases kept with rfl | rfl
  · exact h
  · rw [elapsed_self]
    exact Nat.zero_le _

theorem TimesWithin.detects {s t : State} (h : TimesWithin s) (l : Detects s t) : TimesWithin t where
  stateEntry g := l.shuts.now ▸ elapsed_kept (l.times g).stateEntry (h.stateEntry g)
  stopEntry g := l.shuts.now ▸ elapsed_kept (l.times g).stopEntry (h.stopEntry g)
  proceedStart g := by
    rw [l.shuts.now, (l.shuts.groups g).proceedStart]
    exact h.proceedStart g
  proceedEnd g := l.shuts.now ▸ elapsed_kept (l.times g).proceedEnd (h.proceedEnd g)
  gapExit g x e := by
    rw [l.shuts.fbs] at e
    rw [l.shuts.now]
    exact h.gapExit g x e

theorem jnow_advanceCount (s : State) : jnow (advanceCount s) = jnow s + 1 := rfl

theorem advanceCount_timesWithin (s : State) : TimesWithin (advanceCount s) := by
  refine ⟨fun g => ?_, fun g => ?_, fun g => ?_, fun g => ?_, fun g x e => ?_⟩
  case refine_5 =>
    have exits : (advanceCount s).fbs.lastGapExit[g] = (s.fbs.lastGapExit[g]).map (aged (jnow s + 1)) := by
      simp [advanceCount]
    rw [exits] at e
    obtain ⟨y, _, rfl⟩ := Option.map_eq_some_iff.1 e
    exact elapsed_aged_le _ _
  all_goals
    rw [grp_advanceCount, jnow_advanceCount]
    exact elapsed_aged_le _ _

theorem judgedLamps_timesWithin (currents : List Nat) {s : State} (h : TimesWithin s) :
    TimesWithin (judgedLamps currents s) := by
  unfold judgedLamps
  obtain ⟨entry, stop, start, lastProceed, gap⟩ := h
  exact ⟨by simpa using entry, by simpa using stop, by simpa using start, by simpa using lastProceed, by simpa using gap⟩

theorem fbsDue_timesWithin {s : State} (h : TimesWithin s) (b : Bool) : TimesWithin { s with fbsDue := b } :=
  ⟨h.stateEntry, h.stopEntry, h.proceedStart, h.proceedEnd, h.gapExit⟩

theorem advanceStage_timesWithin {s : State} (h : TimesWithin s) : TimesWithin (advanceStage s) := by
  obtain ⟨b, advanced⟩ := advanceStage_detects s
  exact (fbsDue_timesWithin h b).detects advanced

/-! ### The end of a stage at the advance (log entry 2) -/

theorem memberHasRow_iff (s : State) (n : Stage) (g : Group) : memberHasRow s n g = true ↔
    inSet s.sel.stages[n] g = true ∧ (gapRunsOut s g = true ∨
      ((grp s g).state = .proceedExt ∧ maxOutCondition s g = true) ∨
      ((grp s g).state = .proceedMin ∧ minProceed s.cs.image g ≤ elapsed (jnow s) (grp s g).proceedStart)) := by
  simp [memberHasRow, minProceedRun, or_assoc]

theorem endsAtAdvance_iff (s : State) : endsAtAdvance s = true ↔ fbsActs s = true ∧
    ∃ n, s.fbs.current = some n ∧ stageEnds s n = true ∧ ∀ g, memberHasRow s n g = false := by
  unfold endsAtAdvance
  cases s.fbs.current <;> simp [allGroups]

theorem advanceStage_of_not {s : State} (h : endsAtAdvance s ≠ true) : advanceStage s = s := if_neg h

theorem memberFlagChanged_self (s : State) : memberFlagChanged s s = false := by
  unfold memberFlagChanged
  split <;> simp

/-- R75: with no next stage the sequencer keeps stage and target. -/
theorem evalStage_of_no_next {s : State} {n : Stage} (current : s.fbs.current = some n) (next : nextStage s n = none) :
    evalStage s = s := by
  unfold evalStage
  rw [current]
  dsimp only
  rw [next]
  simp

/-- R72, R73: the sequencer's record and the selector's as the end of a stage writes them. -/
def stageWritten (k : Stage) (s : State) : State :=
  { s with
    fbs := { s.fbs with current := some k }
    sel := { s.sel with target := s.sel.stages[k], generation := s.sel.generation + 1, reported := false } }

theorem evalStage_of_next {s : State} {n k : Stage} (acts : fbsActs s = true) (current : s.fbs.current = some n)
    (ends : stageEnds s n = true) (next : nextStage s n = some k) :
    evalStage s = evalReached (clearMaxedOut (stageWritten k s)) := by
  unfold evalStage
  rw [if_pos acts, current]
  dsimp only
  rw [if_pos ends, next]
  rfl

theorem settleStage_of_no_next {s : State} {n : Stage} (current : s.fbs.current = some n) (next : nextStage s n = none)
    (none : terminating s = []) : settleStage s = s := by
  unfold settleStage
  rw [evalStage_of_no_next current next]
  dsimp only
  rw [memberFlagChanged_self]
  unfold settleRounds
  rw [if_pos none]
  rfl

theorem settleStage_of_next {s : State} {n k : Stage} (acts : fbsActs s = true) (current : s.fbs.current = some n)
    (ends : stageEnds s n = true) (next : nextStage s n = some k) : Follows noGroup (stageWritten k s) (settleStage s) := by
  unfold settleStage
  rw [evalStage_of_next acts current ends next]
  exact ((clearMaxedOut_follows (stageWritten k s) acts).trans (evalReached_follows _)).trans (settleRounds_follows _ _ _ _)

/-- R75: the new target stands at the end of the arrival where a member of the next stage cannot be finished in it. -/
theorem settleStage_stands {s : State} {n k : Stage} (acts : fbsActs s = true) (current : s.fbs.current = some n)
    (ends : stageEnds s n = true) (next : nextStage s n = some k) (member : ∃ x, inSet s.sel.stages[k] x = true ∧
      Unfinished (clearMaxedOut (stageWritten k s)) x) : StageStands k (stageWritten k s).sel (settleStage s) := by
  have written : StageStands k (stageWritten k s).sel (clearMaxedOut (stageWritten k s)) :=
    ⟨by simp [clearMaxedOut, stageWritten], by simp [clearMaxedOut, stageWritten], member⟩
  unfold settleStage
  rw [evalStage_of_next acts current ends next]
  exact written.evalReached.settleRounds _ _ _

/-- What a clear of the maxed-out flags may leave unfinished. -/
theorem unfinished_clearMaxedOut {s : State} {x : Group}
    (h : (grp s x).state = .prepare ∨ ((grp s x).state = .proceedMin ∧ maxHasRun s x = false) ∨
      (((grp s x).state = .stop ∨ (grp s x).state = .clearance) ∧ s.pu.list = [] ∧ groupKind s.cs.image x ≠ .none ∧
        (grp s x).inhibited = false ∧ (ovl s x).block = false)) : Unfinished (clearMaxedOut s) x := by
  have group : grp (clearMaxedOut s) x = { grp s x with maxedOut := false } := by simp [clearMaxedOut]
  have pu : (clearMaxedOut s).pu = s.pu := by simp [clearMaxedOut]
  have cs : (clearMaxedOut s).cs = s.cs := by simp [clearMaxedOut]
  have run : maxHasRun (clearMaxedOut s) x = maxHasRun s x := by simp [maxHasRun, clearMaxedOut]
  unfold Unfinished
  rw [group, run, pu, cs, ovl, pu]
  rcases h with h | h | ⟨state, list, kind, free, unblocked⟩
  · exact .inl h
  · exact .inr (.inl h)
  · exact .inr (.inr ⟨state, list, kind, free, unblocked, rfl⟩)

end Sys2Proof.Machine

namespace Sys2Proof.Machine

/-! ### The advance as a whole -/

theorem judgedLamps_fields (currents : List Nat) (s : State) : (judgedLamps currents s).fbsDue = s.fbsDue ∧
    (judgedLamps currents s).lou.boundaryDue = s.lou.boundaryDue := by
  unfold judgedLamps
  simp [setLamps]

theorem advanceCount_fields (s : State) : (advanceCount s).fbsDue = true ∧
    (advanceCount s).lou.boundaryDue = decide ((s.sge.clock + 1).toNat % 10 = 0) := ⟨rfl, rfl⟩

theorem judged_shuts (currents : List Nat) (s : State) :
    Shuts (setLamps s (evaluatedRecord s currents)) (evaluateLamps currents s) := (evaluateLamps_detects currents s).shuts

theorem Detects.boundaryDue {s t : State} (h : Detects s t) : t.lou.boundaryDue = s.lou.boundaryDue := by
  rw [h.shuts.lou]

theorem advanceStage_boundaryDue (s : State) : (advanceStage s).lou.boundaryDue = s.lou.boundaryDue := by
  obtain ⟨b, advanced⟩ := advanceStage_detects s
  exact advanced.boundaryDue

theorem exec_junctionClockAdvance (currents : List Nat) (s : State) :
    exec (.junctionClockAdvance currents) s = .next (junctionAdvance currents s) := rfl

/-- Settles O22: what follows the count only shuts groups, at times that are now; where the advance ends the stage, the
rounds that follow keep what it has written while a member of the new stage cannot be finished. -/
theorem junctionClockAdvanceCounts : Obligations.JunctionClockAdvanceCounts := by
  unfold Obligations.JunctionClockAdvanceCounts
  intro currents s v hv
  have ran : junctionAdvance currents s = advanceStage v := by rw [hv]; rfl
  obtain ⟨clock, du, cs, igm⟩ := junctionAdvance_timed currents s
  rw [ran] at clock du cs igm
  have timed := takeDue_timed s
  have judged := evaluateLamps_detects currents (advanceCount (takeDue s))
  have within := (judgedLamps_timesWithin currents (advanceCount_timesWithin (takeDue s))).detects judged
  obtain ⟨judgedDue, judgedBoundary⟩ := judgedLamps_fields currents (advanceCount (takeDue s))
  obtain ⟨countedDue, countedBoundary⟩ := advanceCount_fields (takeDue s)
  have shuts := judged_shuts currents (advanceCount (takeDue s))
  rw [← hv] at judged within shuts
  have due : v.fbsDue = true := judged.shuts.fbsDue.trans (judgedDue.trans countedDue)
  have boundary : v.lou.boundaryDue = decide ((s.sge.clock + 1).toNat % 10 = 0) := by
    rw [judged.boundaryDue, judgedBoundary, countedBoundary, timed.clock]
  have ended (acts : fbsActs v = true) {n : Stage} (current : v.fbs.current = some n) (ends : stageEnds v n = true)
      (rows : ∀ g, memberHasRow v n g = false) : advanceStage v = settleStage { v with fbsDue := false } :=
    if_pos ((endsAtAdvance_iff v).2 ⟨acts, n, current, ends, rows⟩)
  have kept (h : ∀ n, fbsActs v = true → v.fbs.current = some n → stageEnds v n = true →
      ¬ ∀ g, memberHasRow v n g = false) : advanceStage v = v := by
    refine advanceStage_of_not fun e => ?_
    obtain ⟨acts, n, current, ends, rows⟩ := (endsAtAdvance_iff v).1 e
    exact h n acts current ends rows
  obtain ⟨entry, stop, start, proceedEnd, gap⟩ := advanceStage_timesWithin within
  refine ⟨advanceStage v, (exec_junctionClockAdvance currents s).trans (congrArg Host.Outcome.next ran), clock, due, (advanceStage_boundaryDue v).trans boundary,
    fun g => ⟨entry g, stop g, start g, proceedEnd g⟩, gap, shuts, fun none => ?_, fun n current lasts => ?_,
    fun n g current mem row => ?_, fun n acts current ends rows => ?_, du, cs, igm⟩
  · refine kept fun n acts current _ _ => ?_
    rw [acts, current] at none
    rcases none with h | h <;> cases h
  · refine kept fun m _ same ends _ => ?_
    rw [current] at same
    cases same
    rw [lasts] at ends
    cases ends
  · refine kept fun m _ same _ free => ?_
    rw [current] at same
    cases same
    have has := (memberHasRow_iff v n g).2 ⟨mem, row⟩
    rw [free g] at has
    cases has
  · have rows (g : Group) : memberHasRow v n g = false := by
      refine Bool.eq_false_iff.2 fun h => ?_
      obtain ⟨mem, row⟩ := (memberHasRow_iff v n g).1 h
      obtain ⟨gap, max, min⟩ := rows g mem
      rcases row with row | row | row
      · rw [gap] at row
        cases row
      · exact max row
      · exact min row
    rw [ended acts current ends rows]
    refine ⟨fun next => ⟨settleStage_follows _, fun none => settleStage_of_no_next current next none⟩,
      fun k next => ⟨settleStage_of_next (s := { v with fbsDue := false }) acts current ends next, fun ⟨x, mem, unblocked⟩ => ?_⟩⟩
    have stands := settleStage_stands (s := { v with fbsDue := false }) acts current ends next
      ⟨x, mem, unfinished_clearMaxedOut (s := stageWritten k { v with fbsDue := false }) unblocked⟩
    exact ⟨stands.current, by rw [stands.sel]; rfl, by rw [stands.sel]; rfl⟩

end Sys2Proof.Machine

/-! ## What an evaluation finds and hands on (R151 to R160) -/

namespace Sys2Proof.Machine

/-! ### The red-out set, the lit counts and the inhibited flags -/

/-- Neither the red-out set, nor a consecutive-lit count, nor an inhibited flag changes. -/
structure RedOutKept (s t : State) : Prop where
  redOut : t.lou.redOut = s.lou.redOut
  litCount : ∀ ch, (lamp t ch).litCount = (lamp s ch).litCount
  inhibited : ∀ g, (grp t g).inhibited = (grp s g).inhibited
  igm : t.igm = s.igm

namespace RedOutKept

theorem refl (s : State) : RedOutKept s s := ⟨rfl, fun _ => rfl, fun _ => rfl, rfl⟩

theorem trans {s t u : State} (h : RedOutKept s t) (k : RedOutKept t u) : RedOutKept s u :=
  ⟨k.redOut.trans h.redOut, fun ch => (k.litCount ch).trans (h.litCount ch),
    fun g => (k.inhibited g).trans (h.inhibited g), k.igm.trans h.igm⟩

theorem of_parts {s t : State} (lou : t.lou = s.lou) (groups : ∀ g, (grp t g).inhibited = (grp s g).inhibited)
    (igm : t.igm = s.igm) : RedOutKept s t :=
  ⟨by rw [lou], fun ch => by rw [lamp, lou]; rfl, groups, igm⟩

theorem of_foldl {α : Type} {f : State → α → State} (h : ∀ s a, RedOutKept s (f s a)) (l : List α) (s : State) :
    RedOutKept s (l.foldl f s) := by
  induction l generalizing s with
  | nil => exact .refl s
  | cons a l ih => exact (h s a).trans (ih _)

end RedOutKept

theorem recommand_litCount (now : Time) (c : LampCommand) (r : LampRec) : (recommand now c r).litCount = r.litCount := by
  rw [recommand_shape]

theorem GroupFollows.inhibited {now : Time} {cap : Nat} {a b : GroupRec} (h : GroupFollows now cap a b) :
    b.inhibited = a.inhibited := by
  cases h with
  | kept same _ => rw [same]
  | ended _ _ _ record => rw [record]

theorem Follows.redOutKept {s t : State} (h : Follows noGroup s t) : RedOutKept s t := by
  refine ⟨by rw [h.lou], fun ch => ?_, fun g => (h.groups g).inhibited, h.igm⟩
  rw [h.lamps ch rfl]
  split
  · rfl
  · exact recommand_litCount _ _ _

theorem latch_redOutKept (k : FaultKind) (d : BitVec 72) (s : State) : RedOutKept s (latch k d s) := by
  unfold latch
  exact .of_parts (by simp) (fun g => by simp) (by simp)

theorem driveFlt_redOutKept (s : State) : RedOutKept s (driveFlt s) := .of_parts rfl (fun _ => rfl) rfl

theorem faultEntry_redOutKept (s : State) : RedOutKept s (faultEntry s) := by
  have rest := enterResting_spec (faultAspect s.cs.image) (setGroups s fun g => stoppedByFault (jnow s) (grp s g))
  refine ⟨?_, fun ch => ?_, fun g => ?_, ?_⟩
  · have lou := rest.lou
    unfold faultEntry
    rw [lou]
    simp
  · have lamps := rest.lamps ch
    unfold faultEntry
    rw [lamps, recommand_litCount]
    simp
  · rw [grp_faultEntry]
    unfold stoppedByFault
    split <;> rfl
  · have igm := rest.igm
    unfold faultEntry
    rw [igm]
    simp

theorem detect_redOutKept (k : FaultKind) (d : BitVec 72) (s : State) : RedOutKept s (detect k d s) := by
  unfold detect
  dsimp only
  have driven := (latch_redOutKept k d s).trans (driveFlt_redOutKept _)
  split
  · split
    · exact driven.trans (faultEntry_redOutKept _)
    · exact driven
  · exact latch_redOutKept k d s

theorem raiseMultiple_redOutKept (s : State) : RedOutKept s (raiseMultiple s) := by
  unfold raiseMultiple
  split
  · exact detect_redOutKept _ _ s
  · exact .refl s

theorem handRaised_redOutKept (ch : Lamp) (e : Evaluated) (s : State) : RedOutKept s (handRaised ch e s) := by
  unfold handRaised
  split
  · unfold raiseMismatch
    split
    · exact detect_redOutKept _ _ s
    · exact detect_redOutKept _ _ s
    · split <;> exact detect_redOutKept _ _ s
  · exact .refl s

theorem advanceStage_redOutKept (s : State) : RedOutKept s (advanceStage s) := by
  unfold advanceStage
  split
  · have due : RedOutKept s { s with fbsDue := false } := ⟨rfl, fun _ => rfl, fun _ => rfl, rfl⟩
    exact due.trans (settleStage_follows _).redOutKept
  · exact .refl s

/-- R154. -/
theorem raiseConflicts_redOutKept (currents : List Nat) (s : State) :
    RedOutKept (handedOn currents s) (evaluateLamps currents s) := by
  rw [evaluateLamps_eq]
  exact .of_foldl (fun t _ => detect_redOutKept _ _ t) _ _

/-! ### The inhibited flags (R23) -/

/-- R23: a group is inhibited exactly while it conflicts with a red-out group. -/
def InhibitsRight (s : State) : Prop :=
  ∀ g, ((grp s g).inhibited = true ↔ ∃ c, conflicts s c g = true ∧ inSet s.lou.redOut c = true)

theorem conflicts_congr {s t : State} (igm : t.igm = s.igm) (c g : Group) : conflicts t c g = conflicts s c g := by
  simp only [conflicts, intergreen, igm]

theorem InhibitsRight.kept {s t : State} (h : InhibitsRight s) (l : RedOutKept s t) : InhibitsRight t := by
  intro g
  rw [l.inhibited g, l.redOut]
  simp only [conflicts_congr l.igm]
  exact h g

theorem recomputeInhibits_right (s : State) : InhibitsRight (recomputeInhibits s) := by
  intro g
  have flag : (grp (recomputeInhibits s) g).inhibited =
      allGroups.any fun c => conflicts s c g && inSet s.lou.redOut c := by simp [recomputeInhibits]
  rw [flag, recomputeInhibits_lou]
  simp only [conflicts_congr (recomputeInhibits_igm s)]
  simp [allGroups]

theorem reportRedOut_right (s : State) : InhibitsRight (reportRedOut s) :=
  (recomputeInhibits_right s).kept (settleSince_follows s (recomputeInhibits s)).redOutKept

/-- R23: the computing anew changes neither red-out set nor lit count. -/
theorem reportRedOut_kept (s : State) : (reportRedOut s).lou.redOut = s.lou.redOut ∧
    ∀ ch, (lamp (reportRedOut s) ch).litCount = (lamp s ch).litCount := by
  have follows := (settleSince_follows s (recomputeInhibits s)).redOutKept
  unfold reportRedOut
  refine ⟨by rw [follows.redOut, recomputeInhibits_lou], fun ch => ?_⟩
  rw [follows.litCount ch, lamp, recomputeInhibits_lou]
  rfl

/-! ### Membership of the red-out set (R158, R160) -/

theorem inSet_setBit (w : GroupSet) (g c : Group) : inSet (setBit w g) c = (inSet w c || decide (c = g)) := by
  have := c.isLt
  simp only [inSet, setBit, BitVec.getLsbD_or, BitVec.getLsbD_shiftLeft, BitVec.getLsbD_one, Fin.ext_iff]
  congr 1
  rw [Bool.eq_iff_iff]
  simp
  omega

theorem inSet_clearBit (w : GroupSet) (g c : Group) : inSet (clearBit w g) c = (inSet w c && !decide (c = g)) := by
  have := c.isLt
  simp only [inSet, clearBit, BitVec.getLsbD_and, BitVec.getLsbD_not, BitVec.getLsbD_shiftLeft, BitVec.getLsbD_one,
    Fin.ext_iff]
  congr 1
  rw [Bool.eq_iff_iff]
  simp
  omega

/-- R158: the group marked red-out, before anything is raised. -/
def markedRedOut (g : Group) (s : State) : State :=
  let unlit := setLamp s (stopLamp g) { lamp s (stopLamp g) with litCount := 0 }
  { unlit with lou := { unlit.lou with redOut := setBit unlit.lou.redOut g } }

theorem becomeRedOut_eq (g : Group) (s : State) : becomeRedOut g s = if inSet s.lou.redOut g then s
    else raiseMultiple (reportRedOut (detect .redOut (detailItem (number g)) (markedRedOut g s))) := rfl

theorem markedRedOut_redOut (g : Group) (s : State) : (markedRedOut g s).lou.redOut = setBit s.lou.redOut g := rfl

theorem markedRedOut_litCount (g : Group) (s : State) (ch : Lamp) :
    (lamp (markedRedOut g s) ch).litCount = if stopLamp g = ch then 0 else (lamp s ch).litCount := by
  have same : lamp (markedRedOut g s) ch = lamp (setLamp s (stopLamp g) { lamp s (stopLamp g) with litCount := 0 }) ch :=
    rfl
  rw [same, lamp_setLamp]
  split <;> rfl

/-- R158: `g` has become red-out: it alone joins the set, and only the lit count of its stop lamp may be set to 0. -/
structure BecameRedOut (g : Group) (s t : State) : Prop where
  member : ∀ c, inSet t.lou.redOut c = (inSet s.lou.redOut c || decide (c = g))
  litCount : ∀ ch, ch ≠ stopLamp g → (lamp t ch).litCount = (lamp s ch).litCount
  own : (lamp t (stopLamp g)).litCount = (lamp s (stopLamp g)).litCount ∨ (lamp t (stopLamp g)).litCount = 0
  right : InhibitsRight s → InhibitsRight t

theorem becomeRedOut_spec (g : Group) (s : State) : BecameRedOut g s (becomeRedOut g s) := by
  rw [becomeRedOut_eq]
  split
  · rename_i mem
    refine ⟨fun c => ?_, fun _ _ => rfl, .inl rfl, id⟩
    by_cases same : c = g
    · rw [same, mem]
      rfl
    · simp [same]
  · have detected := detect_redOutKept .redOut (detailItem (number g)) (markedRedOut g s)
    obtain ⟨reported, counts⟩ := reportRedOut_kept (detect .redOut (detailItem (number g)) (markedRedOut g s))
    have raised := raiseMultiple_redOutKept (reportRedOut (detect .redOut (detailItem (number g)) (markedRedOut g s)))
    have total (ch : Lamp) := (raised.litCount ch).trans ((counts ch).trans (detected.litCount ch))
    refine ⟨fun c => ?_, fun ch other => ?_, .inr ?_, fun _ => (reportRedOut_right _).kept raised⟩
    · rw [raised.redOut, reported, detected.redOut, markedRedOut_redOut, inSet_setBit]
    · rw [total, markedRedOut_litCount, if_neg fun e => other e.symm]
    · rw [total, markedRedOut_litCount, if_pos rfl]

/-- R160: `g` has left the red-out set. -/
structure LeftRedOut (g : Group) (s t : State) : Prop where
  member : ∀ c, inSet t.lou.redOut c = (inSet s.lou.redOut c && !decide (c = g))
  litCount : ∀ ch, (lamp t ch).litCount = (lamp s ch).litCount
  right : InhibitsRight s ∨ inSet s.lou.redOut g = true → InhibitsRight t

theorem leaveRedOut_spec (g : Group) (s : State) : LeftRedOut g s (leaveRedOut g s) := by
  unfold leaveRedOut
  split
  · obtain ⟨reported, counts⟩ := reportRedOut_kept { s with lou := { s.lou with redOut := clearBit s.lou.redOut g } }
    refine ⟨fun c => ?_, fun ch => (counts ch).trans rfl, fun _ => reportRedOut_right _⟩
    rw [reported]
    exact inSet_clearBit _ _ _
  · rename_i out
    refine ⟨fun c => ?_, fun _ => rfl, fun h => h.resolve_right out⟩
    by_cases same : c = g
    · rw [same, Bool.eq_false_iff.2 out]
      rfl
    · simp [same]

end Sys2Proof.Machine

namespace Sys2Proof.Machine

/-! ### What the other channels leave of a channel -/

theorem stopLamp_lampGroup {ch : Lamp} (h : lampPos ch = 0) : stopLamp (lampGroup ch) = ch := by
  simp only [lampPos, stopLamp, lampGroup, Fin.ext_iff, Fin.val_zero] at *
  omega

/-- What is handed on leaves a channel's lit count and, of a stop channel, its group's place in the red-out set. -/
structure Spares (ch : Lamp) (s t : State) : Prop where
  litCount : (lamp t ch).litCount = (lamp s ch).litCount
  member : lampPos ch = 0 → inSet t.lou.redOut (lampGroup ch) = inSet s.lou.redOut (lampGroup ch)
  right : InhibitsRight s → InhibitsRight t

namespace Spares

theorem refl (ch : Lamp) (s : State) : Spares ch s s := ⟨rfl, fun _ => rfl, id⟩

theorem trans {ch : Lamp} {s t u : State} (h : Spares ch s t) (k : Spares ch t u) : Spares ch s u :=
  ⟨k.litCount.trans h.litCount, fun p => (k.member p).trans (h.member p), fun r => k.right (h.right r)⟩

theorem of_ite {p : Prop} [Decidable p] {ch : Lamp} {s t : State} (h : p → Spares ch s t) :
    Spares ch s (if p then t else s) := by
  split
  · rename_i k; exact h k
  · exact .refl ch s

theorem of_foldl {α : Type} {f : State → α → State} {ch : Lamp} {l : List α} (h : ∀ a ∈ l, ∀ s, Spares ch s (f s a))
    (s : State) : Spares ch s (l.foldl f s) := by
  induction l generalizing s with
  | nil => exact .refl ch s
  | cons a l ih =>
    exact (h a List.mem_cons_self s).trans (ih (fun b mem => h b (List.mem_cons_of_mem a mem)) _)

end Spares

theorem RedOutKept.spares {s t : State} (h : RedOutKept s t) (ch : Lamp) : Spares ch s t :=
  ⟨h.litCount ch, fun _ => by rw [h.redOut], fun r => r.kept h⟩

theorem lampGroup_ne {p ch : Lamp} (other : p ≠ ch) (hp : lampPos p = 0) (hc : lampPos ch = 0) :
    lampGroup ch ≠ lampGroup p := by
  intro same
  rw [← stopLamp_lampGroup hp, ← stopLamp_lampGroup hc, same] at other
  exact other rfl

/-- R158, R160: what a channel brings moves no other channel's group. -/
theorem handOn_spares {p ch : Lamp} {e : Evaluated} (h : p ≠ ch ∨ e.outReached = false ∧ e.litReached = false)
    (s : State) : Spares ch s (handOn p e s) := by
  have other (reached : e.outReached = true ∨ e.litReached = true) : p ≠ ch := by
    refine h.resolve_right fun ⟨out, lit⟩ => ?_
    rw [out, lit] at reached
    rcases reached with r | r <;> cases r
  have becomes (u : State) (k : (e.outReached && decide (lampPos p = 0)) = true) :
      Spares ch u (becomeRedOut (lampGroup p) u) := by
    obtain ⟨out, pos⟩ := Bool.and_eq_true_iff.1 k
    have pos := of_decide_eq_true pos
    have ne := other (.inl out)
    have spec := becomeRedOut_spec (lampGroup p) u
    refine ⟨spec.litCount ch ?_, fun hc => ?_, spec.right⟩
    · rw [stopLamp_lampGroup pos]
      exact ne.symm
    · rw [spec.member, decide_eq_false (lampGroup_ne ne pos hc), Bool.or_false]
  have leaves (u : State) (k : (e.litReached && decide (lampPos p = 0)) = true) :
      Spares ch u (leaveRedOut (lampGroup p) u) := by
    obtain ⟨lit, pos⟩ := Bool.and_eq_true_iff.1 k
    have pos := of_decide_eq_true pos
    have spec := leaveRedOut_spec (lampGroup p) u
    refine ⟨spec.litCount ch, fun hc => ?_, fun r => spec.right (.inl r)⟩
    rw [spec.member, decide_eq_false (lampGroup_ne (other (.inr lit)) pos hc)]
    simp
  rw [handOn_eq]
  exact (((handRaised_redOutKept p e s).spares ch).trans (.of_ite (becomes _))).trans (.of_ite (leaves _))

/-- R151: each used channel is found once. -/
theorem found_split {s : State} {currents : List Nat} {ch : Lamp} {e : Evaluated}
    (h : evaluateLamp s currents ch = some e) : ∃ l r, found currents s = l ++ (ch, e) :: r ∧
      (∀ p ∈ l, p.1 ≠ ch) ∧ ∀ p ∈ r, p.1 ≠ ch := by
  obtain ⟨a, b, all⟩ := List.append_of_mem (List.mem_finRange ch)
  have once : (a ++ ch :: b).Nodup := all ▸ List.nodup_finRange 72
  have apart := List.nodup_middle.1 once
  obtain ⟨out, _⟩ := List.nodup_cons.1 apart
  rw [List.mem_append, not_or] at out
  have other (l : List Lamp) (free : ch ∉ l) (p : Lamp × Evaluated)
      (mem : p ∈ l.filterMap fun c => (evaluateLamp s currents c).map fun e => (c, e)) : p.1 ≠ ch := by
    obtain ⟨c, hc, hp⟩ := List.mem_filterMap.1 mem
    obtain ⟨_, _, rfl⟩ := Option.map_eq_some_iff.1 hp
    exact fun same => free (same ▸ hc)
  refine ⟨_, _, ?_, other a out.1, other b out.2⟩
  rw [found, all, List.filterMap_append, List.filterMap_cons, h]
  rfl

/-- R153: what the other channels hand on before and after a channel leaves it alone. -/
theorem handedOn_split {s : State} {currents : List Nat} {ch : Lamp} {e : Evaluated}
    (h : evaluateLamp s currents ch = some e) : ∃ x, Spares ch (judgedLamps currents s) x ∧
      Spares ch (handOn ch e x) (advanceStage (evaluateLamps currents s)) := by
  obtain ⟨l, r, split, before, after⟩ := found_split h
  have ran : handedOn currents s = r.foldl (fun t p => handOn p.1 p.2 t)
      (handOn ch e (l.foldl (fun t p => handOn p.1 p.2 t) (judgedLamps currents s))) := by
    rw [handedOn, split, List.foldl_append, List.foldl_cons]
  refine ⟨l.foldl (fun t p => handOn p.1 p.2 t) (judgedLamps currents s),
    .of_foldl (fun p mem t => handOn_spares (.inl (before p mem)) t) _, ?_⟩
  have rest := (raiseConflicts_redOutKept currents s).trans (advanceStage_redOutKept _)
  refine Spares.trans ?_ (rest.spares ch)
  rw [ran]
  exact .of_foldl (fun p mem t => handOn_spares (.inl (after p mem)) t) _

end Sys2Proof.Machine

namespace Sys2Proof.Machine

/-! ### One channel's judgement (R151, R152) -/

/-- R151: the class is what the two bounds on the current say. -/
theorem classify_eq {current nominal percent : Nat} {res : ProvingResult}
    (lit : 75 * (nominal * percent) ≤ current * 10000 ↔ res = .lit)
    (dark : 75 * (nominal * percent) > current * 10000 ∧ current * 10000 ≤ 10 * (nominal * percent) ↔ res = .dark) :
    classify current nominal percent = res := by
  unfold classify
  rw [Nat.mul_assoc, Nat.mul_assoc]
  split
  · rename_i h
    exact (lit.1 h).symm
  · rename_i below
    split
    · rename_i h
      exact (dark.1 ⟨not_le.1 below, h⟩).symm
    · rename_i above
      cases res with
      | lit => exact absurd (lit.2 rfl) below
      | dark => exact absurd (dark.2 rfl).2 above
      | partly => rfl

theorem judgement_none_iff (expected : Bool) (res : ProvingResult) : judgement expected res = none ↔
    expected = true ∧ res = .lit ∨ expected = false ∧ res = .dark := by
  cases expected <;> cases res <;> simp [judgement]

theorem judgement_some_iff (expected : Bool) (res : ProvingResult) (m : Mismatch) : judgement expected res = some m ↔
    expected = true ∧ (res = .dark ∧ m = .out ∨ res = .partly ∧ m = .partly) ∨
      expected = false ∧ res ≠ .dark ∧ m = .uncommanded := by
  cases expected <;> cases res <;> simp [judgement, eq_comm]

theorem threshold_eq (m : Mismatch) : threshold m = if m = .uncommanded then 2 else 3 := by cases m <;> rfl

theorem runLength_of_ne {m : Mismatch} {r : LampRec} (h : r.run ≠ some m) : runLength m r = 1 := if_neg h

theorem runLength_of_eq {m : Mismatch} {r : LampRec} (h : r.run = some m) (room : r.mismatches < 255) :
    runLength m r = r.mismatches + 1 := by
  rw [runLength, if_pos h, saturate, if_pos room]

theorem reachesThreshold_iff (m : Mismatch) (r : LampRec) : reachesThreshold m r = true ↔
    r.run = some m ∧ r.mismatches + 1 = threshold m := by
  have small : 2 ≤ threshold m ∧ threshold m ≤ 3 := by cases m <;> decide
  simp only [reachesThreshold, Bool.and_eq_true, decide_eq_true_eq]
  by_cases run : r.run = some m
  · rw [runLength, if_pos run, saturate]
    refine ⟨fun ⟨length, before⟩ => ⟨run, ?_⟩, fun ⟨_, length⟩ => ⟨?_, fun _ => by omega⟩⟩
    · have := before run
      split at length <;> omega
    · split <;> omega
  · rw [runLength_of_ne run]
    exact ⟨fun ⟨length, _⟩ => by omega, fun ⟨same, _⟩ => absurd same run⟩

theorem raises_iff (m : Mismatch) (r : LampRec) : raises m r = true ↔
    r.run = some m ∧ (r.mismatches + 1 = threshold m ∨ r.rearmed = true) := by
  simp only [raises, Bool.or_eq_true, reachesThreshold_iff, Bool.and_eq_true, decide_eq_true_eq, and_or_left]

/-- R151, R152: a channel that settles records the sample alone. -/
theorem evaluateChannel_settling {current nominal percent : Nat} {r : LampRec} (h : r.settling = true) :
    evaluateChannel current nominal percent r =
      { record := { r with
          sensed := some current, result := some (classify current nominal percent), settling := false }
        raised := none, outReached := false, litReached := false, showing := false } := by
  simp only [evaluateChannel, h, if_true]

section

variable {current nominal percent : Nat} {r : LampRec}

theorem evaluateChannel_result : (evaluateChannel current nominal percent r).record.sensed = some current ∧
    (evaluateChannel current nominal percent r).record.result = some (classify current nominal percent) := by
  unfold evaluateChannel
  dsimp only
  split
  · exact ⟨rfl, rfl⟩
  · unfold judged
    split <;> exact ⟨rfl, rfl⟩

theorem evaluateChannel_record (h : r.settling = false) : (evaluateChannel current nominal percent r).record =
    judged (classify current nominal percent) { r with
      sensed := some current, result := some (classify current nominal percent), settling := false } := by
  simp [evaluateChannel, h]

/-- R152: a match ends the run. -/
theorem evaluateChannel_match (h : r.settling = false)
    (j : judgement r.output (classify current nominal percent) = none) :
    (evaluateChannel current nominal percent r).record.run = none ∧
      (evaluateChannel current nominal percent r).record.mismatches = 0 ∧
      (evaluateChannel current nominal percent r).record.lastRaised = r.lastRaised := by
  rw [evaluateChannel_record h]
  unfold judged
  simp [j]

/-- R152: a mismatch begins a run, or goes on with it, and may raise. -/
theorem evaluateChannel_mismatch {m : Mismatch} (h : r.settling = false)
    (j : judgement r.output (classify current nominal percent) = some m) :
    (evaluateChannel current nominal percent r).record.run = some m ∧
      (evaluateChannel current nominal percent r).record.mismatches = runLength m r ∧
      (evaluateChannel current nominal percent r).record.lastRaised =
        (if raises m r then some m else r.lastRaised) ∧
      (evaluateChannel current nominal percent r).raised = if raises m r then some m else none := by
  have raised : (evaluateChannel current nominal percent r).raised = if raises m r then some m else none := by
    simp [evaluateChannel, h, j]
  rw [evaluateChannel_record h, raised, judged]
  simp only [j]
  exact ⟨trivial, rfl, rfl, trivial⟩

theorem evaluateChannel_rearmed : (evaluateChannel current nominal percent r).record.rearmed =
    (r.settling && r.rearmed) := by
  by_cases h : r.settling = true
  · rw [evaluateChannel_settling h, h]
    simp
  · have h := Bool.eq_false_iff.2 h
    rw [evaluateChannel_record h, h]
    unfold judged
    split
    · rfl
    · rename_i m j
      simp only [raises, reachesThreshold, runLength, Bool.false_and]
      cases decide (r.run = some m) <;> cases r.rearmed <;> simp

theorem evaluateChannel_litCount : (evaluateChannel current nominal percent r).record.litCount =
    if r.settling = true ∨ r.output = false then r.litCount
    else if classify current nominal percent = .lit then (if r.litCount < 255 then r.litCount + 1 else 255) else 0 := by
  by_cases h : r.settling = true
  · rw [evaluateChannel_settling h, if_pos (.inl h)]
  · have counts : (evaluateChannel current nominal percent r).record.litCount =
        litAfter r.output (classify current nominal percent) r := by
      rw [evaluateChannel_record (Bool.eq_false_iff.2 h)]
      unfold judged
      split <;> rfl
    rw [counts, litAfter]
    cases r.output <;> simp [h, saturate]

theorem outReached_iff : (evaluateChannel current nominal percent r).outReached = true ↔ r.settling = false ∧
    r.output = true ∧ classify current nominal percent = .dark ∧ r.run = some .out ∧ r.mismatches = 2 ∧
      r.command = .on := by
  by_cases h : r.settling = true
  · rw [evaluateChannel_settling h, h]
    simp
  · have h := Bool.eq_false_iff.2 h
    have bound : threshold .out = 3 := rfl
    simp only [evaluateChannel, h, Bool.false_eq_true, if_false, Bool.and_eq_true, decide_eq_true_eq,
      reachesThreshold_iff, judgement_some_iff, bound]
    simp [and_assoc]

theorem litReached_iff : (evaluateChannel current nominal percent r).litReached = true ↔ r.settling = false ∧
    r.output = true ∧ classify current nominal percent = .lit ∧ r.litCount = 9 := by
  by_cases h : r.settling = true
  · rw [evaluateChannel_settling h, h]
    simp
  · have h := Bool.eq_false_iff.2 h
    simp only [evaluateChannel, h, Bool.false_eq_true, if_false, Bool.and_eq_true, decide_eq_true_eq, true_and,
      and_assoc]
    refine and_congr_right fun output => and_congr_right fun lit => ?_
    simp only [litAfter, output, lit, if_true, saturate]
    split <;> omega

/-- R158, R160: no result is both the third OUT and the tenth LIT. -/
theorem not_litReached_of_outReached (h : (evaluateChannel current nominal percent r).outReached = true) :
    (evaluateChannel current nominal percent r).litReached = false := by
  obtain ⟨_, _, dark, _⟩ := outReached_iff.1 h
  refine Bool.eq_false_iff.2 fun tenth => ?_
  obtain ⟨_, _, lit, _⟩ := litReached_iff.1 tenth
  rw [dark] at lit
  cases lit

theorem litCount_of_outReached (h : (evaluateChannel current nominal percent r).outReached = true) :
    (evaluateChannel current nominal percent r).record.litCount = 0 := by
  obtain ⟨settled, output, dark, _⟩ := outReached_iff.1 h
  simp [evaluateChannel_litCount, settled, output, dark]

end

end Sys2Proof.Machine

namespace Sys2Proof.Machine

/-! ### What a channel brings of its own (R153, R158, R160) -/

/-- R153: the fault that a mismatch of a channel raises, and the item of its detail. -/
def mismatchFault (ch : Lamp) (m : Mismatch) : FaultKind × Nat :=
  if m = .partly then (.lampPartial, ch.val)
  else if m = .uncommanded ∧ lampPos ch = 2 then (.uncommandedProceed, (lampGroup ch).val)
  else (.lampOut, ch.val)

theorem raiseMismatch_raises (ch : Lamp) (m : Mismatch) (s : State) : ∃ d : BitVec 72,
    d.getLsbD (mismatchFault ch m).2 = true ∧ Raised (mismatchFault ch m).1 d s (raiseMismatch ch m s) := by
  have channel := getLsbD_detailItem ch (le_refl 72)
  cases m with
  | out => exact ⟨_, channel, detect_raises _ _ s⟩
  | partly => exact ⟨_, channel, detect_raises _ _ s⟩
  | uncommanded =>
    unfold raiseMismatch mismatchFault
    by_cases pos : lampPos ch = 2
    · simp only [pos, reduceCtorEq, and_self, if_true, if_false]
      exact ⟨_, getLsbD_detailItem (lampGroup ch) (by decide), detect_raises _ _ s⟩
    · simp only [pos, reduceCtorEq, and_false, if_false]
      exact ⟨_, channel, detect_raises _ _ s⟩

/-- R153: a channel that raises does so among the channels handed on. -/
theorem evaluateLamps_raises {s : State} {currents : List Nat} {ch : Lamp} {e : Evaluated} {m : Mismatch}
    (h : evaluateLamp s currents ch = some e) (raises : e.raised = some m) : ∃ d : BitVec 72,
      d.getLsbD (mismatchFault ch m).2 = true ∧
        Raised (mismatchFault ch m).1 d (judgedLamps currents s) (evaluateLamps currents s) := by
  obtain ⟨l, r, split, _⟩ := found_split h
  have mem : (ch, e) ∈ found currents s := by rw [split]; simp
  obtain ⟨x, before, after⟩ := foldl_reaches (f := fun t p => handOn p.1 p.2 t) (fun t p => handOn_detects p.1 p.2 t)
    mem (judgedLamps currents s)
  obtain ⟨d, item, raised⟩ := raiseMismatch_raises ch m x
  have own : Detects (raiseMismatch ch m x) (handOn ch e x) := by
    have same : handRaised ch e x = raiseMismatch ch m x := by rw [handRaised, raises]
    rw [handOn_eq, same]
    exact (Detects.of_ite fun _ => becomeRedOut_detects _ _).trans (.of_ite fun _ => leaveRedOut_detects _ _)
  refine ⟨d, item, Raised.since before ((raised.then own).then (after.trans ?_))⟩
  rw [evaluateLamps_eq]
  exact raiseConflicts_detects _ _

/-- R160: a channel's own lit count stands, but for the 0 that a red-out writes. -/
theorem handOn_litCount {ch : Lamp} {e : Evaluated} {s : State} (h : e.outReached = true → (lamp s ch).litCount = 0) :
    (lamp (handOn ch e s) ch).litCount = (lamp s ch).litCount := by
  have raised := (handRaised_redOutKept ch e s).litCount ch
  have became : (lamp (if e.outReached && decide (lampPos ch = 0) then becomeRedOut (lampGroup ch) (handRaised ch e s)
      else handRaised ch e s) ch).litCount = (lamp s ch).litCount := by
    split
    · rename_i k
      obtain ⟨out, pos⟩ := Bool.and_eq_true_iff.1 k
      have own := (becomeRedOut_spec (lampGroup ch) (handRaised ch e s)).own
      rw [stopLamp_lampGroup (of_decide_eq_true pos)] at own
      rcases own with same | zero
      · exact same.trans raised
      · rw [zero, h out]
    · exact raised
  rw [handOn_eq]
  split
  · exact ((leaveRedOut_spec _ _).litCount ch).trans became
  · exact became

/-- R158: the third OUT of a stop channel makes its group red-out. -/
theorem handOn_becomes {ch : Lamp} {e : Evaluated} (pos : lampPos ch = 0) (out : e.outReached = true)
    (lit : e.litReached = false) (s : State) : inSet (handOn ch e s).lou.redOut (lampGroup ch) = true := by
  have became : handOn ch e s = becomeRedOut (lampGroup ch) (handRaised ch e s) := by
    rw [handOn_eq, lit, out, pos]
    rfl
  rw [became, (becomeRedOut_spec _ _).member]
  simp

/-- R160: the tenth LIT of a stop channel takes its group out of the red-out set. -/
theorem handOn_leaves {ch : Lamp} {e : Evaluated} (pos : lampPos ch = 0) (out : e.outReached = false)
    (lit : e.litReached = true) (s : State) : inSet (handOn ch e s).lou.redOut (lampGroup ch) = false ∧
      (inSet s.lou.redOut (lampGroup ch) = true → InhibitsRight (handOn ch e s)) := by
  have left : handOn ch e s = leaveRedOut (lampGroup ch) (handRaised ch e s) := by
    rw [handOn_eq, lit, out, pos]
    rfl
  have spec := leaveRedOut_spec (lampGroup ch) (handRaised ch e s)
  rw [left]
  refine ⟨by rw [spec.member]; simp, fun mem => spec.right (.inr ?_)⟩
  rw [(handRaised_redOutKept ch e s).redOut, mem]

/-! ### A channel after an advance -/

/-- A used channel and its group after the evaluation of `s` that finds `e` there, and the rest of the advance. -/
structure AfterEvaluation (ch : Lamp) (e : Evaluated) (s t : State) : Prop where
  core : (lamp t ch).core = e.record.core
  litCount : (lamp t ch).litCount = e.record.litCount
  becomes : lampPos ch = 0 → e.outReached = true → inSet t.lou.redOut (lampGroup ch) = true
  leaves : lampPos ch = 0 → e.litReached = true → inSet t.lou.redOut (lampGroup ch) = false ∧
    (inSet s.lou.redOut (lampGroup ch) = true → InhibitsRight t)
  stands : lampPos ch = 0 → e.outReached = false → e.litReached = false →
    inSet t.lou.redOut (lampGroup ch) = inSet s.lou.redOut (lampGroup ch)

theorem lamp_judgedLamps {s : State} {currents : List Nat} {ch : Lamp} {e : Evaluated}
    (h : evaluateLamp s currents ch = some e) : lamp (judgedLamps currents s) ch = e.record := by
  rw [judgedLamps, lamp_setLamps, evaluatedRecord, h]

theorem judgedLamps_redOut (currents : List Nat) (s : State) : (judgedLamps currents s).lou.redOut = s.lou.redOut := by
  simp [judgedLamps, setLamps]

theorem advanceStage_lamp_core (s : State) (ch : Lamp) : (lamp (advanceStage s) ch).core = (lamp s ch).core := by
  obtain ⟨b, advanced⟩ := advanceStage_detects s
  exact advanced.shuts.lamps ch

theorem advanceStage_evaluated {s : State} {currents : List Nat} {ch : Lamp} {e : Evaluated}
    (h : evaluateLamp s currents ch = some e) (apart : e.outReached = true → e.litReached = false)
    (unlit : e.outReached = true → e.record.litCount = 0) :
    AfterEvaluation ch e s (advanceStage (evaluateLamps currents s)) := by
  obtain ⟨x, before, after⟩ := handedOn_split h
  have count : (lamp x ch).litCount = e.record.litCount := by rw [before.litCount, lamp_judgedLamps h]
  have member (pos : lampPos ch = 0) : inSet x.lou.redOut (lampGroup ch) = inSet s.lou.redOut (lampGroup ch) := by
    rw [before.member pos, judgedLamps_redOut]
  refine ⟨?_, ?_, fun pos out => ?_, fun pos lit => ?_, fun pos out lit => ?_⟩
  · rw [advanceStage_lamp_core, (evaluateLamps_detects currents s).shuts.lamps ch, lamp_judgedLamps h]
  · rw [after.litCount, handOn_litCount fun out => by rw [count, unlit out], count]
  · rw [after.member pos, handOn_becomes pos out (apart out)]
  · have out : e.outReached = false := Bool.eq_false_iff.2 fun out => by rw [apart out] at lit; cases lit
    obtain ⟨gone, right⟩ := handOn_leaves pos out lit x
    exact ⟨by rw [after.member pos, gone], fun mem => after.right (right ((member pos).trans mem))⟩
  · rw [after.member pos, (handOn_spares (.inr ⟨out, lit⟩) x).member pos, member pos]

end Sys2Proof.Machine

namespace Sys2Proof.Machine

/-- R153, R174, R175: a raising of the evaluation, at the end of the advance. -/
theorem advanceStage_raises {s : State} {currents : List Nat} {ch : Lamp} {e : Evaluated} {m : Mismatch}
    (h : evaluateLamp s currents ch = some e) (raises : e.raised = some m) {k : FaultKind} {n : Nat}
    (fault : (k, n) = mismatchFault ch m) {t : State} (ht : t = advanceStage (evaluateLamps currents s)) :
    (t.mfs.faults[k.code]).latched = true ∧ (t.mfs.faults[k.code]).detail.getLsbD n = true ∧
      min 255 ((s.mfs.faults[k.code]).count + 1) ≤ (t.mfs.faults[k.code]).count ∧
      ((s.mfs.faults[k.code]).masked = false →
        ∀ j : Station, (t.mfs.pending[j]).getLsbD Event.faultRaised.code.val = true) ∧
      (k = .uncommandedProceed → t.mfs.fltDriven = true ∧
        (s.mfs.mode = .startUp ∨ s.mfs.mode = .normal ∨ s.mfs.mode = .closing →
          t.mfs.mode = (faultAspect s.cs.image).mode)) := by
  obtain ⟨d, item, raised⟩ := evaluateLamps_raises h raises
  rw [← fault] at item raised
  have staged := raised.advanceStage
  rw [ht]
  refine ⟨staged.latched, staged.detail n item, staged.count, staged.event, fun critical => ?_⟩
  have critical : k.critical = true := by rw [critical]; rfl
  refine ⟨(staged.critical critical).1, fun mode => (FaultTaken.advanceStage (raised.faultTaken critical ?_)).mode⟩
  rcases mode with e | e | e <;> rw [e] <;> rfl

/-- Settles O23: the channel's own judgement, and what the other channels and the rest of the advance leave of it. -/
theorem junctionClockAdvanceJudgesLamps : Obligations.JunctionClockAdvanceJudgesLamps := by
  unfold Obligations.JunctionClockAdvanceJudgesLamps
  intro currents ch s u hu used
  refine ⟨junctionAdvance currents s, exec_junctionClockAdvance currents s, fun i ref res hi href lit dark => ?_⟩
  have ran : junctionAdvance currents s = advanceStage (evaluateLamps currents u) := by rw [hu]; rfl
  rw [ran]
  generalize ht : advanceStage (evaluateLamps currents u) = t
  have found := evaluateLamp_of_used (currents := currents) used
  have current : currentAt currents ch = i := hi.symm
  replace href : ref = nominalCurrent u.cs.image (lampGroup ch) (lampPos ch) * referencePercent u.lou.dim := by
    rw [href]
    cases u.lou.dim <;> rfl
  rw [current] at found
  generalize nominalCurrent u.cs.image (lampGroup ch) (lampPos ch) = nominal at found href
  generalize referencePercent u.lou.dim = percent at found href
  subst href
  have classed := classify_eq lit dark
  have out := outReached_iff (current := i) (nominal := nominal) (percent := percent) (r := lamp u ch)
  have tenth := litReached_iff (current := i) (nominal := nominal) (percent := percent) (r := lamp u ch)
  have count := evaluateChannel_litCount (current := i) (nominal := nominal) (percent := percent) (r := lamp u ch)
  have rearmed := evaluateChannel_rearmed (current := i) (nominal := nominal) (percent := percent) (r := lamp u ch)
  obtain ⟨sensed, result⟩ := evaluateChannel_result (current := i) (nominal := nominal) (percent := percent)
    (r := lamp u ch)
  rw [classed] at out tenth count result
  have after := advanceStage_evaluated found not_litReached_of_outReached litCount_of_outReached
  rw [ht] at after
  have core := after.core
  simp only [LampRec.core, LampRec.mk.injEq] at core
  obtain ⟨-, -, -, -, sensed', result', run', mismatches', -, lastRaised', -, -, -, rearmed'⟩ := core
  rw [sensed', result', run', mismatches', lastRaised', rearmed', after.litCount]
  refine ⟨sensed, result, fun settling => ?_, fun settled => ⟨fun fits => ?_, fun m mismatch => ?_⟩, rearmed, count,
    fun pos settled output => ⟨fun isDark run two on => ?_, fun isLit nine => ?_⟩, fun pos calm => ?_⟩
  · rw [evaluateChannel_settling settling]
    exact ⟨rfl, rfl, rfl⟩
  · exact evaluateChannel_match settled (by rw [classed]; exact (judgement_none_iff _ _).2 fits)
  · obtain ⟨run, mismatches, lastRaised, raised⟩ := evaluateChannel_mismatch settled
      (by rw [classed]; exact (judgement_some_iff _ _ m).2 mismatch)
    rw [run, mismatches, lastRaised, ← threshold_eq]
    refine ⟨rfl, runLength_of_eq, runLength_of_ne, fun silent => if_neg fun raises => ?_, fun same due => ?_⟩
    · obtain ⟨same, reached | again⟩ := (raises_iff m _).1 raises
      · rcases silent with other | ⟨below, _⟩
        · exact other same
        · exact below reached
      · rcases silent with other | ⟨_, fresh⟩
        · exact other same
        · rw [fresh] at again
          cases again
    · have raises := (raises_iff m _).2 ⟨same, due⟩
      rw [if_pos raises] at raised ⊢
      exact ⟨rfl, fun k n fault => advanceStage_raises found raised fault ht.symm⟩
  · exact after.becomes pos (out.2 ⟨settled, output, isDark, run, two, on⟩)
  · exact after.leaves pos (tenth.2 ⟨settled, output, isLit, nine⟩)
  · refine after.stands pos (Bool.eq_false_iff.2 fun o => ?_) (Bool.eq_false_iff.2 fun l => ?_)
    · obtain ⟨settled, output, isDark, run, two, on⟩ := out.1 o
      simp [settled, output, isDark, run, two, on] at calm
    · obtain ⟨settled, output, isLit, nine⟩ := tenth.1 l
      simp [settled, output, isLit, nine] at calm

end Sys2Proof.Machine

/-! ## What a reset leaves in the other blocks -/

namespace Sys2Proof.Machine

/-- R102: a detector record after reset, with the two fields that the kind of the channel decides. -/
theorem resetChannel_eq (m : Image) (ch : Channel) : resetChannel m ch =
    DetRec.reset (if channelKind m ch = .loop then .tuning else .vacant) (decide (channelKind m ch = .loop))
      (budgetStart m ch) := by
  unfold resetChannel
  cases channelKind m ch <;> rfl

theorem lamp_resetWith (m : Image) (crc : BitVec 32) (addr : BitVec 4) (rate : BitVec 2) (s : State) (ch : Lamp) :
    lamp (resetWith m crc addr rate s) ch = LampRec.reset := by
  simp [lamp, resetWith, Lou.reset]

theorem ovl_resetWith (m : Image) (crc : BitVec 32) (addr : BitVec 4) (rate : BitVec 2) (s : State) (g : Group) :
    ovl (resetWith m crc addr rate s) g = Overlay.clear := by
  simp [ovl, resetWith, Pu.reset]

theorem apr_resetWith (m : Image) (crc : BitVec 32) (addr : BitVec 4) (rate : BitVec 2) (s : State) (a : Approach) :
    apr (resetWith m crc addr rate s) a = ApproachRec.reset := by
  simp [apr, resetWith, Pu.reset]

theorem station_resetWith (m : Image) (crc : BitVec 32) (addr : BitVec 4) (rate : BitVec 2) (s : State) (i : Station) :
    station (resetWith m crc addr rate s) i = { lastHeard := 0, silent := false } := by
  simp [station, resetWith, Clp.reset]

theorem intergreen_resetWith (m : Image) (crc : BitVec 32) (addr : BitVec 4) (rate : BitVec 2) (s : State)
    (c g : Group) : intergreen (resetWith m crc addr rate s) c g = if c = g then none else some 250 := by
  simp [intergreen, resetWith, Igm.default]

/-- Settles O4, block by block on the records that a reset writes. -/
theorem resetClearsOtherBlocks : Obligations.ResetClearsOtherBlocks := by
  unfold Obligations.ResetClearsOtherBlocks
  intro addr rate s
  refine ⟨_, rfl, intergreen_resetWith _ _ _ _ s, ?selector, ?sequencer, ?detectors, ?priority, ?lamps, ?supervisor,
    ?link, ⟨rfl, rfl, rfl, rfl⟩, rfl, rfl⟩
  case selector => exact ⟨rfl, rfl, rfl, rfl, rfl, rfl, fun n => by simp [resetWith, Sel.reset]⟩
  case sequencer => exact ⟨rfl, fun g => by simp [resetWith, Fbs.reset]⟩
  case detectors =>
    exact ⟨rfl, rfl, fun ch => (det_resetWith _ _ _ _ s ch).trans (resetChannel_eq _ ch)⟩
  case priority =>
    exact ⟨rfl, rfl, rfl, rfl, fun a => apr_resetWith _ _ _ _ s a, rfl, fun g => ovl_resetWith _ _ _ _ s g⟩
  case lamps => exact ⟨fun ch => lamp_resetWith _ _ _ _ s ch, rfl, rfl, rfl, rfl, rfl⟩
  case supervisor =>
    exact ⟨rfl, rfl, rfl, rfl, fun k => by simp [resetWith, Mfs.reset, FaultRec.reset], rfl, rfl,
      fun i => by simp [resetWith, Mfs.reset], rfl, rfl⟩
  case link =>
    exact ⟨rfl, rfl, rfl, rfl, fun i => station_resetWith _ _ _ _ s i, rfl, rfl, rfl, rfl, rfl, rfl⟩

end Sys2Proof.Machine

/-! ## What a walk decides (R124 to R131, R143) -/

namespace Sys2Proof.Machine

/-! ### An arrival that moves no group -/

theorem Follows.extCount_le {own : Group → Bool} {s t : State} (h : Follows own s t) : extCount t ≤ extCount s := by
  refine List.countP_mono_left fun g _ ext => ?_
  rw [decide_eq_true_eq] at ext ⊢
  rcases (h.groups g).state with kept | ⟨was, _⟩
  · rw [← kept, ext]
  · exact was

theorem evalReached_pu (s : State) : (evalReached s).pu = s.pu := (evalReached_parts s).1

theorem setTarget_pu (w : GroupSet) (s : State) : (setTarget w s).pu = s.pu := by
  unfold setTarget
  rw [evalReached_pu, clearMaxedOut_pu]

theorem evalStage_pu (s : State) : (evalStage s).pu = s.pu := by
  unfold evalStage
  split
  · split
    · split
      · split
        · rw [setTarget_pu]
        · rfl
      · rfl
    · rfl
  · rfl

/-- R13: the priority unit's records stand through the rounds where none of them takes a group out of PROCEED_EXT. -/
theorem settleRounds_pu {n : Nat} {sel fbs : Bool} {s : State}
    (h : extCount (settleRounds n sel fbs s) = extCount s) : (settleRounds n sel fbs s).pu = s.pu := by
  induction n generalizing sel fbs s with
  | zero => rfl
  | succ n ih =>
    have reported : (if sel then evalReached s else s).pu = s.pu ∧
        extCount (if sel then evalReached s else s) = extCount s := by
      split
      · exact ⟨evalReached_pu s, (measure_congr (evalReached_sge s)).1⟩
      · exact ⟨rfl, rfl⟩
    unfold settleRounds at h ⊢
    generalize (if sel then evalReached s else s) = u at h reported ⊢
    obtain ⟨pu, count⟩ := reported
    split at h
    · rename_i quiet
      rw [if_pos quiet]
      dsimp only at h ⊢
      split at h
      · rename_i due
        rw [if_pos due, ih (h.trans (count.symm.trans (evalStage_measure u).1.symm)), evalStage_pu, pu]
      · rename_i due
        rw [if_neg due, pu]
    · rename_i terminates
      have fewer := engineRound_extCount s terminates
      have rest := (settleRounds_follows n true true (engineRound s)).extCount_le
      omega

theorem overlayArrival_pu {s t : State} (h : ∀ g, (grp (overlayArrival s t) g).state = (grp t g).state) :
    (overlayArrival s t).pu = t.pu := by
  unfold overlayArrival at h ⊢
  split
  · rfl
  · rename_i changed
    rw [if_neg changed] at h
    exact settleRounds_pu (by unfold extCount; simp only [settleSince] at h; simp only [h])

/-! ### The gate and the projection (R41, R42, R127, R128) -/

theorem gate_eq_none_iff {m : State} {e : Entry} : gate m e = none ↔ GateOpen m e := by
  unfold gate GateOpen
  by_cases mode : m.mfs.mode = .normal <;> by_cases on : m.pu.enabled = false <;> simp [mode, on]

theorem gate_of_shut {m : State} {e : Entry} (h : ¬GateOpen m e) : gate m e =
    some (if m.mfs.mode ≠ .normal then .mode else if m.pu.enabled = false then .disabled else .rank) := by
  rw [← gate_eq_none_iff] at h
  unfold gate at h ⊢
  by_cases mode : m.mfs.mode = .normal
  · by_cases on : m.pu.enabled = false
    · simp [mode, on]
    · simpa [mode, on] using h
  · simp [mode]

theorem foldl_max_le_iff {α : Type} (p : α → Bool) (f : α → Nat) (l : List α) (b n : Nat) :
    l.foldl (fun best c => if p c then max best (f c) else best) b ≤ n ↔ b ≤ n ∧ ∀ c ∈ l, p c = true → f c ≤ n := by
  induction l generalizing b with
  | nil => simp
  | cons c l ih =>
    rw [List.foldl_cons, ih]
    cases hc : p c <;> simp [hc, and_assoc]

/-- R42: the projection's offset is the largest of its terms. -/
theorem projectionOffset_le_iff (m : State) (t : Group) (n : Nat) : projectionOffset m t ≤ n ↔
    positiveOffset (jnow m) (ownRest m t) ≤ n ∧ ∀ c, conflicts m c t = true →
      positiveOffset (jnow m) (projectedEnd m c) ≤ n ∧
      positiveOffset (jnow m) (later (projectedEnd m c) (intergreenTime m c t) -
        BitVec.ofNat 32 (prepareTime m.cs.image t)) ≤ n := by
  unfold projectionOffset
  rw [foldl_max_le_iff]
  simp [allGroups]

theorem IsProjection.eq {m : State} {t : Group} {off : Nat} (h : IsProjection m t off) : off = projectionOffset m t := by
  obtain ⟨bounds, attained⟩ := h
  obtain ⟨rest, terms⟩ := (projectionOffset_le_iff m t _).1 (Nat.le_refl _)
  refine Nat.le_antisymm ?_ ((projectionOffset_le_iff m t off).2 bounds)
  rcases attained with e | ⟨c, conflict, e | e⟩ <;> rw [e]
  · exact rest
  · exact (terms c conflict).1
  · exact (terms c conflict).2

/-! ### The first pass (R127) -/

section FirstPass
variable {m : State} {leave : Bool} {i : Option Time} {e : Entry}

/-- R121: EXTENDING and SERVING are committed. -/
theorem committed_of_holding (h : e.state = some .extending ∨ e.state = some .serving) : committed m e = true := by
  rcases h with h | h <;> simp [committed, h]

theorem not_committed_of_released (h : e.state = some .released) : committed m e = false := by simp [committed, h]

theorem acting_of_committed (h : committed m e = true) : ∃ st, e.state = some st ∧ st.acting = true := by
  cases state : e.state with
  | none => simp [committed, state] at h
  | some st => cases st <;> simp_all [committed, EntryState.acting]

theorem firstPassEntry_of_uncommitted (h : committed m e = false) : firstPassEntry m leave i e = (e, i) := by
  simp [firstPassEntry, h]

theorem firstPassEntry_rank3 (h : committed m e = true) (rank : e.rank = 3) :
    firstPassEntry m leave i e = (noted e, i) := by
  simp [firstPassEntry, h, rank]

theorem firstPassEntry_gated (h : committed m e = true) (rank : e.rank ≠ 3) {r : WaitReason} (shut : gate m e = some r) :
    firstPassEntry m leave i e = (waitFor r e, i) := by
  simp [firstPassEntry, h, rank, shut]

theorem firstPassEntry_recalling (h : committed m e = true) (rank : e.rank ≠ 3) (gate : GateOpen m e)
    (state : e.state = some .recalling) : firstPassEntry m leave i e = (e, i) := by
  simp [firstPassEntry, h, rank, gate_eq_none_iff.2 gate, state]

theorem firstPassEntry_lost (rank : e.rank ≠ 3) (gate : GateOpen m e)
    (state : e.state = some .extending ∨ e.state = some .serving)
    (lost : ∀ t, entryGroup m e = some t → (grp m t).state.underWay = false) :
    firstPassEntry m leave i e = (released e, raiseFor m e i) := by
  have unrecalled : e.state ≠ some .recalling := by rcases state with h | h <;> rw [h] <;> decide
  unfold firstPassEntry
  rw [if_neg (by simp [committed_of_holding state]), if_neg rank, gate_eq_none_iff.2 gate]
  dsimp only
  rw [if_neg unrecalled]
  split
  · rfl
  · rename_i t group
    rw [if_pos (by simp [lost t group])]

/-- R127 step 4: the hold of an entry whose group is under way. -/
theorem firstPassEntry_holding (rank : e.rank ≠ 3) (gate : GateOpen m e)
    (state : e.state = some .extending ∨ e.state = some .serving) {t : Group} (group : entryGroup m e = some t)
    (way : (grp m t).state.underWay = true) : firstPassEntry m leave i e =
      match refreshedHold m t e with
      | none => (released e, raiseFor m e i)
      | some h => if isAfter (jnow m) h || (leave && leftToHoldEnd m e) then ({ e with holdUntil := some h }, i)
        else (released e, raiseFor m e i) := by
  have unrecalled : e.state ≠ some .recalling := by rcases state with h | h <;> rw [h] <;> decide
  simp only [firstPassEntry, committed_of_holding state, rank, gate_eq_none_iff.2 gate, unrecalled, group, way,
    Bool.not_true, Bool.false_eq_true, if_false] <;>
  rfl

/-- All that the first pass can do with an entry. -/
inductive FirstPassCase (m : State) (leave : Bool) (i : Option Time) (e : Entry) : Prop where
  | uncommitted (h : committed m e = false) (result : firstPassEntry m leave i e = (e, i))
  | noted (h : committed m e = true) (rank : e.rank = 3) (result : firstPassEntry m leave i e = (noted e, i))
  | gated (r : WaitReason) (h : committed m e = true) (rank : e.rank ≠ 3) (shut : gate m e = some r)
      (result : firstPassEntry m leave i e = (waitFor r e, i))
  | stands (h : committed m e = true) (x : Option Time)
      (result : firstPassEntry m leave i e = ({ e with holdUntil := x }, i))
  | released (h : committed m e = true) (result : firstPassEntry m leave i e = (released e, raiseFor m e i))

theorem firstPassEntry_cases (m : State) (leave : Bool) (i : Option Time) (e : Entry) : FirstPassCase m leave i e := by
  by_cases h : committed m e = true
  case neg => exact .uncommitted (by simpa using h) (firstPassEntry_of_uncommitted (by simpa using h))
  by_cases rank : e.rank = 3
  case pos => exact .noted h rank (firstPassEntry_rank3 h rank)
  cases judged : gate m e with
  | some r => exact .gated r h rank judged (firstPassEntry_gated h rank judged)
  | none =>
    have gate := gate_eq_none_iff.1 judged
    by_cases state : e.state = some .recalling
    case pos => exact .stands h e.holdUntil (firstPassEntry_recalling h rank gate state)
    have holding : e.state = some .extending ∨ e.state = some .serving := by
      obtain ⟨st, is, acts⟩ := acting_of_committed h
      cases st <;> simp_all [EntryState.acting]
    by_cases way : ∃ t, entryGroup m e = some t ∧ (grp m t).state.underWay = true
    case neg => exact .released h (firstPassEntry_lost rank gate holding (by simpa using way))
    obtain ⟨t, group, way⟩ := way
    have result := firstPassEntry_holding (leave := leave) (i := i) rank gate holding group way
    split at result
    · exact .released h result
    · rename_i x _
      split at result
      · exact .stands h (some x) result
      · exact .released h result

/-- R133: the inhibit-until is raised by a SERVING entry that is released and by no other. -/
theorem firstPassEntry_inhibit (h : e.state = some .serving → (firstPassEntry m leave i e).1.state ≠ some .released) :
    (firstPassEntry m leave i e).2 = i := by
  cases firstPassEntry_cases m leave i e with
  | uncommitted _ result => rw [result]
  | noted _ _ result => rw [result]
  | gated _ _ _ _ result => rw [result]
  | stands _ _ result => rw [result]
  | released _ result =>
    rw [result] at h ⊢
    exact if_neg fun serving => h serving rfl

end FirstPass

/-- What the first pass makes of an entry, whatever the inhibit-until. -/
def firstPassed (m : State) (leave : Bool) (e : Entry) : Entry := (firstPassEntry m leave none e).1

theorem firstPassEntry_fst (m : State) (leave : Bool) (i : Option Time) (e : Entry) :
    (firstPassEntry m leave i e).1 = firstPassed m leave e := by
  unfold firstPassed firstPassEntry
  repeat' split
  all_goals rfl

theorem firstPass_list (m : State) (leave : Bool) (i : Option Time) (l : List Entry) :
    (firstPass m leave i l).1 = l.map (firstPassed m leave) := by
  induction l generalizing i with
  | nil => rfl
  | cons e es ih => rw [firstPass, List.map_cons, ← ih, ← firstPassEntry_fst]

theorem firstPass_inhibit {m : State} {leave : Bool} {i : Option Time} {l : List Entry}
    (h : ∀ e ∈ l, e.state = some .serving → (firstPassed m leave e).state ≠ some .released) :
    (firstPass m leave i l).2 = i := by
  induction l generalizing i with
  | nil => rfl
  | cons e es ih =>
    have head : (firstPassEntry m leave i e).2 = i := firstPassEntry_inhibit fun serving => by
      rw [firstPassEntry_fst]; exact h e List.mem_cons_self serving
    exact (ih fun x mem => h x (List.mem_cons_of_mem _ mem)).trans head

theorem firstPassed_of_uncommitted {m : State} {leave : Bool} {e : Entry} (h : committed m e = false) :
    firstPassed m leave e = e := by
  rw [firstPassed, firstPassEntry_of_uncommitted h]

theorem entryGroup_firstPassed (m : State) (leave : Bool) (e : Entry) :
    entryGroup m (firstPassed m leave e) = entryGroup m e := by
  change entryGroup m (firstPassed m leave e).core = entryGroup m e.core
  rw [firstPassed, firstPassEntry_core]

/-- R128: an entry that the first pass leaves acting is committed still. -/
theorem committed_firstPassed {m : State} {leave : Bool} {e : Entry} (h : committed m e = true) {st : EntryState}
    (state : (firstPassed m leave e).state = some st) (acts : st.acting = true) :
    committed m (firstPassed m leave e) = true := by
  unfold firstPassed at state ⊢
  cases firstPassEntry_cases m leave none e with
  | uncommitted off _ => rw [off] at h; cases h
  | noted _ _ result => rw [result] at state; cases state; cases acts
  | gated _ _ _ _ result => rw [result] at state; cases state; cases acts
  | stands _ _ result => rw [result]; exact h
  | released _ result => rw [result] at state; cases state; cases acts

/-! ### The second pass (R128 to R130) -/

section SecondPass
variable {m : State} {i : Option Time} {taken : List Group} {e : Entry}

theorem secondPassEntry_stands (h : committed m e = true ∨ e.state = some .released) :
    secondPassEntry m i taken e = (e, taken) := by
  rcases h with h | h <;> simp [secondPassEntry, h]

theorem secondPassEntry_rank3 (h : committed m e = false) (state : e.state ≠ some .released) (rank : e.rank = 3) :
    secondPassEntry m i taken e = (noted e, taken) := by
  simp [secondPassEntry, h, state, rank]

theorem secondPassEntry_gated (h : committed m e = false) (state : e.state ≠ some .released) (rank : e.rank ≠ 3)
    {r : WaitReason} (shut : gate m e = some r) : secondPassEntry m i taken e = (waitFor r e, taken) := by
  simp [secondPassEntry, h, state, rank, shut]

theorem secondPassEntry_groupless (h : committed m e = false) (state : e.state ≠ some .released) (rank : e.rank ≠ 3)
    (gate : GateOpen m e) (group : entryGroup m e = none) :
    secondPassEntry m i taken e = (waitFor .noFit e, taken) := by
  simp [secondPassEntry, h, state, rank, gate_eq_none_iff.2 gate, group]

/-- R128 step 3 to R130: the entry of a tram group, past the gate. -/
theorem secondPassEntry_grouped (h : committed m e = false) (state : e.state ≠ some .released) (rank : e.rank ≠ 3)
    (gate : GateOpen m e) {t : Group} (group : entryGroup m e = some t) : secondPassEntry m i taken e =
      if taken.any (fun c => conflicts m c t) then (waitFor .blocked e, taken)
      else if (grp m t).state.underWay then
        if extensionFits m t e then ({ e with state := some .extending, holdUntil := some e.need }, t :: taken)
        else (waitFor .noFit e, taken)
      else if inhibitRunning (jnow m) i && decide (e.rank ≠ 0) then (waitFor .inhibited e, taken)
      else (recalled m t e, t :: taken) := by
  simp only [secondPassEntry, h, state, rank, gate_eq_none_iff.2 gate, group, decide_false, Bool.or_self,
    Bool.false_eq_true, if_false]

/-- R128: a tram group is taken by an entry that comes to act, and by no other. -/
theorem mem_secondPassEntry (c : Group) : c ∈ (secondPassEntry m i taken e).2 ↔ c ∈ taken ∨
    committed m e = false ∧ entryGroup m e = some c ∧
      ∃ st, (secondPassEntry m i taken e).1.state = some st ∧ st.acting = true := by
  have idle {r : WaitReason} : ¬∃ st, (waitFor r e).state = some st ∧ st.acting = true := by
    rintro ⟨st, is, acts⟩; cases is; cases acts
  by_cases stands : committed m e = true ∨ e.state = some .released
  case pos =>
    rw [secondPassEntry_stands stands]
    rcases stands with h | h <;> simp [h, EntryState.acting]
  obtain ⟨h, state⟩ := not_or.1 stands
  replace h : committed m e = false := by simpa using h
  by_cases rank : e.rank = 3
  case pos => rw [secondPassEntry_rank3 h state rank]; simp [noted, EntryState.acting]
  cases judged : gate m e with
  | some r => rw [secondPassEntry_gated h state rank judged]; simp [idle]
  | none =>
    have gate := gate_eq_none_iff.1 judged
    cases group : entryGroup m e with
    | none => rw [secondPassEntry_groupless h state rank gate group]; simp [idle]
    | some t =>
      rw [secondPassEntry_grouped h state rank gate group]
      have granted {f : Entry} {st : EntryState} (is : f.state = some st) (acts : st.acting = true) :
          c ∈ t :: taken ↔ c ∈ taken ∨ committed m e = false ∧ some t = some c ∧
            ∃ st, f.state = some st ∧ st.acting = true := by
        simp [h, is, acts, or_comm, eq_comm (a := c)]
      split
      · simp [idle]
      · split
        · split
          · exact granted rfl rfl
          · simp [idle]
        · split
          · simp [idle]
          · exact granted rfl rfl

/-- R126: an entry that was committed before the walk is decided by the first pass. -/
theorem secondPassEntry_firstPassed {leave : Bool} (h : committed m e = true) :
    secondPassEntry m i taken (firstPassed m leave e) = (firstPassed m leave e, taken) := by
  unfold firstPassed
  cases firstPassEntry_cases m leave none e with
  | uncommitted off _ => rw [off] at h; cases h
  | noted _ rank result => rw [result]; exact secondPassEntry_rank3 (e := noted e) rfl nofun rank
  | gated r _ rank shut result => rw [result]; exact secondPassEntry_gated (e := waitFor r e) rfl nofun rank shut
  | stands _ _ result => rw [result]; exact secondPassEntry_stands (.inl h)
  | released _ result => rw [result]; exact secondPassEntry_stands (.inr rfl)

end SecondPass

theorem secondPass_length (m : State) (i : Option Time) (taken : List Group) (l : List Entry) :
    (secondPass m i taken l).length = l.length := by
  simpa using congrArg List.length (secondPass_core m i taken l)

/-- Which groups are taken when the pass comes to an entry: those from the start, and those of the entries before it
that the pass has made act. -/
theorem secondPass_at {m : State} {i : Option Time} {taken : List Group} {l : List Entry} {k : Nat} {e f : Entry}
    (he : l[k]? = some e) (hf : (secondPass m i taken l)[k]? = some f) :
    ∃ now, f = (secondPassEntry m i now e).1 ∧ ∀ c, c ∈ now ↔ c ∈ taken ∨
      ∃ j < k, ∃ x y, l[j]? = some x ∧ (secondPass m i taken l)[j]? = some y ∧ committed m x = false ∧
        entryGroup m x = some c ∧ ∃ st, y.state = some st ∧ st.acting = true := by
  induction l generalizing taken k with
  | nil => simp at he
  | cons a l ih =>
    rw [secondPass] at hf ⊢
    cases k with
    | zero =>
      simp only [List.getElem?_cons_zero, Option.some.injEq] at he hf
      exact ⟨taken, by rw [← hf, he], by simp⟩
    | succ k =>
      simp only [List.getElem?_cons_succ] at he hf
      obtain ⟨now, decided, mem⟩ := ih he hf
      refine ⟨now, decided, fun c => ?_⟩
      rw [mem, mem_secondPassEntry, Nat.exists_lt_succ_left, or_assoc]
      simp

/-! ### The walk (R126) -/

/-- The inhibit-until that a walk leaves. -/
def walkedInhibit (leave : Bool) (m : State) : Option Time := (firstPass m leave m.pu.inhibitUntil m.pu.list).2

/-- The list that a walk leaves. -/
def walkedList (leave : Bool) (m : State) : List Entry :=
  let l := m.pu.list.map (firstPassed m leave)
  secondPass m (walkedInhibit leave m) (committedGroups m l) l

theorem walkWith_eq (leave : Bool) (m : State) : walkWith leave m =
    postIf (someActed m.pu.list (walkedList leave m)) .priorityActed
      (reformOverlay { m with pu := { m.pu with list := walkedList leave m, inhibitUntil := walkedInhibit leave m } }) := by
  unfold walkedList walkedInhibit
  rw [← firstPass_list]
  rfl

theorem walkWith_list (leave : Bool) (m : State) : (walkWith leave m).pu.list = walkedList leave m := by
  rw [walkWith_eq, postIf_pu, reformOverlay]

theorem walkWith_inhibitUntil (leave : Bool) (m : State) : (walkWith leave m).pu.inhibitUntil = walkedInhibit leave m := by
  rw [walkWith_eq, postIf_pu, reformOverlay]

theorem walkedList_length (leave : Bool) (m : State) : (walkedList leave m).length = m.pu.list.length := by
  rw [walkedList, secondPass_length, List.length_map]

theorem exists_walkedList_at (leave : Bool) {m : State} {k : Nat} {e : Entry} (he : m.pu.list[k]? = some e) :
    ∃ f, (walkedList leave m)[k]? = some f := by
  obtain ⟨inside, _⟩ := List.getElem?_eq_some_iff.1 he
  exact ⟨_, List.getElem?_eq_getElem (by rw [walkedList_length]; exact inside)⟩

theorem mem_committedGroups (m : State) (l : List Entry) (c : Group) :
    c ∈ committedGroups m l ↔ ∃ (j : Nat) (x : Entry), l[j]? = some x ∧ committed m x = true ∧ entryGroup m x = some c := by
  rw [committedGroups, List.mem_filterMap]
  simp only [List.mem_iff_getElem?, Option.ite_none_right_eq_some]
  exact ⟨fun ⟨x, ⟨j, at_⟩, rest⟩ => ⟨j, x, at_, rest⟩, fun ⟨j, x, at_, rest⟩ => ⟨x, ⟨j, at_⟩, rest⟩⟩

/-- R128 step 3: the group is taken when a walk at `m`, which leaves the list `l`, comes to place `k`. -/
def TakenAt (m : State) (l : List Entry) (k : Nat) (c : Group) : Prop :=
  ∃ (j : Nat) (x y : Entry) (st : EntryState), m.pu.list[j]? = some x ∧ l[j]? = some y ∧ y.state = some st ∧
    st.acting = true ∧ (j < k ∨ committed m x = true) ∧ entryGroup m x = some c

theorem crossed_iff (m : State) (l : List Entry) (k : Nat) (t : Group) :
    Crossed m l k t ↔ ∃ c, TakenAt m l k c ∧ conflicts m c t = true := by
  constructor
  · rintro ⟨j, x, y, st, c, hx, hy, is, acts, first, group, conflict⟩
    exact ⟨c, ⟨j, x, y, st, hx, hy, is, acts, first, group⟩, conflict⟩
  · rintro ⟨c, ⟨j, x, y, st, hx, hy, is, acts, first, group⟩, conflict⟩
    exact ⟨j, x, y, st, c, hx, hy, is, acts, first, group, conflict⟩

/-- R126: an entry that was committed is decided by the first pass alone. -/
theorem walkedList_of_committed {leave : Bool} {m : State} {k : Nat} {e f : Entry} (he : m.pu.list[k]? = some e)
    (hf : (walkedList leave m)[k]? = some f) (h : committed m e = true) : f = firstPassed m leave e := by
  obtain ⟨_, decided, _⟩ := secondPass_at (e := firstPassed m leave e) (by simp [he]) hf
  rw [decided, secondPassEntry_firstPassed h]

/-- R128: any other entry is decided by the second pass, by the groups taken. -/
theorem walkedList_of_uncommitted {leave : Bool} {m : State} {k : Nat} {e f : Entry} (he : m.pu.list[k]? = some e)
    (hf : (walkedList leave m)[k]? = some f) (h : committed m e = false) :
    ∃ now, f = (secondPassEntry m (walkedInhibit leave m) now e).1 ∧
      ∀ c, c ∈ now ↔ TakenAt m (walkedList leave m) k c := by
  obtain ⟨now, decided, mem⟩ := secondPass_at (e := firstPassed m leave e) (by simp [he]) hf
  rw [firstPassed_of_uncommitted h] at decided
  refine ⟨now, decided, fun c => ?_⟩
  rw [mem, mem_committedGroups]
  simp only [List.getElem?_map, Option.map_eq_some_iff]
  constructor
  · rintro (⟨j, _, ⟨x, hx, rfl⟩, stands, group⟩ | ⟨j, before, _, y, ⟨x, hx, rfl⟩, hy, _, group, st, is, acts⟩)
    · have was : committed m x = true := by
        cases hc : committed m x with
        | true => rfl
        | false => rw [firstPassed_of_uncommitted hc, hc] at stands; cases stands
      obtain ⟨st, is, acts⟩ := acting_of_committed stands
      obtain ⟨y, hy⟩ := exists_walkedList_at leave hx
      have same := walkedList_of_committed hx hy was
      exact ⟨j, x, y, st, hx, hy, by rw [same, is], acts, .inr was, by rw [← group, entryGroup_firstPassed]⟩
    · exact ⟨j, x, y, st, hx, hy, is, acts, .inl before, by rw [← group, entryGroup_firstPassed]⟩
  · rintro ⟨j, x, y, st, hx, hy, is, acts, first, group⟩
    rw [← entryGroup_firstPassed m leave] at group
    cases hc : committed m x with
    | true =>
      have same := walkedList_of_committed hx hy hc
      exact .inl ⟨j, _, ⟨x, hx, rfl⟩, committed_firstPassed hc (by rw [← same, is]) acts, group⟩
    | false =>
      have before : j < k := first.resolve_right (by simp [hc])
      exact .inr ⟨j, before, _, y, ⟨x, hx, rfl⟩, hy, by rw [firstPassed_of_uncommitted hc, hc], group, st, is, acts⟩

/-- R133: the inhibit-until stands where no SERVING entry is released. -/
theorem walkedInhibit_eq {leave : Bool} {m : State}
    (h : ∀ (k : Nat) (e f : Entry), m.pu.list[k]? = some e → (walkedList leave m)[k]? = some f →
      e.state = some .serving → f.state ≠ some .released) : walkedInhibit leave m = m.pu.inhibitUntil := by
  refine firstPass_inhibit fun e mem serving => ?_
  obtain ⟨k, he⟩ := List.mem_iff_getElem?.1 mem
  obtain ⟨f, hf⟩ := exists_walkedList_at leave he
  rw [← walkedList_of_committed he hf (committed_of_holding (.inr serving))]
  exact h k e f he hf serving

theorem someActed_of_entry {a b : List Entry} {k : Nat} {e f : Entry} {st : EntryState} (he : a[k]? = some e)
    (hf : b[k]? = some f) (changed : e.state ≠ f.state) (is : f.state = some st) (acts : st.acting = true) :
    someActed a b = true := by
  refine List.any_eq_true.2 ⟨(e, f), List.mem_iff_getElem?.2 ⟨k, ?_⟩, ?_⟩
  · rw [List.getElem?_zip_eq_some]
    exact ⟨he, hf⟩
  · simp [is ▸ changed, is, acts]

/-! ### The overlay table (R124) -/

theorem actsOn_iff (s : State) (st : EntryState) (p : Group → Bool) (e : Entry) :
    actsOn s st p e = true ↔ e.state = some st ∧ ∃ c, entryGroup s e = some c ∧ p c = true := by
  unfold actsOn
  cases entryGroup s e <;> simp

theorem holdOn_eq_some_iff (s : State) (g : Group) (e : Entry) (u : Time) : holdOn s g e = some u ↔
    (e.state = some .extending ∨ e.state = some .serving) ∧ entryGroup s e = some g ∧ e.holdUntil = some u := by
  simp [holdOn, actsOn_iff, ← or_and_right, and_assoc]

theorem offset_laterOf (now a b : Time) :
    offset now a ≤ offset now (laterOf now a b) ∧ offset now b ≤ offset now (laterOf now a b) := by
  unfold laterOf
  split <;> omega

theorem latestHold_eq_some {now h : Time} {a b : Option Time} (eq : latestHold now a b = some h) :
    a = some h ∨ b = some h := by
  cases a with
  | none => exact .inr eq
  | some x =>
    cases b with
    | none => exact .inl eq
    | some y =>
      simp only [latestHold, laterOf] at eq
      split at eq
      · exact .inr eq
      · exact .inl eq

theorem le_latestHold {now u : Time} {a b : Option Time} (h : a = some u ∨ b = some u) :
    ∃ x, latestHold now a b = some x ∧ offset now u ≤ offset now x := by
  cases a with
  | none =>
    have b_eq : b = some u := h.resolve_left nofun
    exact ⟨u, b_eq, Int.le_refl _⟩
  | some x =>
    cases b with
    | none => exact ⟨x, rfl, by rw [Option.some.inj (h.resolve_right nofun)]⟩
    | some y =>
      refine ⟨_, rfl, ?_⟩
      rcases h with h | h <;> cases h
      · exact (offset_laterOf now u y).1
      · exact (offset_laterOf now x u).2

section LatestHold
variable {now : Time} {p : Entry → Option Time}

/-- The latest of the holds of some entries is one of them. -/
theorem foldl_latestHold_mem {l : List Entry} {a : Option Time} {h : Time}
    (eq : l.foldl (fun x e => latestHold now x (p e)) a = some h) : a = some h ∨ ∃ e ∈ l, p e = some h := by
  induction l generalizing a with
  | nil => exact .inl eq
  | cons e l ih =>
    rcases ih eq with start | ⟨x, mem, is⟩
    · exact (latestHold_eq_some start).imp_right fun is => ⟨e, List.mem_cons_self, is⟩
    · exact .inr ⟨x, List.mem_cons_of_mem _ mem, is⟩

theorem le_foldl_latestHold {l : List Entry} {a : Option Time} {u : Time} (h : a = some u ∨ ∃ e ∈ l, p e = some u) :
    ∃ x, l.foldl (fun x e => latestHold now x (p e)) a = some x ∧ offset now u ≤ offset now x := by
  induction l generalizing a u with
  | nil => exact ⟨u, h.resolve_right (by simp), Int.le_refl _⟩
  | cons e l ih =>
    rw [List.foldl_cons]
    by_cases head : a = some u ∨ p e = some u
    · obtain ⟨v, first, le⟩ := le_latestHold (now := now) head
      obtain ⟨x, eq, rest⟩ := ih (.inl first)
      exact ⟨x, eq, Int.le_trans le rest⟩
    · obtain ⟨none, other⟩ := not_or.1 head
      obtain ⟨y, mem, is⟩ := h.resolve_left none
      exact ih (.inr ⟨y, (List.mem_cons.1 mem).resolve_left fun e => other (e ▸ is), is⟩)

end LatestHold

/-- What an overlay record is formed from. -/
theorem overlayFor_congr {s t : State} (now : jnow t = jnow s) (igm : t.igm = s.igm) (cs : t.cs = s.cs)
    (states : ∀ g, (grp t g).state = (grp s g).state) (l : List Entry) (g : Group) :
    overlayFor t l g = overlayFor s l g := by
  have acts (st : EntryState) (p : Group → Bool) : actsOn t st p = actsOn s st p := by
    funext e
    unfold actsOn entryGroup
    rw [cs]
  have conflict (c d : Group) : conflicts t c d = conflicts s c d := by simp only [conflicts, intergreen, igm]
  simp only [overlayFor, holdOn, acts, conflict, now, states]

theorem overlayFormed_of {t : State} {g : Group} (h : ovl t g = overlayFor t t.pu.list g) : OverlayFormed t g := by
  refine ⟨?call, ?truncate, ?block, fun u eq => ?hold, fun e mem u state group until_ => ?latest⟩
  case call => simp [h, overlayFor, actsOn_iff]
  case truncate =>
    simp only [h, overlayFor, List.any_eq_true, Bool.and_eq_true, actsOn_iff]
    exact ⟨fun ⟨e, mem, ⟨state, c, group, conflict⟩, way⟩ => ⟨way, e, mem, c, state, group, conflict⟩,
      fun ⟨way, e, mem, c, state, group, conflict⟩ => ⟨e, mem, ⟨state, c, group, conflict⟩, way⟩⟩
  case block =>
    simp only [h, overlayFor, List.any_eq_true, Bool.or_eq_true, Bool.and_eq_true, actsOn_iff, Bool.not_eq_true']
    refine exists_congr fun e => and_congr_right fun _ => ⟨?_, ?_⟩
    · rintro (⟨⟨state, c, group, conflict⟩, way⟩ | ⟨state, c, group, conflict⟩)
      · exact ⟨c, group, conflict, .inl ⟨state, way⟩⟩
      · exact ⟨c, group, conflict, .inr state⟩
    · rintro ⟨c, group, conflict, ⟨state, way⟩ | state⟩
      · exact .inl ⟨⟨state, c, group, conflict⟩, way⟩
      · exact .inr ⟨state, c, group, conflict⟩
  case hold =>
    rw [h] at eq
    obtain ⟨e, mem, is⟩ := (foldl_latestHold_mem eq).resolve_left nofun
    obtain ⟨state, group, until_⟩ := (holdOn_eq_some_iff t g e u).1 is
    exact ⟨e, mem, state, group, until_⟩
  case latest =>
    rw [h]
    exact le_foldl_latestHold (.inr ⟨e, mem, (holdOn_eq_some_iff t g e u).2 ⟨state, group, until_⟩⟩)

/-! ### What a walk makes of an entry, clause by clause -/

section Decided
variable {leave : Bool} {m : State} {k : Nat} {e f : Entry}

/-- R127 step 4, R129: the hold-until of an EXTENDING or SERVING entry whose group is under way. -/
theorem firstPassed_holding {t : Group} {h : Option Time} (rank : e.rank ≠ 3) (gate : GateOpen m e)
    (group : entryGroup m e = some t) (way : (grp m t).state.underWay = true)
    (state : e.state = some .serving ∧ h = some (earlierOf (jnow m) e.need (holdBound m t e.approach)) ∨
      e.state = some .extending ∧ h = (if extensionFits m t e then some e.need else e.holdUntil)) :
    (∀ u, h = some u → isAfter (jnow m) u = true ∨ leave = true ∧ leftToHoldEnd m e = true →
      firstPassed m leave e = { e with holdUntil := some u }) ∧
    ((∀ u, h = some u → isAfter (jnow m) u = false) → ¬(leave = true ∧ leftToHoldEnd m e = true) →
      firstPassed m leave e = released e) := by
  have refreshed : refreshedHold m t e = h := by
    rcases state with ⟨is, rfl⟩ | ⟨is, rfl⟩ <;> simp [refreshedHold, is]
  have holding : e.state = some .extending ∨ e.state = some .serving :=
    state.symm.imp And.left And.left
  unfold firstPassed
  rw [firstPassEntry_holding rank gate holding group way, refreshed]
  refine ⟨fun u eq runs => ?_, fun ended unleft => ?_⟩
  · rw [eq]
    dsimp only
    rw [if_pos (by simpa using runs)]
  · cases h with
    | none => rfl
    | some u =>
      dsimp only
      rw [if_neg (by simpa [ended u rfl] using unleft)]

theorem leftToHoldEnd_iff : leftToHoldEnd m e = true ↔
    e.state = some .serving ∧ ∃ x, e.holdUntil = some x ∧ isAfter (jnow m) x = false := by
  unfold leftToHoldEnd holdDue
  cases e.holdUntil <;> simp +contextual

theorem inhibitRunning_iff {now : Time} {i : Option Time} :
    inhibitRunning now i = true ↔ ∃ u, i = some u ∧ isAfter now u = true := by
  cases i <;> simp [inhibitRunning]

/-- R128 step 3 to R130: an entry of a tram group past the gate, by whether it is crossed. -/
theorem walkedList_grouped (he : m.pu.list[k]? = some e) (hf : (walkedList leave m)[k]? = some f) {t : Group}
    (rank : e.rank ≠ 3) (gate : GateOpen m e) (state : e.state ≠ some .released) (h : committed m e = false)
    (group : entryGroup m e = some t) :
    (Crossed m (walkedList leave m) k t → f = waitFor .blocked e) ∧
    (¬Crossed m (walkedList leave m) k t → f =
      if (grp m t).state.underWay then
        if extensionFits m t e then { e with state := some .extending, holdUntil := some e.need } else waitFor .noFit e
      else if inhibitRunning (jnow m) (walkedInhibit leave m) && decide (e.rank ≠ 0) then waitFor .inhibited e
      else recalled m t e) := by
  obtain ⟨now, decided, mem⟩ := walkedList_of_uncommitted he hf h
  have crossing : now.any (fun c => conflicts m c t) = true ↔ Crossed m (walkedList leave m) k t := by
    simp only [List.any_eq_true, mem, crossed_iff]
  rw [secondPassEntry_grouped h state rank gate group] at decided
  refine ⟨fun crossed => ?_, fun free => ?_⟩
  · rwa [if_pos (crossing.2 crossed)] at decided
  · rw [if_neg (mt crossing.1 free)] at decided
    rw [decided]
    simp only [apply_ite Prod.fst]

/-- R124 to R130: one walk, at every place of the list. -/
theorem walkedList_decides (he : m.pu.list[k]? = some e) (hf : (walkedList leave m)[k]? = some f) :
    WalkDecides leave m (walkedList leave m) (walkedInhibit leave m) k e f := by
  have first := walkedList_of_committed he hf
  have second := walkedList_of_uncommitted he hf
  constructor
  case skipped =>
    intro state
    obtain ⟨now, decided, _⟩ := second (not_committed_of_released state)
    rw [decided, secondPassEntry_stands (.inr state)]
  case rank3 =>
    intro state rank
    cases h : committed m e with
    | true => rw [first h, firstPassed, firstPassEntry_rank3 h rank]; rfl
    | false =>
      obtain ⟨now, decided, _⟩ := second h
      rw [decided, secondPassEntry_rank3 h state rank]; rfl
  case gated =>
    intro state rank shut
    cases h : committed m e with
    | true => rw [first h, firstPassed, firstPassEntry_gated h rank (gate_of_shut shut)]; rfl
    | false =>
      obtain ⟨now, decided, _⟩ := second h
      rw [decided, secondPassEntry_gated h state rank (gate_of_shut shut)]; rfl
  case recalling =>
    intro rank gate state h
    rw [first h, firstPassed, firstPassEntry_recalling h rank gate state]
  case lost =>
    intro rank gate state lost
    rw [first (committed_of_holding state), firstPassed, firstPassEntry_lost rank gate state lost]; rfl
  case refreshed =>
    intro t h rank gate group way state
    rw [first (committed_of_holding (state.symm.imp And.left And.left))]
    obtain ⟨runs, ends⟩ := firstPassed_holding (leave := leave) rank gate group way state
    refine ⟨fun u eq after => runs u eq (.inl after), fun ended unleft => ends ended fun ⟨on, left⟩ => ?_⟩
    obtain ⟨serving, x, hold, reached⟩ := leftToHoldEnd_iff.1 left
    rw [unleft on serving x hold] at reached
    cases reached
  case left =>
    intro t x on rank gate group way serving hold reached
    rw [first (committed_of_holding (.inr serving))]
    exact (firstPassed_holding rank gate group way (.inl ⟨serving, rfl⟩)).1 _ rfl
      (.inr ⟨on, leftToHoldEnd_iff.2 ⟨serving, x, hold, reached⟩⟩)
  case groupless =>
    intro rank gate group released extending serving
    have h : committed m e = false := by
      unfold committed
      rw [group]
      split <;> simp_all
    obtain ⟨now, decided, _⟩ := second h
    rw [decided, secondPassEntry_groupless h released rank gate group]; rfl
  case crossed =>
    intro t rank gate state h group crossed
    exact (walkedList_grouped he hf rank gate state h group).1 crossed
  case underWay =>
    intro t rank gate state h group free way
    rw [(walkedList_grouped he hf rank gate state h group).2 free, if_pos way]
    simp only [extensionFits, Bool.and_eq_true, decide_eq_true_eq, and_comm]
    rfl
  case resting =>
    intro t rank gate state h group free rests
    rw [(walkedList_grouped he hf rank gate state h group).2 free, if_neg (by simp [rests])]
    refine ⟨fun running ranked => ?_, fun runs off g projected eq => ?_⟩
    · rw [if_pos (by simp [inhibitRunning_iff.2 running, ranked])]
      rfl
    · rw [if_neg ?idle, eq, projected.eq]
      · rfl
      case idle =>
        rw [Bool.and_eq_true, inhibitRunning_iff, decide_eq_true_eq]
        rintro ⟨⟨u, is, after⟩, ranked⟩
        rcases runs with past | zero
        · rw [past u is] at after; cases after
        · exact ranked zero

end Decided

/-! ### An arrival that is one walk -/

/-- `t` is the state after an arrival whose one walk was taken at `m`, and which moved no group. -/
structure AfterWalk (leave : Bool) (m t : State) : Prop where
  pu : t.pu = (walkWith leave m).pu
  now : jnow t = jnow m
  igm : t.igm = m.igm
  cs : t.cs = m.cs
  states : ∀ g, (grp t g).state = (grp m g).state
  events : ∀ (j : Station) (n : Nat), ((walkWith leave m).mfs.pending[j]).getLsbD n = true →
    (t.mfs.pending[j]).getLsbD n = true

namespace AfterWalk
variable {leave : Bool} {m t : State}

theorem overlayArrival {s : State} (h : ∀ g, (grp (overlayArrival s (walkWith leave m)) g).state = (grp m g).state) :
    AfterWalk leave m (overlayArrival s (walkWith leave m)) := by
  have walked := walkWith_follows leave m
  have arrival := overlayArrival_follows s (walkWith leave m)
  have group (g : Group) : grp (walkWith leave m) g = grp m g := by unfold grp; rw [(walkWith_alike leave m).sge]
  have all := walked.trans arrival
  refine ⟨overlayArrival_pu fun g => by rw [h, group], all.now, all.igm, all.cs, h, fun j n bit => ?_⟩
  obtain ⟨w, _, pending⟩ := arrival.events
  rw [Fin.getElem_fin] at bit ⊢
  simp [pending, bit]

theorem answered (h : AfterWalk leave m t) (k : RequestKind) (v : Verdict) (l : List Byte) :
    AfterWalk leave m (answer k v l t) :=
  ⟨h.pu, h.now, h.igm, h.cs, h.states, h.events⟩

theorem list (h : AfterWalk leave m t) : t.pu.list = walkedList leave m := by rw [h.pu, walkWith_list]

theorem inhibitUntil (h : AfterWalk leave m t) : t.pu.inhibitUntil = walkedInhibit leave m := by
  rw [h.pu, walkWith_inhibitUntil]

/-- R125: the table is the one that the list forms. -/
theorem overlay (h : AfterWalk leave m t) (g : Group) : ovl t g = overlayFor t t.pu.list g := by
  rw [overlayFor_congr h.now h.igm h.cs h.states, h.list, ovl, h.pu, walkWith_eq, postIf_pu, reformOverlay]
  simp only [Fin.getElem_fin, Vector.getElem_ofFn, Fin.eta]
  exact overlayFor_congr rfl rfl rfl (fun _ => rfl) _ g

/-- R143: PRIORITY_ACTED. -/
theorem posts (h : AfterWalk leave m t) {k : Nat} {e f : Entry} {st : EntryState} (he : m.pu.list[k]? = some e)
    (hf : t.pu.list[k]? = some f) (changed : e.state ≠ f.state) (is : f.state = some st) (acts : st.acting = true)
    (j : Station) : (t.mfs.pending[j]).getLsbD Event.priorityActed.code.val = true := by
  rw [h.list] at hf
  refine h.events j _ ?_
  rw [walkWith_eq, someActed_of_entry he hf changed is acts, postIf_true, post_adds_kind]
  simp [Event.code]

end AfterWalk

/-- R134: the end of the recall inhibit is one walk. -/
theorem recallInhibitEnd_of_reached {s : State} {u : Time} (until_ : s.pu.inhibitUntil = some u)
    (reached : isAfter (jnow s) u = false) : recallInhibitEnd s =
      overlayArrival s (walkWith true { s with pu := { s.pu with inhibitUntil := none } }) :=
  if_pos (by simp [inhibitReached, until_, reached])

/-- R140, R195: a change of the enable is one walk, and is answered. -/
theorem exec_enablePriority_change {s : State} {i : Station} {b : Byte} (free : inFlight s = false)
    (role : i = 0 ∨ i = 3) (flag : b.toNat ≤ 1) (change : s.pu.enabled ≠ decide (b = 1)) :
    exec (.enablePriority (number i) b) s = .next (answer .enablePriority .done [flagByte (decide (b = 1))]
      (overlayArrival s (walkWith false { s with pu := { s.pu with enabled := decide (b = 1) } }))) := by
  have allowed : RequestKind.enablePriority.allows i = true := by rcases role with rfl | rfl <;> rfl
  have set : setEnable (decide (b = 1)) s =
      overlayArrival s (walkWith false { s with pu := { s.pu with enabled := decide (b = 1) } }) := if_neg change
  have taken : enablePriority b i s =
      answer .enablePriority .done [flagByte (decide (b = 1))] (setEnable (decide (b = 1)) s) := if_neg (by omega)
  rw [← set, ← taken]
  exact congrArg Host.Outcome.next (asked_number .enablePriority i (enablePriority b) s free allowed)

/-- Settles O13: either arrival is one walk, and the rounds after it leave what the walk has decided. -/
theorem walkDecidesEntriesAndOverlay : Obligations.WalkDecidesEntriesAndOverlay := by
  unfold Obligations.WalkDecidesEntriesAndOverlay
  intro c s m arrival
  obtain ⟨t, ran, list, walked⟩ : ∃ t, exec c s = .next t ∧ m.pu.list = s.pu.list ∧
      ((∀ g, (grp t g).state = (grp s g).state) → AfterWalk (decide (c = .recallInhibitEnd)) m t) := by
    rcases arrival with ⟨rfl, ⟨u, until_, reached⟩, rfl⟩ | ⟨i, b, rfl, free, role, flag, change, rfl⟩
    · refine ⟨_, congrArg Host.Outcome.next (recallInhibitEnd_of_reached until_ reached), rfl, fun states => ?_⟩
      exact .overlayArrival states
    · refine ⟨_, exec_enablePriority_change free role flag change, rfl, fun states => ?_⟩
      rw [decide_eq_false (p := Instr.enablePriority (number i) b = .recallInhibitEnd) nofun]
      exact (AfterWalk.overlayArrival states).answered _ _ _
  refine ⟨t, ran, fun states => ?_⟩
  have h := walked states
  refine ⟨?length, ?entries, fun g => overlayFormed_of (h.overlay g), ?inhibit, ?event⟩
  case length => rw [h.list, walkedList_length, list]
  case entries =>
    rw [h.list, h.inhibitUntil]
    exact fun k e f he hf => walkedList_decides he hf
  case inhibit =>
    rw [h.list, h.inhibitUntil]
    exact walkedInhibit_eq
  case event =>
    rintro ⟨k, e, f, st, he, hf, changed, is, acts⟩ j
    exact h.posts he hf changed is acts j

end Sys2Proof.Machine

/-! ## SET_STAGE and SELECT_STAGE (R57 to R59) -/

namespace Sys2Proof.Machine

theorem selectorMode_iff (m : Mode) : selectorMode m = true ↔ m = .startUp ∨ m = .normal := by
  simp [selectorMode]

theorem not_selectorMode {m : Mode} (startUp : m ≠ .startUp) (normal : m ≠ .normal) : selectorMode m = false := by
  simp [selectorMode, startUp, normal]

/-- R46: every station but the receiver has an owner of its own, and none is FALLBACK. -/
theorem stationOwner_ne_fallback {i : Station} (h : i ≠ 1) : stationOwner i ≠ .fallback := by
  revert i; decide

/-- R67: the sequencer does not act under a station's ownership. -/
theorem not_fbsActs_of_owner {s : State} {i : Station} (h : i ≠ 1) (owner : s.sel.owner = stationOwner i) :
    fbsActs s = false := by
  simp [fbsActs, owner, stationOwner_ne_fallback h]

/-- R57 step 4. -/
theorem conflictingSet_iff (s : State) (w : GroupSet) :
    conflictingSet s w = true ↔ ∃ x y, inSet w x = true ∧ inSet w y = true ∧ conflicts s x y = true := by
  simp [conflictingSet, allGroups, and_assoc]

/-- R57, R58: what a request for the target `w` leaves, once its set is known. -/
def stageAnswered (k : RequestKind) (w : GroupSet) (i : Station) (s : State) : State :=
  let t := if stageVerdict i w s = .accepted then acceptTarget w s else s
  answer k (stageVerdict i w s) (generationField t) t

theorem setStage_eq (w : GroupSet) (i : Station) (s : State) : setStage w i s = stageAnswered .setStage w i s := rfl

/-- R59: with a stage that is not empty, the checks are those of SET_STAGE with its set. -/
theorem selectVerdict_of_stage {i : Station} {n : Stage} {s : State} (members : s.sel.stages[n] ≠ 0) :
    selectVerdict i (some n) s = stageVerdict i s.sel.stages[n] s := by
  simp only [selectVerdict, if_neg members]
  unfold stageVerdict
  split
  · rfl
  · split <;> rfl

theorem selectStage_eq {b : Byte} {n : Stage} {s : State} (stage : b.toNat = number n) (members : s.sel.stages[n] ≠ 0)
    (i : Station) : selectStage b i s = stageAnswered .selectStage s.sel.stages[n] i s := by
  unfold selectStage
  rw [item?_eq_some n stage]
  simp only [selectVerdict_of_stage members, stageSet]
  rfl

theorem stageAnswered_of_refused {k : RequestKind} {w : GroupSet} {i : Station} {s : State} {v : Verdict}
    (verdict : stageVerdict i w s = v) (refused : v ≠ .accepted) :
    stageAnswered k w i s = { s with clp := answered k v [s.sel.generation] s.clp } := by
  unfold stageAnswered
  rw [verdict, if_neg refused]
  rfl

/-- R58: the record that an accepted target writes, and what follows. -/
theorem acceptTarget_follows (w : GroupSet) (s : State) :
    Follows noGroup (clearMaxedOut { s with sel := { s.sel with
      target := w, generation := s.sel.generation + 1, reported := false } }) (acceptTarget w s) :=
  (setTarget_follows_written w s).trans (settle_follows _)

theorem acceptTarget_generation {i : Station} {s : State} (h : i ≠ 1) (owner : s.sel.owner = stationOwner i)
    (w : GroupSet) : (acceptTarget w s).sel.generation = s.sel.generation + 1 := by
  have kept := (acceptTarget_follows w s).target (not_fbsActs_of_owner h (by simpa using owner))
  rw [kept.1]
  simp

theorem stageAnswered_of_accepted {k : RequestKind} {w : GroupSet} {i : Station} {s : State} (h : i ≠ 1)
    (owner : s.sel.owner = stationOwner i) (verdict : stageVerdict i w s = .accepted) :
    stageAnswered k w i s =
      { acceptTarget w s with clp := answered k .accepted [s.sel.generation + 1] s.clp } := by
  unfold stageAnswered
  rw [verdict, if_pos rfl, answer_eq]
  have clp : (acceptTarget w s).clp = s.clp := by simpa using (acceptTarget_follows w s).clp
  rw [clp, generationField, acceptTarget_generation h owner]

/-- R59: the checks of the stage number. -/
theorem selectVerdict_invalid {i : Station} {b : Byte} {s : State} (mode : s.mfs.mode = .startUp ∨ s.mfs.mode = .normal)
    (owner : s.sel.owner = stationOwner i)
    (invalid : b.toNat = 0 ∨ 8 < b.toNat ∨ ∃ n : Stage, b.toNat = number n ∧ s.sel.stages[n] = 0) :
    selectVerdict i (item? 8 b.toNat) s = .refusedInvalid := by
  have taken := (selectorMode_iff _).2 mode
  have none_or : item? 8 b.toNat = none ∨ ∃ n : Stage, item? 8 b.toNat = some n ∧ s.sel.stages[n] = 0 := by
    rcases invalid with zero | above | ⟨n, stage, empty⟩
    · exact .inl (item?_eq_none (.inl zero))
    · exact .inl (item?_eq_none (.inr above))
    · exact .inr ⟨n, item?_eq_some n stage, empty⟩
  rcases none_or with none | ⟨n, stage, empty⟩
  · simp [selectVerdict, taken, owner, none]
  · simp only [selectVerdict, taken, owner, stage, if_pos empty]
    simp

/-- Settles O44, by the verdict that both requests share once the set is known. -/
theorem stageRequestsSetTarget : Obligations.StageRequestsSetTarget := by
  unfold Obligations.StageRequestsSetTarget
  refine ⟨fun i w b k c s free hi request => ?_, fun i b s free hi mode owner invalid => ?_⟩
  · have ran : exec c s = .next (stageAnswered k w i s) := by
      rcases request with ⟨rfl, rfl⟩ | ⟨rfl, rfl, n, stage, rfl, members⟩
      · rw [exec_setStage i w s free hi, setStage_eq]
      · rw [exec_selectStage i b s free hi, selectStage_eq stage members]
    rw [ran]
    refine ⟨fun startUp normal => ?_, fun mode => ⟨fun owner => ?_, fun owner conflict => ?_, fun owner clear => ?_⟩⟩
    · have verdict : stageVerdict i w s = .refusedMode := by simp [stageVerdict, not_selectorMode startUp normal]
      rw [stageAnswered_of_refused verdict nofun]
    · have verdict : stageVerdict i w s = .refusedNotOwner := by
        simp [stageVerdict, (selectorMode_iff _).2 mode, owner]
      rw [stageAnswered_of_refused verdict nofun]
    · have verdict : stageVerdict i w s = .refusedConflict := by
        simp [stageVerdict, (selectorMode_iff _).2 mode, owner, (conflictingSet_iff s w).2 conflict]
      rw [stageAnswered_of_refused verdict nofun]
    · have free : conflictingSet s w = false := by
        rw [Bool.eq_false_iff, ne_eq, conflictingSet_iff]
        rintro ⟨x, y, hx, hy, conflict⟩
        rw [clear x y hx hy] at conflict
        cases conflict
      have verdict : stageVerdict i w s = .accepted := by
        simp [stageVerdict, (selectorMode_iff _).2 mode, owner, free]
      refine ⟨_, rfl, ?_⟩
      rw [stageAnswered_of_accepted hi owner verdict]
      exact (acceptTarget_follows w s).with_clp _
  · rw [exec_selectStage i b s free hi]
    unfold selectStage
    simp only [selectVerdict_invalid mode owner invalid]
    rfl

end Sys2Proof.Machine

/-! ## A change of the selector's owner (R48 to R53) -/

namespace Sys2Proof.Machine

theorem ownerWritten_sel (o : Owner) (r : Rank) (s : State) : (ownerWritten o r s).sel = { s.sel with
    owner := o, rank := r, lastChange := if s.sel.owner = o then s.sel.lastChange else jnow s } := by
  simp [ownerWritten]

@[simp] theorem ownerWritten_grp (o : Owner) (r : Rank) (s : State) (g : Group) :
    grp (ownerWritten o r s) g = grp s g := by simp [ownerWritten, grp]

@[simp] theorem ownerWritten_jnow (o : Owner) (r : Rank) (s : State) : jnow (ownerWritten o r s) = jnow s := by
  simp [ownerWritten, jnow]

@[simp] theorem ownerWritten_pu (o : Owner) (r : Rank) (s : State) : (ownerWritten o r s).pu = s.pu := by
  simp [ownerWritten]

@[simp] theorem ownerWritten_clp (o : Owner) (r : Rank) (s : State) : (ownerWritten o r s).clp = s.clp := by
  simp [ownerWritten]

@[simp] theorem ownerWritten_cs (o : Owner) (r : Rank) (s : State) : (ownerWritten o r s).cs = s.cs := by
  simp [ownerWritten]

@[simp] theorem ownerWritten_du (o : Owner) (r : Rank) (s : State) : (ownerWritten o r s).du = s.du := by
  simp [ownerWritten]

@[simp] theorem ownerWritten_mode (o : Owner) (r : Rank) (s : State) :
    (ownerWritten o r s).mfs.mode = s.mfs.mode := by simp [ownerWritten]

@[simp] theorem ownerWritten_faults (o : Owner) (r : Rank) (s : State) :
    (ownerWritten o r s).mfs.faults = s.mfs.faults := by simp [ownerWritten]

/-- R67: whether the sequencer acts under the owner written. -/
theorem ownerWritten_acts (o : Owner) (r : Rank) (s : State) :
    fbsActs (ownerWritten o r s) = (decide (o = .fallback) && decide (s.mfs.mode = .normal)) := by
  simp [fbsActs, ownerWritten_sel]

/-- R48: what a change of the selector writes, what it leaves of the other blocks, and what follows it. -/
structure OwnerPassed (o : Owner) (r : Rank) (s t : State) : Prop where
  follows : Follows noGroup (ownerWritten o r s) t
  owner : t.sel.owner = o
  rank : t.sel.rank = r
  lastChange : t.sel.lastChange = if s.sel.owner = o then s.sel.lastChange else jnow s
  /-- R67: with no takeover the target stands and the sequencer is stopped. -/
  target : o ≠ .fallback ∨ s.mfs.mode ≠ .normal →
    t.sel.target = s.sel.target ∧ t.sel.generation = s.sel.generation ∧ t.fbs.current = none
  posted : ∀ j : Station, (t.mfs.pending[j]).getLsbD Event.selectorChanged.code.val = true
  groups : ∀ g, GroupFollows (jnow s) (compensationCap s.cs.image g) (grp s g) (grp t g)
  entries : t.pu.list.map Entry.core = s.pu.list.map Entry.core
  mode : t.mfs.mode = s.mfs.mode
  faults : t.mfs.faults = s.mfs.faults
  clp : t.clp = s.clp
  cs : t.cs = s.cs
  du : t.du = s.du

/-- What follows an arrival takes no kind off a pending set. -/
theorem Follows.still_pends {s t : State} (h : Follows noGroup s t) {j : Station} {b : Nat}
    (pends : (s.mfs.pending[j]).getLsbD b = true) : (t.mfs.pending[j]).getLsbD b = true :=
  getLsbD_of_subset (h.shuts.events j) pends

/-- A change of the selector takes no kind off a pending set. -/
theorem OwnerPassed.still_pends {o : Owner} {r : Rank} {s t : State} (h : OwnerPassed o r s t) {j : Station} {b : Nat}
    (pends : (s.mfs.pending[j]).getLsbD b = true) : (t.mfs.pending[j]).getLsbD b = true :=
  h.follows.still_pends (getLsbD_of_subset ((post_shuts .selectorChanged _).events j) pends)

/-- R48, R67: the steps of a change that brings no takeover. -/
theorem changeOwner_of_stop {o : Owner} {r : Rank} {s : State} (change : ¬(s.sel.owner = o ∧ s.sel.rank = r))
    (idle : o ≠ .fallback ∨ s.mfs.mode ≠ .normal) :
    changeOwner o r s = settleSince s (fbsStop (walk (ownerWritten o r s))) := by
  have acts : fbsActs (walk (ownerWritten o r s)) = false := by
    rw [(walk_follows _).acts, ownerWritten_acts]
    simpa using idle.resolve_left
  unfold ownerWritten at acts ⊢
  unfold changeOwner
  rw [if_neg change]
  simp only [acts, Bool.false_eq_true, if_false]

theorem changeOwner_passes {o : Owner} {r : Rank} {s : State} (change : ¬(s.sel.owner = o ∧ s.sel.rank = r)) :
    OwnerPassed o r s (changeOwner o r s) := by
  have follows := changeOwner_follows o r s change
  have kept := follows.sel
  rw [ownerWritten_sel] at kept
  refine ⟨follows, by rw [kept], by rw [kept], by rw [kept], fun idle => ?target, fun j => ?posted, fun g => ?groups,
    ?entries, ?mode, ?faults, ?clp, ?cs, ?du⟩
  case target =>
    have rest := settleSince_follows s (fbsStop (walk (ownerWritten o r s)))
    have acts : fbsActs (fbsStop (walk (ownerWritten o r s))) = false := by
      rw [(fbsStop_follows _).acts, (walk_follows _).acts, ownerWritten_acts]
      simpa using idle.resolve_left
    obtain ⟨sel, fbs⟩ := rest.target acts
    rw [← changeOwner_of_stop change idle, fbsStop_sel, (walk_selKept _).sel, ownerWritten_sel] at sel
    rw [← changeOwner_of_stop change idle] at fbs
    refine ⟨by rw [sel], by rw [sel], ?_⟩
    rcases fbs with fbs | stopped
    · rw [fbs, fbsStop_fbs]
    · exact stopped
  case posted => exact follows.still_pends (post_pends .selectorChanged _ j)
  case groups => simpa using follows.groups g
  case entries => simpa using follows.entries
  case mode => simpa using follows.mode
  case faults => rw [follows.mfs, ← ownerWritten_faults o r s]
  case clp => simpa using follows.clp
  case cs => simpa using follows.cs
  case du => simpa using follows.du

/-! ### TAKE_SELECTOR (R49) -/

theorem exec_takeSelector (i : Station) (r : Byte) (s : State) (hf : inFlight s = false) (hi : i ≠ 1) :
    exec (.takeSelector (number i) r) s = .next (takeSelector r i s) :=
  congrArg Host.Outcome.next (asked_number .takeSelector i (takeSelector r) s hf (decide_eq_true hi))

theorem rankOf_val (n : Nat) : (rankOf n).val = min 3 n := by
  unfold rankOf
  split <;> simp <;> omega

/-- R49 step 3: the effective rank by its number. -/
theorem effectiveRank_eq {m : Image} {i : Station} {r : Byte} {e : Rank}
    (rank : e.val = max (min 3 r.toNat) (authorityRank m i).val) : effectiveRank m i r = e := by
  apply Fin.ext
  rw [rank, ← rankOf_val]
  rfl

theorem takeSelector_of_refused {r : Byte} {i : Station} {s : State} {v : Verdict} (verdict : takeVerdict i r s = v)
    (refused : v ≠ .done) : takeSelector r i s =
      { s with clp := answered .takeSelector v [s.sel.owner.byte, rankByte s.sel.rank] s.clp } := by
  unfold takeSelector
  rw [verdict, if_neg refused]
  rfl

theorem takeSelector_of_done {r : Byte} {i : Station} {s : State} (verdict : takeVerdict i r s = .done) :
    takeSelector r i s = answer .takeSelector .done [s.sel.owner.byte, rankByte s.sel.rank]
      (changeOwner (stationOwner i) (effectiveRank s.cs.image i r) s) := by
  unfold takeSelector
  rw [verdict, if_pos rfl]
  rfl

/-- Settles O42, verdict by verdict; a take that changes the record passes the selector. -/
theorem takeSelectorByRankContest : Obligations.TakeSelectorByRankContest := by
  unfold Obligations.TakeSelectorByRankContest
  intro i r e s free hi rank
  rw [exec_takeSelector i r s free hi]
  have effective := effectiveRank_eq rank
  refine ⟨fun startUp normal => ?mode, fun mode => ?_⟩
  case mode =>
    rw [takeSelector_of_refused (v := .refusedMode) (by simp [takeVerdict, not_selectorMode startUp normal]) nofun]
  have taken := (selectorMode_iff _).2 mode
  refine ⟨fun high => ?invalid, fun low other weak => ?contest, fun low owner same => ?again, fun low wins => ?take⟩
  case invalid =>
    rw [takeSelector_of_refused (v := .refusedInvalid) (by simp [takeVerdict, taken, high]) nofun]
  case contest =>
    have lost : ¬e < s.sel.rank := not_lt.2 weak
    have verdict : takeVerdict i r s = .refusedRank := by
      simp [takeVerdict, taken, Nat.not_lt.2 low, other, effective, lost]
    rw [takeSelector_of_refused verdict nofun]
  case again =>
    have verdict : takeVerdict i r s = .done := by simp [takeVerdict, taken, Nat.not_lt.2 low, owner]
    rw [takeSelector_of_done verdict, effective, changeOwner_same _ _ s ⟨owner, same⟩]
    rfl
  case take =>
    have verdict : takeVerdict i r s = .done := by
      rcases wins with ⟨owner, _⟩ | ⟨other, stronger⟩
      · simp [takeVerdict, taken, Nat.not_lt.2 low, owner]
      · simp [takeVerdict, taken, Nat.not_lt.2 low, effective, stronger]
    have change : ¬(s.sel.owner = stationOwner i ∧ s.sel.rank = e) := by
      rintro ⟨owner, same⟩
      rcases wins with ⟨_, differs⟩ | ⟨other, _⟩
      · exact differs same
      · exact other owner
    have passed := changeOwner_passes change
    obtain ⟨target, generation, current⟩ := passed.target (.inl (stationOwner_ne_fallback hi))
    refine ⟨_, rfl, ?_⟩
    rw [takeSelector_of_done verdict, effective, answer_eq, passed.clp]
    exact ⟨passed.owner, passed.rank, passed.lastChange, target, generation, current, passed.posted, rfl, passed.groups,
      passed.entries, passed.mode, passed.cs, passed.du⟩

/-! ### RELEASE_SELECTOR (R51, R52) -/

theorem exec_releaseSelector (i : Station) (s : State) (hf : inFlight s = false) (hi : i ≠ 1) :
    exec (.releaseSelector (number i)) s = .next (releaseSelector i s) :=
  congrArg Host.Outcome.next (asked_number .releaseSelector i releaseSelector s hf (decide_eq_true hi))

theorem stationOwner_ne_controller {i : Station} (h : i ≠ 0) : stationOwner i ≠ .controller := by
  revert i; decide

/-- R51: the default owner once a station leaves. -/
theorem defaultOwner_leaving (s : State) (i : Station) : defaultOwner s (some i) =
    if (station s 0).silent = false ∧ i ≠ 0 then (.controller, authorityRank s.cs.image 0) else (.fallback, 3) := by
  simp [defaultOwner]

/-- R51: the selector never passes back to the station that leaves. -/
theorem defaultOwner_ne_leaving (s : State) {i : Station} (hi : i ≠ 1) :
    (defaultOwner s (some i)).1 ≠ stationOwner i := by
  rw [defaultOwner_leaving]
  split
  · rename_i leaves
    exact (stationOwner_ne_controller leaves.2).symm
  · exact (stationOwner_ne_fallback hi).symm

theorem passSelector_passes {i : Station} {s : State} (hi : i ≠ 1) (owner : s.sel.owner = stationOwner i) :
    OwnerPassed (defaultOwner s (some i)).1 (defaultOwner s (some i)).2 s (passSelector i s) := by
  refine changeOwner_passes ?_
  rintro ⟨same, _⟩
  exact defaultOwner_ne_leaving s hi (same.symm.trans owner)

/-- R48: the selector that leaves its owner has changed hands now. -/
theorem passSelector_lastChange {i : Station} {s : State} (hi : i ≠ 1) (owner : s.sel.owner = stationOwner i) :
    (passSelector i s).sel.lastChange = jnow s := by
  rw [(passSelector_passes hi owner).lastChange, if_neg]
  rw [owner]
  exact (defaultOwner_ne_leaving s hi).symm

/-- R51: the owner and rank after the selector has passed. -/
theorem passSelector_ownerRank {i : Station} {s : State} (hi : i ≠ 1) (owner : s.sel.owner = stationOwner i) :
    ((passSelector i s).sel.owner, (passSelector i s).sel.rank) =
      if (station s 0).silent = false ∧ i ≠ 0 then (Owner.controller, authorityRank s.cs.image 0)
      else (Owner.fallback, 3) := by
  have passed := passSelector_passes hi owner
  rw [passed.owner, passed.rank, ← defaultOwner_leaving]

theorem releaseSelector_of_owner {i : Station} {s : State} (owner : s.sel.owner = stationOwner i) :
    releaseSelector i s =
      answer .releaseSelector .done (ownerFields (passSelector i s)) (passSelector i s) := if_pos owner

/-- Settles O43, by the passing of the selector with the reply beside it. -/
theorem releaseSelectorPassesOwnership : Obligations.ReleaseSelectorPassesOwnership := by
  unfold Obligations.ReleaseSelectorPassesOwnership
  intro i s free hi
  rw [exec_releaseSelector i s free hi]
  refine ⟨fun owner => ⟨_, rfl, ?_⟩, fun other => ?_⟩
  · have passed := passSelector_passes hi owner
    rw [releaseSelector_of_owner owner, answer_eq, passed.clp]
    refine ⟨passSelector_ownerRank hi owner, passSelector_lastChange hi owner, rfl, fun idle => ?_, passed.groups,
      passed.mode, passed.cs, passed.du⟩
    obtain ⟨target, generation, _⟩ := passed.target (idle.imp_left fun h => by rw [← passed.owner]; exact h)
    exact ⟨target, generation⟩
  · unfold releaseSelector
    rw [if_neg other]
    rfl

/-! ### The silence expiry (R53, R199) -/

/-- R173, R175: a kind that is not critical is latched and brings nothing else. -/
theorem detect_of_uncritical {k : FaultKind} (h : k.critical = false) (d : BitVec 72) (s : State) :
    detect k d s = latch k d s := by
  unfold detect
  rw [h]
  rfl

/-- R199: the state in which a station has been marked silent, STATION_SILENT being latched and posted. -/
def markedSilent (i : Station) (s : State) : State :=
  post .stationSilent (detect .stationSilent (detailItem (number i)) (setStation s i { station s i with silent := true }))

theorem markedSilent_eq (i : Station) (s : State) : markedSilent i s = post .stationSilent
    (latch .stationSilent (detailItem (number i)) (setStation s i { station s i with silent := true })) := by
  rw [markedSilent, detect_of_uncritical (k := .stationSilent) rfl]

section MarkedSilent

variable (i : Station) (s : State)

@[simp] theorem markedSilent_sel : (markedSilent i s).sel = s.sel := by simp [markedSilent_eq, latch]
@[simp] theorem markedSilent_sge : (markedSilent i s).sge = s.sge := by simp [markedSilent_eq, latch]
@[simp] theorem markedSilent_cs : (markedSilent i s).cs = s.cs := by simp [markedSilent_eq, latch]
@[simp] theorem markedSilent_du : (markedSilent i s).du = s.du := by simp [markedSilent_eq, latch]
@[simp] theorem markedSilent_mode : (markedSilent i s).mfs.mode = s.mfs.mode := by simp [markedSilent_eq, latch]
@[simp] theorem markedSilent_grp (g : Group) : grp (markedSilent i s) g = grp s g := by simp [grp]
@[simp] theorem markedSilent_jnow : jnow (markedSilent i s) = jnow s := by simp [jnow]

theorem markedSilent_clp : (markedSilent i s).clp =
    { s.clp with stations := s.clp.stations.set i.val { station s i with silent := true } } := by
  simp [markedSilent_eq, latch, setStation]

theorem markedSilent_station (j : Station) (h : i ≠ j) : station (markedSilent i s) j = station s j := by
  simp [markedSilent_eq, latch, station_setStation, h]

theorem markedSilent_fault : (markedSilent i s).mfs.faults[FaultKind.stationSilent.code] =
    detected (jnow s) (1#72 <<< i.val) s.mfs.faults[FaultKind.stationSilent.code] := by
  rw [markedSilent_eq, post_mfs_faults, latch_faults, if_pos rfl, setStation_mfs]
  rfl

theorem markedSilent_posts (j : Station) :
    ((markedSilent i s).mfs.pending[j]).getLsbD Event.stationSilent.code.val = true := post_pends .stationSilent _ j

end MarkedSilent

theorem silenceRun_iff (s : State) (i : Station) : silenceRun s i = true ↔ silenceLimit s.cs.image i ≠ 0 ∧
    (station s i).silent = false ∧ silenceLimit s.cs.image i ≤ elapsed (jnow s) (station s i).lastHeard := by
  simp [silenceRun, and_assoc]

theorem silenceExpiry_of_run {i : Station} {s : State} (run : silenceRun s i = true) : silenceExpiry i s =
    if ownerStation s.sel.owner = some i then passSelector i (markedSilent i s) else markedSilent i s := by
  rw [← markedSilent_sel i s]
  exact if_pos run

theorem stationOwner_of_ownerStation {o : Owner} {i : Station} (h : ownerStation o = some i) :
    i ≠ 1 ∧ o = stationOwner i := by
  revert h
  cases o <;> simp [ownerStation, stationOwner]
  all_goals rintro rfl; decide

/-- R51: the default owner is the same once a leaving station has been marked silent. -/
theorem defaultOwner_markedSilent (i : Station) (s : State) :
    defaultOwner (markedSilent i s) (some i) = defaultOwner s (some i) := by
  rw [defaultOwner_leaving, defaultOwner_leaving, markedSilent_cs]
  by_cases zero : i = 0
  · simp [zero]
  · rw [markedSilent_station i s 0 zero]

/-- Settles O17, by the mark with its fault record, and by the passing of the selector where its owner falls silent. -/
theorem silenceExpiryRevertsSelector : Obligations.SilenceExpiryRevertsSelector := by
  unfold Obligations.SilenceExpiryRevertsSelector
  intro i s
  rw [exec_silenceExpiry]
  refine ⟨fun early => ?none, fun limit heard run => ⟨silenceExpiry i s, rfl, ?_⟩⟩
  case none =>
    have idle : ¬silenceRun s i = true := by
      rw [silenceRun_iff]
      rintro ⟨limit, heard, run⟩
      rcases early with zero | silent | soon
      · exact limit zero
      · rw [silent] at heard; cases heard
      · omega
    rw [silenceExpiry, if_neg idle]
  have expired := silenceExpiry_of_run ((silenceRun_iff s i).2 ⟨limit, heard, run⟩)
  by_cases owns : ownerStation s.sel.owner = some i
  · rw [if_pos owns] at expired
    obtain ⟨hi, owner⟩ := stationOwner_of_ownerStation owns
    have owner : (markedSilent i s).sel.owner = stationOwner i := by rw [markedSilent_sel, owner]
    have passed := passSelector_passes hi owner
    rw [expired, if_pos owns]
    refine ⟨passed.clp.trans (markedSilent_clp i s), ?_, fun j => ?_, ?_, fun _ => ?_, fun other => absurd owns other,
      fun g => ?_, ?_, ?_, ?_⟩
    · exact (congrArg (·[FaultKind.stationSilent.code]) passed.faults).trans (markedSilent_fault i s)
    · exact passed.still_pends (markedSilent_posts i s j)
    · rw [passed.owner, passed.rank, defaultOwner_markedSilent, ← defaultOwner_leaving]
    · rw [passSelector_lastChange hi owner, markedSilent_jnow]
    · simpa using passed.groups g
    · rw [passed.mode, markedSilent_mode]
    · rw [passed.cs, markedSilent_cs]
    · rw [passed.du, markedSilent_du]
  · rw [if_neg owns] at expired
    rw [expired, if_neg owns]
    exact ⟨markedSilent_clp i s, markedSilent_fault i s, markedSilent_posts i s, by rw [markedSilent_sel],
      fun owner => absurd owner owns, fun _ => markedSilent_sel i s, fun g => .of_eq (markedSilent_grp i s g),
      markedSilent_mode i s, markedSilent_cs i s, markedSilent_du i s⟩

end Sys2Proof.Machine

/-! ## MODE_REQUEST RESUME (R165, R170 to R172) -/

namespace Sys2Proof.Machine

/-- `t` is `s` after work of the stage selector, the sequencer, the engine and the lamps' following: what that leaves of
the other blocks. -/
structure SelectorMoves (s t : State) : Prop where
  clock : t.sge.clock = s.sge.clock
  igm : t.igm = s.igm
  du : t.du = s.du
  clp : t.clp = s.clp
  cs : t.cs = s.cs
  mfs : t.mfs = { s.mfs with pending := t.mfs.pending, attnLow := t.mfs.attnLow }
  redOut : t.lou.redOut = s.lou.redOut
  lamps : ∀ ch, (lamp t ch).core = (lamp s ch).core

namespace SelectorMoves

theorem refl (s : State) : SelectorMoves s s := ⟨rfl, rfl, rfl, rfl, rfl, rfl, rfl, fun _ => rfl⟩

theorem trans {s t u : State} (h : SelectorMoves s t) (k : SelectorMoves t u) : SelectorMoves s u :=
  ⟨k.clock.trans h.clock, k.igm.trans h.igm, k.du.trans h.du, k.clp.trans h.clp, k.cs.trans h.cs,
    by rw [k.mfs, h.mfs], k.redOut.trans h.redOut, fun ch => (k.lamps ch).trans (h.lamps ch)⟩

theorem setGroups (s : State) (f : Group → GroupRec) : SelectorMoves s (setGroups s f) :=
  ⟨by simp, by simp, by simp, by simp, by simp, by simp, by simp, fun ch => by simp⟩

theorem setSel (s : State) (p : Sel) : SelectorMoves s { s with sel := p } :=
  ⟨rfl, rfl, rfl, rfl, rfl, rfl, rfl, fun _ => rfl⟩

end SelectorMoves

theorem Follows.selectorMoves {own : Group → Bool} {s t : State} (h : Follows own s t) : SelectorMoves s t := by
  refine ⟨h.clock, h.igm, h.du, h.clp, h.cs, h.mfs, by rw [h.lou], fun ch => ?_⟩
  cases commanded : own (lampGroup ch) with
  | true => exact (congrArg LampRec.core (h.ownLamps ch commanded)).trans rfl
  | false =>
    rw [h.lamps ch commanded]
    split
    · rfl
    · exact recommand_core _ _ _

theorem ownerWritten_moves (o : Owner) (r : Rank) (s : State) : SelectorMoves s (ownerWritten o r s) :=
  (SelectorMoves.setSel s _).trans
    ⟨by simp [ownerWritten], by simp [ownerWritten], by simp [ownerWritten], by simp [ownerWritten],
      by simp [ownerWritten], rfl, by simp [ownerWritten], fun ch => by simp [ownerWritten]⟩

theorem changeOwner_moves (o : Owner) (r : Rank) (s : State) : SelectorMoves s (changeOwner o r s) := by
  by_cases same : s.sel.owner = o ∧ s.sel.rank = r
  · rw [changeOwner_same o r s same]
    exact .refl s
  · exact (ownerWritten_moves o r s).trans (changeOwner_follows o r s same).selectorMoves

/-! ### The start-up default (R55) -/

/-- R64: outside NORMAL the reached condition is not evaluated. -/
theorem evalReached_of_mode {s : State} (mode : s.mfs.mode ≠ .normal) : evalReached s = s :=
  if_neg fun h => mode h.1

theorem setTarget_of_mode {s : State} (mode : s.mfs.mode ≠ .normal) (w : GroupSet) : setTarget w s =
    clearMaxedOut { s with sel := { s.sel with target := w, generation := s.sel.generation + 1, reported := false } } :=
  evalReached_of_mode (by simpa using mode)

/-- R51: the default owner when no station leaves. -/
theorem defaultOwner_none (s : State) : defaultOwner s none =
    if (station s 0).silent = false then (.controller, authorityRank s.cs.image 0) else (.fallback, 3) := by
  unfold defaultOwner
  by_cases heard : (station s 0).silent = false <;> simp [heard]

theorem startUpDefault_moves (s : State) : SelectorMoves s (startUpDefault s) :=
  (((SelectorMoves.setSel s _).trans (.setGroups _ _)).trans (setTarget_follows_written 0 s).selectorMoves).trans
    (changeOwner_moves _ _ _)

/-- R48: the owner and rank after a change, whether or not it changes anything. -/
theorem changeOwner_ownerRank (p : Owner × Rank) (s : State) :
    ((changeOwner p.1 p.2 s).sel.owner, (changeOwner p.1 p.2 s).sel.rank) = p := by
  by_cases same : s.sel.owner = p.1 ∧ s.sel.rank = p.2
  · rw [changeOwner_same _ _ s same, same.1, same.2]
  · rw [(changeOwner_passes same).owner, (changeOwner_passes same).rank]

/-- R67: outside NORMAL a change of the owner leaves the target. -/
theorem changeOwner_target {s : State} (mode : s.mfs.mode ≠ .normal) (o : Owner) (r : Rank) :
    (changeOwner o r s).sel.target = s.sel.target ∧ (changeOwner o r s).sel.generation = s.sel.generation := by
  by_cases same : s.sel.owner = o ∧ s.sel.rank = r
  · rw [changeOwner_same o r s same]
    exact ⟨rfl, rfl⟩
  · obtain ⟨target, generation, _⟩ := (changeOwner_passes same).target (.inr mode)
    exact ⟨target, generation⟩

theorem startUpDefault_target {s : State} (mode : s.mfs.mode ≠ .normal) :
    (startUpDefault s).sel.target = 0 ∧ (startUpDefault s).sel.generation = s.sel.generation + 1 := by
  unfold startUpDefault
  rw [setTarget_of_mode mode]
  obtain ⟨target, generation⟩ := changeOwner_target (s := clearMaxedOut { s with sel := { s.sel with
    target := 0, generation := s.sel.generation + 1, reported := false } }) (by simpa using mode)
    (defaultOwner s none).1 (defaultOwner s none).2
  rw [target, generation]
  simp

/-! ### START_UP entry (R165) -/

/-- R165, R55: what START_UP entry leaves, where every stop lamp that it commands can be driven. -/
structure StartUpEntered (s t : State) : Prop where
  mode : t.mfs.mode = .startUp
  sub : t.mfs.sub = some (if startUpFlashTime s.cs.image = 0 then .suAllred else .suFlash)
  goal : t.mfs.goal = none
  phaseStart : t.mfs.phaseStart = jnow s
  fltDriven : t.mfs.fltDriven = s.mfs.fltDriven
  faults : t.mfs.faults = s.mfs.faults
  redOut : t.lou.redOut = s.lou.redOut
  lamps : ∀ ch, (lamp t ch).core = (lamp s ch).core
  ownerRank : (t.sel.owner, t.sel.rank) =
    if (station s 0).silent = false then (Owner.controller, authorityRank s.cs.image 0) else (Owner.fallback, 3)
  target : t.sel.target = 0
  generation : t.sel.generation = s.sel.generation + 1
  clp : t.clp = s.clp
  cs : t.cs = s.cs
  du : t.du = s.du
  igm : t.igm = s.igm

/-- R165: the mode record of START_UP, the start-up default and the walk: what comes before the lamps' following. -/
def startUpOrdered (p : SubPhase) (s : State) : State := walk (startUpDefault (setMode .startUp (some p) none s))

theorem startUpOrdered_moves (p : SubPhase) (s : State) :
    SelectorMoves (setMode .startUp (some p) none s) (startUpOrdered p s) :=
  (startUpDefault_moves _).trans (walk_follows _).selectorMoves

theorem StartUpEntered.of_moves {p : SubPhase} {s t : State}
    (sub : p = if startUpFlashTime s.cs.image = 0 then .suAllred else .suFlash)
    (moves : SelectorMoves (startUpOrdered p s) t) (sel : t.sel = (startUpOrdered p s).sel) : StartUpEntered s t := by
  have all := (startUpOrdered_moves p s).trans moves
  have default : t.sel = (startUpDefault (setMode .startUp (some p) none s)).sel := sel.trans (walk_selKept _).sel
  have mode : (setMode .startUp (some p) none s).mfs.mode ≠ .normal := by simp [setMode_mfs]
  obtain ⟨target, generation⟩ := startUpDefault_target mode
  have owner := changeOwner_ownerRank (defaultOwner (setMode .startUp (some p) none s) none)
    (setTarget 0 (setMode .startUp (some p) none s))
  exact {
    mode := by rw [all.mfs]; simp [setMode_mfs]
    sub := by rw [all.mfs, ← sub]; simp [setMode_mfs]
    goal := by rw [all.mfs]; simp [setMode_mfs, updateAttn]
    phaseStart := by rw [all.mfs]; simp [setMode_mfs, updateAttn]
    fltDriven := by rw [all.mfs]; simp [setMode_mfs, updateAttn]
    faults := by rw [all.mfs]; simp [setMode_mfs, updateAttn]
    redOut := by rw [all.redOut, setMode_lou]
    lamps := fun ch => by rw [all.lamps, lamp, setMode_lou, ← lamp]
    ownerRank := by
      rw [default, startUpDefault, owner, defaultOwner_none, station, setMode_clp, setMode_cs, ← station]
    target := by rw [default, target]
    generation := by rw [default, generation, setMode_sel]
    clp := by rw [all.clp, setMode_clp]
    cs := by rw [all.cs, setMode_cs]
    du := by rw [all.du, setMode_du]
    igm := by rw [all.igm, setMode_igm] }

theorem drive_of_core {a b : LampRec} (h : a.core = b.core) :
    a.drive = b.drive ∧ a.trips = b.trips ∧ a.lastTrip = b.lastTrip := by
  have drive : a.core.drive = b.core.drive := by rw [h]
  have trips : a.core.trips = b.core.trips := by rw [h]
  have lastTrip : a.core.lastTrip = b.core.lastTrip := by rw [h]
  exact ⟨drive, trips, lastTrip⟩

theorem startUpOrdered_drive (p : SubPhase) (s : State) (ch : Lamp) :
    (lamp (startUpOrdered p s) ch).drive = (lamp s ch).drive := by
  rw [(drive_of_core ((startUpOrdered_moves p s).lamps ch)).1, lamp, setMode_lou, ← lamp]

/-- R158: with every stop lamp enabled the start of an all-red makes no group red-out. -/
theorem beginAllRed_of_enabled {s : State} (enabled : ∀ g, (lamp s (stopLamp g)).drive = .enabled) : beginAllRed s =
    lampsFollow (fun _ => true) (setGroups s fun g => allRedStarted (jnow s) (grp s g)) :=
  followAndRedOut_of_enabled fun g _ => by simpa using enabled g

theorem enterStartUp_enters {s : State}
    (enabled : startUpFlashTime s.cs.image = 0 → ∀ g, (lamp s (stopLamp g)).drive = .enabled) :
    StartUpEntered s (enterStartUp s) := by
  by_cases flash : startUpFlashTime s.cs.image = 0
  · have enters : enterStartUp s = beginAllRed (startUpOrdered .suAllred s) := if_pos flash
    rw [enters, beginAllRed_of_enabled fun g => by rw [startUpOrdered_drive, enabled flash]]
    exact .of_moves (if_pos flash).symm ((SelectorMoves.setGroups _ _).trans (lampsFollow_follows _ _).selectorMoves)
      (by simp)
  · have enters : enterStartUp s = lampsFollow (fun _ => true) (startUpOrdered .suFlash s) := if_neg flash
    rw [enters]
    exact .of_moves (if_neg flash).symm (lampsFollow_follows _ _).selectorMoves (by simp)

/-! ### The request -/

theorem lamp_liftLocks (s : State) (ch : Lamp) : lamp (liftLocks s) ch = unlocked (jnow s) (lamp s ch) := by
  simp [liftLocks]

theorem unlocked_of_locked (now : Time) {r : LampRec} (h : r.drive = .lockedOff) : (unlocked now r).drive = .enabled ∧
    (unlocked now r).trips = 0 ∧ (unlocked now r).lastTrip = none := by
  unfold unlocked
  rw [if_pos h]
  exact ⟨rfl, rfl, rfl⟩

theorem unlocked_of_free (now : Time) {r : LampRec} (h : r.drive ≠ .lockedOff) : unlocked now r = r := if_neg h

/-- R157: a channel that is not TRIPPED can be driven once every lock is lifted. -/
theorem unlocked_enabled (now : Time) {r : LampRec} (h : r.drive ≠ .tripped) : (unlocked now r).drive = .enabled := by
  by_cases locked : r.drive = .lockedOff
  · exact (unlocked_of_locked now locked).1
  · rw [unlocked_of_free now locked]
    cases drive : r.drive with
    | enabled => rfl
    | tripped => exact absurd drive h
    | lockedOff => exact absurd drive locked

/-- R157, R172: FLT released and the locks lifted. -/
def resumeReleased (s : State) : State := liftLocks { s with mfs := { s.mfs with fltDriven := false } }

@[simp] theorem resumeReleased_jnow (s : State) : jnow (resumeReleased s) = jnow s := by simp [resumeReleased, jnow]
@[simp] theorem resumeReleased_igm (s : State) : (resumeReleased s).igm = s.igm := by simp [resumeReleased]
@[simp] theorem resumeReleased_sel (s : State) : (resumeReleased s).sel = s.sel := by simp [resumeReleased]
@[simp] theorem resumeReleased_du (s : State) : (resumeReleased s).du = s.du := by simp [resumeReleased]
@[simp] theorem resumeReleased_clp (s : State) : (resumeReleased s).clp = s.clp := by simp [resumeReleased]
@[simp] theorem resumeReleased_cs (s : State) : (resumeReleased s).cs = s.cs := by simp [resumeReleased]
@[simp] theorem resumeReleased_redOut (s : State) : (resumeReleased s).lou.redOut = s.lou.redOut := by
  simp [resumeReleased, liftLocks, setLamps]

theorem resumeReleased_mfs (s : State) : (resumeReleased s).mfs = { s.mfs with fltDriven := false } := by
  simp [resumeReleased]

theorem lamp_resumeReleased (s : State) (ch : Lamp) :
    lamp (resumeReleased s) ch = unlocked (jnow s) (lamp s ch) := lamp_liftLocks _ ch

theorem startResume_enters {s : State}
    (drivable : startUpFlashTime s.cs.image = 0 → ∀ g, (lamp s (stopLamp g)).drive ≠ .tripped) :
    StartUpEntered (resumeReleased s) (startResume s) :=
  enterStartUp_enters fun flash g => by
    rw [lamp_resumeReleased]
    exact unlocked_enabled _ (drivable (by simpa using flash) g)

theorem exec_modeRequestResume (i : Station) (s : State) (hf : inFlight s = false) (hi : i ≠ 1) :
    exec (.modeRequestResume (number i)) s = .next (modeRequestResume i s) :=
  congrArg Host.Outcome.next (asked_number .modeRequest i modeRequestResume s hf (decide_eq_true hi))

/-- R170. -/
theorem modeRequestResume_of_running {i : Station} {s : State} (h : s.mfs.mode.resting = false) :
    modeRequestResume i s = answer .modeRequest .refusedMode (modeFields 0 s) s := by
  unfold modeRequestResume
  rw [h]
  rfl

/-- R171. -/
theorem modeRequestResume_of_rest {i : Station} {s : State} (h : s.mfs.mode.resting = true) :
    modeRequestResume i s = if criticalLatched s then refuseForFault s
      else if needsValidation s then orderValidation s else resumeAccepted s := by
  unfold modeRequestResume
  rw [h]
  rfl

theorem resting_iff (m : Mode) : m.resting = true ↔ m = .flash ∨ m = .dark := by cases m <;> simp [Mode.resting]

/-- Settles O47, check by check; the RESUME that passes enters START_UP from the released locks. -/
theorem resumeStartsUpOrValidates : Obligations.ResumeStartsUpOrValidates := by
  unfold Obligations.ResumeStartsUpOrValidates
  intro i s free hi
  rw [exec_modeRequestResume i s free hi]
  refine ⟨fun flash dark => ?running, fun rest => ?_⟩
  case running =>
    have running : s.mfs.mode.resting = false := by
      rw [Bool.eq_false_iff, ne_eq, resting_iff]
      exact not_or.2 ⟨flash, dark⟩
    rw [modeRequestResume_of_running running]
    rfl
  rw [modeRequestResume_of_rest ((resting_iff _).2 rest)]
  refine ⟨fun critical n detail => ?critical, fun calm invalid => ?validation, fun calm edited mismatch drivable => ?resume⟩
  case critical =>
    rw [if_pos critical, detail]
    rfl
  case validation =>
    have needs : needsValidation s = true := by simpa [needsValidation] using invalid
    rw [if_neg (by rw [calm]; decide), if_pos needs]
    rfl
  case resume =>
    have valid : needsValidation s = false := by simp [needsValidation, edited, mismatch]
    have entered := startResume_enters drivable
    have sub := entered.sub
    have ownerRank := entered.ownerRank
    rw [resumeReleased_cs] at sub ownerRank
    rw [station, resumeReleased_clp, ← station] at ownerRank
    have accepted : resumeAccepted s =
        { startResume s with clp := answered .modeRequest .accepted (modeFields 0 (startResume s)) s.clp } := by
      rw [resumeAccepted, answer_eq, entered.clp, resumeReleased_clp]
    rw [if_neg (by rw [calm]; decide), if_neg (by rw [valid]; decide), accepted]
    refine ⟨_, rfl, entered.mode, entered.goal, ?_, sub, ?_, ?_, ?_, fun ch locked => ?_, fun ch unlocked => ?_, ownerRank,
      entered.target, ?_, rfl, ?_, ?_, ?_⟩
    · rw [entered.phaseStart, resumeReleased_jnow]
    · rw [entered.fltDriven, resumeReleased_mfs]
    · rw [entered.faults, resumeReleased_mfs]
    · rw [entered.redOut, resumeReleased_redOut]
    · obtain ⟨drive, trips, lastTrip⟩ := drive_of_core (entered.lamps ch)
      obtain ⟨enabled, zero, none⟩ := unlocked_of_locked (jnow s) locked
      rw [lamp_resumeReleased] at drive trips lastTrip
      exact ⟨drive.trans enabled, trips.trans zero, lastTrip.trans none⟩
    · obtain ⟨drive, trips, _⟩ := drive_of_core (entered.lamps ch)
      rw [lamp_resumeReleased, unlocked_of_free _ unlocked] at drive trips
      exact ⟨drive, trips⟩
    · rw [entered.generation, resumeReleased_sel]
    · rw [entered.cs, resumeReleased_cs]
    · rw [entered.du, resumeReleased_du]
    · rw [entered.igm, resumeReleased_igm]

end Sys2Proof.Machine

/-! ## The takeover of the fallback sequencer (R62, R67, R68) -/

namespace Sys2Proof.Machine

/-! ### The stage that it takes -/

/-- R68: the better of the stage chosen so far and the next one. -/
def betterStage (s : State) (best : Option Stage) (n : Stage) : Option Stage :=
  if s.sel.stages[n] = 0 then best
  else match best with
    | none => some n
    | some b => if proceedingMembers s b < proceedingMembers s n then some n else best

theorem takeoverStage_eq (s : State) : takeoverStage s = (List.finRange 8).foldl (betterStage s) none := rfl

/-- R68: the choice among the stages of a list: of the non-empty ones the one with the most proceeding members, the
lowest among equals. -/
def ChosenAmong (s : State) (l : List Stage) : Option Stage → Prop
  | some k => k ∈ l ∧ s.sel.stages[k] ≠ 0 ∧ ∀ j ∈ l, s.sel.stages[j] ≠ 0 →
      proceedingMembers s j < proceedingMembers s k ∨ (proceedingMembers s j = proceedingMembers s k ∧ k ≤ j)
  | none => ∀ j ∈ l, s.sel.stages[j] = 0

theorem ChosenAmong.next {s : State} {l : List Stage} {o : Option Stage} (h : ChosenAmong s l o) {n : Stage}
    (lower : ∀ j ∈ l, j < n) : ChosenAmong s (l ++ [n]) (betterStage s o n) := by
  unfold betterStage
  by_cases empty : s.sel.stages[n] = 0
  · rw [if_pos empty]
    cases o with
    | none =>
      intro j mem
      rcases List.mem_append.1 mem with mem | mem
      · exact h j mem
      · rw [List.mem_singleton.1 mem, empty]
    | some k =>
      obtain ⟨mem, members, most⟩ := h
      refine ⟨List.mem_append_left _ mem, members, fun j mj nonempty => ?_⟩
      rcases List.mem_append.1 mj with mj | mj
      · exact most j mj nonempty
      · rw [List.mem_singleton.1 mj] at nonempty
        exact absurd empty nonempty
  · rw [if_neg empty]
    have last : n ∈ l ++ [n] := List.mem_append_right _ (List.mem_singleton_self n)
    cases o with
    | none =>
      refine ⟨last, empty, fun j mj nonempty => ?_⟩
      rcases List.mem_append.1 mj with mj | mj
      · exact absurd (h j mj) nonempty
      · rw [List.mem_singleton.1 mj]
        exact .inr ⟨rfl, le_refl n⟩
    | some k =>
      obtain ⟨mem, members, most⟩ := h
      dsimp only
      split
      · rename_i more
        refine ⟨last, empty, fun j mj nonempty => ?_⟩
        rcases List.mem_append.1 mj with mj | mj
        · have := most j mj nonempty
          omega
        · rw [List.mem_singleton.1 mj]
          exact .inr ⟨rfl, le_refl n⟩
      · rename_i fewer
        refine ⟨List.mem_append_left _ mem, members, fun j mj nonempty => ?_⟩
        rcases List.mem_append.1 mj with mj | mj
        · exact most j mj nonempty
        · rw [List.mem_singleton.1 mj]
          rcases (not_lt.1 fewer).lt_or_eq with less | same
          · exact .inl less
          · exact .inr ⟨same, (lower k mem).le⟩

theorem foldl_betterStage_chosen (s : State) {l : List Stage} (sorted : l.Pairwise (· < ·)) :
    ChosenAmong s l (l.foldl (betterStage s) none) := by
  induction l using List.reverseRecOn with
  | nil => exact fun j mem => absurd mem List.not_mem_nil
  | append_singleton l n ih =>
    obtain ⟨before, -, lower⟩ := List.pairwise_append.1 sorted
    rw [List.foldl_append]
    exact (ih before).next fun j mem => lower j mem n (List.mem_singleton_self n)

theorem ChosenAmong.unique {s : State} {l : List Stage} {a b : Option Stage} (h : ChosenAmong s l a)
    (k : ChosenAmong s l b) : a = b := by
  cases a with
  | none =>
    cases b with
    | none => rfl
    | some y => exact absurd (h y k.1) k.2.1
  | some x =>
    obtain ⟨hx, membersX, mostX⟩ := h
    cases b with
    | none => exact absurd (k x hx) membersX
    | some y =>
      obtain ⟨hy, membersY, mostY⟩ := k
      rcases mostX y hy membersY with less | ⟨same, le⟩
      · rcases mostY x hx membersX with more | ⟨same, _⟩
        · exact absurd more less.asymm
        · exact absurd same less.ne'
      · rcases mostY x hx membersX with more | ⟨_, ge⟩
        · exact absurd same more.ne'
        · rw [le_antisymm le ge]

/-- R68: the sequencer takes the stage that is chosen among all eight. -/
theorem takeoverStage_of_chosen {s : State} {o : Option Stage} (h : ChosenAmong s (List.finRange 8) o) :
    takeoverStage s = o := by
  rw [takeoverStage_eq]
  exact (foldl_betterStage_chosen s (List.pairwise_lt_finRange 8)).unique h

theorem takeoverStage_congr {s t : State} (stages : t.sel.stages = s.sel.stages) (sge : t.sge = s.sge) :
    takeoverStage t = takeoverStage s := by
  unfold takeoverStage proceedingMembers grp
  rw [stages, sge]

/-! ### What it writes -/

/-- R62, R68: the stage taken, and its set as the target of a new generation. -/
def stageTaken (o : Option Stage) (w : GroupSet) (s : State) : State := { s with
  fbs := { s.fbs with current := o }
  sel := { s.sel with target := w, generation := s.sel.generation + 1, reported := false } }

theorem takeover_eq {s : State} {o : Option Stage} (choice : takeoverStage s = o) :
    takeover s = evalReached (clearMaxedOut (stageTaken o (stageSet o s) s)) := by
  rw [← choice]
  rfl

/-- R64. -/
theorem evalReached_sel (s : State) :
    (evalReached s).sel = { s.sel with reported := (evalReached s).sel.reported } := by
  unfold evalReached
  split
  · simp [post]
  · rfl

/-- R64: what the reached condition may have posted before the takeover stands beside what the takeover writes. -/
theorem stageTaken_evalReached_follows (o : Option Stage) (w : GroupSet) (s : State) :
    Follows noGroup (stageTaken o w s) (stageTaken o w (evalReached s)) := by
  unfold evalReached
  split
  · exact post_follows .stageReached (stageTaken o w s) (by decide)
  · exact .refl _

/-! ### The choice stands (R72) -/

/-- No group outside the stage has demand. -/
def NoDemandOutside (o : Option Stage) (s : State) : Prop :=
  ∀ k, o = some k → ∀ g, inSet s.sel.stages[k] g = false → (grp s g).demand = false

theorem NoDemandOutside.congr {o : Option Stage} {s t : State} (h : NoDemandOutside o s)
    (stages : t.sel.stages = s.sel.stages) (sge : t.sge = s.sge) : NoDemandOutside o t := by
  intro k chosen g outside
  rw [stages] at outside
  rw [grp, sge, ← grp]
  exact h k chosen g outside

theorem stageSet_congr {s t : State} (stages : t.sel.stages = s.sel.stages) (o : Option Stage) :
    stageSet o t = stageSet o s := by
  unfold stageSet
  rw [stages]

/-- The sequencer stands on `o`, which no demand ends, with the selector's record `p` but for its reported flag. -/
structure ChoiceStands (o : Option Stage) (p : Sel) (s : State) : Prop where
  current : s.fbs.current = o
  sel : s.sel = { p with reported := s.sel.reported }
  idle : NoDemandOutside o s

theorem GroupFollows.demand {now : Time} {cap : Nat} {a b : GroupRec} (h : GroupFollows now cap a b) :
    b.demand = a.demand := h.shuts.demand

theorem grp_clearMaxedOut (s : State) (g : Group) : grp (clearMaxedOut s) g = { grp s g with maxedOut := false } := by
  simp [clearMaxedOut]

theorem stageEnds_of_idle {s : State} {k : Stage} (idle : NoDemandOutside (some k) s) : stageEnds s k = false := by
  have none_outside : (allGroups.any fun g => !inSet s.sel.stages[k] g && (grp s g).demand) = false := by
    rw [List.any_eq_false]
    intro g _ outside
    simp only [Bool.and_eq_true, Bool.not_eq_true'] at outside
    rw [idle k rfl g outside.1] at outside
    exact absurd outside.2 (by decide)
  rw [stageEnds, none_outside, Bool.and_false]

/-- What every round of an arrival keeps, the whole arrival keeps. -/
theorem settleRounds_keeps {P : State → Prop} (reached : ∀ s, P s → P (evalReached s))
    (stage : ∀ s, P s → P (evalStage s)) (round : ∀ s, P s → P (engineRound s)) (n : Nat) (sel fbs : Bool) {s : State}
    (h : P s) : P (settleRounds n sel fbs s) := by
  induction n generalizing sel fbs s with
  | zero => exact h
  | succ n ih =>
    have evaluated : P (if sel then evalReached s else s) := by
      split
      · exact reached s h
      · exact h
    unfold settleRounds
    split
    · dsimp only
      split
      · exact ih _ _ (stage _ evaluated)
      · exact evaluated
    · exact ih _ _ (round s h)

namespace ChoiceStands

variable {o : Option Stage} {p : Sel} {s t : State}

theorem follows {own : Group → Bool} (h : ChoiceStands o p s) (l : Follows own s t) (fbs : t.fbs = s.fbs)
    (sel : t.sel = { s.sel with reported := t.sel.reported }) : ChoiceStands o p t := by
  refine ⟨by rw [fbs, h.current], by rw [sel, h.sel], fun k chosen g outside => ?_⟩
  rw [sel] at outside
  rw [(l.groups g).demand]
  exact h.idle k chosen g outside

theorem evalReached (h : ChoiceStands o p s) : ChoiceStands o p (evalReached s) := by
  obtain ⟨_, _, fbs, _⟩ := evalReached_parts s
  exact h.follows (evalReached_follows s) fbs (evalReached_sel s)

theorem evalStage (h : ChoiceStands o p s) : ChoiceStands o p (evalStage s) := by
  have lasts : Machine.evalStage s = s := by
    unfold Machine.evalStage
    rw [h.current]
    split
    · cases o with
      | none => rfl
      | some k =>
        dsimp only
        rw [if_neg (by rw [stageEnds_of_idle h.idle]; decide)]
    · rfl
  rw [lasts]
  exact h

theorem selKept {own : Group → Bool} (h : ChoiceStands o p s) (l : Follows own s t) (k : SelKept s t) :
    ChoiceStands o p t := h.follows l k.fbs (by rw [k.sel])

theorem settleSince (h : ChoiceStands o p s) (before : State) : ChoiceStands o p (settleSince before s) :=
  settleRounds_keeps (P := ChoiceStands o p) (fun _ => evalReached) (fun _ => evalStage)
    (fun u k => k.selKept (engineRound_follows u) (engineRound_selKept u)) 80 true _ h

theorem of_takeover (choice : takeoverStage s = o) (idle : NoDemandOutside o s) :
    ChoiceStands o (stageTaken o (stageSet o s) s).sel (takeover s) := by
  have written : ChoiceStands o (stageTaken o (stageSet o s) s).sel (clearMaxedOut (stageTaken o (stageSet o s) s)) := by
    refine ⟨by rw [clearMaxedOut_fbs]; rfl, by rw [clearMaxedOut_sel], fun k chosen g outside => ?_⟩
    rw [clearMaxedOut_sel] at outside
    rw [grp_clearMaxedOut]
    exact idle k chosen g outside
  rw [takeover_eq choice]
  exact written.evalReached

end ChoiceStands

/-! ### The passing to FALLBACK -/

/-- R67, R68: the steps of a change to FALLBACK in NORMAL that brings the takeover. -/
theorem changeOwner_of_takeover {s : State} (mode : s.mfs.mode = .normal) (owner : s.sel.owner ≠ .fallback) (r : Rank) :
    changeOwner .fallback r s = settleSince s (takeover (walk (ownerWritten .fallback r s))) := by
  have before : fbsActs s = false := by simp [fbsActs, owner]
  have acts : fbsActs (walk (ownerWritten .fallback r s)) = true := by
    rw [(walk_follows _).acts, ownerWritten_acts]
    simp [mode]
  unfold ownerWritten at acts ⊢
  unfold changeOwner
  rw [if_neg fun same => owner same.1]
  simp only [acts, before, if_true, Bool.false_eq_true, if_false]

/-- R62, R67, R68: an arrival that takes the selector over leaves the choice `o` where no demand stands outside it. -/
structure TakenOver (o : Option Stage) (s t : State) : Prop where
  owner : t.sel.owner = .fallback
  stands : NoDemandOutside o s →
    t.fbs.current = o ∧ t.sel.target = stageSet o s ∧ t.sel.generation = s.sel.generation + 1

/-- The takeover reads the selector's record and the group records alone. -/
theorem TakenOver.congr {o : Option Stage} {s u t : State} (h : TakenOver o u t) (stages : u.sel.stages = s.sel.stages)
    (generation : u.sel.generation = s.sel.generation) (sge : u.sge = s.sge) : TakenOver o s t := by
  refine ⟨h.owner, fun idle => ?_⟩
  rw [← stageSet_congr stages, ← generation]
  exact h.stands (idle.congr stages sge)

theorem ChoiceStands.reads {o : Option Stage} {w : GroupSet} {s t : State}
    (h : ChoiceStands o (stageTaken o w s).sel t) :
    t.fbs.current = o ∧ t.sel.target = w ∧ t.sel.generation = s.sel.generation + 1 := by
  refine ⟨h.current, ?_, ?_⟩
  · rw [h.sel]
    rfl
  · rw [h.sel]
    rfl

theorem changeOwner_takesOver {s : State} {o : Option Stage} (mode : s.mfs.mode = .normal)
    (owner : s.sel.owner ≠ .fallback) (choice : takeoverStage s = o) (r : Rank) :
    TakenOver o s (changeOwner .fallback r s) := by
  have alike := walkWith_alike false (ownerWritten .fallback r s)
  have sge : (walk (ownerWritten .fallback r s)).sge = s.sge := alike.sge.trans (by simp [ownerWritten])
  have sel : (walk (ownerWritten .fallback r s)).sel = (ownerWritten .fallback r s).sel := (walk_selKept _).sel
  rw [ownerWritten_sel] at sel
  have chosen : takeoverStage (walk (ownerWritten .fallback r s)) = o :=
    (takeoverStage_congr (by rw [sel]) sge).trans choice
  have taken : TakenOver o (walk (ownerWritten .fallback r s)) (changeOwner .fallback r s) := by
    refine ⟨(changeOwner_passes fun same => owner same.1).owner, fun idle => ?_⟩
    rw [changeOwner_of_takeover mode owner]
    exact ((ChoiceStands.of_takeover chosen idle).settleSince s).reads
  exact taken.congr (by rw [sel]) (by rw [sel]) sge

/-- R51, R67: the selector passes to FALLBACK where the timing controller is silent or leaves. -/
theorem passSelector_takesOver {i : Station} {s : State} {o : Option Stage} (hi : i ≠ 1)
    (owner : s.sel.owner = stationOwner i) (mode : s.mfs.mode = .normal)
    (gone : (station s 0).silent = true ∨ i = 0) (choice : takeoverStage s = o) : TakenOver o s (passSelector i s) := by
  have fallback : defaultOwner s (some i) = (.fallback, 3) := by
    rw [defaultOwner_leaving, if_neg]
    rintro ⟨heard, other⟩
    rcases gone with silent | leaves
    · rw [heard] at silent; cases silent
    · exact other leaves
  unfold passSelector
  rw [fallback]
  exact changeOwner_takesOver mode (by rw [owner]; exact stationOwner_ne_fallback hi) choice 3

/-! ### The entry to NORMAL -/

/-- R148: the lamps' following of what an arrival has brought. -/
theorem Follows.then_lampsFollow {s t : State} (h : Follows noGroup s t) (p : Group → Bool) :
    Follows p s (lampsFollow p t) where
  clock := by simpa using h.clock
  igm := by simpa using h.igm
  du := by simpa using h.du
  clp := by simpa using h.clp
  cs := by simpa using h.cs
  fbsDue := by simpa using h.fbsDue
  freeIndex := by simpa using h.freeIndex
  pending := by simpa using h.pending
  sel := by simpa using h.sel
  target := by simpa using h.target
  fbs := by simpa using h.fbs
  pu := by simpa using h.pu
  entries := by simpa using h.entries
  lou := by rw [lampsFollow_lou, h.lou]
  mfs := by simpa using h.mfs
  events := by simpa using h.events
  attn := by simpa using h.attn
  groups := by simpa using h.groups
  flags := by simpa using h.flags
  lamps := fun ch others => by
    rw [lamp_lampsFollow, others, derivedCommand_lampsFollow, grp_lampsFollow]
    exact h.lamps ch rfl
  ownLamps := fun ch own => by
    have shape : lamp t ch = { lamp s ch with
        command := (lamp t ch).command, output := (lamp t ch).output, settling := (lamp t ch).settling } := by
      rw [h.lamps ch rfl]
      split
      · rfl
      · rw [recommand_command]
        exact recommand_shape _ _ _
    rw [lamp_lampsFollow, own, derivedCommand_lampsFollow, if_pos rfl]
    refine (recommand_shape _ _ _).trans ?_
    rw [shape]

/-- R67, R68, R166: the entry to NORMAL under FALLBACK. -/
theorem enterNormal_takesOver {s : State} {o : Option Stage} (owner : s.sel.owner = .fallback)
    (choice : takeoverStage s = o) :
    Follows everyGroup (stageTaken o (stageSet o s) (setMode .normal none none s)) (enterNormal s) ∧
      TakenOver o s (enterNormal s) := by
  have sel : (setMode .normal none none s).sel = s.sel := setMode_sel ..
  have sge : (setMode .normal none none s).sge = s.sge := setMode_sge ..
  have acts : fbsActs (setMode .normal none none s) = true := by simp [fbsActs, setMode_mfs, owner]
  unfold enterNormal
  generalize setMode .normal none none s = m at sel sge acts
  have reported := evalReached_sel m
  rw [sel] at reported
  have chosen : takeoverStage (evalReached m) = o :=
    (takeoverStage_congr (by rw [reported]) ((evalReached_sge m).trans sge)).trans choice
  have fallback : (evalReached m).sel.owner = .fallback := by rw [reported, owner]
  dsimp only
  rw [if_pos fallback]
  have written : Follows noGroup (stageTaken o (stageSet o s) m) (takeover (evalReached m)) := by
    have set : stageSet o (evalReached m) = stageSet o s := stageSet_congr (by rw [reported]) o
    rw [takeover_eq chosen, set]
    have acts : fbsActs (stageTaken o (stageSet o s) (evalReached m)) = true := (evalReached_follows m).acts.trans acts
    exact ((stageTaken_evalReached_follows o _ m).trans (clearMaxedOut_follows _ acts)).trans (evalReached_follows _)
  have follows := ((written.trans (walk_follows _)).then_lampsFollow everyGroup).trans (settleSince_follows s _)
  refine ⟨follows, TakenOver.congr (u := evalReached m) ⟨?_, fun idle => ?_⟩ (by rw [reported]) (by rw [reported])
    ((evalReached_sge m).trans sge)⟩
  · exact follows.owner.trans ((congrArg Sel.owner sel).trans owner)
  · have walked := (ChoiceStands.of_takeover chosen idle).selKept (walk_follows _) (walk_selKept _)
    exact ((walked.selKept (lampsFollow_follows everyGroup _) ⟨by simp, by simp⟩).settleSince s).reads

/-! ### The arrivals -/

theorem ChosenAmong.of_stages {s : State} {o : Option Stage} {w : GroupSet}
    (h : match o with
      | some k => s.sel.stages[k] = w ∧ w ≠ 0 ∧ ∀ j : Stage, s.sel.stages[j] ≠ 0 →
          proceedingMembers s j < proceedingMembers s k ∨ (proceedingMembers s j = proceedingMembers s k ∧ k ≤ j)
      | none => w = 0 ∧ ∀ j : Stage, s.sel.stages[j] = 0) :
    ChosenAmong s (List.finRange 8) o ∧ stageSet o s = w := by
  cases o with
  | none =>
    obtain ⟨zero, empty⟩ := h
    exact ⟨fun j _ => empty j, zero.symm⟩
  | some k =>
    obtain ⟨rfl, members, most⟩ := h
    exact ⟨⟨List.mem_finRange k, members, fun j _ => most j⟩, rfl⟩

/-- R53: that the timing controller cannot take over stands once the leaving station has been marked silent. -/
theorem gone_markedSilent {i : Station} {s : State} (gone : (station s 0).silent = true ∨ i = 0) :
    (station (markedSilent i s) 0).silent = true ∨ i = 0 := by
  by_cases leaves : i = 0
  · exact .inr leaves
  · rw [markedSilent_station i s 0 leaves]
    exact gone

/-- Settles O16, by the choice that the fold over the stages makes, arrival by arrival. -/
theorem fallbackTakesOver : Obligations.FallbackTakesOver := by
  unfold Obligations.FallbackTakesOver
  intro c o w s best arrival
  obtain ⟨chosen, set⟩ := ChosenAmong.of_stages best
  subst set
  have choice := takeoverStage_of_chosen chosen
  have idle (h : ∀ g, o.isSome = true → inSet (stageSet o s) g = false → (grp s g).demand = false) :
      NoDemandOutside o s := by
    rintro k rfl g outside
    exact h g rfl outside
  rcases arrival with ⟨mode, i, owner, hi, gone, request⟩ | ⟨rfl, mode, sub, fallback, run, few⟩
  · rcases request with ⟨rfl, free⟩ | ⟨rfl, limit, heard, run⟩
    · have taken := passSelector_takesOver hi owner mode gone choice
      have passed := passSelector_passes hi owner
      rw [exec_releaseSelector i s free hi, releaseSelector_of_owner owner]
      exact ⟨_, rfl, taken.owner, passed.mode.trans mode, nofun, passed.groups, fun outside => taken.stands (idle outside)⟩
    · have taken := passSelector_takesOver (s := markedSilent i s) hi (by rw [markedSilent_sel, owner])
        ((markedSilent_mode i s).trans mode) (gone_markedSilent gone)
        ((takeoverStage_congr (by simp) (by simp)).trans choice)
      have passed := passSelector_passes (s := markedSilent i s) hi (by rw [markedSilent_sel, owner])
      have expired : silenceExpiry i s = passSelector i (markedSilent i s) := by
        rw [silenceExpiry_of_run ((silenceRun_iff s i).2 ⟨limit, heard, run⟩), owner, ownerStation_stationOwner hi,
          if_pos rfl]
      rw [exec_silenceExpiry, expired]
      refine ⟨_, rfl, taken.owner, ?_, nofun, fun g => ?_, fun outside => ?_⟩
      · rw [passed.mode, markedSilent_mode, mode]
      · simpa using passed.groups g
      · exact (taken.congr (by simp) (by simp) (by simp)).stands (idle outside)
  · obtain ⟨follows, taken⟩ := enterNormal_takesOver fallback choice
    have ends : suAllredEnd s = enterNormal s := by
      rw [suAllredEnd, if_pos (phaseRun_of sub run), if_neg (by omega)]
    refine ⟨suAllredEnd s, rfl, ?_⟩
    rw [ends]
    exact ⟨taken.owner, follows.mode, fun _ => follows, follows.groups, fun outside => taken.stands (idle outside)⟩

end Sys2Proof.Machine

/-! ## The gap-out (R70 to R75) -/

namespace Sys2Proof.Machine

theorem gapOut_of_member {g : Group} {n : Stage} {s : State} (acts : fbsActs s = true) (current : s.fbs.current = some n)
    (member : inSet s.sel.stages[n] g = true) (gapped : gappedOut s g = true) :
    gapOut g s = settleStage { s with fbsDue := false } := by
  have gapsOut : memberGapsOut s g = true := by rw [memberGapsOut, acts, gapped, current]; exact member
  exact if_pos gapsOut

/-- R72: a stage that has not ended is kept. -/
theorem evalStage_of_lasting {s : State} {n : Stage} (current : s.fbs.current = some n) (lasts : stageEnds s n = false) :
    evalStage s = s := by
  unfold evalStage
  rw [current]
  simp [lasts]

theorem settleStage_of_kept {s : State} (kept : evalStage s = s) (none : terminating s = []) : settleStage s = s := by
  unfold settleStage
  rw [kept]
  dsimp only
  rw [memberFlagChanged_self]
  unfold settleRounds
  rw [if_pos none]
  rfl

/-- Settles O15: the gap-out is the sequencer's evaluation, which keeps the stage or writes the next one; the rounds that
follow keep what it has written while a member of the new stage cannot be finished. -/
theorem gapOutMayEndStage : Obligations.GapOutMayEndStage := by
  unfold Obligations.GapOutMayEndStage
  intro g n s acts current member gapped
  refine ⟨gapOut g s, exec_gapOut g s, ?_⟩
  rw [gapOut_of_member acts current member gapped]
  generalize hu : ({ s with fbsDue := false } : State) = u
  have uActs : fbsActs u = true := by rw [← hu]; exact acts
  have uCurrent : u.fbs.current = some n := by rw [← hu]; exact current
  have uEnds : stageEnds u n = stageEnds s n := by rw [← hu]; rfl
  have uNext : nextStage u n = nextStage s n := by rw [← hu]; rfl
  have uTerminating : terminating u = terminating s := by
    rw [← hu]
    exact terminating_congr rfl rfl rfl rfl rfl rfl
  refine ⟨fun keeps => ⟨settleStage_follows u, fun none => settleStage_of_kept ?_ (uTerminating.trans none)⟩,
    fun ends k next => ?_⟩
  · rcases keeps with lasts | next
    · exact evalStage_of_lasting uCurrent (uEnds.trans lasts)
    · exact evalStage_of_no_next uCurrent (uNext.trans next)
  · have written : stageWritten k u = { s with
        fbsDue := false
        fbs := { s.fbs with current := some k }
        sel := { s.sel with target := s.sel.stages[k], generation := s.sel.generation + 1, reported := false } } := by
      rw [← hu]
      rfl
    rw [← written]
    refine ⟨settleStage_of_next uActs uCurrent (uEnds.trans ends) (uNext.trans next), ?_⟩
    rintro ⟨x, mem, unfinished⟩
    have stands := settleStage_stands uActs uCurrent (uEnds.trans ends) (uNext.trans next)
      ⟨x, by rw [← hu]; exact mem, unfinished_clearMaxedOut (by rw [← hu]; exact unfinished)⟩
    have sel := stands.sel
    rw [written] at sel
    exact ⟨stands.current, by rw [sel], by rw [sel]⟩

end Sys2Proof.Machine

/-! ## Valid samples of a loop (R81 to R92)

What the three kinds of valid sample make of a record, case by case; VACANT and OCCUPIED use them for the channel itself,
NOISY for its inner state. -/

namespace Sys2Proof.Machine

section
variable {p on off : Nat} {r : DetRec}

theorem tuneSample_ends (run : r.validRun = 32) : tuneSample p r =
    ({ r with tuningSum := r.tuningSum + p, baseline := some ((r.tuningSum + p) / 32), aboveRun := 0, belowRun := 0 },
      true) := if_pos run

theorem tuneSample_sums (run : r.validRun ≠ 32) : tuneSample p r = ({ r with tuningSum := r.tuningSum + p }, false) :=
  if_neg run

theorem vacantSample_enters (above : (on : Int) ≤ classified r p) (run : 1 ≤ r.aboveRun) :
    vacantSample on p r = ({ r with aboveRun := 0, belowRun := 0 }, true) := by
  rw [vacantSample, if_pos above, if_pos run]

theorem vacantSample_starts (above : (on : Int) ≤ classified r p) (run : r.aboveRun = 0) : vacantSample on p r =
    ({ r with aboveRun := 1, baseline := r.baseline.map fun b => tracked b p }, false) := by
  rw [vacantSample, if_pos above, if_neg (by omega)]

theorem vacantSample_tracks (below : classified r p < on) : vacantSample on p r =
    ({ r with aboveRun := 0, baseline := r.baseline.map fun b => tracked b p }, false) := if_neg (not_le.2 below)

theorem occupiedSample_exits (below : classified r p < off) (run : 2 ≤ r.belowRun) :
    occupiedSample off p r = ({ r with aboveRun := 0, belowRun := 0 }, true) := by
  rw [occupiedSample, if_pos below, if_pos run]

theorem occupiedSample_counts (below : classified r p < off) (run : r.belowRun < 2) :
    occupiedSample off p r = ({ r with belowRun := r.belowRun + 1 }, false) := by
  rw [occupiedSample, if_pos below, if_neg (not_le.2 run)]

theorem occupiedSample_clears (above : (off : Int) ≤ classified r p) :
    occupiedSample off p r = ({ r with belowRun := 0 }, false) := if_neg (not_lt.2 above)

/-! ### What stage 2 leaves alone -/

/-- The result of stage 1 and the error budget stand. -/
structure ResultKept (a b : DetRec) : Prop where
  lastP : b.lastP = a.lastP
  lastResult : b.lastResult = a.lastResult
  lastDeviation : b.lastDeviation = a.lastDeviation
  invalidRun : b.invalidRun = a.invalidRun
  budget : b.budget = a.budget

theorem ResultKept.trans {a b c : DetRec} (h : ResultKept a b) (k : ResultKept b c) : ResultKept a c :=
  ⟨k.lastP.trans h.lastP, k.lastResult.trans h.lastResult, k.lastDeviation.trans h.lastDeviation,
    k.invalidRun.trans h.invalidRun, k.budget.trans h.budget⟩

/-- The state and the forced-demand flag stand too. -/
structure StateKept (a b : DetRec) : Prop extends ResultKept a b where
  state : b.state = a.state
  forced : b.forced = a.forced

theorem StateKept.trans {a b c : DetRec} (h : StateKept a b) (k : StateKept b c) : StateKept a c :=
  ⟨h.toResultKept.trans k.toResultKept, k.state.trans h.state, k.forced.trans h.forced⟩

theorem StateKept.of_ite {c : Prop} [Decidable c] {a x y : DetRec} (h : StateKept a x) (k : StateKept a y) :
    StateKept a (if c then x else y) := by
  split
  · exact h
  · exact k

theorem tuneSample_kept (p : Nat) (r : DetRec) : StateKept r (tuneSample p r).1 := by
  by_cases run : r.validRun = 32
  · rw [tuneSample_ends run]; exact ⟨⟨rfl, rfl, rfl, rfl, rfl⟩, rfl, rfl⟩
  · rw [tuneSample_sums run]; exact ⟨⟨rfl, rfl, rfl, rfl, rfl⟩, rfl, rfl⟩

theorem vacantSample_kept (on p : Nat) (r : DetRec) : StateKept r (vacantSample on p r).1 := by
  unfold vacantSample
  split
  · split <;> exact ⟨⟨rfl, rfl, rfl, rfl, rfl⟩, rfl, rfl⟩
  · exact ⟨⟨rfl, rfl, rfl, rfl, rfl⟩, rfl, rfl⟩

theorem occupiedSample_kept (off p : Nat) (r : DetRec) : StateKept r (occupiedSample off p r).1 := by
  unfold occupiedSample
  split
  · split <;> exact ⟨⟨rfl, rfl, rfl, rfl, rfl⟩, rfl, rfl⟩
  · exact ⟨⟨rfl, rfl, rfl, rfl, rfl⟩, rfl, rfl⟩

/-- R92: NOISY and its forced demand outlast every valid sample. -/
theorem noisySample_kept (on off : Nat) (now : Time) (long : Bool) (p : Nat) (r : DetRec) :
    StateKept r (noisySample on off now long p r) := by
  unfold noisySample
  split
  · have kept := tuneSample_kept p r
    exact .of_ite (kept.trans ⟨⟨rfl, rfl, rfl, rfl, rfl⟩, rfl, rfl⟩) kept
  · have kept := vacantSample_kept on p r
    exact .of_ite (kept.trans ⟨⟨rfl, rfl, rfl, rfl, rfl⟩, rfl, rfl⟩) kept
  · have kept := occupiedSample_kept off p r
    exact .of_ite (kept.trans ⟨⟨rfl, rfl, rfl, rfl, rfl⟩, rfl, rfl⟩)
      (.of_ite (kept.trans ⟨⟨rfl, rfl, rfl, rfl, rfl⟩, rfl, rfl⟩) kept)
  · exact ⟨⟨rfl, rfl, rfl, rfl, rfl⟩, rfl, rfl⟩

end

/-! ### Stage 2 by the channel's state -/

section
variable {on off : Nat} {now : Time} {long : Bool} {p : Nat} {r : DetRec}

theorem validStage2_tuning (state : r.state = .tuning) : validStage2 on off now long p r =
    if (tuneSample p r).2 then { (tuneSample p r).1 with state := .vacant, forced := false } else (tuneSample p r).1 := by
  unfold validStage2
  rw [state]

theorem validStage2_vacant (state : r.state = .vacant) : validStage2 on off now long p r =
    if (vacantSample on p r).2 then enteredRecord now (vacantSample on p r).1 else (vacantSample on p r).1 := by
  unfold validStage2
  rw [state]

theorem validStage2_occupied (state : r.state = .occupied) : validStage2 on off now long p r =
    if (occupiedSample off p r).2 then exitedRecord now (occupiedSample off p r).1 else (occupiedSample off p r).1 := by
  unfold validStage2
  rw [state]

theorem validStage2_noisy (state : r.state = .noisy) :
    validStage2 on off now long p r = noisySample on off now long p r := by
  unfold validStage2
  rw [state]

theorem validStage2_fault (state : r.state = .fault) : validStage2 on off now long p r =
    if r.validRun = 8 then enterTuning r else r := by
  unfold validStage2
  rw [state]

theorem validStage2_tunes (state : r.state = .tuning) (run : r.validRun = 32) : validStage2 on off now long p r =
    { r with state := .vacant, forced := false, tuningSum := r.tuningSum + p, aboveRun := 0, belowRun := 0,
             baseline := some ((r.tuningSum + p) / 32) } := by
  rw [validStage2_tuning state, tuneSample_ends run]
  rfl

theorem validStage2_sums (state : r.state = .tuning) (run : r.validRun ≠ 32) :
    validStage2 on off now long p r = { r with tuningSum := r.tuningSum + p } := by
  rw [validStage2_tuning state, tuneSample_sums run]
  rfl

theorem validStage2_enters (state : r.state = .vacant) (above : (on : Int) ≤ classified r p) (run : 1 ≤ r.aboveRun) :
    validStage2 on off now long p r = enteredRecord now r := by
  rw [validStage2_vacant state, vacantSample_enters above run]
  rfl

theorem validStage2_starts (state : r.state = .vacant) (above : (on : Int) ≤ classified r p) (run : r.aboveRun = 0) :
    validStage2 on off now long p r = { r with aboveRun := 1, baseline := r.baseline.map fun b => tracked b p } := by
  rw [validStage2_vacant state, vacantSample_starts above run]
  rfl

theorem validStage2_tracks (state : r.state = .vacant) (below : classified r p < on) :
    validStage2 on off now long p r = { r with aboveRun := 0, baseline := r.baseline.map fun b => tracked b p } := by
  rw [validStage2_vacant state, vacantSample_tracks below]
  rfl

theorem validStage2_exits (state : r.state = .occupied) (below : classified r p < off) (run : 2 ≤ r.belowRun) :
    validStage2 on off now long p r = exitedRecord now r := by
  rw [validStage2_occupied state, occupiedSample_exits below run]
  rfl

theorem validStage2_counts (state : r.state = .occupied) (below : classified r p < off) (run : r.belowRun < 2) :
    validStage2 on off now long p r = { r with belowRun := r.belowRun + 1 } := by
  rw [validStage2_occupied state, occupiedSample_counts below run]
  rfl

theorem validStage2_clears (state : r.state = .occupied) (above : (off : Int) ≤ classified r p) :
    validStage2 on off now long p r = { r with belowRun := 0 } := by
  rw [validStage2_occupied state, occupiedSample_clears above]
  rfl

theorem validStage2_restarts (state : r.state = .fault) (run : r.validRun = 8) :
    validStage2 on off now long p r = enterTuning r := by rw [validStage2_fault state, if_pos run]

theorem validStage2_waits (state : r.state = .fault) (run : r.validRun ≠ 8) : validStage2 on off now long p r = r := by
  rw [validStage2_fault state, if_neg run]

theorem validStage2_kept : ResultKept r (validStage2 on off now long p r) := by
  have same : ResultKept r r := ⟨rfl, rfl, rfl, rfl, rfl⟩
  cases state : r.state with
  | tuning =>
    rw [validStage2_tuning state]
    have kept := (tuneSample_kept p r).toResultKept
    split
    · exact kept.trans ⟨rfl, rfl, rfl, rfl, rfl⟩
    · exact kept
  | vacant =>
    rw [validStage2_vacant state]
    have kept := (vacantSample_kept on p r).toResultKept
    split
    · exact kept.trans ⟨rfl, rfl, rfl, rfl, rfl⟩
    · exact kept
  | occupied =>
    rw [validStage2_occupied state]
    have kept := (occupiedSample_kept off p r).toResultKept
    split
    · exact kept.trans ⟨rfl, rfl, rfl, rfl, rfl⟩
    · exact kept
  | longPresence =>
    unfold validStage2
    rw [state]
    exact same
  | noisy =>
    rw [validStage2_noisy state]
    exact (noisySample_kept on off now long p r).toResultKept
  | fault =>
    rw [validStage2_fault state]
    split
    · exact ⟨rfl, rfl, rfl, rfl, rfl⟩
    · exact same

end

/-! ### The gap exits of a sample (R69, R98) -/

theorem gapNoted_iff (old new : DetRec) : gapNoted old new (isExit old new) = true ↔
    (old.state = .occupied ∧ new.state = .vacant) ∨
      ((old.state = .occupied ∨ old.forced = true) ∧ new.state ≠ .occupied ∧ new.forced = false) := by
  simp [gapNoted, isExit, countsOccupied]

/-- A sample that moves neither the state nor the forced-demand flag notes no gap exit. -/
theorem gapNoted_of_kept {old new : DetRec} (state : new.state = old.state) (forced : new.forced = old.forced) :
    gapNoted old new (isExit old new) = true ↔ False := by
  rw [gapNoted_iff, state, forced]
  cases old.forced <;> cases old.state <;> simp

/-- R85: neither does an entry. -/
theorem gapNoted_of_entered {old new : DetRec} (vacant : old.state = .vacant) (occupied : new.state = .occupied) :
    gapNoted old new (isExit old new) = true ↔ False := by simp [gapNoted_iff, vacant, occupied]

theorem ChannelHanded.gapNoted {ch : Channel} {old new : DetRec} {entry exit : Bool} {s t : State}
    (h : ChannelHanded ch old new entry exit s t) {noted : Prop}
    (iff : Machine.gapNoted old new exit = true ↔ noted) : GapNoted ch noted s t := by
  intro g
  have gaps := h.gaps g
  rw [extends_iff, ← iff]
  constructor
  · intro ext notes
    rw [gaps, ext, notes]
    rfl
  · intro none
    rw [gaps, if_neg]
    rw [Bool.and_eq_true]
    rintro ⟨ext, notes⟩
    exact none.elim (absurd ext) (absurd notes)

/-- What an operation touching no detector record brings before a channel hands its change on. -/
theorem ChannelHanded.since {ch : Channel} {old new : DetRec} {entry exit : Bool} {s t u : State}
    (k : DetectorAlike s t) (h : ChannelHanded ch old new entry exit t u) : ChannelHanded ch old new entry exit s u where
  record := h.record
  others c hc := (h.others c hc).trans (det_congr k.du c)
  dclock := h.dclock.trans k.frame.dclock
  sampleIn := by rw [h.sampleIn, k.du]
  cs := h.cs.trans k.cs
  clock := h.clock.trans k.clock
  demand g := by rw [h.demand, k.demand, channelReaches_congr k.cs]
  gaps g := by rw [h.gaps, k.cs, k.clock, k.gaps]
  events i b e := h.events i b (k.events i b e)
  clp := h.clp.trans k.clp
  changed := h.changed

/-! ### A loop's valid sample as an arrival -/

theorem sampleDue_of {s : State} {ch : Channel} (due : s.du.sampleIn = 0) (fresh : (det s ch).sampled = false) :
    sampleDue s ch = true := by simp [sampleDue, due, fresh]

theorem loopSample_handed {s : State} {ch : Channel} (kind : channelKind s.cs.image ch = .loop)
    (due : s.du.sampleIn = 0) (fresh : (det s ch).sampled = false) (p : Option Nat) :
    ∃ entry, ChannelHanded ch (det s ch) (loopRecord s ch p) entry (isExit (det s ch) (loopRecord s ch p)) s
      (loopSample p ch s) := by
  rw [loopSample, if_pos ⟨kind, sampleDue_of due fresh⟩]
  exact ⟨_, ((handChange_spec ch _ _ _ _ _).then (forcedDemand_posts ch _ _)).since (raiseAtSample_alike ch _ _ s)⟩

/-- R84 to R92: stage 2 of a valid sample of the channel, after stage 1. -/
def validRecord (s : State) (ch : Channel) (p : Nat) : DetRec :=
  validStage2 (onThreshold s.cs.image ch) (offThreshold s.cs.image ch) (dnow s)
    (presenceExceeded s.cs.image ch (dnow s) (det s ch)) p (validStage1 p (det s ch))

theorem loopRecord_of_valid {p : Nat} (lo : 16000 ≤ p) (hi : p ≤ 110000) (s : State) (ch : Channel) :
    loopRecord s ch (some p) = { validRecord s ch p with sampled := true } := by
  have valid : sampleResult (some p) = .valid := by
    rw [sampleResult, if_neg (by omega), if_neg (by omega)]
  simp only [loopRecord, loopSampled, valid, validRecord]

/-- The record `new` that a sample makes stands after it, and with it the gap exits that are noted. -/
theorem ChannelHanded.of_made {s t : State} {ch : Channel} {entry : Bool} {made new : DetRec} {noted : Prop}
    (h : ChannelHanded ch (det s ch) { made with sampled := true } entry
      (isExit (det s ch) { made with sampled := true }) s t) (eq : made = new)
    (gap : Machine.gapNoted (det s ch) new (isExit (det s ch) new) = true ↔ noted) :
    det t ch = { new with sampled := true } ∧ GapNoted ch noted s t := by
  rw [eq] at h
  exact ⟨h.record, h.gapNoted gap⟩

/-- R69: no valid sample of a channel in VACANT notes a gap exit. -/
theorem validRecord_vacant_gap {s : State} {ch : Channel} (state : (det s ch).state = .vacant) (p : Nat) :
    gapNoted (det s ch) (validRecord s ch p) (isExit (det s ch) (validRecord s ch p)) = true ↔ False := by
  have kept := vacantSample_kept (onThreshold s.cs.image ch) p (validStage1 p (det s ch))
  rw [validRecord, validStage2_vacant (r := validStage1 p (det s ch)) state]
  split
  · exact gapNoted_of_entered state rfl
  · exact gapNoted_of_kept kept.state kept.forced

/-- R87: the tracked baseline with its limits as the nearest of a range. -/
theorem tracked_eq (b p : Nat) :
    tracked b p = (max 16000 (min 110000 ((b : Int) + trackStep b p))).toNat := by
  unfold tracked clamp
  split
  · omega
  · split <;> omega

theorem baseline_tracked {r : DetRec} {b p : Nat} {step : Int} (base : r.baseline = some b)
    (hstep : step = trackStep b p) : r.baseline.map (fun b => tracked b p) =
    some (max 16000 (min 110000 ((b : Int) + step))).toNat := by
  rw [base, hstep, Option.map_some, tracked_eq]

theorem classified_validStage1 {r : DetRec} {b : Nat} (base : r.baseline = some b) (p : Nat) :
    classified (validStage1 p r) p = deviation b p := by simp only [classified, validStage1, base]

theorem validStage1_lastDeviation {r : DetRec} {b : Nat} (base : r.baseline = some b) (p : Nat) :
    (validStage1 p r).lastDeviation = some (deviation b p) := by simp only [validStage1, base]

/-- Settles O27: the record by the case of the sample, and the gap exits by what the record hands on. -/
theorem loopSampleEntersAndExits : Obligations.LoopSampleEntersAndExits := by
  unfold Obligations.LoopSampleEntersAndExits
  intro ch p b d step r s kind due fresh lo hi base hd hstep hr
  refine ⟨loopSample (some p) ch s, exec_loopSample ch (some p) s, ?_⟩
  obtain ⟨entry, handed⟩ := loopSample_handed kind due fresh (some p)
  rw [loopRecord_of_valid lo hi] at handed
  generalize loopSample (some p) ch s = t at handed ⊢
  have deviates := (validStage1_lastDeviation base p).trans (congrArg some hd.symm)
  have reads := (classified_validStage1 base p).trans hd.symm
  have moved := baseline_tracked (r := validStage1 p (det s ch)) base hstep
  have first : r = { validStage1 p (det s ch) with sampled := true } := by
    rw [hr]
    simp only [validStage1, base, hd, deviation, saturate]
  have kept : ResultKept (validStage1 p (det s ch)) (validRecord s ch p) := validStage2_kept
  subst first
  refine ⟨handed.others, handed.dclock, ?_, ?_, ?_, ?_, ?_,
    fun state => ⟨?_, fun above run => ?_, fun above run => ?_, fun below => ?_⟩,
    fun state => ⟨fun below run => ?_, fun below run => ?_, fun above => ?_⟩⟩
  · rw [handed.record]; exact kept.lastP
  · rw [handed.record]; exact kept.lastResult
  · rw [handed.record]; exact kept.lastDeviation.trans deviates
  · rw [handed.record]; exact kept.invalidRun
  · rw [handed.record]; exact kept.budget
  · exact (handed.of_made rfl (validRecord_vacant_gap state p)).2
  · exact (handed.of_made (validStage2_enters state (reads.symm ▸ above) run.ge)
      (gapNoted_of_entered state rfl)).1
  · rw [← moved]
    exact (handed.of_made (validStage2_starts state (reads.symm ▸ above) run) (gapNoted_of_kept rfl rfl)).1
  · rw [← moved]
    exact (handed.of_made (validStage2_tracks state (reads.symm ▸ below)) (gapNoted_of_kept rfl rfl)).1
  · exact handed.of_made (validStage2_exits state (reads.symm ▸ below) run.ge)
      (iff_true_intro ((gapNoted_iff _ _).2 (.inl ⟨state, rfl⟩)))
  · exact handed.of_made (validStage2_counts state (reads.symm ▸ below) run) (gapNoted_of_kept rfl rfl)
  · exact handed.of_made (validStage2_clears state (reads.symm ▸ above)) (gapNoted_of_kept rfl rfl)

end Sys2Proof.Machine

/-! ### A sample of a NOISY channel (R92) -/

namespace Sys2Proof.Machine

/-- R86: a sample of deviation `d` that makes no exit takes the below run from `run` to `n`. -/
def BelowRunAfter (off : Nat) (d : Int) (run n : Nat) : Prop :=
  (d < off ∧ run < 2 ∧ n = run + 1) ∨ ((off : Int) ≤ d ∧ n = 0)

section
variable {on off : Nat} {now : Time} {long : Bool} {p : Nat} {r : DetRec}

theorem noisySample_tuning (inner : r.inner = some .tuning) : noisySample on off now long p r =
    if (tuneSample p r).2 then { (tuneSample p r).1 with inner := some .vacant } else (tuneSample p r).1 := by
  unfold noisySample
  rw [inner]

theorem noisySample_vacant (inner : r.inner = some .vacant) : noisySample on off now long p r =
    if (vacantSample on p r).2 then
      { (vacantSample on p r).1 with inner := some .occupied, presenceStart := some now }
    else (vacantSample on p r).1 := by
  unfold noisySample
  rw [inner]

theorem noisySample_occupied (inner : r.inner = some .occupied) : noisySample on off now long p r =
    if (occupiedSample off p r).2 then { (occupiedSample off p r).1 with inner := some .vacant }
    else if long then
      { (occupiedSample off p r).1 with inner := some .tuning, baseline := some p, validRun := 0, tuningSum := 0 }
    else (occupiedSample off p r).1 := by
  unfold noisySample
  rw [inner]

theorem noisySample_tunes (inner : r.inner = some .tuning) (run : r.validRun = 32) : noisySample on off now long p r =
    { r with inner := some .vacant, tuningSum := r.tuningSum + p, aboveRun := 0, belowRun := 0,
             baseline := some ((r.tuningSum + p) / 32) } := by
  rw [noisySample_tuning inner, tuneSample_ends run]
  rfl

theorem noisySample_sums (inner : r.inner = some .tuning) (run : r.validRun ≠ 32) :
    noisySample on off now long p r = { r with tuningSum := r.tuningSum + p } := by
  rw [noisySample_tuning inner, tuneSample_sums run]
  rfl

theorem noisySample_enters (inner : r.inner = some .vacant) (above : (on : Int) ≤ classified r p)
    (run : 1 ≤ r.aboveRun) : noisySample on off now long p r =
    { r with inner := some .occupied, presenceStart := some now, aboveRun := 0, belowRun := 0 } := by
  rw [noisySample_vacant inner, vacantSample_enters above run]
  rfl

theorem noisySample_starts (inner : r.inner = some .vacant) (above : (on : Int) ≤ classified r p)
    (run : r.aboveRun = 0) : noisySample on off now long p r =
    { r with aboveRun := 1, baseline := r.baseline.map fun b => tracked b p } := by
  rw [noisySample_vacant inner, vacantSample_starts above run]
  rfl

theorem noisySample_tracks (inner : r.inner = some .vacant) (below : classified r p < on) :
    noisySample on off now long p r = { r with aboveRun := 0, baseline := r.baseline.map fun b => tracked b p } := by
  rw [noisySample_vacant inner, vacantSample_tracks below]
  rfl

theorem noisySample_exits (inner : r.inner = some .occupied) (below : classified r p < off) (run : 2 ≤ r.belowRun) :
    noisySample on off now long p r = { r with inner := some .vacant, aboveRun := 0, belowRun := 0 } := by
  rw [noisySample_occupied inner, occupiedSample_exits below run]
  rfl

theorem occupiedSample_stays {n : Nat} (stays : BelowRunAfter off (classified r p) r.belowRun n) :
    occupiedSample off p r = ({ r with belowRun := n }, false) := by
  rcases stays with ⟨below, run, rfl⟩ | ⟨above, rfl⟩
  · exact occupiedSample_counts below run
  · exact occupiedSample_clears above

theorem noisySample_long {n : Nat} (exceeded : long = true) (inner : r.inner = some .occupied)
    (stays : BelowRunAfter off (classified r p) r.belowRun n) :
    noisySample on off now long p r =
      { r with inner := some .tuning, baseline := some p, validRun := 0, tuningSum := 0, belowRun := n } := by
  rw [noisySample_occupied inner, occupiedSample_stays stays, exceeded]
  rfl

theorem noisySample_stays {n : Nat} (short : long = false) (inner : r.inner = some .occupied)
    (stays : BelowRunAfter off (classified r p) r.belowRun n) :
    noisySample on off now long p r = { r with belowRun := n } := by
  rw [noisySample_occupied inner, occupiedSample_stays stays, short]
  rfl

end

/-- R88. -/
theorem presenceExceeded_of_long {m : Image} {ch : Channel} {now x : Time} {r : DetRec} (limit : maxPresence m ch ≠ 0)
    (start : r.presenceStart = some x) (run : 1000 * maxPresence m ch < elapsed now x) :
    presenceExceeded m ch now r = true := by simp [presenceExceeded, limit, start, run]

theorem presenceExceeded_of_short {m : Image} {ch : Channel} {now : Time} {r : DetRec}
    (short : ∀ x, r.presenceStart = some x → maxPresence m ch = 0 ∨ elapsed now x ≤ 1000 * maxPresence m ch) :
    presenceExceeded m ch now r = false := by
  unfold presenceExceeded
  cases start : r.presenceStart with
  | none => simp
  | some x => rcases short x start with limit | run <;> simp [*]

/-! ### What a sample that moves no state hands on -/

theorem Follows.detectorChanged {own : Group → Bool} {s t : State} (h : Follows own s t) (i : Station) :
    (t.mfs.pending[i]).getLsbD Event.detectorChanged.code.val =
      (s.mfs.pending[i]).getLsbD Event.detectorChanged.code.val := by
  obtain ⟨w, within, pending⟩ := h.events
  have none : w.getLsbD Event.detectorChanged.code.val = false :=
    Bool.eq_false_iff.2 fun e => absurd (getLsbD_of_subset within e) (by decide)
  simp only [pending, Fin.getElem_fin, Vector.getElem_map, BitVec.getLsbD_or, none, Bool.or_false]

/-- The event DETECTOR_CHANGED, the gap exits, the armings and the entries of the list stand. -/
structure ChannelSilent (s t : State) : Prop where
  event : ∀ i : Station, (t.mfs.pending[i]).getLsbD Event.detectorChanged.code.val =
    (s.mfs.pending[i]).getLsbD Event.detectorChanged.code.val
  gaps : t.fbs.lastGapExit = s.fbs.lastGapExit
  approaches : ∀ a, apr t a = apr s a
  entries : t.pu.list.map Entry.core = s.pu.list.map Entry.core

theorem Follows.channelSilent {own : Group → Bool} {s t : State} (h : Follows own s t) : ChannelSilent s t :=
  ⟨h.detectorChanged, by rw [h.fbs], fun a => by unfold apr; rw [h.pu], h.entries⟩

theorem forcedDemand_silent (ch : Channel) (forced : Bool) (s : State) : ChannelSilent s (forcedDemand ch forced s) := by
  unfold forcedDemand postChannelDemand
  split
  · split
    · have posted := (postDemand_follows (decide (channelKind s.cs.image ch = .loop)) (groupRefs s.cs.image ch)
        s).channelSilent
      exact ⟨fun i => by rw [posted.event, setGroups_mfs], by rw [posted.gaps, setGroups_fbs],
        fun a => by rw [posted.approaches, setGroups_apr], by rw [posted.entries, setGroups_pu]⟩
    · exact (Follows.refl s).channelSilent
  · exact (Follows.refl s).channelSilent

theorem handToSequencer_of_kept {ch : Channel} {old : DetRec} {s : State}
    (kept : countsOccupied (det s ch) = countsOccupied old) : handToSequencer ch old false s = s := by
  unfold handToSequencer
  rw [kept]
  simp

/-- A change of record that moves neither state nor forced demand is handed to no other block. -/
theorem handChange_of_kept {ch : Channel} {old new : DetRec} (state : new.state = old.state)
    (forced : new.forced = old.forced) (s : State) : handChange ch old new false false s = setDet s ch new := by
  have counts : countsOccupied (det (setDet s ch new) ch) = countsOccupied old := by
    rw [det_setDet_self, countsOccupied, state, forced, countsOccupied]
  have unreported : reportedChange old.state new.state = false := by simp [reportedChange, state]
  unfold handChange
  dsimp only
  rw [unreported]
  simp [handToSequencer_of_kept counts, state]

theorem validRecord_noisy {s : State} {ch : Channel} (noisy : (det s ch).state = .noisy) (p : Nat) :
    validRecord s ch p = noisySample (onThreshold s.cs.image ch) (offThreshold s.cs.image ch) (dnow s)
      (presenceExceeded s.cs.image ch (dnow s) (det s ch)) p (validStage1 p (det s ch)) :=
  validStage2_noisy (r := validStage1 p (det s ch)) noisy

/-- R92: the sample of a NOISY channel hands on its forced demand alone. -/
theorem takeLoopSample_noisy {s : State} {ch : Channel} {p : Nat} (lo : 16000 ≤ p) (hi : p ≤ 110000)
    (noisy : (det s ch).state = .noisy) : ChannelSilent s (takeLoopSample ch (some p) s) := by
  obtain ⟨state, forced⟩ : (loopRecord s ch (some p)).state = (det s ch).state ∧
      (loopRecord s ch (some p)).forced = (det s ch).forced := by
    have kept := noisySample_kept (onThreshold s.cs.image ch) (offThreshold s.cs.image ch) (dnow s)
      (presenceExceeded s.cs.image ch (dnow s) (det s ch)) p (validStage1 p (det s ch))
    rw [loopRecord_of_valid lo hi, validRecord_noisy noisy]
    exact ⟨kept.state, kept.forced⟩
  unfold takeLoopSample
  generalize loopRecord s ch (some p) = new at state forced
  have unraised : raiseAtSample ch (det s ch) new s = s := by simp [raiseAtSample, state, noisy]
  have noEntry : isEntry (det s ch) new = false := by simp [isEntry, noisy]
  have noExit : isExit (det s ch) new = false := by simp [isExit, noisy]
  dsimp only
  rw [unraised, noEntry, noExit, handChange_of_kept state forced]
  have posted := forcedDemand_silent ch ((det s ch).forced || new.forced) (setDet s ch new)
  exact ⟨posted.event, posted.gaps, posted.approaches, posted.entries⟩

theorem validStage1_validRun {p : Nat} {r : DetRec} (run : r.validRun < 255) :
    (validStage1 p r).validRun = r.validRun + 1 := if_pos run

/-- Settles O28: the record by the case of the sample; a NOISY channel keeps state and flag, so that it hands on its
forced demand alone. -/
theorem loopSampleTunes : Obligations.LoopSampleTunes := by
  unfold Obligations.LoopSampleTunes
  intro ch p r s kind due fresh lo hi hr
  refine ⟨loopSample (some p) ch s, exec_loopSample ch (some p) s, ?_⟩
  have silent : (det s ch).state = .noisy → ChannelSilent s (loopSample (some p) ch s) := fun noisy => by
    rw [loopSample, if_pos ⟨kind, sampleDue_of due fresh⟩]
    exact takeLoopSample_noisy lo hi noisy
  obtain ⟨entry, handed⟩ := loopSample_handed kind due fresh (some p)
  rw [loopRecord_of_valid lo hi] at handed
  generalize loopSample (some p) ch s = t at handed silent ⊢
  have first : r = { validStage1 p (det s ch) with sampled := true } := by
    rw [hr]
    cases base : (det s ch).baseline <;> simp only [validStage1, base, deviation, saturate]
  have run32 (run : (det s ch).validRun = 31) : (validStage1 p (det s ch)).validRun = 32 := by
    rw [validStage1_validRun (by omega), run]
  have runs {n : Nat} (run : (det s ch).validRun < n) (small : n < 255) :
      (validStage1 p (det s ch)).validRun ≠ n + 1 := by
    rw [validStage1_validRun (by omega)]
    omega
  subst first
  refine ⟨fun state run => ?_, fun state run => ?_, fun state run => ?_, fun state run => ?_, fun noisy => ?_⟩
  · exact handed.of_made (validStage2_tunes state (run32 run)) (by simp [gapNoted_iff, state])
  · exact handed.of_made (validStage2_sums state (runs run (by decide))) (gapNoted_of_kept rfl rfl)
  · exact handed.of_made (validStage2_restarts state (by rw [validStage1_validRun (by omega), run]))
      (by simp [gapNoted_iff, state, enterTuning])
  · exact handed.of_made (validStage2_waits state (runs run (by decide))) (gapNoted_of_kept rfl rfl)
  · obtain ⟨event, gaps, approaches, entries⟩ := silent noisy
    have made {new : DetRec} (inner : noisySample (onThreshold s.cs.image ch) (offThreshold s.cs.image ch) (dnow s)
        (presenceExceeded s.cs.image ch (dnow s) (det s ch)) p (validStage1 p (det s ch)) = new) :
        det t ch = { new with sampled := true } := by
      rw [handed.record, validRecord_noisy noisy, inner]
    have reads {b : Nat} {d : Int} (base : (det s ch).baseline = some b)
        (deviates : (validStage1 p (det s ch)).lastDeviation = some d) : classified (validStage1 p (det s ch)) p = d := by
      rw [validStage1_lastDeviation base] at deviates
      exact (classified_validStage1 base p).trans (Option.some.inj deviates)
    refine ⟨event, gaps, approaches, entries, fun inner => ⟨fun run => ?_, fun run => ?_⟩,
      fun b d step inner base deviates hstep => ?_, fun d inner base deviates => ?_⟩
    · exact made (noisySample_tunes inner (run32 run))
    · exact made (noisySample_sums inner (runs run (by decide)))
    · have deviation := reads base deviates
      rw [← baseline_tracked (r := validStage1 p (det s ch)) base hstep]
      exact ⟨fun above run => made (noisySample_enters inner (deviation.symm ▸ above) run.ge),
        fun above run => made (noisySample_starts inner (deviation.symm ▸ above) run),
        fun below => made (noisySample_tracks inner (deviation.symm ▸ below))⟩
    · obtain ⟨b, base⟩ := Option.isSome_iff_exists.1 base
      have deviation := reads base deviates
      refine ⟨fun below run => made (noisySample_exits inner (deviation.symm ▸ below) run.ge), fun n stays => ?_⟩
      have stays : BelowRunAfter (offThreshold s.cs.image ch) (classified (validStage1 p (det s ch)) p)
          (validStage1 p (det s ch)).belowRun n := by
        rw [deviation]
        exact stays
      exact ⟨fun x limit start run => made (noisySample_long (presenceExceeded_of_long limit start run) inner stays),
        fun short => made (noisySample_stays (presenceExceeded_of_short short) inner stays)⟩

end Sys2Proof.Machine

/-! ## Samples of a contact (R94, R95) -/

namespace Sys2Proof.Machine

section
variable {now : Time} {pressed : Bool} {r : DetRec}

theorem contactSampled_vacant (state : r.state = .vacant) : contactSampled now pressed r =
    if pressed then
      if 2 ≤ r.aboveRun then enteredRecord now { r with level := some pressed }
      else { r with level := some pressed, aboveRun := r.aboveRun + 1 }
    else { r with level := some pressed, aboveRun := 0 } := by
  unfold contactSampled
  rw [state]

theorem contactSampled_occupied (state : r.state = .occupied) : contactSampled now pressed r =
    if pressed then { r with level := some pressed, belowRun := 0 }
    else if 2 ≤ r.belowRun then exitedRecord now { r with level := some pressed }
    else { r with level := some pressed, belowRun := r.belowRun + 1 } := by
  unfold contactSampled
  rw [state]

theorem contactSampled_longPresence (state : r.state = .longPresence) : contactSampled now pressed r =
    if pressed then { r with level := some pressed, belowRun := 0 }
    else if 2 ≤ r.belowRun then
      { r with level := some pressed, state := .vacant, forced := false, aboveRun := 0, belowRun := 0 }
    else { r with level := some pressed, belowRun := r.belowRun + 1 } := by
  unfold contactSampled
  rw [state]

/-- R95: the count of equal samples in a row. -/
def levelRun (pressed : Bool) (r : DetRec) : Nat := if r.level = some pressed then saturate 255 r.aboveRun else 1

theorem contactSampled_tuning (state : r.state = .tuning) : contactSampled now pressed r =
    if levelRun pressed r = 3 then
      { r with
        level := some pressed
        state := if pressed then .occupied else .vacant
        forced := false
        aboveRun := 0
        belowRun := 0
        presenceStart := if pressed then some now else r.presenceStart }
    else { r with level := some pressed, aboveRun := levelRun pressed r } := by
  unfold contactSampled
  rw [state]
  rfl

theorem levelRun_same (level : r.level = some pressed) (run : r.aboveRun < 255) :
    levelRun pressed r = r.aboveRun + 1 := by rw [levelRun, if_pos level, saturate, if_pos run]

theorem levelRun_other (level : r.level ≠ some pressed) : levelRun pressed r = 1 := if_neg level

end

theorem contactSample_handed {s : State} {ch : Channel} (kind : channelKind s.cs.image ch = .contact)
    (due : s.du.sampleIn = 0) (fresh : (det s ch).sampled = false) (pressed : Bool) :
    ∃ entry, ChannelHanded ch (det s ch) { contactSampled (dnow s) pressed (det s ch) with sampled := true } entry
      (isExit (det s ch) { contactSampled (dnow s) pressed (det s ch) with sampled := true }) s
      (contactSample pressed ch s) := by
  rw [contactSample, if_pos ⟨kind, sampleDue_of due fresh⟩]
  exact ⟨_, (handChange_spec ch _ _ _ _ _).then (forcedDemand_posts ch _ _)⟩

/-- R69: no sample of a contact in VACANT notes a gap exit. -/
theorem contactSampled_vacant_gap {r : DetRec} (state : r.state = .vacant) (now : Time) (pressed : Bool) :
    gapNoted r (contactSampled now pressed r) (isExit r (contactSampled now pressed r)) = true ↔ False := by
  rw [contactSampled_vacant state]
  split
  · split
    · exact gapNoted_of_entered state rfl
    · exact gapNoted_of_kept rfl rfl
  · exact gapNoted_of_kept rfl rfl

/-- Settles O31: the record state by state, and the gap exits by what the record hands on. -/
theorem contactSampleClassifies : Obligations.ContactSampleClassifies := by
  unfold Obligations.ContactSampleClassifies
  intro ch pressed r s kind due fresh hr
  subst hr
  refine ⟨contactSample pressed ch s, exec_contactSample ch pressed s, ?_⟩
  obtain ⟨entry, handed⟩ := contactSample_handed kind due fresh pressed
  generalize contactSample pressed ch s = t at handed ⊢
  refine ⟨handed.others, handed.dclock, fun state => ?vacant, fun state => ?occupied, fun state => ?longPresence,
    fun state => ?tuning⟩
  case vacant =>
    refine ⟨(handed.of_made rfl (contactSampled_vacant_gap state _ _)).2, ?_⟩
    rw [contactSampled_vacant state] at handed
    refine ⟨?_, ?_, ?_⟩
    · rintro rfl run
      exact (handed.of_made (if_pos run.ge) (gapNoted_of_entered state rfl)).1
    · rintro rfl run
      exact (handed.of_made (if_neg (not_le.2 run)) (gapNoted_of_kept rfl rfl)).1
    · rintro rfl
      exact (handed.of_made rfl (gapNoted_of_kept rfl rfl)).1
  case occupied =>
    rw [contactSampled_occupied state] at handed
    refine ⟨?_, ?_, ?_⟩
    · rintro rfl run
      exact handed.of_made (if_pos run.ge) (by simp [gapNoted_iff, state, exitedRecord])
    · rintro rfl run
      exact handed.of_made (if_neg (not_le.2 run)) (gapNoted_of_kept rfl rfl)
    · rintro rfl
      exact handed.of_made rfl (gapNoted_of_kept rfl rfl)
  case longPresence =>
    rw [contactSampled_longPresence state] at handed
    refine ⟨?_, ?_, ?_⟩
    · rintro rfl run
      exact handed.of_made (if_pos run.ge) (by simp [gapNoted_iff, state])
    · rintro rfl run
      exact handed.of_made (if_neg (not_le.2 run)) (gapNoted_of_kept rfl rfl)
    · rintro rfl
      exact handed.of_made rfl (gapNoted_of_kept rfl rfl)
  case tuning =>
    rw [contactSampled_tuning state] at handed
    refine ⟨fun level run => ?_, fun level run => ?_, fun level => ?_⟩
    · rw [levelRun_same level (by omega), run] at handed
      exact handed.of_made rfl (by cases pressed <;> simp [gapNoted_iff, state])
    · rw [levelRun_same level (by omega)] at handed
      exact handed.of_made (if_neg (by omega)) (gapNoted_of_kept rfl rfl)
    · rw [levelRun_other level] at handed
      exact handed.of_made rfl (gapNoted_of_kept rfl rfl)

end Sys2Proof.Machine

/-! ## The window close (R91, R93) -/

namespace Sys2Proof.Machine

theorem loopLongPresence_others {ch c : Channel} (hc : c ≠ ch) (s : State) :
    det (loopLongPresence ch s) c = det s c := by
  unfold loopLongPresence
  split
  · exact ((handChange_spec ch _ _ _ _ s).then (forcedDemand_posts ch true _)).others c hc
  · rfl

/-- R88: no long presence is due. -/
theorem loopLongPresence_of_short {ch : Channel} {s : State} (short : (det s ch).state ≠ .occupied ∨
    ∀ x, (det s ch).presenceStart = some x →
      maxPresence s.cs.image ch = 0 ∨ elapsed (dnow s) x ≤ 1000 * maxPresence s.cs.image ch) :
    loopLongPresence ch s = s := by
  have undue : longPresenceDue s ch = false := by
    rcases short with state | short
    · simp [longPresenceDue, state]
    · rw [longPresenceDue, presenceExceeded_of_short short, Bool.and_false]
  rw [loopLongPresence, if_neg (by simp [undue])]

/-- R88: a long presence leaves no channel in NOISY, and a spent budget stays spent. -/
theorem loopLongPresence_not_noisy {ch : Channel} {s : State}
    (kept : (det s ch).state ≠ .noisy ∨ (det s ch).budget = 0) :
    (det (loopLongPresence ch s) ch).state ≠ .noisy ∨ (det (loopLongPresence ch s) ch).budget = 0 := by
  unfold loopLongPresence
  split
  · rw [((handChange_spec ch _ _ _ _ s).then (forcedDemand_posts ch true _)).record]
    exact .inl (by simp [loopLongRecord, enterTuning])
  · exact kept

theorem ChannelHanded.lastGapExit {ch : Channel} {old new : DetRec} {entry exit : Bool} {s t : State}
    (h : ChannelHanded ch old new entry exit s t) (none : Machine.gapNoted old new exit = false) :
    t.fbs.lastGapExit = s.fbs.lastGapExit := by
  ext1 i hi
  have gaps := h.gaps ⟨i, hi⟩
  rw [none, Bool.and_false] at gaps
  exact gaps

/-- The window closes on the record that a long presence of the same sample leaves. -/
theorem windowClose_handed {ch : Channel} {s : State} (due : windowDue s ch = true) :
    ChannelHanded ch (det (loopLongPresence ch s) ch)
      (windowClosed (dnow s) (budgetStart s.cs.image ch) (det (loopLongPresence ch s) ch)) false false
      (loopLongPresence ch s) (windowClose ch s) := by
  have frame := loopLongPresence_frame ch s
  rw [windowClose, if_pos due, ← frame.dclock, ← frame.cs]
  dsimp only
  exact (handChange_spec ch _ _ false false (loopLongPresence ch s)).then ((raiseAtClose_alike ch _ _).posted ch)

theorem windowClosed_ends {now : Time} {start : Nat} {r : DetRec} {i : InnerState} (state : r.state = .noisy)
    (inner : r.inner = some i) (left : 0 < r.budget) : windowClosed now start r =
    { r with state := i.outer, inner := none, forced := decide (i = .tuning), budget := start, windowStart := now } := by
  rw [windowClosed, if_pos ⟨state, left⟩, noisyEnded, inner]

theorem windowClosed_keeps {now : Time} {start : Nat} {r : DetRec} (kept : r.state ≠ .noisy ∨ r.budget = 0) :
    windowClosed now start r = { r with budget := start, windowStart := now } := by
  rw [windowClosed, if_neg]
  rintro ⟨noisy, left⟩
  exact kept.elim (absurd noisy) (by omega)

/-- R91: the fault that the record `old` makes the close raise. -/
theorem raiseAtClose_raises {ch : Channel} {old : DetRec} {k : FaultKind}
    (fault : (old.state = .noisy ∧ old.budget = 0 ∧ k = .detectorNoisy) ∨
      (old.state = .fault ∧ k = .detectorFault)) (s : State) : Raised k (detailItem (number ch)) s (raiseAtClose ch old s) := by
  unfold raiseAtClose
  rcases fault with ⟨noisy, spent, rfl⟩ | ⟨state, rfl⟩
  · rw [if_pos ⟨noisy, spent⟩]
    exact detect_raises _ _ _
  · rw [if_neg (by simp [state]), if_pos state]
    exact detect_raises _ _ _

theorem windowClose_raises {ch : Channel} {s : State} {k : FaultKind} (due : windowDue s ch = true)
    (fault : ((det s ch).state = .noisy ∧ (det s ch).budget = 0 ∧ k = .detectorNoisy) ∨
      ((det s ch).state = .fault ∧ k = .detectorFault)) :
    ((windowClose ch s).mfs.faults[k.code]).latched = true ∧
      ((windowClose ch s).mfs.faults[k.code]).detail.getLsbD ch.val = true := by
  have same : loopLongPresence ch s = s := loopLongPresence_of_short (.inl (by
    rcases fault with ⟨state, _⟩ | ⟨state, _⟩ <;> rw [state] <;> decide))
  rw [windowClose, if_pos due, same]
  have raised := raiseAtClose_raises (ch := ch) fault
    (handChange ch (det s ch) (windowClosed (dnow s) (budgetStart s.cs.image ch) (det s ch)) false false s)
  exact ⟨raised.latched, raised.detail _ (getLsbD_detailItem ch (by decide))⟩

/-- Settles O33, by the record that the close writes and what it hands on. -/
theorem windowCloseReloadsBudget : Obligations.WindowCloseReloadsBudget := by
  unfold Obligations.WindowCloseReloadsBudget
  intro ch s kind sampled run
  have due : windowDue s ch = true := by simp [windowDue, kind, sampled, run]
  have handed := windowClose_handed due
  refine ⟨loopLongPresence ch s, windowClose ch s, exec_loopLongPresence ch s, exec_windowClose ch s,
    loopLongPresence_of_short, fun c hc => (handed.others c hc).trans (loopLongPresence_others hc s), ?_, ?_,
    fun i noisy inner left => ?_, fun kept => ?_, fun noisy spent => ?_, fun fault => ?_⟩
  · rw [handed.record]; rfl
  · rw [handed.record]; rfl
  · have same : loopLongPresence ch s = s := loopLongPresence_of_short (.inl (by rw [noisy]; decide))
    rw [same, windowClosed_ends noisy inner left] at handed
    rw [handed.record]
    refine ⟨rfl, rfl, rfl, handed.gapNoted ?_⟩
    cases i <;> simp [gapNoted, countsOccupied, noisy, InnerState.outer]
  · rw [windowClosed_keeps (loopLongPresence_not_noisy kept)] at handed
    exact ⟨handed.record, handed.lastGapExit (Bool.and_not_self _)⟩
  · exact windowClose_raises due (.inl ⟨noisy, spent, rfl⟩)
  · exact windowClose_raises due (.inr ⟨fault, rfl⟩)

end Sys2Proof.Machine

/-! ## The order of the priority list (R119)

`KeepsOrder s t` says that an operation within one junction count keeps the order of the list with what it rests on, and
lets no entry's X be reached. -/

namespace Sys2Proof.Machine

theorem entryBefore_iff (now : Time) (a b : Entry) : entryBefore now a b = true ↔ StandsBefore now a b := by
  unfold entryBefore StandsBefore
  split
  · rename_i ranks
    simp [ranks]
  · rename_i ranks
    have ranks : a.rank = b.rank := not_not.1 ranks
    split
    · rename_i times
      simp [ranks, times]
    · rename_i times
      simp [ranks, not_not.1 times]

theorem StandsBefore.trans {now : Time} {a b c : Entry} (h : StandsBefore now a b) (k : StandsBefore now b c) :
    StandsBefore now a c := by
  unfold StandsBefore at *
  grind

/-- R119: creation order parts any two entries. -/
theorem StandsBefore.total {now : Time} {a b : Entry} (created : b.seq ≠ a.seq) (h : ¬StandsBefore now a b) :
    StandsBefore now b a := by
  unfold StandsBefore at *
  grind

/-- R119: an entry with a place of its own in creation order joins an ordered list at its place. -/
theorem insertEntry_ordered {now : Time} {e : Entry} {l : List Entry} (created : ∀ x ∈ l, x.seq ≠ e.seq)
    (h : l.Pairwise (StandsBefore now)) : (insertEntry now e l).Pairwise (StandsBefore now) := by
  unfold insertEntry
  induction l with
  | nil => exact List.pairwise_singleton _ _
  | cons y l ih =>
    obtain ⟨first, rest⟩ := List.pairwise_cons.1 h
    unfold insertBefore
    split
    · rename_i before
      have before := (entryBefore_iff now e y).1 before
      exact List.pairwise_cons.2 ⟨fun z hz => (List.mem_cons.1 hz).elim (fun same => same ▸ before)
        fun hz => before.trans (first z hz), h⟩
    · rename_i before
      have after := StandsBefore.total (created y List.mem_cons_self) (mt (entryBefore_iff now e y).2 before)
      refine List.pairwise_cons.2 ⟨fun z hz => ?_, ih (fun x hx => created x (List.mem_cons_of_mem _ hx)) rest⟩
      exact ((insertBefore_mem _ _ _ _).1 hz).elim (fun same => same ▸ after) (first z)

theorem mem_insertEntry {now : Time} {e x : Entry} {l : List Entry} : x ∈ insertEntry now e l ↔ x = e ∨ x ∈ l :=
  insertBefore_mem _ _ _ _

theorem insertEntry_perm (now : Time) (e : Entry) (l : List Entry) : (insertEntry now e l).Perm (e :: l) :=
  insertBefore_perm _ _ _

/-! ### The times of an entry -/

/-- R111, R137: the entry has checked in no longer before now than its X lies after its CI. -/
def Timely (now : Time) (e : Entry) : Prop :=
  ∃ d, d ≤ 6000 + 750 + 1200 ∧ e.expiry = later e.ci d ∧ elapsed now e.ci ≤ d

/-- R137: no entry has reached its X. -/
def Unexpired (s : State) : Prop := ∀ e ∈ s.pu.list, isAfter (jnow s) e.expiry = true

theorem elapsed_later {now ci : Time} {d : Nat} (small : d < 2 ^ 31) (within : elapsed now ci ≤ d) :
    (later ci d - now).toNat = d - elapsed now ci := by
  unfold elapsed later at *
  bv_omega

/-- R1: a recent time lies as far before now as its offset is below 0. -/
theorem offset_eq_neg_elapsed {now t : Time} (recent : elapsed now t < 2 ^ 31) : offset now t = -(elapsed now t : Int) := by
  unfold offset elapsed at *
  rw [BitVec.toInt_eq_toNat_cond]
  split <;> bv_omega

/-- R1. -/
theorem elapsed_succ {now t : Time} (recent : elapsed now t < 2 ^ 31) : elapsed (now + 1) t = elapsed now t + 1 := by
  unfold elapsed at *
  bv_omega

theorem Timely.recent {now : Time} {e : Entry} (h : Timely now e) : elapsed now e.ci ≤ 7950 := by
  obtain ⟨d, bound, _, within⟩ := h
  omega

/-- R137: an entry whose X lies after now is timely for one count more. -/
theorem Timely.succ {now : Time} {e : Entry} (h : Timely now e) (unexpired : isAfter now e.expiry = true) :
    Timely (now + 1) e := by
  obtain ⟨d, bound, expiry, within⟩ := h
  refine ⟨d, bound, expiry, ?_⟩
  rw [isAfter, expiry, elapsed_later (by omega) within, Bool.and_eq_true, decide_eq_true_eq] at unexpired
  rw [elapsed_succ (by omega)]
  omega

/-- R119: the order stands as the count advances. -/
theorem StandsBefore.succ {now : Time} {a b : Entry} (ha : elapsed now a.ci ≤ 7950) (hb : elapsed now b.ci ≤ 7950)
    (h : StandsBefore now a b) : StandsBefore (now + 1) a b := by
  have offsets {t : Time} (ht : elapsed now t ≤ 7950) : offset (now + 1) t = offset now t - 1 := by
    have passed := elapsed_succ (now := now) (t := t) (by omega)
    rw [offset_eq_neg_elapsed (t := t) (now := now) (by omega), offset_eq_neg_elapsed (by omega), passed]
    omega
  unfold StandsBefore at *
  rw [offsets ha, offsets hb]
  grind

/-- R111: figures just made give an X of at most 7,950 ds after now. -/
theorem withFigures_timely (m : Image) (now : Time) {eta : Nat} (e : Entry) (h : eta ≤ 6000) :
    Timely now (withFigures m now eta e) := by
  refine ⟨_, ?_, rfl, by rw [withFigures, elapsed_self]; exact Nat.zero_le _⟩
  have := (clamp_bounds 50 1200 (imageNum m (approachBase e.approach + 24) 2) (by omega)).2
  unfold expiryMargin
  omega

theorem withFigures_unexpired (m : Image) (now : Time) {eta : Nat} (e : Entry) (h : eta ≤ 6000) :
    isAfter now (withFigures m now eta e).expiry = true := by
  have bounds := clamp_bounds 50 1200 (imageNum m (approachBase e.approach + 24) 2) (by omega)
  rw [withFigures, isAfter, elapsed_later (by unfold expiryMargin; omega) (by rw [elapsed_self]; exact Nat.zero_le _),
    elapsed_self, expiryMargin, Bool.and_eq_true, decide_eq_true_eq, decide_eq_true_eq]
  omega

end Sys2Proof.Machine

namespace Sys2Proof.Machine

/-! ### What keeps the order -/

structure KeepsOrder (s t : State) : Prop where
  clock : jnow t = jnow s
  law : OrderLaw s → OrderLaw t
  unexpired : Unexpired s → Unexpired t

namespace KeepsOrder

theorem refl (s : State) : KeepsOrder s s := ⟨rfl, id, id⟩

theorem trans {s t u : State} (h : KeepsOrder s t) (k : KeepsOrder t u) : KeepsOrder s u :=
  ⟨k.clock.trans h.clock, fun l => k.law (h.law l), fun l => k.unexpired (h.unexpired l)⟩

theorem of_ite {s t : State} {p : Prop} [Decidable p] (h : p → KeepsOrder s t) : KeepsOrder s (if p then t else s) := by
  split
  · rename_i hp; exact h hp
  · exact .refl s

theorem then_ite {s t u : State} {p : Prop} [Decidable p] (h : KeepsOrder s t) (k : KeepsOrder t u) :
    KeepsOrder s (if p then u else t) := by
  split
  · exact h.trans k
  · exact h

theorem of_foldl {α : Type} {f : State → α → State} (h : ∀ s a, KeepsOrder s (f s a)) (l : List α) (s : State) :
    KeepsOrder s (l.foldl f s) := by
  induction l generalizing s with
  | nil => exact .refl s
  | cons a l ih => exact (h s a).trans (ih _)

/-- Entries may leave, and a walk may decide its own four fields. -/
theorem of_sublist {s t : State} (clock : jnow t = jnow s) (nextSeq : t.pu.nextSeq = s.pu.nextSeq)
    (entries : (t.pu.list.map Entry.core).Sublist (s.pu.list.map Entry.core)) : KeepsOrder s t := by
  have every {p : Entry → Prop} (reads : ∀ e, p e ↔ p e.core) (h : ∀ e ∈ s.pu.list, p e) : ∀ e ∈ t.pu.list, p e := by
    intro e he
    obtain ⟨x, hx, same⟩ := List.mem_map.1 (entries.subset (List.mem_map_of_mem he))
    exact (reads e).2 (same ▸ (reads x).1 (h x hx))
  refine ⟨clock, fun law => ⟨?_, ⟨?_, ?_⟩, ?_⟩, fun h => ?_⟩
  · rw [clock]
    have cores (l : List Entry) : l.Pairwise (StandsBefore (jnow s)) ↔
        (l.map Entry.core).Pairwise (StandsBefore (jnow s)) := by rw [List.pairwise_map]; rfl
    exact (cores _).2 (((cores _).1 law.order).sublist entries)
  · have seqs (l : List Entry) : l.map Entry.seq = (l.map Entry.core).map Entry.seq := by rw [List.map_map]; rfl
    rw [seqs]
    exact (seqs s.pu.list ▸ law.created.1).sublist (entries.map _)
  · rw [nextSeq]
    exact every (fun _ => .rfl) law.created.2
  · rw [clock]
    exact every (p := Timely (jnow s)) (fun _ => .rfl) law.recent
  · unfold Unexpired
    rw [clock]
    exact every (p := fun e => isAfter (jnow s) e.expiry = true) (fun _ => .rfl) h

theorem of_list {s t : State} (clock : jnow t = jnow s) (nextSeq : t.pu.nextSeq = s.pu.nextSeq)
    (list : t.pu.list = s.pu.list) : KeepsOrder s t := .of_sublist clock nextSeq (by rw [list])

theorem of_pu {s t : State} (sge : t.sge = s.sge) (pu : t.pu = s.pu) : KeepsOrder s t :=
  .of_list (by unfold jnow; rw [sge]) (by rw [pu]) (by rw [pu])

end KeepsOrder

theorem Follows.keepsOrder {own : Group → Bool} {s t : State} (h : Follows own s t) : KeepsOrder s t :=
  .of_sublist h.now (by rw [h.pu]) (by rw [h.entries])

theorem Shuts.keepsOrder {s t : State} (h : Shuts s t) : KeepsOrder s t := by
  refine .of_sublist h.now (by rw [h.pu]) ?_
  rcases h.entries with same | none
  · rw [same]
  · rw [none]; exact List.nil_sublist _

theorem EntersResting.keepsOrder {g : Goal} {s t : State} (h : EntersResting g s t) : KeepsOrder s t :=
  .of_sublist (by unfold jnow; rw [h.sge]) (by rw [h.pu]) (by rw [h.pu]; exact List.nil_sublist _)

/-! ### The list's own operations -/

/-- R119: an entry with a place of its own in creation order joins the list. -/
theorem OrderLaw.join {s t : State} {e : Entry} {l : List Entry} (law : OrderLaw s) (sub : l.Sublist s.pu.list)
    (clock : jnow t = jnow s) (list : t.pu.list = insertEntry (jnow s) e l) (created : ∀ x ∈ l, x.seq ≠ e.seq)
    (next : e.seq < t.pu.nextSeq) (grows : s.pu.nextSeq ≤ t.pu.nextSeq) (timely : Timely (jnow s) e) : OrderLaw t where
  order := by rw [list, clock]; exact insertEntry_ordered created (law.order.sublist sub)
  created := by
    rw [list]
    refine ⟨((insertEntry_perm _ _ _).map _).nodup_iff.2 (List.nodup_cons.2 ⟨fun taken => ?_, law.created.1.sublist
      (sub.map _)⟩), fun x hx => ?_⟩
    · obtain ⟨x, hx, same⟩ := List.mem_map.1 taken
      exact created x hx same
    · rcases mem_insertEntry.1 hx with rfl | hx
      · exact next
      · exact (law.created.2 x (sub.subset hx)).trans_le grows
  recent x hx := by
    rw [list] at hx
    rw [clock]
    rcases mem_insertEntry.1 hx with rfl | hx
    · exact timely
    · exact law.recent x (sub.subset hx)

theorem Unexpired.join {s t : State} {e : Entry} {l : List Entry} (h : Unexpired s) (sub : l.Sublist s.pu.list)
    (clock : jnow t = jnow s) (list : t.pu.list = insertEntry (jnow s) e l) (new : isAfter (jnow s) e.expiry = true) :
    Unexpired t := by
  unfold Unexpired
  rw [list, clock]
  intro x hx
  rcases mem_insertEntry.1 hx with rfl | hx
  · exact new
  · exact h x (sub.subset hx)

/-- R116, R119. -/
theorem placeEntry_keepsOrder (e : Entry) (s : State) (timely : Timely (jnow s) e)
    (new : isAfter (jnow s) e.expiry = true) : KeepsOrder s (placeEntry e s) :=
  ⟨rfl, fun law => law.join (.refl _) rfl rfl (fun x hx => (law.created.2 x hx).ne) (Nat.lt_succ_self _) (Nat.le_succ _)
    timely, fun h => h.join (.refl _) rfl rfl new⟩

theorem post_keepsOrder (e : Event) (s : State) : KeepsOrder s (post e s) := (post_shuts e s).keepsOrder

theorem postIf_keepsOrder (b : Bool) (e : Event) (s : State) : KeepsOrder s (postIf b e s) := (postIf_shuts b e s).keepsOrder

theorem detect_keepsOrder (k : FaultKind) (d : BitVec 72) (s : State) : KeepsOrder s (detect k d s) :=
  (detect_shuts k d s).keepsOrder

theorem walkArrival_keepsOrder (before s : State) : KeepsOrder s (walkArrival before s) :=
  (walkArrival_follows before s).keepsOrder

/-- R122. -/
theorem displace_keepsOrder (last : Entry) (s : State) : KeepsOrder s (displace last s) := by
  unfold displace
  refine KeepsOrder.trans ?_ (post_keepsOrder _ _)
  exact .of_sublist rfl rfl ((List.dropLast_sublist _).map _)

theorem admitEntry_keepsOrder {e : Entry} {s t : State} (ha : admitEntry e s = some t) (timely : Timely (jnow s) e)
    (new : isAfter (jnow s) e.expiry = true) : KeepsOrder s t := by
  unfold admitEntry at ha
  split at ha
  · cases ha; exact placeEntry_keepsOrder e s timely new
  · split at ha
    · cases ha; exact placeEntry_keepsOrder e s timely new
    · rename_i last _
      split at ha
      · cases ha
        have displaced := displace_keepsOrder last s
        exact displaced.trans (placeEntry_keepsOrder e _ (displaced.clock ▸ timely) (displaced.clock ▸ new))
      · cases ha

theorem newEntry_keepsOrder {m : Image} {src : EntrySource} {ident : Option (BitVec 16)} {route : Option (BitVec 8)}
    {a : Approach} {rank : Rank} {eta : Nat} {clamped single : Bool} {s t : State} (h : eta ≤ 6000)
    (ha : admitEntry (newEntry m src ident route a rank (jnow s) eta clamped single) s = some t) : KeepsOrder s t :=
  admitEntry_keepsOrder ha (withFigures_timely _ _ _ h) (withFigures_unexpired _ _ _ h)

/-- R114, R115, R119: an entry of the list takes its new self's place. -/
theorem replaceEntry_keepsOrder {old new : Entry} {s : State} (mem : old ∈ s.pu.list) (seq : new.seq = old.seq)
    (timely : OrderLaw s → Timely (jnow s) new) (unexpired : Unexpired s → isAfter (jnow s) new.expiry = true) :
    KeepsOrder s (replaceEntry old new s) := by
  refine ⟨rfl, fun law => law.join List.filter_sublist rfl rfl (fun x hx same => ?_) ?_ (le_refl _) (timely law),
    fun h => h.join List.filter_sublist rfl rfl (unexpired h)⟩
  · obtain ⟨hx, other⟩ := List.mem_filter.1 hx
    exact of_decide_eq_true other (List.inj_on_of_nodup_map law.created.1 hx mem (same.trans seq))
  · rw [seq]
    exact law.created.2 old mem

theorem removeEntries_keepsOrder (p : Entry → Bool) (c : RemovalCause) (s : State) :
    KeepsOrder s (removeEntries p c s) := by
  unfold removeEntries postRemoved
  refine KeepsOrder.trans ?_ (post_keepsOrder _ _)
  exact .of_sublist rfl rfl (List.filter_sublist.map _)

theorem flush_keepsOrder (s : State) : KeepsOrder s (flush s) :=
  .of_sublist (by simp [jnow]) (by rw [flush_pu]) (by rw [flush_pu]; exact List.nil_sublist _)

end Sys2Proof.Machine

namespace Sys2Proof.Machine

/-! ### The groups, the modes and the lamps -/

theorem setGrp_keepsOrder (s : State) (g : Group) (r : GroupRec) : KeepsOrder s (setGrp s g r) :=
  .of_list rfl rfl rfl

theorem setGroups_keepsOrder (s : State) (f : Group → GroupRec) : KeepsOrder s (setGroups s f) :=
  .of_list (by simp) (by simp) (by simp)

theorem setLamps_keepsOrder (s : State) (f : Lamp → LampRec) : KeepsOrder s (setLamps s f) := .of_pu (by simp) (by simp)

theorem setApr_keepsOrder (s : State) (a : Approach) (r : ApproachRec) : KeepsOrder s (setApr s a r) :=
  .of_list rfl rfl rfl

theorem setMode_keepsOrder (m : Mode) (sub : Option SubPhase) (goal : Option Goal) (s : State) :
    KeepsOrder s (setMode m sub goal s) := .of_pu (by simp) (by simp)

theorem lampsFollow_keepsOrder (p : Group → Bool) (s : State) : KeepsOrder s (lampsFollow p s) :=
  .of_pu (by simp) (by simp)

theorem becomeRedOut_keepsOrder (s : State) (g : Group) : KeepsOrder s (becomeRedOut g s) :=
  (becomeRedOut_shuts g s).keepsOrder

theorem groupMoved_keepsOrder (g : Group) (s : State) : KeepsOrder s (groupMoved g s) := (groupMoved_follows g s).keepsOrder

theorem evaluateGroup_keepsOrder (g : Group) (s : State) : KeepsOrder s (evaluateGroup g s) :=
  (setGrp_keepsOrder s g _).trans (postIf_keepsOrder _ _ _)

theorem startGroup_keepsOrder (g : Group) (s : State) : KeepsOrder s (startGroup g s) :=
  .of_ite fun _ => (setGrp_keepsOrder s g _).trans (groupMoved_keepsOrder g _)

theorem endPrepare_keepsOrder (g : Group) (s : State) : KeepsOrder s (endPrepare g s) :=
  .of_ite fun _ => (setGrp_keepsOrder s g _).trans (groupMoved_keepsOrder g _)

theorem endMinProceed_keepsOrder (g : Group) (s : State) : KeepsOrder s (endMinProceed g s) :=
  .of_ite fun _ => ((setGrp_keepsOrder s g _).trans (evaluateGroup_keepsOrder g _)).trans (groupMoved_keepsOrder g _)

theorem maxOut_keepsOrder (g : Group) (s : State) : KeepsOrder s (maxOut g s) :=
  .of_ite fun _ => (evaluateGroup_keepsOrder g s).trans (groupMoved_keepsOrder g _)

theorem checkClosing_keepsOrder (s : State) : KeepsOrder s (checkClosing s) := .of_ite fun _ => setMode_keepsOrder _ _ _ s

theorem endClearance_keepsOrder (g : Group) (s : State) : KeepsOrder s (endClearance g s) :=
  .of_ite fun _ => (((setGrp_keepsOrder s g _).trans (groupMoved_keepsOrder g _)).trans
    (.of_foldl becomeRedOut_keepsOrder _ _)).trans (checkClosing_keepsOrder _)

/-- R133. -/
theorem holdEnd_keepsOrder (s : State) : KeepsOrder s (holdEnd s) := by
  have released : KeepsOrder s (endHolds s) := by
    have cores : (s.pu.list.map fun e => if holdDue s e then released e else e).map Entry.core =
        s.pu.list.map Entry.core := by
      rw [List.map_map]
      refine List.map_congr_left fun e _ => ?_
      simp only [Function.comp]
      split <;> rfl
    exact .of_sublist rfl rfl (by rw [endHolds, cores])
  exact .of_ite fun _ => released.trans (walkArrival_keepsOrder s _)

theorem recallInhibitEnd_keepsOrder (s : State) : KeepsOrder s (recallInhibitEnd s) :=
  .of_ite fun _ => KeepsOrder.trans (t := { s with pu := { s.pu with inhibitUntil := none } }) (.of_list rfl rfl rfl)
    ((walkWith_follows true _).keepsOrder.trans (overlayArrival_follows s _).keepsOrder)

theorem expire_keepsOrder (s : State) : KeepsOrder s (expire s) :=
  .of_ite fun _ => (removeEntries_keepsOrder _ _ s).trans (walkArrival_keepsOrder s _)

/-- R137: no entry is left that has reached its X. -/
theorem expire_unexpired (s : State) : Unexpired (expire s) := by
  unfold expire
  split
  · have removed : Unexpired (removeEntries (expired s) .expired s) := by
      unfold Unexpired removeEntries postRemoved
      simp only [post_pu, post_jnow]
      intro e he
      have kept := (List.mem_filter.1 he).2
      simp only [expired, Bool.not_not] at kept
      exact kept
    exact (walkArrival_keepsOrder s _).unexpired removed
  · rename_i none
    intro e he
    by_contra reached
    exact none (List.any_eq_true.2 ⟨e, he, by simpa [expired] using reached⟩)

theorem fbsEvaluate_keepsOrder (s : State) : KeepsOrder s (fbsEvaluate s) :=
  KeepsOrder.trans (t := { s with fbsDue := false }) (.of_pu rfl rfl) (settleStage_follows _).keepsOrder

theorem gapOut_keepsOrder (g : Group) (s : State) : KeepsOrder s (gapOut g s) := .of_ite fun _ => fbsEvaluate_keepsOrder s

theorem advanceStage_keepsOrder (s : State) : KeepsOrder s (advanceStage s) := .of_ite fun _ => fbsEvaluate_keepsOrder s

/-- R58, R62. -/
theorem setTarget_keepsOrder (w : GroupSet) (s : State) : KeepsOrder s (setTarget w s) :=
  KeepsOrder.trans (.of_list (by simp [clearMaxedOut, jnow]) (by simp) (by simp))
    (setTarget_follows_written w s).keepsOrder

/-- R68. -/
theorem takeover_keepsOrder (s : State) : KeepsOrder s (takeover s) :=
  KeepsOrder.trans (t := { s with fbs := { s.fbs with current := takeoverStage s } }) (.of_pu rfl rfl)
    (setTarget_keepsOrder _ _)

/-- R48. -/
theorem changeOwner_keepsOrder (o : Owner) (r : Rank) (s : State) : KeepsOrder s (changeOwner o r s) := by
  by_cases same : s.sel.owner = o ∧ s.sel.rank = r
  · rw [changeOwner_same o r s same]
    exact .refl s
  · exact (KeepsOrder.of_pu (by simp [ownerWritten]) (by simp [ownerWritten])).trans
      (changeOwner_follows o r s same).keepsOrder

theorem silenceExpiry_keepsOrder (i : Station) (s : State) : KeepsOrder s (silenceExpiry i s) := by
  have marked : KeepsOrder s (setStation s i { station s i with silent := true }) := .of_pu rfl rfl
  exact .of_ite fun _ => ((marked.trans (detect_keepsOrder _ _ _)).trans (post_keepsOrder .stationSilent _)).then_ite
    (changeOwner_keepsOrder _ _ _)

theorem followAndRedOut_keepsOrder (p : Group → Bool) (s : State) : KeepsOrder s (followAndRedOut p s) :=
  (lampsFollow_keepsOrder p s).trans (.of_foldl becomeRedOut_keepsOrder _ _)

theorem beginAllRed_keepsOrder (s : State) : KeepsOrder s (beginAllRed s) :=
  (setGroups_keepsOrder s _).trans (followAndRedOut_keepsOrder _ _)

theorem enterResting_keepsOrder (g : Goal) (s : State) : KeepsOrder s (enterResting g s) := (enterResting_spec g s).keepsOrder

/-- R168. -/
theorem enterClosing_keepsOrder (g : Goal) (s : State) : KeepsOrder s (enterClosing g s) := by
  have target (u : State) : KeepsOrder u { u with sel := { u.sel with target := 0 } } := .of_pu rfl rfl
  exact ((((((setMode_keepsOrder _ _ _ s).trans (target _)).trans (flush_keepsOrder _)).trans
    (fbsStop_follows _).keepsOrder).trans (lampsFollow_keepsOrder _ _)).trans (settle_follows _).keepsOrder).trans
    (checkClosing_keepsOrder _)

/-- R165. -/
theorem enterStartUp_keepsOrder (s : State) : KeepsOrder s (enterStartUp s) := by
  have began (p : SubPhase) : KeepsOrder s (walk (startUpDefault (setMode .startUp (some p) none s))) :=
    (((setMode_keepsOrder _ _ _ s).trans (setTarget_keepsOrder 0 _)).trans (changeOwner_keepsOrder _ _ _)).trans
      (walk_follows _).keepsOrder
  unfold enterStartUp
  split
  · exact (began _).trans (beginAllRed_keepsOrder _)
  · exact (began _).trans (lampsFollow_keepsOrder _ _)

/-- R166. -/
theorem enterNormal_keepsOrder (s : State) : KeepsOrder s (enterNormal s) := by
  have entered := (setMode_keepsOrder .normal none none s).trans (evalReached_follows _).keepsOrder
  exact (((entered.then_ite (takeover_keepsOrder _)).trans (walk_follows _).keepsOrder).trans
    (lampsFollow_keepsOrder _ _)).trans (settleSince_follows _ _).keepsOrder

theorem suFlashEnd_keepsOrder (s : State) : KeepsOrder s (suFlashEnd s) :=
  .of_ite fun _ => (setMode_keepsOrder _ _ _ s).trans (beginAllRed_keepsOrder _)

theorem suAllredEnd_keepsOrder (s : State) : KeepsOrder s (suAllredEnd s) := by
  refine .of_ite fun _ => ?_
  split
  · exact (raiseMultiple_shuts s).keepsOrder
  · exact enterNormal_keepsOrder s

theorem clAllredEnd_keepsOrder (s : State) : KeepsOrder s (clAllredEnd s) := by
  refine .of_ite fun _ => ?_
  split
  · exact enterResting_keepsOrder _ s
  · exact .refl s

theorem tripRetry_keepsOrder (ch : Lamp) (s : State) : KeepsOrder s (tripRetry ch s) := .of_ite fun _ => .of_pu rfl rfl

theorem tripCounterReset_keepsOrder (ch : Lamp) (s : State) : KeepsOrder s (tripCounterReset ch s) :=
  .of_ite fun _ => .of_pu rfl rfl

theorem dimBoundary_keepsOrder (s : State) : KeepsOrder s (dimBoundary s) := by
  unfold dimBoundary
  refine .of_ite fun _ => ?_
  split <;> exact .of_pu rfl rfl

theorem flashToggle_keepsOrder (s : State) : KeepsOrder s (flashToggle s) := setLamps_keepsOrder s _

theorem overcurrentTrip_keepsOrder (ch : Lamp) (s : State) : KeepsOrder s (overcurrentTrip ch s) := by
  have tripped (r : LampRec) : KeepsOrder s (setLamp s ch r) := .of_pu rfl rfl
  exact .of_ite fun _ => ((tripped _).trans (detect_keepsOrder _ _ _)).then_ite (becomeRedOut_keepsOrder _ _)

/-! ### The junction clock (R1) -/

theorem eachItem_keepsOrder {n : Nat} {f : Fin n → State → State} (h : ∀ i s, KeepsOrder s (f i s)) (s : State) :
    KeepsOrder s (eachItem f s) := .of_foldl (fun t i => h i t) _ s

theorem takeDueLamps_keepsOrder (s : State) : KeepsOrder s (takeDueLamps s) :=
  (((eachItem_keepsOrder tripRetry_keepsOrder s).trans (eachItem_keepsOrder tripCounterReset_keepsOrder _)).trans
    (dimBoundary_keepsOrder _)).trans (flashToggle_keepsOrder _)

theorem takeDuePhases_keepsOrder (s : State) : KeepsOrder s (takeDuePhases s) :=
  (((suFlashEnd_keepsOrder s).trans (suAllredEnd_keepsOrder _)).trans (clAllredEnd_keepsOrder _)).trans
    (eachItem_keepsOrder silenceExpiry_keepsOrder _)

theorem takeDueGroups_unexpired (s : State) : KeepsOrder s (takeDueGroups s) ∧ Unexpired (takeDueGroups s) := by
  have phases := ((eachItem_keepsOrder endPrepare_keepsOrder s).trans (eachItem_keepsOrder endMinProceed_keepsOrder _)).trans
    (eachItem_keepsOrder endClearance_keepsOrder _)
  exact ⟨((phases.trans (holdEnd_keepsOrder _)).trans (expire_keepsOrder _)).trans (recallInhibitEnd_keepsOrder _),
    (recallInhibitEnd_keepsOrder _).unexpired (expire_unexpired _)⟩

theorem takeDueEvaluations_keepsOrder (s : State) : KeepsOrder s (takeDueEvaluations s) := by
  have starts (n : Nat) (s : State) : KeepsOrder s (takeStarts n s) := by
    induction n generalizing s with
    | zero => exact .refl s
    | succ n ih =>
      unfold takeStarts
      split
      · exact .refl s
      · exact (startGroup_keepsOrder _ s).trans (ih _)
  exact ((settle_follows s).keepsOrder.then_ite (fbsEvaluate_keepsOrder _)).trans (starts 24 _)

/-- R137: every entry that has reached its X leaves before the count advances. -/
theorem takeDue_unexpired (s : State) : KeepsOrder s (takeDue s) ∧ Unexpired (takeDue s) := by
  obtain ⟨keeps, unexpired⟩ := takeDueGroups_unexpired (takeDuePhases (takeDueLamps s))
  have evaluated := takeDueEvaluations_keepsOrder (takeDueGroups (takeDuePhases (takeDueLamps s)))
  exact ⟨(((takeDueLamps_keepsOrder s).trans (takeDuePhases_keepsOrder _)).trans keeps).trans evaluated,
    evaluated.unexpired unexpired⟩

theorem advanceCount_order {s : State} (law : OrderLaw s) (unexpired : Unexpired s) : OrderLaw (advanceCount s) where
  order := by
    rw [jnow_advanceCount]
    exact law.order.imp_of_mem fun ha hb before =>
      before.succ (Timely.recent (law.recent _ ha)) (Timely.recent (law.recent _ hb))
  created := law.created
  recent e he := by
    rw [jnow_advanceCount]
    exact Timely.succ (law.recent e he) (unexpired e he)

theorem evaluateLamps_keepsOrder (currents : List Nat) (s : State) : KeepsOrder s (evaluateLamps currents s) := by
  unfold evaluateLamps
  dsimp only
  refine KeepsOrder.trans ?_ (.of_foldl (fun t _ => (raiseConflict_shuts _ t).keepsOrder) _ _)
  exact (setLamps_keepsOrder s _).trans (.of_foldl (fun t _ => (handOn_shuts _ _ t).keepsOrder) _ _)

theorem junctionAdvance_order (currents : List Nat) {s : State} (law : OrderLaw s) :
    OrderLaw (junctionAdvance currents s) := by
  obtain ⟨keeps, unexpired⟩ := takeDue_unexpired s
  exact ((evaluateLamps_keepsOrder currents _).trans (advanceStage_keepsOrder _)).law
    (advanceCount_order (keeps.law law) unexpired)

end Sys2Proof.Machine

namespace Sys2Proof.Machine

/-! ### The tram approaches -/

theorem loopCheckIn_keepsOrder (a : Approach) (eta : Nat) (clamped single : Bool) (s : State) :
    KeepsOrder s (loopCheckIn a eta clamped single s) := by
  unfold loopCheckIn
  dsimp only
  split
  · split
    · rename_i t ht
      exact (newEntry_keepsOrder (clampEta_bounds _).2 ht).trans (walkArrival_keepsOrder s t)
    · exact setApr_keepsOrder _ _ _
  · exact setApr_keepsOrder _ _ _

theorem disarm_keepsOrder (a : Approach) (s : State) : KeepsOrder s (disarm a s) := setApr_keepsOrder _ _ _

theorem entryOnA_keepsOrder (a : Approach) (stamp : Time) (s : State) : KeepsOrder s (entryOnA a stamp s) := by
  unfold entryOnA
  split
  · split
    · exact setApr_keepsOrder _ _ _
    · exact .refl s
  · exact loopCheckIn_keepsOrder _ _ _ _ _

theorem entryOnB_keepsOrder (a : Approach) (stamp : Time) (s : State) : KeepsOrder s (entryOnB a stamp s) := by
  unfold entryOnB
  dsimp only
  split <;> exact (disarm_keepsOrder a s).trans (loopCheckIn_keepsOrder _ _ _ _ _)

theorem removeEntry_keepsOrder (x : Entry) (c : RemovalCause) (s : State) : KeepsOrder s (removeEntry x c s) :=
  (removeEntries_keepsOrder _ c s).trans (walkArrival_keepsOrder s _)

theorem loopCheckOut_keepsOrder (a : Approach) (s : State) : KeepsOrder s (loopCheckOut a s) := by
  unfold loopCheckOut
  split
  · exact removeEntry_keepsOrder _ _ _
  · exact setApr_keepsOrder _ _ _

theorem entryAtApproach_keepsOrder (ch : Channel) (stamp : Time) (a : Approach) (s : State) :
    KeepsOrder s (entryAtApproach ch stamp a s) := by
  have onA : KeepsOrder s (if loopA s.cs.image a = some ch then entryOnA a stamp s else s) :=
    .of_ite fun _ => entryOnA_keepsOrder a stamp s
  exact (onA.then_ite (entryOnB_keepsOrder a stamp _)).then_ite (loopCheckOut_keepsOrder a _)

theorem loopEntered_keepsOrder (ch : Channel) (s : State) : KeepsOrder s (loopEntered ch s) := by
  unfold loopEntered
  split
  · exact .of_foldl (fun t a => entryAtApproach_keepsOrder ch _ a t) _ _
  · exact .refl s

theorem loseB_keepsOrder (a : Approach) (s : State) : KeepsOrder s (loseB a s) := by
  unfold loseB
  split
  · exact (disarm_keepsOrder a s).trans (loopCheckIn_keepsOrder _ _ _ _ _)
  · exact .refl s

theorem loopStateChanged_keepsOrder (ch : Channel) (st : DetState) (s : State) :
    KeepsOrder s (loopStateChanged ch st s) := by
  have lose (t : State) (a : Approach) : KeepsOrder t (loseAtApproach ch a t) := by
    have lostA : KeepsOrder t (if loopA t.cs.image a = some ch then disarm a t else t) :=
      .of_ite fun _ => disarm_keepsOrder a t
    exact lostA.then_ite (loseB_keepsOrder a _)
  unfold loopStateChanged
  split
  · exact .refl s
  · exact .of_foldl lose _ _

theorem armingLapse_keepsOrder (s : State) : KeepsOrder s (armingLapse s) := .of_ite fun _ => .of_list rfl rfl rfl

/-! ### The detector unit -/

theorem noteGapExit_keepsOrder (gs : List Group) (s : State) : KeepsOrder s (noteGapExit gs s) := by
  unfold noteGapExit
  exact .of_pu rfl rfl

theorem postDemand_keepsOrder (fromLoop : Bool) (gs : List Group) (s : State) : KeepsOrder s (postDemand fromLoop gs s) :=
  (setGroups_keepsOrder s _).trans (postDemand_follows fromLoop gs s).keepsOrder

theorem postChannelDemand_keepsOrder (ch : Channel) (s : State) : KeepsOrder s (postChannelDemand ch s) :=
  .of_ite fun _ => postDemand_keepsOrder _ _ _

theorem forcedDemand_keepsOrder (ch : Channel) (b : Bool) (s : State) : KeepsOrder s (forcedDemand ch b s) :=
  .of_ite fun _ => postChannelDemand_keepsOrder _ _

theorem handToSequencer_keepsOrder (ch : Channel) (old : DetRec) (exit : Bool) (s : State) :
    KeepsOrder s (handToSequencer ch old exit s) := by
  unfold handToSequencer
  dsimp only
  split
  · exact .refl s
  · exact (KeepsOrder.of_ite fun _ => noteGapExit_keepsOrder _ s).then_ite (settleStage_follows _).keepsOrder

theorem setDet_keepsOrder (s : State) (ch : Channel) (r : DetRec) : KeepsOrder s (setDet s ch r) := .of_pu rfl rfl

/-- R97 to R100: what a channel hands on. -/
theorem handChange_keepsOrder (ch : Channel) (old new : DetRec) (entry exit : Bool) (s : State) :
    KeepsOrder s (handChange ch old new entry exit s) := by
  have event := (setDet_keepsOrder s ch new).trans
    (postIf_keepsOrder (reportedChange old.state new.state) .detectorChanged _)
  have handed := (event.then_ite (p := entry = true) (postChannelDemand_keepsOrder ch _)).trans
    (handToSequencer_keepsOrder ch old exit _)
  exact (handed.then_ite (loopStateChanged_keepsOrder ch _ _)).then_ite (loopEntered_keepsOrder ch _)

theorem loopLongPresence_keepsOrder (ch : Channel) (s : State) : KeepsOrder s (loopLongPresence ch s) :=
  .of_ite fun _ => (handChange_keepsOrder _ _ _ _ _ _).trans (forcedDemand_keepsOrder _ _ _)

theorem contactLongPresence_keepsOrder (ch : Channel) (s : State) : KeepsOrder s (contactLongPresence ch s) :=
  .of_ite fun _ => (handChange_keepsOrder _ _ _ _ _ _).trans (forcedDemand_keepsOrder _ _ _)

theorem windowClose_keepsOrder (ch : Channel) (s : State) : KeepsOrder s (windowClose ch s) := by
  have raised (old : DetRec) (u : State) : KeepsOrder u (raiseAtClose ch old u) := by
    unfold raiseAtClose
    split
    · exact detect_keepsOrder _ _ _
    · exact .of_ite fun _ => detect_keepsOrder _ _ _
  exact .of_ite fun _ => ((loopLongPresence_keepsOrder ch s).trans (handChange_keepsOrder _ _ _ _ _ _)).trans (raised _ _)

theorem loopSample_keepsOrder (p : Option Nat) (ch : Channel) (s : State) : KeepsOrder s (loopSample p ch s) :=
  .of_ite fun _ => ((raiseAtSample_shuts _ _ _ _).keepsOrder.trans (handChange_keepsOrder _ _ _ _ _ _)).trans
    (forcedDemand_keepsOrder _ _ _)

theorem contactSample_keepsOrder (pressed : Bool) (ch : Channel) (s : State) : KeepsOrder s (contactSample pressed ch s) :=
  .of_ite fun _ => (handChange_keepsOrder _ _ _ _ _ _).trans (forcedDemand_keepsOrder _ _ _)

theorem sampleLeft_keepsOrder (ch : Channel) (s : State) : KeepsOrder s (sampleLeft ch s) :=
  ((loopLongPresence_keepsOrder ch s).trans (windowClose_keepsOrder ch _)).trans (contactLongPresence_keepsOrder ch _)

theorem externalFault_keepsOrder (s : State) : KeepsOrder s (externalFault s) := .of_ite fun _ => detect_keepsOrder _ _ _

theorem detectorAdvance_keepsOrder (low : Bool) (s : State) : KeepsOrder s (detectorAdvance low s) := by
  have samples := ((eachItem_keepsOrder loopLongPresence_keepsOrder s).trans
    (eachItem_keepsOrder windowClose_keepsOrder _)).trans (eachItem_keepsOrder contactLongPresence_keepsOrder _)
  have counted (u : State) : KeepsOrder u (advanceDetectors low u) := .of_pu rfl rfl
  exact ((samples.trans (armingLapse_keepsOrder _)).trans (externalFault_keepsOrder _)).trans (counted _)

/-! ### The requests -/

theorem answer_keepsOrder (k : RequestKind) (v : Verdict) (l : List Byte) (s : State) : KeepsOrder s (answer k v l s) :=
  .of_pu rfl rfl

theorem KeepsOrder.answered {s t : State} (h : KeepsOrder s t) (k : RequestKind) (v : Verdict) (l : List Byte) :
    KeepsOrder s (answer k v l t) := h.trans (answer_keepsOrder k v l t)

/-- R112 to R116. -/
theorem takeReport_keepsOrder (a : Approach) (r : Report) (s : State) : KeepsOrder s (takeReport a r s) := by
  unfold takeReport
  split
  · rename_i e found
    have bound := (reportEta_bounds s.cs.image e.approach r).2
    have updated : KeepsOrder s (replaceEntry e (updatedEntry s r e) s) :=
      replaceEntry_keepsOrder (List.mem_of_find?_eq_some found) rfl (fun _ => withFigures_timely _ _ e bound)
        fun _ => withFigures_unexpired _ _ e bound
    exact (updated.trans (walkArrival_keepsOrder s _)).answered _ _ _
  · split
    · rename_i e found
      have mem := (oldest_mem _ _ _ found).1
      have merged : KeepsOrder s (replaceEntry e (mergedEntry s r e) s) :=
        replaceEntry_keepsOrder mem rfl (fun law => law.recent e mem) fun h => h e mem
      exact (merged.trans (walkArrival_keepsOrder s _)).answered _ _ _
    · split
      · rename_i t ht
        exact ((newEntry_keepsOrder (reportEta_bounds _ _ _).2 ht).trans (walkArrival_keepsOrder s t)).answered _ _ _
      · exact answer_keepsOrder _ _ _ s

theorem checkIn_keepsOrder (r : Report) (approach : Byte) (i : Station) (s : State) :
    KeepsOrder s (checkIn r approach i s) := by
  unfold checkIn
  split
  · exact answer_keepsOrder _ _ _ s
  · split
    · exact takeReport_keepsOrder _ r s
    · exact answer_keepsOrder _ _ _ s

theorem checkOut_keepsOrder (ident : BitVec 16) (approach : Byte) (i : Station) (s : State) :
    KeepsOrder s (checkOut ident approach i s) := by
  unfold checkOut
  split
  · exact answer_keepsOrder _ _ _ s
  · split
    · exact (removeEntry_keepsOrder _ _ s).answered _ _ _
    · exact answer_keepsOrder _ _ _ s

theorem cancelEntries_keepsOrder (p : Entry → Bool) (s : State) : KeepsOrder s (cancelEntries p s) := by
  unfold cancelEntries
  split
  · exact ((removeEntries_keepsOrder _ _ s).trans (walkArrival_keepsOrder s _)).answered _ _ _
  · exact answer_keepsOrder _ _ _ s

theorem cancelByNumber_keepsOrder (value : BitVec 16) (i : Station) (s : State) :
    KeepsOrder s (cancelByNumber value i s) := by
  unfold cancelByNumber
  split
  · exact answer_keepsOrder _ _ _ s
  · exact cancelEntries_keepsOrder _ s

theorem enablePriority_keepsOrder (b : Byte) (i : Station) (s : State) : KeepsOrder s (enablePriority b i s) := by
  have enable (on : Bool) : KeepsOrder s (setEnable on s) := by
    unfold setEnable
    split
    · exact .refl s
    · exact KeepsOrder.trans (t := { s with pu := { s.pu with enabled := on } }) (.of_list rfl rfl rfl)
        (walkArrival_keepsOrder s _)
  unfold enablePriority
  split
  · exact answer_keepsOrder _ _ _ s
  · exact (enable _).answered _ _ _

theorem takeSelector_keepsOrder (r : Byte) (i : Station) (s : State) : KeepsOrder s (takeSelector r i s) :=
  (KeepsOrder.of_ite fun _ => changeOwner_keepsOrder _ _ s).answered _ _ _

theorem releaseSelector_keepsOrder (i : Station) (s : State) : KeepsOrder s (releaseSelector i s) := by
  unfold releaseSelector
  split
  · exact (changeOwner_keepsOrder _ _ s).answered _ _ _
  · exact answer_keepsOrder _ _ _ s

theorem acceptTarget_keepsOrder (w : GroupSet) (s : State) : KeepsOrder s (acceptTarget w s) :=
  (setTarget_keepsOrder w s).trans (settle_follows _).keepsOrder

theorem setStage_keepsOrder (w : GroupSet) (i : Station) (s : State) : KeepsOrder s (setStage w i s) :=
  (KeepsOrder.of_ite fun _ => acceptTarget_keepsOrder w s).answered _ _ _

theorem selectStage_keepsOrder (b : Byte) (i : Station) (s : State) : KeepsOrder s (selectStage b i s) :=
  (KeepsOrder.of_ite fun _ => acceptTarget_keepsOrder _ s).answered _ _ _

theorem callGroups_keepsOrder (w : GroupSet) (i : Station) (s : State) : KeepsOrder s (callGroups w i s) :=
  (postDemand_keepsOrder _ _ s).answered _ _ _

theorem liftLocks_keepsOrder (s : State) : KeepsOrder s (liftLocks s) := setLamps_keepsOrder s _

theorem clearFaults_keepsOrder (kinds : BitVec 16) (given : Bool) (mask : BitVec 16) (i : Station) (s : State) :
    KeepsOrder s (clearFaults kinds given mask i s) := by
  have cleared (m : Option (BitVec 16)) : KeepsOrder s (clearFaultKinds kinds m s) := by
    have table (f : Vector FaultRec 12) : KeepsOrder s { s with mfs := { s.mfs with faults := f } } := .of_pu rfl rfl
    unfold clearFaultKinds
    exact ((table _).trans (setLamps_keepsOrder _ _)).then_ite (liftLocks_keepsOrder _)
  unfold clearFaults
  split
  · exact answer_keepsOrder _ _ _ s
  · exact (KeepsOrder.of_ite fun _ => cleared _).answered _ _ _

theorem clearEvents_keepsOrder (kinds : BitVec 16) (given : Bool) (mask : BitVec 16) (i : Station) (s : State) :
    KeepsOrder s (clearEvents kinds given mask i s) := by
  have cleared (m : Mfs) : KeepsOrder s { s with mfs := m } := .of_pu rfl rfl
  unfold clearEvents
  split
  · exact answer_keepsOrder _ _ _ s
  · exact (cleared _).answered _ _ _

theorem setDim_keepsOrder (b : Byte) (i : Station) (s : State) : KeepsOrder s (setDim b i s) := by
  have pending (d : Dim) : KeepsOrder s (setPendingDim d s) := .of_pu rfl rfl
  unfold setDim
  split
  · exact (pending _).answered _ _ _
  · split
    · exact (pending _).answered _ _ _
    · exact answer_keepsOrder _ _ _ s

theorem answerRead_keepsOrder (k : RequestKind) (fields : Option (List Byte)) (s : State) :
    KeepsOrder s (answerRead k fields s) := by
  unfold answerRead
  split <;> exact answer_keepsOrder _ _ _ s

theorem readPriority_keepsOrder (b : Byte) (i : Station) (s : State) : KeepsOrder s (readPriority b i s) := by
  unfold readPriority
  dsimp only
  repeat' split
  all_goals exact answer_keepsOrder _ _ _ s

theorem readConfig_keepsOrder (block index : Byte) (i : Station) (s : State) :
    KeepsOrder s (readConfig block index i s) := by
  unfold readConfig
  repeat' split
  all_goals exact answer_keepsOrder _ _ _ s

/-! ### The supervisor's requests and the store -/

/-- R167. -/
theorem modeRequestGoal_keepsOrder (g : Goal) (i : Station) (s : State) : KeepsOrder s (modeRequestGoal g i s) := by
  have replaced : KeepsOrder s { s with mfs := { s.mfs with goal := some g } } := .of_pu rfl rfl
  have requested : KeepsOrder s (requestGoal g s) := by
    unfold requestGoal
    split
    · exact .refl s
    · exact enterResting_keepsOrder g s
    · exact enterClosing_keepsOrder g s
    · split
      · exact .refl s
      · exact replaced.trans (post_keepsOrder _ _)
    · exact .of_ite fun _ => enterResting_keepsOrder .dark s
    · exact .of_ite fun _ => enterResting_keepsOrder .flash s
  exact requested.answered _ _ _

theorem await_keepsOrder (s : State) : KeepsOrder s (await s) := .of_pu rfl rfl

theorem resumeAccepted_keepsOrder (s : State) : KeepsOrder s (resumeAccepted s) := by
  have undriven : KeepsOrder s { s with mfs := { s.mfs with fltDriven := false } } := .of_pu rfl rfl
  exact ((undriven.trans (liftLocks_keepsOrder _)).trans (enterStartUp_keepsOrder _)).answered _ _ _

theorem modeRequestResume_keepsOrder (i : Station) (s : State) : KeepsOrder s (modeRequestResume i s) := by
  have ordered : KeepsOrder s { s with cs := { s.cs with validating := true } } := .of_pu rfl rfl
  unfold modeRequestResume
  split
  · exact answer_keepsOrder _ _ _ s
  · split
    · exact answer_keepsOrder _ _ _ s
    · split
      · exact ordered.trans (await_keepsOrder _)
      · exact resumeAccepted_keepsOrder s

theorem loadWorkingCopies_keepsOrder (s : State) : KeepsOrder s (loadWorkingCopies s) := by
  have loaded (i : Igm) (l : Sel) : KeepsOrder s { s with igm := i, sel := l } := .of_pu rfl rfl
  unfold loadWorkingCopies
  exact (loaded _ _).trans (reportRedOut_shuts _).keepsOrder

/-- R209. -/
theorem validationCompletion_keepsOrder (s : State) : KeepsOrder s (validationCompletion s) := by
  have taken : KeepsOrder s { s with cs := { s.cs with validating := false } } := .of_pu rfl rfl
  have stored (u : State) (c : Cs) : KeepsOrder u { u with cs := c } := .of_pu rfl rfl
  have passed (u : State) : KeepsOrder u (validated u) := (stored u _).trans (loadWorkingCopies_keepsOrder _)
  have completed (u : State) : KeepsOrder u (completeValidation u) := by
    unfold completeValidation
    split
    · exact answer_keepsOrder _ _ _ u
    · split
      · exact (passed u).answered _ _ _
      · exact (passed u).trans (resumeAccepted_keepsOrder _)
  exact .of_ite fun _ => taken.trans (completed _)

/-- R164, R206. -/
theorem powerUpCheck_keepsOrder (s : State) : KeepsOrder s (powerUpCheck s) := by
  have marked : KeepsOrder s { s with cs := { s.cs with mismatch := true } } := .of_pu rfl rfl
  refine .of_ite fun _ => ?_
  split
  · refine (loadWorkingCopies_keepsOrder s).trans ?_
    unfold afterMatch
    split
    · exact enterResting_keepsOrder _ _
    · exact enterStartUp_keepsOrder _
  · exact (marked.trans (detect_keepsOrder _ _ _)).trans (enterResting_keepsOrder _ _)

theorem copyCompletion_keepsOrder (s : State) : KeepsOrder s (copyCompletion s) := by
  unfold copyCompletion
  split
  · exact KeepsOrder.trans (t := { s with cs := { s.cs with copy := none } }) (.of_pu rfl rfl) (answer_keepsOrder _ _ _ _)
  · exact .refl s

theorem groupWritten_keepsOrder (old : Image) (g : Group) (s : State) : KeepsOrder s (groupWritten old g s) := by
  unfold groupWritten
  exact (((setGrp_keepsOrder s g _).trans (lampsFollow_keepsOrder _ _)).trans (setLamps_keepsOrder _ _)).then_ite
    (leaveRedOut_shuts g _).keepsOrder

theorem stationWritten_keepsOrder (i : Station) (s : State) : KeepsOrder s (stationWritten i s) := by
  have restarted (r : StationRec) : KeepsOrder s (setStation s i r) := .of_pu rfl rfl
  exact ((restarted _).trans (postIf_keepsOrder _ _ _)).trans (.of_ite fun _ => changeOwner_keepsOrder _ _ _)

theorem detectorWritten_keepsOrder (old : Image) (ch : Channel) (s : State) : KeepsOrder s (detectorWritten old ch s) := by
  unfold detectorWritten
  exact (((setDet_keepsOrder s ch _).trans (postIf_keepsOrder _ _ _)).trans
    (.of_ite fun _ => noteGapExit_keepsOrder _ _)).then_ite (loopStateChanged_keepsOrder ch _ _)

/-- R204. -/
theorem storeRecord_keepsOrder (p : Place) (bs : List Byte) (s : State) : KeepsOrder s (storeRecord p bs s) := by
  have before : KeepsOrder s (beforeWrite p s) := by
    unfold beforeWrite
    split
    · exact sampleLeft_keepsOrder _ s
    · exact .refl s
  have stored (u : State) (m : Image) : KeepsOrder u { u with cs := { u.cs with image := m, edited := true } } :=
    .of_pu rfl rfl
  have effects (old : Image) (u : State) : KeepsOrder u (writeEffects old p u) := by
    cases p with
    | device => exact .of_pu rfl rfl
    | station i => exact stationWritten_keepsOrder i u
    | group g => exact groupWritten_keepsOrder old g u
    | matrix c => exact .refl u
    | stage n => exact .refl u
    | detector ch => exact detectorWritten_keepsOrder old ch u
    | approach a => exact disarm_keepsOrder a u
  exact (before.trans (stored _ _)).trans (effects _ _)

theorem writeConfig_keepsOrder (block index : Byte) (bs : List Byte) (i : Station) (s : State) :
    KeepsOrder s (writeConfig block index bs i s) := by
  have copied (u : State) (c : Cs) : KeepsOrder u { u with cs := c } := .of_pu rfl rfl
  unfold writeConfig
  split
  · exact answer_keepsOrder _ _ _ s
  · split
    · exact answer_keepsOrder _ _ _ s
    · split
      · exact ((storeRecord_keepsOrder _ bs s).trans (copied _ _)).trans (await_keepsOrder _)
      · exact answer_keepsOrder _ _ _ s

/-! ### The link port -/

theorem setClp_keepsOrder (s : State) (c : Clp) : KeepsOrder s { s with clp := c } := .of_pu rfl rfl

theorem serveClear_keepsOrder {k : RequestKind} {f : BitVec 16 → Bool → BitVec 16 → Station → State → State}
    {a b given c d : Byte} {i : Station} {s : State} (h : ∀ x y z, KeepsOrder s (f x y z i s)) :
    KeepsOrder s (serveClear k f a b given c d i s) := by
  unfold serveClear
  split
  · exact h _ _ _
  · exact answer_keepsOrder _ _ _ s

theorem serveMode_keepsOrder (g : Byte) (i : Station) (s : State) : KeepsOrder s (serveMode g i s) := by
  unfold serveMode
  split
  · exact modeRequestGoal_keepsOrder _ i s
  · split
    · exact modeRequestGoal_keepsOrder _ i s
    · split
      · exact modeRequestResume_keepsOrder i s
      · exact answer_keepsOrder _ _ _ s

theorem serveCancel_keepsOrder (b : Byte) (v : BitVec 16) (i : Station) (s : State) :
    KeepsOrder s (serveCancel b v i s) := by
  unfold serveCancel
  split
  · exact cancelByNumber_keepsOrder v i s
  · split
    · exact cancelEntries_keepsOrder _ s
    · exact answer_keepsOrder _ _ _ s

theorem serveCheckIn_keepsOrder (ident : BitVec 16) (route approach : Byte) (lateness : BitVec 16) (special dp : Byte)
    (d : BitVec 24) (vp : Byte) (v : BitVec 16) (i : Station) (s : State) :
    KeepsOrder s (serveCheckIn ident route approach lateness special dp d vp v i s) := by
  unfold serveCheckIn
  split
  · exact checkIn_keepsOrder _ _ i s
  · exact answer_keepsOrder _ _ _ s

/-- R192: the blocks' part of a request whose payload has its kind's length. -/
theorem serve_keepsOrder (k : RequestKind) (payload : List Byte) (i : Station) (s : State)
    (len : k.lengthOk payload.length = true) : KeepsOrder s (serve k payload i s) := by
  have exactly (h : k ≠ .writeConfig) : payload.length = k.payload := by
    rw [RequestKind.lengthOk, if_neg h, decide_eq_true_eq] at len
    exact len
  cases k
  case readStatus =>
    match payload, exactly (by decide) with
    | [], _ => exact answer_keepsOrder _ _ _ s
  case readGroups =>
    match payload, exactly (by decide) with
    | [_], _ => exact answerRead_keepsOrder _ _ s
  case readDetectors =>
    match payload, exactly (by decide) with
    | [_], _ => exact answerRead_keepsOrder _ _ s
  case readPriority =>
    match payload, exactly (by decide) with
    | [_], _ => exact readPriority_keepsOrder _ i s
  case readFaults =>
    match payload, exactly (by decide) with
    | [_], _ => exact answerRead_keepsOrder _ _ s
  case readEvents =>
    match payload, exactly (by decide) with
    | [], _ => exact answer_keepsOrder _ _ _ s
  case clearEvents =>
    match payload, exactly (by decide) with
    | [_, _, _, _, _], _ => exact serveClear_keepsOrder fun x y z => clearEvents_keepsOrder x y z i s
  case takeSelector =>
    match payload, exactly (by decide) with
    | [_], _ => exact takeSelector_keepsOrder _ i s
  case releaseSelector =>
    match payload, exactly (by decide) with
    | [], _ => exact releaseSelector_keepsOrder i s
  case setStage =>
    match payload, exactly (by decide) with
    | [_, _, _], _ => exact setStage_keepsOrder _ i s
  case selectStage =>
    match payload, exactly (by decide) with
    | [_], _ => exact selectStage_keepsOrder _ i s
  case callGroups =>
    match payload, exactly (by decide) with
    | [_, _, _], _ => exact callGroups_keepsOrder _ i s
  case modeRequest =>
    match payload, exactly (by decide) with
    | [_], _ => exact serveMode_keepsOrder _ i s
  case clearFaults =>
    match payload, exactly (by decide) with
    | [_, _, _, _, _], _ => exact serveClear_keepsOrder fun x y z => clearFaults_keepsOrder x y z i s
  case setDim =>
    match payload, exactly (by decide) with
    | [_], _ => exact setDim_keepsOrder _ i s
  case enablePriority =>
    match payload, exactly (by decide) with
    | [_], _ => exact enablePriority_keepsOrder _ i s
  case readConfig =>
    match payload, exactly (by decide) with
    | [_, _], _ => exact readConfig_keepsOrder _ _ i s
  case writeConfig =>
    match payload, of_decide_eq_true len with
    | _ :: _ :: _, _ => exact writeConfig_keepsOrder _ _ _ i s
  case checkIn =>
    match payload, exactly (by decide) with
    | [_, _, _, _, _, _, _, _, _, _, _, _, _, _], _ => exact serveCheckIn_keepsOrder _ _ _ _ _ _ _ _ _ i s
  case checkOut =>
    match payload, exactly (by decide) with
    | [_, _, _], _ => exact checkOut_keepsOrder _ _ i s
  case cancelPriority =>
    match payload, exactly (by decide) with
    | [_, _, _], _ => exact serveCancel_keepsOrder _ _ i s

theorem takeRequest_keepsOrder (kind : Byte) (payload : List Byte) (i : Station) (s : State) :
    KeepsOrder s (takeRequest kind payload i s) := by
  unfold takeRequest
  split
  · exact setClp_keepsOrder s _
  · split
    · exact answer_keepsOrder _ _ _ s
    · split
      · exact answer_keepsOrder _ _ _ s
      · rename_i len
        exact serve_keepsOrder _ payload i s (by simpa using len)

theorem judgeFrame_keepsOrder (buf : List Byte) (s : State) : KeepsOrder s (judgeFrame buf s) := by
  have heard (i : Station) : KeepsOrder s (hear i s) :=
    KeepsOrder.trans (t := setStation s i _) (.of_pu rfl rfl) (postIf_keepsOrder _ _ _)
  unfold judgeFrame discard
  split
  · exact setClp_keepsOrder s _
  · split
    · exact setClp_keepsOrder s _
    · split
      · exact setClp_keepsOrder s _
      · exact (heard _).trans (takeRequest_keepsOrder _ _ _ _)

theorem storeByte_keepsOrder (b : Byte) (s : State) : KeepsOrder s (storeByte b s) := by
  unfold storeByte discard
  dsimp only
  split
  · exact setClp_keepsOrder s _
  · split
    · exact judgeFrame_keepsOrder _ s
    · exact setClp_keepsOrder s _

theorem receiveByte_keepsOrder (b : Byte) (framingError : Bool) (s : State) :
    KeepsOrder s (receiveByte b framingError s) := by
  have stored (u : State) :
      KeepsOrder u (if framingError then discard (addressed u.clp) .skip u else storeByte b u) := by
    split
    · exact setClp_keepsOrder u _
    · exact storeByte_keepsOrder b u
  have taken (u : State) : KeepsOrder u (takeByte b framingError u) := by
    unfold takeByte overrun
    split
    · exact .of_ite fun _ => setClp_keepsOrder u _
    · exact stored u
    · exact stored u
    · exact stored u
    · exact .refl u
    · refine .of_ite fun _ => ?_
      split
      · exact .refl u
      · exact setClp_keepsOrder u _
  exact (setClp_keepsOrder s _).trans (taken _)

theorem silenceTimeout_keepsOrder (s : State) : KeepsOrder s (silenceTimeout s) := by
  unfold silenceTimeout discard
  split
  · exact .refl s
  all_goals exact setClp_keepsOrder s _

theorem frameReceived_keepsOrder (b : Byte) (s : State) : KeepsOrder s (frameReceived b s) :=
  .of_ite fun _ => receiveByte_keepsOrder b false s

theorem frameOverrun_keepsOrder (s : State) : KeepsOrder s (frameOverrun s) :=
  .of_ite fun _ => receiveByte_keepsOrder _ false s

theorem replySent_keepsOrder (s : State) : KeepsOrder s (replySent s) := .of_ite fun _ => setClp_keepsOrder s _

/-! ### Every command -/

theorem withItem_keepsOrder {n : Nat} {f : Fin n → State → State} (h : ∀ i s, KeepsOrder s (f i s)) (k : Nat) (s : State) :
    KeepsOrder s (withItem k f s) := withItem_cases k f s _ (.refl s) fun i => h i s

theorem asked_keepsOrder {f : Station → State → State} (h : ∀ i s, KeepsOrder s (f i s)) (k : RequestKind) (n : Nat)
    (s : State) : KeepsOrder s (asked k n f s) :=
  asked_cases k n f s _ (.refl s) (fun _ => answer_keepsOrder _ _ _ s) fun i _ _ => h i s

theorem reset_order (m : Image) (crc : BitVec 32) (addr : BitVec 4) (rate : BitVec 2) (s : State) :
    OrderLaw (resetWith m crc addr rate s) :=
  ⟨.nil, ⟨.nil, fun _ h => by cases h⟩, fun _ h => by cases h⟩

theorem exec_order {c : Instr} {s t : State} (ran : exec c s = .next t) (law : OrderLaw s) : OrderLaw t := by
  have kept {u : State} (next : Host.Outcome.next u = (Host.Outcome.next t : Host.Outcome State Fault Refusal))
      (h : OrderLaw s → OrderLaw u) : OrderLaw t := by cases next; exact h law
  cases c
  case reset => exact kept ran fun _ => reset_order _ _ _ _ s
  case junctionClockAdvance => exact kept ran (junctionAdvance_order _)
  case powerUpCheckCompletion => exact kept ran (powerUpCheck_keepsOrder s).law
  case dimBoundary => exact kept ran (dimBoundary_keepsOrder s).law
  case flashToggle => exact kept ran (flashToggle_keepsOrder s).law
  case groupStart => exact kept ran (withItem_keepsOrder startGroup_keepsOrder _ s).law
  case prepareEnd => exact kept ran (withItem_keepsOrder endPrepare_keepsOrder _ s).law
  case minProceedEnd => exact kept ran (withItem_keepsOrder endMinProceed_keepsOrder _ s).law
  case maxOut => exact kept ran (withItem_keepsOrder maxOut_keepsOrder _ s).law
  case clearanceEnd => exact kept ran (withItem_keepsOrder endClearance_keepsOrder _ s).law
  case holdEnd => exact kept ran (holdEnd_keepsOrder s).law
  case recallInhibitEnd => exact kept ran (recallInhibitEnd_keepsOrder s).law
  case expiry => exact kept ran (expire_keepsOrder s).law
  case gapOut => exact kept ran (withItem_keepsOrder gapOut_keepsOrder _ s).law
  case silenceExpiry => exact kept ran (withItem_keepsOrder silenceExpiry_keepsOrder _ s).law
  case suFlashEnd => exact kept ran (suFlashEnd_keepsOrder s).law
  case suAllredEnd => exact kept ran (suAllredEnd_keepsOrder s).law
  case clAllredEnd => exact kept ran (clAllredEnd_keepsOrder s).law
  case overcurrentTrip => exact kept ran (withItem_keepsOrder overcurrentTrip_keepsOrder _ s).law
  case tripRetry => exact kept ran (withItem_keepsOrder tripRetry_keepsOrder _ s).law
  case tripCounterReset => exact kept ran (withItem_keepsOrder tripCounterReset_keepsOrder _ s).law
  case detectorClockAdvance => exact kept ran (detectorAdvance_keepsOrder _ s).law
  case externalFault => exact kept ran (externalFault_keepsOrder s).law
  case loopSample => exact kept ran (withItem_keepsOrder (loopSample_keepsOrder _) _ s).law
  case loopLongPresence => exact kept ran (withItem_keepsOrder loopLongPresence_keepsOrder _ s).law
  case contactSample => exact kept ran (withItem_keepsOrder (contactSample_keepsOrder _) _ s).law
  case contactLongPresence => exact kept ran (withItem_keepsOrder contactLongPresence_keepsOrder _ s).law
  case windowClose => exact kept ran (withItem_keepsOrder windowClose_keepsOrder _ s).law
  case armingLapse => exact kept ran (armingLapse_keepsOrder s).law
  case frameReceived => exact kept ran (frameReceived_keepsOrder _ s).law
  case linkSilenceTimeout => exact kept ran (silenceTimeout_keepsOrder s).law
  case frameOverrun => exact kept ran (frameOverrun_keepsOrder s).law
  case replySent => exact kept ran (replySent_keepsOrder s).law
  case readStatus => exact kept ran (asked_keepsOrder (fun _ u => answer_keepsOrder _ _ _ u) _ _ s).law
  case readGroups => exact kept ran (asked_keepsOrder (fun _ u => answerRead_keepsOrder _ _ u) _ _ s).law
  case readDetectors => exact kept ran (asked_keepsOrder (fun _ u => answerRead_keepsOrder _ _ u) _ _ s).law
  case readPriority => exact kept ran (asked_keepsOrder (readPriority_keepsOrder _) _ _ s).law
  case readFaults => exact kept ran (asked_keepsOrder (fun _ u => answerRead_keepsOrder _ _ u) _ _ s).law
  case readEvents => exact kept ran (asked_keepsOrder (fun _ u => answer_keepsOrder _ _ _ u) _ _ s).law
  case clearEvents => exact kept ran (asked_keepsOrder (clearEvents_keepsOrder _ _ _) _ _ s).law
  case takeSelector => exact kept ran (asked_keepsOrder (takeSelector_keepsOrder _) _ _ s).law
  case releaseSelector => exact kept ran (asked_keepsOrder releaseSelector_keepsOrder _ _ s).law
  case setStage => exact kept ran (asked_keepsOrder (setStage_keepsOrder _) _ _ s).law
  case selectStage => exact kept ran (asked_keepsOrder (selectStage_keepsOrder _) _ _ s).law
  case callGroups => exact kept ran (asked_keepsOrder (callGroups_keepsOrder _) _ _ s).law
  case modeRequestFlash => exact kept ran (asked_keepsOrder (modeRequestGoal_keepsOrder _) _ _ s).law
  case modeRequestDark => exact kept ran (asked_keepsOrder (modeRequestGoal_keepsOrder _) _ _ s).law
  case modeRequestResume => exact kept ran (asked_keepsOrder modeRequestResume_keepsOrder _ _ s).law
  case validationCompletion => exact kept ran (validationCompletion_keepsOrder s).law
  case clearFaults => exact kept ran (asked_keepsOrder (clearFaults_keepsOrder _ _ _) _ _ s).law
  case setDim => exact kept ran (asked_keepsOrder (setDim_keepsOrder _) _ _ s).law
  case enablePriority => exact kept ran (asked_keepsOrder (enablePriority_keepsOrder _) _ _ s).law
  case readConfig => exact kept ran (asked_keepsOrder (readConfig_keepsOrder _ _) _ _ s).law
  case writeConfig => exact kept ran (asked_keepsOrder (writeConfig_keepsOrder _ _ _) _ _ s).law
  case nonvolatileCopyCompletion => exact kept ran (copyCompletion_keepsOrder s).law
  case checkIn => exact kept ran (asked_keepsOrder (checkIn_keepsOrder _ _) _ _ s).law
  case checkOut => exact kept ran (asked_keepsOrder (checkOut_keepsOrder _ _) _ _ s).law
  case cancelPriorityByNumber => exact kept ran (asked_keepsOrder (cancelByNumber_keepsOrder _) _ _ s).law
  case cancelPriorityByIdent => exact kept ran (asked_keepsOrder (fun _ u => cancelEntries_keepsOrder _ u) _ _ s).law
  case byteReceived => exact kept ran (receiveByte_keepsOrder _ _ s).law

/-- A step runs the command at the front of the queue on the state without it, or idles. -/
theorem step_cases {s t : State} (h : step s = .next t) :
    t = s ∨ ∃ c rest, exec c { s with pending := rest } = .next t := by
  unfold step at h
  split at h
  · cases h; exact .inl rfl
  · exact .inr ⟨_, _, h⟩

/-- Settles O59: the two laws of `Keeps` by every command that upholds it, the order by `KeepsOrder` and, where the count
advances, by the expiries that are taken first. -/
theorem stepKeepsPriorityListAndDetectorRecords : Obligations.StepKeepsPriorityListAndDetectorRecords := by
  unfold Obligations.StepKeepsPriorityListAndDetectorRecords
  refine ⟨fun s t law h => ?_, fun s t law h => ?_, fun s t law h => ?_⟩
  · obtain rfl | ⟨c, rest, ran⟩ := step_cases h
    · exact law
    · exact (exec_upholds c _ t ran).keeps.list law
  · obtain rfl | ⟨c, rest, ran⟩ := step_cases h
    · exact law
    · exact exec_order ran ⟨law.order, law.created, law.recent⟩
  · obtain rfl | ⟨c, rest, ran⟩ := step_cases h
    · exact law
    · exact (exec_upholds c _ t ran).keeps.detector law

end Sys2Proof.Machine

/-! ## Invalid samples of a loop (R81, R82, R89, R91, R92) -/

namespace Sys2Proof.Machine

/-- R81 to R92: the record after an invalid sample. -/
def invalidRecord (p : Option Nat) (r : DetRec) : DetRec := spendBudget (invalidStage2 (invalidStage1 p r))

theorem sampleResult_invalid {p : Option Nat} (outside : ∀ q, p = some q → q < 16000 ∨ 110000 < q) :
    sampleResult p ≠ .valid := fun valid => by
  obtain ⟨q, same, range⟩ := sampleResult_valid valid
  have := outside q same
  omega

theorem loopRecord_of_invalid {p : Option Nat} (outside : ∀ q, p = some q → q < 16000 ∨ 110000 < q) (s : State)
    (ch : Channel) : loopRecord s ch p = { invalidRecord p (det s ch) with sampled := true } := by
  simp only [loopRecord, loopSampled_invalid (sampleResult_invalid outside), invalidRecord]

/-! ### The record, case by case -/

/-- R82: what stage 1 of an invalid sample decides, and the fields that no invalid sample touches. -/
structure RunsBroken (n : Nat) (a b : DetRec) : Prop where
  validRun : b.validRun = 0
  aboveRun : b.aboveRun = 0
  belowRun : b.belowRun = 0
  baseline : b.baseline = a.baseline
  lastDeviation : b.lastDeviation = a.lastDeviation
  invalidRun : b.invalidRun = n

theorem invalidStage2_broken {n : Nat} {a r : DetRec} (h : RunsBroken n a r) : RunsBroken n a (invalidStage2 r) := by
  unfold invalidStage2
  split
  · exact ⟨h.validRun, rfl, rfl, h.baseline, h.lastDeviation, h.invalidRun⟩
  · split
    · exact ⟨h.validRun, h.aboveRun, h.belowRun, h.baseline, h.lastDeviation, h.invalidRun⟩
    · exact h

theorem spendBudget_broken {n : Nat} {a r : DetRec} (h : RunsBroken n a r) : RunsBroken n a (spendBudget r) := by
  have kept := h
  obtain ⟨valid, above, below, base, deviation, invalid⟩ := h
  unfold spendBudget
  split
  · dsimp only
    split <;> exact ⟨valid, above, below, base, deviation, invalid⟩
  · exact kept

theorem invalidRecord_broken (p : Option Nat) (r : DetRec) :
    RunsBroken (saturate 255 r.invalidRun) r (invalidRecord p r) :=
  spendBudget_broken (invalidStage2_broken ⟨rfl, rfl, rfl, rfl, rfl, rfl⟩)

theorem invalidStage1_run {p : Option Nat} {r : DetRec} (run : r.invalidRun < 255) :
    (invalidStage1 p r).invalidRun = r.invalidRun + 1 := if_pos run

/-- R89: the 8th invalid sample in a row; it costs nothing of the budget. -/
theorem invalidRecord_faults {p : Option Nat} {r : DetRec} (state : r.state ≠ .fault) (run : r.invalidRun = 7) :
    invalidRecord p r = faulted (invalidStage1 p r) := by
  have eighth : (invalidStage1 p r).invalidRun = 8 := by rw [invalidStage1_run (by omega), run]
  rw [invalidRecord, invalidStage2, if_pos ⟨state, eighth⟩, spendBudget, if_neg fun h => h.1 rfl]

/-- R89: fewer than 8 in a row move no state. -/
theorem invalidStage2_stays {p : Option Nat} {r : DetRec} (run : r.invalidRun < 7) :
    ∃ sum, invalidStage2 (invalidStage1 p r) = { invalidStage1 p r with tuningSum := sum } := by
  have short : (invalidStage1 p r).invalidRun ≠ 8 := by rw [invalidStage1_run (by omega)]; omega
  unfold invalidStage2
  rw [if_neg fun h => short h.2]
  split
  · exact ⟨0, rfl⟩
  · exact ⟨_, rfl⟩

/-- R91: an invalid sample outside FAULT, of fewer than 8 in a row, costs one of the budget. -/
theorem invalidRecord_spends {p : Option Nat} {r : DetRec} (state : r.state ≠ .fault) (run : r.invalidRun < 7) :
    ∃ x : DetRec, x.state = r.state ∧ x.budget = r.budget - 1 ∧
      invalidRecord p r = if 0 < r.budget ∧ r.budget - 1 = 0 ∧ (innerOf r.state).isSome then noisyRecord x else x := by
  obtain ⟨sum, stays⟩ := invalidStage2_stays (p := p) run
  have counted : 1 ≤ (invalidStage1 p r).invalidRun ∧ (invalidStage1 p r).invalidRun ≤ 7 := by
    rw [invalidStage1_run (by omega)]
    omega
  refine ⟨{ invalidStage1 p r with tuningSum := sum, budget := r.budget - 1 }, rfl, rfl, ?_⟩
  rw [invalidRecord, stays, spendBudget, if_pos ⟨state, counted⟩]
  rfl

theorem state_of_innerOf {st : DetState} {i : InnerState} (inner : innerOf st = some i) :
    st ≠ .fault ∧ st ≠ .noisy := by
  cases st <;> simp [innerOf] at inner ⊢

/-- R92: the sample that spends the last of the budget. -/
theorem invalidRecord_noisy {p : Option Nat} {r : DetRec} {i : InnerState} (inner : innerOf r.state = some i)
    (run : r.invalidRun < 7) (last : r.budget = 1) :
    (invalidRecord p r).state = .noisy ∧ (invalidRecord p r).inner = some i ∧ (invalidRecord p r).forced = true ∧
      (invalidRecord p r).budget = 0 := by
  obtain ⟨x, state, budget, made⟩ := invalidRecord_spends (p := p) (state_of_innerOf inner).1 run
  rw [made, if_pos (by simp [last, inner])]
  exact ⟨rfl, by rw [noisyRecord, state, inner], rfl, by rw [noisyRecord, budget, last]⟩

theorem invalidRecord_left {p : Option Nat} {r : DetRec} (state : r.state ≠ .fault) (run : r.invalidRun < 7)
    (left : 1 < r.budget) :
    (invalidRecord p r).budget = r.budget - 1 ∧ (invalidRecord p r).state = r.state := by
  obtain ⟨x, same, budget, made⟩ := invalidRecord_spends (p := p) state run
  rw [made, if_neg (by omega)]
  exact ⟨budget, same⟩

/-! ### The fault records stand once the sample has raised its fault -/

theorem Follows.faults {own : Group → Bool} {s t : State} (h : Follows own s t) : t.mfs.faults = s.mfs.faults := by
  rw [h.mfs]

theorem loopCheckIn_faults (a : Approach) (eta : Nat) (clamped single : Bool) (s : State) :
    (loopCheckIn a eta clamped single s).mfs.faults = s.mfs.faults := by
  unfold loopCheckIn
  dsimp only
  split
  · split
    · rename_i t ht
      rw [(walkArrival_follows s t).faults, (admitEntry_frame _ s t ht).2.1]
    · exact congrArg Mfs.faults (setApr_mfs _ _ _)
  · exact congrArg Mfs.faults (setApr_mfs _ _ _)

theorem loseAtApproach_faults (ch : Channel) (a : Approach) (s : State) :
    (loseAtApproach ch a s).mfs.faults = s.mfs.faults := by
  have disarmed (u : State) : (disarm a u).mfs.faults = u.mfs.faults := congrArg Mfs.faults (setApr_mfs _ _ _)
  have lost (u : State) : (loseB a u).mfs.faults = u.mfs.faults := by
    unfold loseB
    split
    · exact (loopCheckIn_faults _ _ _ _ _).trans (disarmed u)
    · rfl
  unfold loseAtApproach
  dsimp only
  split <;> split <;> simp only [lost, disarmed]

theorem loopStateChanged_faults (ch : Channel) (st : DetState) (s : State) :
    (loopStateChanged ch st s).mfs.faults = s.mfs.faults := by
  unfold loopStateChanged
  split
  · rfl
  · induction List.finRange 8 generalizing s with
    | nil => rfl
    | cons a l ih => exact (ih _).trans (loseAtApproach_faults ch a s)

theorem handToSequencer_faults (ch : Channel) (old : DetRec) (exit : Bool) (s : State) :
    (handToSequencer ch old exit s).mfs.faults = s.mfs.faults := by
  have noted (gs : List Group) : (noteGapExit gs s).mfs = s.mfs := (noteGapExit_frame gs s).2.2.2.1
  have gaps (b : Bool) : (if b then noteGapExit (extendedGroups s.cs.image ch) s else s).mfs.faults = s.mfs.faults := by
    split
    · rw [noted]
    · rfl
  unfold handToSequencer
  dsimp only
  split
  · rfl
  · split
    · exact (settleStage_follows _).faults.trans (gaps _)
    · exact gaps _

theorem forcedDemand_faults (ch : Channel) (b : Bool) (s : State) : (forcedDemand ch b s).mfs.faults = s.mfs.faults := by
  unfold forcedDemand postChannelDemand
  split
  · split
    · exact (postDemand_follows _ _ s).faults.trans (congrArg Mfs.faults (setGroups_mfs _ _))
    · rfl
  · rfl

/-- A change of record that posts no entry touches no fault record. -/
theorem handChange_faults (ch : Channel) (old new : DetRec) (exit : Bool) (s : State) :
    (handChange ch old new false exit s).mfs.faults = s.mfs.faults := by
  have event : (postIf (reportedChange old.state new.state) .detectorChanged (setDet s ch new)).mfs.faults =
      s.mfs.faults := (postIf_mfs_faults _ _ _).trans (congrArg Mfs.faults (setDet_mfs _ _ _))
  have handed := (handToSequencer_faults ch old exit _).trans event
  unfold handChange
  simp only [Bool.false_eq_true, if_false, false_and]
  split
  · exact (loopStateChanged_faults ch _ _).trans handed
  · exact handed

/-- R89, R92: a sample that makes no entry leaves the fault records as its raising has made them. -/
theorem loopSample_faults {s : State} {ch : Channel} {p : Option Nat} (kind : channelKind s.cs.image ch = .loop)
    (due : s.du.sampleIn = 0) (fresh : (det s ch).sampled = false) (stays : (loopRecord s ch p).state ≠ .occupied) :
    (loopSample p ch s).mfs.faults = (raiseAtSample ch (det s ch) (loopRecord s ch p) s).mfs.faults := by
  have noEntry : isEntry (det s ch) (loopRecord s ch p) = false := by simp [isEntry, stays]
  rw [loopSample, if_pos ⟨kind, sampleDue_of due fresh⟩, takeLoopSample, noEntry]
  exact (forcedDemand_faults _ _ _).trans (handChange_faults _ _ _ _ _)

theorem raiseAtSample_raises {ch : Channel} {old new : DetRec} {k : FaultKind}
    (fault : (old.state ≠ .fault ∧ new.state = .fault ∧ k = .detectorFault) ∨
      (old.state ≠ .noisy ∧ new.state = .noisy ∧ k = .detectorNoisy)) (s : State) :
    Raised k (detailItem (number ch)) s (raiseAtSample ch old new s) := by
  unfold raiseAtSample
  rcases fault with ⟨before, after, rfl⟩ | ⟨before, after, rfl⟩
  · rw [if_pos ⟨before, after⟩]
    exact detect_raises _ _ _
  · rw [if_neg (by simp [after]), if_pos ⟨before, after⟩]
    exact detect_raises _ _ _

theorem loopSample_raises {s : State} {ch : Channel} {p : Option Nat} {k : FaultKind}
    (kind : channelKind s.cs.image ch = .loop) (due : s.du.sampleIn = 0) (fresh : (det s ch).sampled = false)
    (fault : ((det s ch).state ≠ .fault ∧ (loopRecord s ch p).state = .fault ∧ k = .detectorFault) ∨
      ((det s ch).state ≠ .noisy ∧ (loopRecord s ch p).state = .noisy ∧ k = .detectorNoisy)) :
    ((loopSample p ch s).mfs.faults[k.code]).latched = true ∧
      ((loopSample p ch s).mfs.faults[k.code]).detail.getLsbD ch.val = true := by
  have stays : (loopRecord s ch p).state ≠ .occupied := by
    rcases fault with ⟨_, after, _⟩ | ⟨_, after, _⟩ <;> rw [after] <;> decide
  have raised := raiseAtSample_raises (ch := ch) fault s
  rw [loopSample_faults kind due fresh stays]
  exact ⟨raised.latched, raised.detail _ (getLsbD_detailItem ch (by decide))⟩

/-- Settles O29: the record by the case of the sample, and the fault that its new state raises. -/
theorem loopSampleFaultsAndTurnsNoisy : Obligations.LoopSampleFaultsAndTurnsNoisy := by
  unfold Obligations.LoopSampleFaultsAndTurnsNoisy
  intro ch p s kind due fresh outside
  refine ⟨loopSample p ch s, exec_loopSample ch p s, ?_⟩
  obtain ⟨entry, handed⟩ := loopSample_handed kind due fresh p
  have made := loopRecord_of_invalid outside s ch
  have record := handed.record.trans made
  have broken := invalidRecord_broken p (det s ch)
  have raises {k : FaultKind} := loopSample_raises (k := k) (p := p) kind due fresh
  rw [made] at raises
  rw [record]
  refine ⟨broken.validRun, broken.aboveRun, broken.belowRun, broken.baseline, broken.lastDeviation,
    fun run => broken.invalidRun.trans (if_pos run), fun state run => ?_, fun i inner run last => ?_,
    fun run state left => invalidRecord_left state run left⟩
  · have faults := invalidRecord_faults (p := p) state run
    have fault : (invalidRecord p (det s ch)).state = .fault := by rw [faults]; rfl
    have fields : (invalidRecord p (det s ch)).forced = true ∧ (invalidRecord p (det s ch)).inner = none ∧
        (invalidRecord p (det s ch)).budget = (det s ch).budget := by rw [faults]; exact ⟨rfl, rfl, rfl⟩
    obtain ⟨forced, noInner, budget⟩ := fields
    exact ⟨fault, forced, noInner, budget, raises (.inl ⟨state, fault, rfl⟩)⟩
  · obtain ⟨noisy, kept, forced, budget⟩ := invalidRecord_noisy (p := p) inner run last
    exact ⟨noisy, kept, forced, budget, raises (.inr ⟨(state_of_innerOf inner).2, noisy, rfl⟩)⟩

end Sys2Proof.Machine

/-! ## The detector clock (R78, R108, R179) -/

namespace Sys2Proof.Machine

/-! ### What a sample's rows leave -/

/-- What a sample's rows leave of the rest of the state, the clocks and the sample completions among it. -/
structure SampleFrame (s t : State) : Prop extends RowFrame s t where
  sampleIn : t.du.sampleIn = s.du.sampleIn
  clock : jnow t = jnow s

namespace SampleFrame

theorem refl (s : State) : SampleFrame s s := ⟨.refl s, rfl, rfl⟩

theorem trans {s t u : State} (h : SampleFrame s t) (k : SampleFrame t u) : SampleFrame s u :=
  ⟨h.toRowFrame.trans k.toRowFrame, k.sampleIn.trans h.sampleIn, k.clock.trans h.clock⟩

theorem of_ite {p : Prop} [Decidable p] {s t : State} (h : p → SampleFrame s t) :
    SampleFrame s (if p then t else s) := by
  split
  · rename_i k; exact h k
  · exact .refl s

end SampleFrame

theorem ChannelHanded.sampleFrame {ch : Channel} {old new : DetRec} {entry exit : Bool} {s t : State}
    (h : ChannelHanded ch old new entry exit s t) : SampleFrame s t := ⟨h.frame, h.sampleIn, h.clock⟩

theorem DetectorAlike.sampleFrame {s t : State} (h : DetectorAlike s t) : SampleFrame s t :=
  ⟨h.frame, by rw [h.du], h.clock⟩

theorem armingLapse_alike (s : State) : DetectorAlike s (armingLapse s) :=
  .of_ite fun _ => ⟨rfl, rfl, rfl, fun _ => rfl, rfl, fun _ _ => id, rfl⟩

theorem externalFault_alike (s : State) : DetectorAlike s (externalFault s) :=
  .of_ite fun _ => (detect_shuts _ _ s).detectorAlike

/-- The two states hold the same of all that a row of the channel reads for its record. -/
structure SameChannel (ch : Channel) (s t : State) : Prop where
  record : det t ch = det s ch
  dclock : dnow t = dnow s
  cs : t.cs = s.cs

theorem SameChannel.refl (ch : Channel) (s : State) : SameChannel ch s s := ⟨rfl, rfl, rfl⟩

theorem SameChannel.trans {ch : Channel} {s t u : State} (h : SameChannel ch s t) (k : SameChannel ch t u) :
    SameChannel ch s u := ⟨k.record.trans h.record, k.dclock.trans h.dclock, k.cs.trans h.cs⟩

/-- A row of a channel touches the record of no other, and makes its own from what it reads of the channel. -/
structure ChannelRow (f : Channel → State → State) : Prop where
  frame : ∀ ch s, SampleFrame s (f ch s)
  others : ∀ ch c s, c ≠ ch → det (f ch s) c = det s c
  own : ∀ ch s t, SameChannel ch s t → det (f ch t) ch = det (f ch s) ch

namespace ChannelRow

variable {f : Channel → State → State}

theorem congr (h : ChannelRow f) {ch : Channel} {s t : State} (same : SameChannel ch s t) :
    SameChannel ch (f ch s) (f ch t) :=
  ⟨h.own ch s t same, ((h.frame ch t).dclock.trans same.dclock).trans (h.frame ch s).dclock.symm,
    ((h.frame ch t).cs.trans same.cs).trans (h.frame ch s).cs.symm⟩

theorem other (h : ChannelRow f) {ch c : Channel} (ne : c ≠ ch) (s : State) : SameChannel c s (f ch s) :=
  ⟨h.others ch c s ne, (h.frame ch s).dclock, (h.frame ch s).cs⟩

theorem foldl_frame (h : ChannelRow f) (l : List Channel) (s : State) : SampleFrame s (l.foldl (fun t c => f c t) s) := by
  induction l generalizing s with
  | nil => exact .refl s
  | cons c l ih => exact (h.frame c s).trans (ih _)

theorem foldl_of_not_mem (h : ChannelRow f) {ch : Channel} {l : List Channel} (out : ch ∉ l) (s : State) :
    SameChannel ch s (l.foldl (fun t c => f c t) s) := by
  induction l generalizing s with
  | nil => exact .refl ch s
  | cons c l ih =>
    exact (h.other (List.ne_of_not_mem_cons out) s).trans (ih (List.not_mem_of_not_mem_cons out) _)

theorem foldl_of_mem (h : ChannelRow f) {ch : Channel} {l : List Channel} (distinct : l.Nodup) (mem : ch ∈ l) (s : State) :
    SameChannel ch (f ch s) (l.foldl (fun t c => f c t) s) := by
  induction l generalizing s with
  | nil => cases mem
  | cons c l ih =>
    obtain ⟨out, rest⟩ := List.nodup_cons.1 distinct
    by_cases same : ch = c
    · subst same
      exact h.foldl_of_not_mem out (f ch s)
    · exact (h.congr (h.other same s)).trans (ih rest ((List.mem_cons.1 mem).resolve_left same) (f c s))

/-- Taken at every channel in turn, the row does to each channel what it does to it alone. -/
theorem eachItem (h : ChannelRow f) (ch : Channel) (s : State) : SameChannel ch (f ch s) (eachItem f s) :=
  h.foldl_of_mem (List.nodup_finRange 32) (List.mem_finRange ch) s

end ChannelRow

/-! ### The rows of a long presence and of a window close -/

/-- R88: the record of a channel after its long-presence row. -/
def loopLongRow (m : Image) (now : Time) (ch : Channel) (r : DetRec) : DetRec :=
  if channelKind m ch = .loop ∧ (decide (r.state = .occupied) && presenceExceeded m ch now r) = true ∧
      r.lastResult = some .valid ∧ r.sampled = true then loopLongRecord now r.lastP r else r

/-- R91: after its window-close row. -/
def windowRow (m : Image) (now : Time) (ch : Channel) (r : DetRec) : DetRec :=
  if (decide (channelKind m ch = .loop) && r.sampled && decide (60000 ≤ elapsed now r.windowStart)) = true then
    windowClosed now (budgetStart m ch) (loopLongRow m now ch r) else r

/-- R95: after its long-presence row as a contact. -/
def contactLongRow (m : Image) (now : Time) (ch : Channel) (r : DetRec) : DetRec :=
  if channelKind m ch = .contact ∧ (decide (r.state = .occupied) && presenceExceeded m ch now r) = true ∧
      r.sampled = true then contactLongRecord now r else r

theorem loopLongPresence_record (ch : Channel) (s : State) :
    det (loopLongPresence ch s) ch = loopLongRow s.cs.image (dnow s) ch (det s ch) := by
  by_cases due : channelKind s.cs.image ch = .loop ∧ longPresenceDue s ch = true ∧
      (det s ch).lastResult = some .valid ∧ (det s ch).sampled = true
  · rw [loopLongPresence, if_pos due, ((handChange_spec ch _ _ _ _ s).then (forcedDemand_posts ch true _)).record]
    exact (if_pos due).symm
  · rw [loopLongPresence, if_neg due]
    exact (if_neg due).symm

theorem contactLongPresence_record (ch : Channel) (s : State) :
    det (contactLongPresence ch s) ch = contactLongRow s.cs.image (dnow s) ch (det s ch) := by
  by_cases due : channelKind s.cs.image ch = .contact ∧ longPresenceDue s ch = true ∧ (det s ch).sampled = true
  · rw [contactLongPresence, if_pos due, ((handChange_spec ch _ _ _ _ s).then (forcedDemand_posts ch true _)).record]
    exact (if_pos due).symm
  · rw [contactLongPresence, if_neg due]
    exact (if_neg due).symm

theorem windowClose_record (ch : Channel) (s : State) :
    det (windowClose ch s) ch = windowRow s.cs.image (dnow s) ch (det s ch) := by
  by_cases due : windowDue s ch = true
  · rw [(windowClose_handed due).record, loopLongPresence_record]
    exact (if_pos due).symm
  · rw [windowClose, if_neg due]
    exact (if_neg due).symm

theorem loopLongPresence_row : ChannelRow loopLongPresence where
  frame ch s := .of_ite fun _ => ((handChange_spec ch _ _ _ _ s).then (forcedDemand_posts ch true _)).sampleFrame
  others _ _ s ne := loopLongPresence_others ne s
  own ch s t same := by
    rw [loopLongPresence_record, loopLongPresence_record, same.record, same.dclock, same.cs]

theorem contactLongPresence_row : ChannelRow contactLongPresence where
  frame ch s := .of_ite fun _ => ((handChange_spec ch _ _ _ _ s).then (forcedDemand_posts ch true _)).sampleFrame
  others ch c s ne := by
    unfold contactLongPresence
    split
    · exact ((handChange_spec ch _ _ _ _ s).then (forcedDemand_posts ch true _)).others c ne
    · rfl
  own ch s t same := by
    rw [contactLongPresence_record, contactLongPresence_record, same.record, same.dclock, same.cs]

theorem windowClose_row : ChannelRow windowClose where
  frame ch s := by
    by_cases due : windowDue s ch = true
    · exact (loopLongPresence_row.frame ch s).trans (windowClose_handed due).sampleFrame
    · rw [windowClose, if_neg due]
      exact .refl s
  others ch c s ne := by
    by_cases due : windowDue s ch = true
    · exact ((windowClose_handed due).others c ne).trans (loopLongPresence_others ne s)
    · rw [windowClose, if_neg due]
  own ch s t same := by
    rw [windowClose_record, windowClose_record, same.record, same.dclock, same.cs]

/-! ### The advance -/

/-- What the samples of the old count have left, taken at every channel. -/
def samplesTaken (s : State) : State := eachItem contactLongPresence (eachItem windowClose (eachItem loopLongPresence s))

theorem samplesTaken_frame (s : State) : SampleFrame s (samplesTaken s) :=
  ((loopLongPresence_row.foldl_frame _ s).trans (windowClose_row.foldl_frame _ _)).trans
    (contactLongPresence_row.foldl_frame _ _)

theorem samplesTaken_record (ch : Channel) (s : State) : det (samplesTaken s) ch = det (sampleLeft ch s) ch := by
  have loop := loopLongPresence_row.eachItem ch s
  have window := (windowClose_row.congr loop).trans (windowClose_row.eachItem ch _)
  exact ((contactLongPresence_row.congr window).trans (contactLongPresence_row.eachItem ch _)).record

theorem takeDueSamples_alike (s : State) : DetectorAlike (samplesTaken s) (takeDueSamples s) :=
  (armingLapse_alike _).trans (externalFault_alike _)

theorem det_advanceDetectors (low : Bool) (s : State) (ch : Channel) :
    det (advanceDetectors low s) ch = { det s ch with sampled := false } := by
  simp [det, advanceDetectors]

theorem nextSampleIn_eq (n : Nat) : nextSampleIn n = if n = 0 then 9 else n - 1 := by
  unfold nextSampleIn
  split <;> rfl

theorem sampleIn_advanceDetectors (low : Bool) (s : State) :
    (advanceDetectors low s).du.sampleIn = if s.du.sampleIn = 0 then 9 else s.du.sampleIn - 1 := nextSampleIn_eq _

theorem sampledRun_eq (s : State) (low : Bool) : sampledRun s low =
    if followEnabled s.cs.image = true ∧ s.mfs.fltDriven = false ∧ s.mfs.mode ≠ .powerUp ∧ low = true then
      (if s.mfs.externalRun < 100 then s.mfs.externalRun + 1 else 100)
    else 0 := by
  simp [sampledRun, followCounts, saturate, and_assoc]

/-- An operation that does nothing at any channel. -/
theorem eachItem_of_fixed {n : Nat} {f : Fin n → State → State} {s : State} (fixed : ∀ i, f i s = s) :
    eachItem f s = s := by
  unfold eachItem
  induction List.finRange n with
  | nil => rfl
  | cons i l ih => rw [List.foldl_cons, fixed]; exact ih

/-- R78: where no channel has sampled, no sample has left anything. -/
theorem samplesTaken_of_unsampled {s : State} (fresh : ∀ ch, (det s ch).sampled = false) : samplesTaken s = s := by
  have loop : eachItem loopLongPresence s = s := eachItem_of_fixed fun ch => if_neg (by simp [fresh])
  have window : eachItem windowClose s = s := eachItem_of_fixed fun ch => if_neg (by simp [windowDue, fresh])
  have contact : eachItem contactLongPresence s = s := eachItem_of_fixed fun ch => if_neg (by simp [fresh])
  rw [samplesTaken, loop, window, contact]

@[simp] theorem mfs_armingLapse (s : State) : (armingLapse s).mfs = s.mfs := by
  unfold armingLapse
  split <;> rfl

theorem takeDueSamples_of_unsampled {s : State} (fresh : ∀ ch, (det s ch).sampled = false)
    (run : s.mfs.externalRun ≠ 100) : takeDueSamples s = armingLapse s := by
  have taken : takeDueSamples s = externalFault (armingLapse (samplesTaken s)) := rfl
  rw [taken, samplesTaken_of_unsampled fresh]
  exact if_neg (by rwa [mfs_armingLapse])

/-- Channels that have not sampled are free to sample already. -/
theorem channels_of_unsampled {s : State} (fresh : ∀ ch, (det s ch).sampled = false) :
    s.du.channels.map (fun r => { r with sampled := false }) = s.du.channels := by
  ext1 i hi
  have free : (s.du.channels[i]).sampled = false := fresh ⟨i, hi⟩
  have same : { s.du.channels[i] with sampled := (s.du.channels[i]).sampled } = s.du.channels[i] := rfl
  rw [Vector.getElem_map]
  rwa [free] at same

/-! ### Samples out of place and in place -/

theorem sampleDue_of_not {s : State} {ch : Channel} (away : s.du.sampleIn ≠ 0 ∨ (det s ch).sampled = true) :
    sampleDue s ch = false := by
  rcases away with away | taken
  · simp [sampleDue, away]
  · simp [sampleDue, taken]

/-- R78: a channel that completes a sample where it has completed none at this count has completed one afterwards. -/
theorem loopSample_sampled {s : State} {ch : Channel} (due : s.du.sampleIn = 0)
    (kind : channelKind s.cs.image ch = .loop) (p : Option Nat) :
    (det (loopSample p ch s) ch).sampled = true ∧ (loopSample p ch s).du.sampleIn = 0 := by
  by_cases taken : (det s ch).sampled = true
  · rw [loopSample, if_neg (by simp [sampleDue_of_not (.inr taken)])]
    exact ⟨taken, due⟩
  · obtain ⟨entry, handed⟩ := loopSample_handed kind due (by simpa using taken) p
    exact ⟨by rw [handed.record]; rfl, handed.sampleIn.trans due⟩

theorem contactSample_sampled {s : State} {ch : Channel} (due : s.du.sampleIn = 0)
    (kind : channelKind s.cs.image ch = .contact) (pressed : Bool) :
    (det (contactSample pressed ch s) ch).sampled = true ∧ (contactSample pressed ch s).du.sampleIn = 0 := by
  by_cases taken : (det s ch).sampled = true
  · rw [contactSample, if_neg (by simp [sampleDue_of_not (.inr taken)])]
    exact ⟨taken, due⟩
  · obtain ⟨entry, handed⟩ := contactSample_handed kind due (by simpa using taken) pressed
    exact ⟨by rw [handed.record], handed.sampleIn.trans due⟩

/-! ### The lapse of an arming (R108) -/

theorem apr_armingLapse {s : State} (due : s.du.sampleIn = 0) (a : Approach) :
    apr (armingLapse s) a = lapsed (dnow s) (apr s a) := by
  rw [armingLapse, if_pos due]
  simp [apr]

theorem lapsed_eq (now : Time) (r : ApproachRec) : lapsed now r =
    { r with armedA := r.armedA.filter fun x => decide (elapsed now x ≤ 10000) } := by
  obtain ⟨armed, dropped, unmatched⟩ := r
  cases armed with
  | none => rfl
  | some x =>
    by_cases long : 10000 < elapsed now x
    · simp [lapsed, Option.filter, long]
    · simp [lapsed, Option.filter, long, not_lt.1 long]

theorem exec_armingLapse (s : State) : exec .armingLapse s = .next (armingLapse s) := rfl

theorem exec_detectorClockAdvance (low : Bool) (s : State) :
    exec (.detectorClockAdvance low) s = .next (advanceDetectors low (takeDueSamples s)) := rfl

/-- Settles O25: an advance takes what the samples have left channel by channel, each row touching its own channel alone,
and counts; the samples and the lapse by the case of the count. -/
theorem detectorClockSamplesLineAndArmingsLapse : Obligations.DetectorClockSamplesLineAndArmingsLapse := by
  unfold Obligations.DetectorClockSamplesLineAndArmingsLapse
  refine ⟨fun low s fresh run => ?_, fun low ch s => ?_, fun ch p pressed s away => ?_,
    fun ch p pressed c s due row => ?_, fun s away => ?_, fun s due => ?_⟩
  · refine ⟨armingLapse s, exec_armingLapse s, ?_⟩
    rw [exec_detectorClockAdvance, takeDueSamples_of_unsampled fresh run]
    simp only [advanceDetectors, nextSampleIn_eq, sampledRun_eq, (armingLapse_alike s).du, (armingLapse_alike s).frame.cs,
      mfs_armingLapse, channels_of_unsampled fresh]
  · have frame := (samplesTaken_frame s).trans (takeDueSamples_alike s).sampleFrame
    have record : det (takeDueSamples s) ch = det (sampleLeft ch s) ch := by
      rw [det_congr (takeDueSamples_alike s).du, samplesTaken_record]
    refine ⟨_, _, _, _, exec_loopLongPresence ch s, exec_windowClose ch _, exec_contactLongPresence ch _,
      exec_detectorClockAdvance low s, ?_⟩
    generalize takeDueSamples s = u at record frame ⊢
    refine ⟨?_, congrArg (· + 1) frame.dclock, ?_, rfl, frame.clock, frame.cs, frame.clp⟩
    · rw [det_advanceDetectors, record]
      rfl
    · rw [sampleIn_advanceDetectors, frame.sampleIn]
  · have out := sampleDue_of_not away
    rw [exec_loopSample, exec_contactSample]
    exact ⟨congrArg _ (if_neg (by simp [out])), congrArg _ (if_neg (by simp [out]))⟩
  · rcases row with ⟨kind, rfl⟩ | ⟨kind, rfl⟩
    · exact ⟨_, exec_loopSample ch p s, loopSample_sampled due kind p⟩
    · exact ⟨_, exec_contactSample ch pressed s, contactSample_sampled due kind pressed⟩
  · rw [exec_armingLapse, armingLapse, if_neg away]
  · refine ⟨armingLapse s, exec_armingLapse s, by rw [armingLapse, if_pos due], fun a => ?_⟩
    rw [apr_armingLapse due, lapsed_eq]
    refine ⟨rfl, rfl, fun x armed long => ?_, fun x armed short => ?_, fun idle => ?_⟩
    · simp [armed, long]
    · simp [armed, short]
    · simp [idle]

end Sys2Proof.Machine

/-! ## Places in the priority list (R119, R122)

`PlacedIn` reads of an entry only what no walk decides, its core. -/

namespace Sys2Proof.Machine

/-- R119: an entry inserted by the order of the list stands in its place. -/
theorem insertEntry_placed (now : Time) (e : Entry) (l : List Entry) : PlacedIn now e l (insertEntry now e l) := by
  unfold insertEntry
  induction l with
  | nil => exact ⟨[], [], rfl, rfl, by simp, by simp⟩
  | cons y l ih =>
    unfold insertBefore
    split
    · rename_i before
      refine ⟨[], y :: l, rfl, rfl, by simp, fun x hx => ?_⟩
      cases hx
      exact (entryBefore_iff now e y).1 before
    · rename_i after
      obtain ⟨front, back, split, joined, passed, ahead⟩ := ih
      refine ⟨y :: front, back, by rw [split, List.cons_append], by simpa using joined, fun x hx => ?_, ahead⟩
      rcases List.mem_cons.1 hx with rfl | hx
      · exact mt (entryBefore_iff now e x).2 after
      · exact passed x hx

/-- A place stands while walks decide their own four fields, on either side. -/
theorem PlacedIn.of_core {now : Time} {e : Entry} {l m k n : List Entry} (h : PlacedIn now e l m)
    (old : k.map Entry.core = l.map Entry.core) (new : n.map Entry.core = m.map Entry.core) : PlacedIn now e k n := by
  obtain ⟨front, back, split, joined, passed, ahead⟩ := h
  rw [split, List.map_append] at old
  obtain ⟨front', back', split', frontCores, backCores⟩ := List.map_eq_append_iff.1 old
  refine ⟨front', back', split', ?_, fun x hx => ?_, fun x hx => ?_⟩
  · rw [new, joined]
    simp only [List.map_append, List.map_cons, frontCores, backCores]
  · obtain ⟨y, hy, same⟩ := List.mem_map.1 (frontCores ▸ List.mem_map_of_mem (f := Entry.core) hx)
    exact fun before => passed y hy (show StandsBefore now e y.core from same ▸ before)
  · have first : back.head?.map Entry.core = some x.core := by
      rw [← List.head?_map, ← backCores, List.head?_map, hx, Option.map_some]
    obtain ⟨y, hy, same⟩ := Option.map_eq_some_iff.1 first
    exact (show StandsBefore now e x.core from same ▸ ahead y hy)

theorem rank_of_core {e x : Entry} (h : x.core = e.core) : x.rank = e.rank :=
  show x.core.rank = e.core.rank by rw [h]

theorem approach_of_core {e x : Entry} (h : x.core = e.core) : x.approach = e.approach :=
  show x.core.approach = e.core.approach by rw [h]

theorem map_number_of_core {l k : List Entry} (h : l.map Entry.core = k.map Entry.core) :
    l.map Entry.number = k.map Entry.number := by
  have numbers (l : List Entry) : l.map Entry.number = (l.map Entry.core).map Entry.number := by rw [List.map_map]; rfl
  rw [numbers, h, ← numbers]

/-- R116: the number search reads of the entries their numbers alone. -/
theorem freeNumber_congr (start : BitVec 8) {l k : List Entry} (h : l.map Entry.core = k.map Entry.core) :
    freeNumber start l = freeNumber start k := by
  have held (n : BitVec 8) (l : List Entry) :
      (l.any fun e => e.number == n) = (l.map Entry.number).any (· == n) := by rw [List.any_map]; rfl
  unfold freeNumber
  simp only [held, map_number_of_core h]

/-! ### Admission (R116, R122) -/

theorem admitEntry_of_room {e : Entry} {s : State} (room : s.pu.list.length < 8) :
    admitEntry e s = some (placeEntry e s) := if_pos room

theorem admitEntry_of_stronger {e last : Entry} {s : State} (full : 8 ≤ s.pu.list.length)
    (hlast : s.pu.list.getLast? = some last) (rank : e.rank < last.rank) :
    admitEntry e s = some (placeEntry e (displace last s)) := by
  rw [admitEntry, if_neg (not_lt.2 full), hlast]
  exact if_pos rank

theorem admitEntry_of_weaker {e last : Entry} {s : State} (full : 8 ≤ s.pu.list.length)
    (hlast : s.pu.list.getLast? = some last) (rank : last.rank ≤ e.rank) : admitEntry e s = none := by
  rw [admitEntry, if_neg (not_lt.2 full), hlast]
  exact if_neg (not_lt.2 rank)

theorem admitEntry_approaches {e : Entry} {s t : State} (h : admitEntry e s = some t) :
    t.pu.approaches = s.pu.approaches := by
  unfold admitEntry at h
  split at h
  · cases h; rfl
  · split at h
    · cases h; rfl
    · split at h
      · cases h; simp [placeEntry, displace]
      · cases h

/-- R116, R119: the entry `e` has joined `l`, the list of `s` or what a displacement leaves of it. -/
structure Admitted (e : Entry) (l : List Entry) (s t : State) : Prop where
  nextEntry : t.pu.nextEntry = freeNumber s.pu.nextEntry l + 1
  approaches : t.pu.approaches = s.pu.approaches
  placed : PlacedIn (jnow s) { e with number := freeNumber s.pu.nextEntry l, seq := s.pu.nextSeq } l t.pu.list
  clp : t.clp = s.clp

theorem placeEntry_admitted (e : Entry) (s : State) : Admitted e s.pu.list s (placeEntry e s) :=
  ⟨rfl, rfl, insertEntry_placed _ _ _, rfl⟩

/-- R122: the last entry gives way. -/
theorem placeEntry_displace_admitted (e last : Entry) (s : State) :
    Admitted e s.pu.list.dropLast s (placeEntry e (displace last s)) := by
  have displaced : (displace last s).pu =
      { s.pu with list := s.pu.list.dropLast, inhibitUntil := raiseFor s last s.pu.inhibitUntil } := by
    rw [displace, post_pu]
  have now : jnow (displace last s) = jnow s := post_jnow _ _
  have clp : (displace last s).clp = s.clp := post_clp _ _
  refine ⟨?_, ?_, ?_, clp⟩
  · rw [placeEntry, displaced]
  · rw [placeEntry, displaced]
  · rw [placeEntry, displaced, now]
    exact insertEntry_placed _ _ _

theorem Admitted.follows {e : Entry} {l : List Entry} {s t u : State} (h : Admitted e l s t) (k : Follows noGroup t u) :
    Admitted e l s u where
  nextEntry := by rw [k.pu]; exact h.nextEntry
  approaches := by rw [k.pu]; exact h.approaches
  placed := h.placed.of_core rfl k.entries
  clp := k.clp.trans h.clp

theorem Follows.pends {s t : State} (h : Follows noGroup s t) {j : Station} {b : Nat}
    (pending : (s.mfs.pending[j]).getLsbD b = true) : (t.mfs.pending[j]).getLsbD b = true :=
  h.detectorAlike.events j b pending

/-- R122, R143. -/
theorem displace_pends (last : Entry) (s : State) (j : Station) :
    ((displace last s).mfs.pending[j]).getLsbD Event.priorityDropped.code.val = true := post_pends _ _ j

/-- R136, R143: what a removal with its walk leaves. -/
structure Removed (p : Entry → Bool) (c : RemovalCause) (s t : State) : Prop where
  entries : t.pu.list.map Entry.core = (s.pu.list.filter fun e => !p e).map Entry.core
  cause : t.mfs.lastRemoval = some c
  posted : ∀ j : Station, (t.mfs.pending[j]).getLsbD Event.priorityRemoved.code.val = true
  groups : ∀ g, GroupFollows (jnow s) (compensationCap s.cs.image g) (grp s g) (grp t g)
  approaches : t.pu.approaches = s.pu.approaches
  cs : t.cs = s.cs
  du : t.du = s.du
  clp : t.clp = s.clp
  mode : t.mfs.mode = s.mfs.mode

theorem removal_removed (p : Entry → Bool) (c : RemovalCause) (s : State) :
    Removed p c s (walkArrival s (removeEntries p c s)) := by
  have follows := walkArrival_follows s (removeEntries p c s)
  have removed : Removed p c s (removeEntries p c s) := by
    unfold removeEntries postRemoved
    refine ⟨?_, ?_, fun j => post_pends _ _ j, fun g => .of_eq (post_grp _ _ g), ?_, ?_, ?_, ?_, ?_⟩ <;> simp
  generalize walkArrival s (removeEntries p c s) = t at follows ⊢
  have clock : jnow (removeEntries p c s) = jnow s := by simp [removeEntries, postRemoved, jnow]
  exact ⟨follows.entries.trans removed.entries, by rw [follows.mfs]; exact removed.cause,
    fun j => follows.pends (removed.posted j),
    fun g => (removed.groups g).trans (by rw [← clock, ← removed.cs]; exact follows.groups g),
    by rw [follows.pu]; exact removed.approaches, follows.cs.trans removed.cs, follows.du.trans removed.du,
    follows.clp.trans removed.clp, follows.mode.trans removed.mode⟩

end Sys2Proof.Machine

/-! ## CHECK_IN (R112 to R116) -/

namespace Sys2Proof.Machine

theorem checkInMode_iff (m : Mode) : checkInMode m = true ↔ m = .startUp ∨ m = .normal := by simp [checkInMode]

theorem exec_checkIn {ident : BitVec 16} {route approach : Byte} {lateness : BitVec 16} {special : Bool}
    {dist : Option (BitVec 24)} {speed : Option (BitVec 16)} {s : State} (free : inFlight s = false) :
    exec (.checkIn 2 ident route approach lateness special dist speed) s =
      .next (checkIn
        { ident := ident, route := route, lateness := lateness, special := special, distance := dist,
          speed := speed } approach 1 s) :=
  congrArg Host.Outcome.next (asked_number .checkIn 1 _ s free rfl)

theorem checkIn_of_mode {r : Report} {approach : Byte} {i : Station} {s : State} (startUp : s.mfs.mode ≠ .startUp)
    (normal : s.mfs.mode ≠ .normal) :
    checkIn r approach i s = answer .checkIn .refusedMode (entryField none) s := by
  have shut : checkInMode s.mfs.mode = false := by simp [checkInMode, startUp, normal]
  rw [checkIn, shut]
  rfl

theorem checkIn_of_unused {r : Report} {approach : Byte} {i : Station} {s : State}
    (mode : s.mfs.mode = .startUp ∨ s.mfs.mode = .normal) (unused : approachInUse s.cs.image approach = none) :
    checkIn r approach i s = answer .checkIn .refusedInvalid (entryField none) s := by
  rw [checkIn, (checkInMode_iff _).2 mode, unused]
  rfl

theorem checkIn_of_used {r : Report} {approach : Byte} {i : Station} {s : State} {a : Approach}
    (mode : s.mfs.mode = .startUp ∨ s.mfs.mode = .normal) (used : approachInUse s.cs.image approach = some a) :
    checkIn r approach i s = takeReport a r s := by
  rw [checkIn, (checkInMode_iff _).2 mode, used]
  rfl

section
variable {a : Approach} {r : Report} {s : State}

theorem takeReport_of_held {e : Entry} (held : s.pu.list.find? (heldBy r.ident a) = some e) : takeReport a r s =
    answer .checkIn .done [1, e.number] (walkArrival s (replaceEntry e (updatedEntry s r e) s)) := by
  rw [takeReport, held]
  rfl

theorem takeReport_of_mergeable {e : Entry} (free : s.pu.list.find? (heldBy r.ident a) = none)
    (merges : oldest (mergeable (jnow s) a) s.pu.list = some e) : takeReport a r s =
    answer .checkIn .done [1, e.number] (walkArrival s (replaceEntry e (mergedEntry s r e) s)) := by
  rw [takeReport, free, merges]
  rfl

theorem takeReport_of_refused (free : s.pu.list.find? (heldBy r.ident a) = none)
    (none : oldest (mergeable (jnow s) a) s.pu.list = none) (refused : admitEntry (reportEntry s a r) s = Option.none) :
    takeReport a r s = answer .checkIn .listFull (entryField Option.none) s := by
  rw [takeReport, free, none, refused]

/-- R116: the number in the reply is the one that the new entry has taken. -/
theorem takeReport_of_admitted {l : List Entry} {t : State} (free : s.pu.list.find? (heldBy r.ident a) = none)
    (none : oldest (mergeable (jnow s) a) s.pu.list = none) (admits : admitEntry (reportEntry s a r) s = some t)
    (admitted : Admitted (reportEntry s a r) l s t) : takeReport a r s =
    answer .checkIn .accepted [1, freeNumber s.pu.nextEntry l] (walkArrival s t) := by
  have number : t.pu.nextEntry - 1 = freeNumber s.pu.nextEntry l := by
    rw [admitted.nextEntry]
    exact BitVec.add_sub_cancel _ _
  rw [takeReport, free, none, admits]
  simp only [number]
  rfl

end

/-- R114, R115, R119, R123: an entry in its new place, after the walk. -/
theorem replaced_placed (old new : Entry) (s : State) :
    (walkArrival s (replaceEntry old new s)).clp = s.clp ∧
      PlacedIn (jnow s) new (s.pu.list.filter fun x => decide (x ≠ old))
        (walkArrival s (replaceEntry old new s)).pu.list := by
  have follows := walkArrival_follows s (replaceEntry old new s)
  exact ⟨follows.clp, (insertEntry_placed _ _ _).of_core rfl follows.entries⟩

/-- Settles O54, verdict by verdict: an update and a merge are a replacement in the list, a new entry an admission. -/
theorem checkInUpdatesMergesOrAdmits : Obligations.CheckInUpdatesMergesOrAdmits := by
  unfold Obligations.CheckInUpdatesMergesOrAdmits
  intro ident route approach lateness special dist speed c r s free hc hr
  have runs : exec c s = .next (checkIn r approach 1 s) := by
    rw [hc, hr]
    exact exec_checkIn free
  have identity : r.ident = ident := by rw [hr]
  have routed : r.route = route := by rw [hr]
  clear hc hr
  subst identity routed
  rw [runs]
  refine ⟨fun startUp normal => ?mode, fun mode => ⟨fun unused => ?unused, fun a used => ?_⟩⟩
  case mode => rw [checkIn_of_mode startUp normal]; rfl
  case unused => rw [checkIn_of_unused mode unused]; rfl
  rw [checkIn_of_used mode used]
  refine ⟨fun e held => ?update, fun unheld => ⟨fun e merges => ?merge, fun unmerged room => ?join,
    fun last unmerged full hlast weaker => ?refuse, fun last unmerged full hlast stronger => ?displace⟩⟩
  case update =>
    obtain ⟨clp, placed⟩ := replaced_placed e (updatedEntry s r e) s
    have approach : e.approach = a := by
      have holds := List.find?_some held
      simp only [heldBy, Bool.and_eq_true, decide_eq_true_eq] at holds
      exact holds.2
    refine ⟨_, congrArg Host.Outcome.next (takeReport_of_held held), congrArg (answered _ _ _) clp, ?_⟩
    rw [← approach]
    exact placed
  case merge =>
    obtain ⟨clp, placed⟩ := replaced_placed e (mergedEntry s r e) s
    exact ⟨_, congrArg Host.Outcome.next (takeReport_of_mergeable unheld merges), congrArg (answered _ _ _) clp,
      placed⟩
  case join =>
    have placed := placeEntry_admitted (reportEntry s a r) s
    have walked := placed.follows (walkArrival_follows s _)
    exact ⟨_, congrArg Host.Outcome.next (takeReport_of_admitted unheld unmerged (admitEntry_of_room room) placed),
      congrArg (answered _ _ _) walked.clp, walked.nextEntry, walked.placed⟩
  case refuse =>
    rw [takeReport_of_refused unheld unmerged (admitEntry_of_weaker full hlast weaker)]
    rfl
  case displace =>
    have placed := placeEntry_displace_admitted (reportEntry s a r) last s
    have follows := walkArrival_follows s (placeEntry (reportEntry s a r) (displace last s))
    have walked := placed.follows follows
    exact ⟨_, congrArg Host.Outcome.next
      (takeReport_of_admitted unheld unmerged (admitEntry_of_stronger full hlast stronger) placed),
      congrArg (answered _ _ _) walked.clp, fun j => follows.pends (displace_pends last s j), walked.placed⟩

end Sys2Proof.Machine

/-! ## CHECK_OUT, CANCEL_PRIORITY and the values of ENABLE_PRIORITY (R117, R136, R138, R140) -/

namespace Sys2Proof.Machine

theorem exec_checkOut {i : Station} {ident : BitVec 16} {approach : Byte} {s : State} (free : inFlight s = false)
    (role : RequestKind.checkOut.allows i = true) :
    exec (.checkOut (number i) ident approach) s = .next (checkOut ident approach i s) :=
  congrArg Host.Outcome.next (asked_number .checkOut i _ s free role)

theorem exec_cancelPriorityByNumber {i : Station} {value : BitVec 16} {s : State} (free : inFlight s = false)
    (role : RequestKind.cancelPriority.allows i = true) :
    exec (.cancelPriorityByNumber (number i) value) s = .next (cancelByNumber value i s) :=
  congrArg Host.Outcome.next (asked_number .cancelPriority i _ s free role)

theorem exec_cancelPriorityByIdent {i : Station} {ident : BitVec 16} {s : State} (free : inFlight s = false)
    (role : RequestKind.cancelPriority.allows i = true) :
    exec (.cancelPriorityByIdent (number i) ident) s = .next (cancelByIdent ident i s) :=
  congrArg Host.Outcome.next (asked_number .cancelPriority i _ s free role)

/-- R138: what a removal of the entries that `p` holds of answers: how many, or NO_MATCH. -/
theorem cancelEntries_of_none {p : Entry → Bool} {s : State} (none : ∀ e ∈ s.pu.list, p e = false) :
    cancelEntries p s = answer .cancelPriority .noMatch [0] s := by
  have any : s.pu.list.any p = false := List.any_eq_false.2 fun e he => by simp [none e he]
  rw [cancelEntries, any]
  rfl

theorem cancelEntries_of_some {p : Entry → Bool} {s : State} {e : Entry} (found : s.pu.list.find? p = some e) :
    cancelEntries p s = answer .cancelPriority .done [BitVec.ofNat 8 (s.pu.list.countP p)]
      (walkArrival s (removeEntries p .cancelled s)) := by
  have any : s.pu.list.any p = true := List.any_eq_true.2 ⟨e, List.mem_of_find?_eq_some found, List.find?_some found⟩
  rw [cancelEntries, any]
  rfl

theorem cancelByNumber_of_byte {value : BitVec 16} {i : Station} {s : State} (byte : value.toNat ≤ 255) :
    cancelByNumber value i s = cancelEntries (fun e => decide (e.number.toNat = value.toNat)) s :=
  if_neg (not_lt.2 byte)

theorem approach_of_number {b : Byte} (lo : 1 ≤ b.toNat) (hi : b.toNat ≤ 8) : ∃ a : Approach, b.toNat = number a :=
  ⟨⟨b.toNat - 1, by omega⟩, by simp only [number]; omega⟩

theorem heldBy_of_number {ident : BitVec 16} {b : Byte} {a : Approach} (h : b.toNat = number a) (e : Entry) :
    heldBy ident a e = (decide (e.ident = some ident) && decide (number e.approach = b.toNat)) := by
  have same : number e.approach = number a ↔ e.approach = a := by simp [number, Fin.ext_iff]
  rw [heldBy, h]
  simp only [same]

/-- Where no two entries of a list meet a condition, the entries that it leaves out are those unlike the one. -/
theorem filter_ne_of_countP_le_one {p : Entry → Bool} {l : List Entry} {e : Entry} (mem : e ∈ l) (he : p e = true)
    (one : l.countP p ≤ 1) : (l.filter fun x => !decide (x = e)) = l.filter fun x => !p x := by
  have only : l.filter p = [e] := by
    have within := List.mem_filter.2 ⟨mem, he⟩
    rw [List.countP_eq_length_filter] at one
    obtain ⟨x, hx⟩ := List.length_eq_one_iff.1 (le_antisymm one (List.length_pos_of_mem within))
    rw [hx] at within ⊢
    rw [List.mem_singleton.1 within]
  refine List.filter_congr fun x hx => congrArg not ?_
  rw [Bool.eq_iff_iff, decide_eq_true_iff]
  refine ⟨fun same => same ▸ he, fun px => ?_⟩
  exact List.mem_singleton.1 (only ▸ List.mem_filter.2 ⟨hx, px⟩)

theorem checkOut_of_none {ident : BitVec 16} {b : Byte} {i : Station} {a : Approach} {s : State}
    (h : b.toNat = number a) (none : ∀ e ∈ s.pu.list, heldBy ident a e = false) :
    checkOut ident b i s = answer .checkOut .noMatch [0, 0] s := by
  have unfound : s.pu.list.find? (heldBy ident a) = Option.none := List.find?_eq_none.2 fun e he => by simp [none e he]
  rw [checkOut, item?_eq_some a h]
  simp only [unfound]
  rfl

theorem checkOut_of_some {ident : BitVec 16} {b : Byte} {i : Station} {a : Approach} {s : State} {e : Entry}
    (h : b.toNat = number a) (found : s.pu.list.find? (heldBy ident a) = some e) :
    checkOut ident b i s = answer .checkOut .done [1, e.number] (removeEntry e .served s) := by
  rw [checkOut, item?_eq_some a h]
  simp only [found]
  rfl

/-- R117: the entry with the ident on the approach, where there is one only, is the entry that is removed. -/
theorem removeEntry_removed {p : Entry → Bool} {e : Entry} {s : State} (c : RemovalCause)
    (found : s.pu.list.find? p = some e) (one : s.pu.list.countP p ≤ 1) : Removed p c s (removeEntry e c s) := by
  have removed := removal_removed (fun x => decide (x = e)) c s
  refine { removed with entries := ?_ }
  rw [← filter_ne_of_countP_le_one (List.mem_of_find?_eq_some found) (List.find?_some found) one]
  exact removed.entries

/-- What either request answers: `none` of the entries meets `p`, or those that do are removed. -/
structure RemovesOrMisses (k : RequestKind) (p : Entry → Bool) (c : RemovalCause) (missed : List Byte)
    (found : Entry → List Byte) (s t : State) : Prop where
  misses : (∀ e ∈ s.pu.list, p e = false) → t = { s with clp := answered k .noMatch missed s.clp }
  removes : ∀ e, s.pu.list.find? p = some e → ∃ u, Removed p c s u ∧ t = answer k .done (found e) u

theorem cancelEntries_removes (p : Entry → Bool) (s : State) : RemovesOrMisses .cancelPriority p .cancelled [0]
    (fun _ => [BitVec.ofNat 8 (s.pu.list.countP p)]) s (cancelEntries p s) :=
  ⟨cancelEntries_of_none, fun _ found => ⟨_, removal_removed p .cancelled s, cancelEntries_of_some found⟩⟩

theorem checkOut_removes {ident : BitVec 16} {b : Byte} {i : Station} {a : Approach} {s : State}
    (h : b.toNat = number a) (one : s.pu.list.countP (heldBy ident a) ≤ 1) :
    RemovesOrMisses .checkOut (heldBy ident a) .served [0, 0] (fun e => [1, e.number]) s (checkOut ident b i s) :=
  ⟨checkOut_of_none h, fun _ found => ⟨_, removeEntry_removed .served found one, checkOut_of_some h found⟩⟩

/-- Settles O55: either request is a removal from the list with the reply beside it. -/
theorem checkOutAndCancelRemoveEntries : Obligations.CheckOutAndCancelRemoveEntries := by
  unfold Obligations.CheckOutAndCancelRemoveEntries
  refine ⟨fun i ident value approach c k p cause s free row => ?_, fun ident value b s free =>
    ⟨fun outside => ?_, fun large => ?_, fun large => ?_⟩⟩
  · have removal : ∃ t, exec c s = .next t ∧ RemovesOrMisses k p cause (if k = .checkOut then [0, 0] else [0])
        (fun e => if k = .checkOut then [1, e.number] else [BitVec.ofNat 8 (s.pu.list.countP p)]) s t := by
      rcases row with ⟨rfl, rfl, rfl, rfl, lo, hi, one, reads⟩ | ⟨rfl, station, rfl, which⟩
      · obtain ⟨a, ha⟩ := approach_of_number lo hi
        have same : p = heldBy ident a := funext fun e => by rw [reads, heldBy_of_number ha]
        subst same
        exact ⟨_, exec_checkOut free rfl, checkOut_removes ha one⟩
      · have role : RequestKind.cancelPriority.allows i = true := by rcases station with rfl | rfl <;> rfl
        rcases which with ⟨rfl, byte, reads⟩ | ⟨rfl, reads⟩
        · have same : p = fun e => decide (e.number.toNat = value.toNat) := funext reads
          subst same
          refine ⟨_, exec_cancelPriorityByNumber free role, ?_⟩
          rw [cancelByNumber_of_byte byte]
          exact cancelEntries_removes _ s
        · have same : p = fun e => decide (e.ident = some ident) := funext reads
          subst same
          exact ⟨_, exec_cancelPriorityByIdent free role, cancelEntries_removes _ s⟩
    obtain ⟨t, runs, removal⟩ := removal
    refine ⟨fun none => by rw [runs, removal.misses none], fun e found => ?_⟩
    obtain ⟨u, removed, rfl⟩ := removal.removes e found
    exact ⟨_, runs, congrArg (answered _ _ _) removed.clp, removed.entries, removed.cause, removed.posted,
      removed.groups, removed.cs, removed.du, removed.mode⟩
  · have runs : exec (.checkOut 2 ident b) s = .next (checkOut ident b 1 s) := exec_checkOut (i := 1) free rfl
    rw [runs, checkOut, item?_eq_none outside]
    rfl
  · have runs : exec (.cancelPriorityByNumber 1 value) s = .next (cancelByNumber value 0 s) :=
      exec_cancelPriorityByNumber (i := 0) free rfl
    rw [runs, cancelByNumber, if_pos large]
    rfl
  · have runs : exec (.enablePriority 1 b) s = .next (enablePriority b 0 s) :=
      congrArg Host.Outcome.next (asked_number .enablePriority 0 _ s free rfl)
    rw [runs, enablePriority, if_pos large]
    rfl

end Sys2Proof.Machine

/-! ## The read requests (R144, R182, R197) -/

namespace Sys2Proof.Machine

/-! ### Every station may read -/

section
variable {i : Station} {s : State} (free : inFlight s = false)
include free

theorem exec_readStatus : exec (.readStatus (number i)) s = .next (readStatus i s) :=
  congrArg Host.Outcome.next (asked_number .readStatus i readStatus s free rfl)

theorem exec_readEvents : exec (.readEvents (number i)) s = .next (readEvents i s) :=
  congrArg Host.Outcome.next (asked_number .readEvents i readEvents s free rfl)

theorem exec_readGroups (b : Byte) : exec (.readGroups (number i) b) s = .next (readGroups b i s) :=
  congrArg Host.Outcome.next (asked_number .readGroups i (readGroups b) s free rfl)

theorem exec_readDetectors (b : Byte) : exec (.readDetectors (number i) b) s = .next (readDetectors b i s) :=
  congrArg Host.Outcome.next (asked_number .readDetectors i (readDetectors b) s free rfl)

theorem exec_readPriority (b : Byte) : exec (.readPriority (number i) b) s = .next (readPriority b i s) :=
  congrArg Host.Outcome.next (asked_number .readPriority i (readPriority b) s free rfl)

theorem exec_readFaults (b : Byte) : exec (.readFaults (number i) b) s = .next (readFaults b i s) :=
  congrArg Host.Outcome.next (asked_number .readFaults i (readFaults b) s free rfl)

end

/-! ### The records that a byte names -/

section
variable {b : Byte} {i : Station} {s : State}

theorem readGroups_of_number {g : Group} (h : b.toNat = number g) :
    readGroups b i s = answer .readGroups .done (groupFieldsOf s g) s := by
  rw [readGroups, item?_eq_some g h]
  rfl

theorem readGroups_of_outside (h : b.toNat = 0 ∨ 24 < b.toNat) :
    readGroups b i s = answer .readGroups .refusedInvalid [] s := by
  rw [readGroups, item?_eq_none h]
  rfl

theorem readDetectors_of_number {ch : Channel} (h : b.toNat = number ch) : readDetectors b i s =
    answer .readDetectors .done (detectorConfigBytes s.cs.image ch ++ detectorBytes (det s ch)) s := by
  rw [readDetectors, item?_eq_some ch h]
  rfl

theorem readDetectors_of_outside (h : b.toNat = 0 ∨ 32 < b.toNat) :
    readDetectors b i s = answer .readDetectors .refusedInvalid [] s := by
  rw [readDetectors, item?_eq_none h]
  rfl

theorem readFaults_of_code {k : Fin 12} (h : b.toNat = k.val) : readFaults b i s =
    answer .readFaults .done (natBytes 2 (latchedKinds s).toNat ++ faultBytes k s.mfs.faults[k]) s := by
  have code : faultCode b = some k := by
    rw [faultCode, dif_pos (h ▸ k.isLt)]
    exact congrArg some (Fin.ext h)
  rw [readFaults, code]
  rfl

theorem readFaults_of_outside (h : 11 < b.toNat) : readFaults b i s = answer .readFaults .refusedInvalid [] s := by
  have code : faultCode b = none := dif_neg (by omega)
  rw [readFaults, code]
  rfl

/-! ### The parts of READ_PRIORITY (R197) -/

theorem readPriority_head (h : b.toNat = 0) :
    readPriority b i s = answer .readPriority .done (priorityHead s) s := if_pos h

theorem readPriority_entry {e : Entry} (lo : b.toNat ≠ 0) (hi : b.toNat ≤ 8) (h : s.pu.list[b.toNat - 1]? = some e) :
    readPriority b i s = answer .readPriority .done (entryBytes e) s := by
  simp only [readPriority, if_neg lo, if_pos hi, h]

theorem readPriority_beyond (hi : b.toNat ≤ 8) (short : s.pu.list.length < b.toNat) :
    readPriority b i s = answer .readPriority .noMatch [] s := by
  have none : s.pu.list[b.toNat - 1]? = Option.none := List.getElem?_eq_none (by omega)
  simp only [readPriority, if_neg (by omega : ¬b.toNat = 0), if_pos hi, none]

theorem readPriority_approaches (h : b.toNat = 9) : readPriority b i s =
    answer .readPriority .done ((List.finRange 8).flatMap fun a => approachBytes (apr s a)) s := by
  simp [readPriority, h]

theorem readPriority_overlay (h : b.toNat = 10) : readPriority b i s =
    answer .readPriority .done (allGroups.flatMap fun g => overlayBytes (ovl s g)) s := by
  simp [readPriority, h]

theorem readPriority_of_outside (h : 10 < b.toNat) :
    readPriority b i s = answer .readPriority .refusedInvalid [] s := by
  rw [readPriority, if_neg (by omega), if_neg (by omega), if_neg (by omega), if_neg (by omega)]

end

/-- Settles O40, request by request, on the record that its byte names. -/
theorem readsAnswerFromRecords : Obligations.ReadsAnswerFromRecords := by
  unfold Obligations.ReadsAnswerFromRecords
  intro i b s free
  refine ⟨exec_readStatus free, exec_readEvents free, fun g h => ?_, fun h => ?_, fun ch l h hl => ?_, fun h => ?_,
    fun h => ?_, fun e ne hi he => ?_, fun _ hi short => ?_, fun l h hl => ?_, fun l h hl => ?_, fun h => ?_,
    fun k l h hl => ?_, fun h => ?_⟩
  · rw [exec_readGroups free, readGroups_of_number h]; rfl
  · rw [exec_readGroups free, readGroups_of_outside h]; rfl
  · rw [exec_readDetectors free, readDetectors_of_number h, hl]; rfl
  · rw [exec_readDetectors free, readDetectors_of_outside h]; rfl
  · rw [exec_readPriority free, readPriority_head (by rw [h]; rfl)]; rfl
  · have lo : b.toNat ≠ 0 := fun zero => ne (BitVec.eq_of_toNat_eq zero)
    rw [exec_readPriority free, readPriority_entry lo hi he]
    rfl
  · rw [exec_readPriority free, readPriority_beyond hi short]; rfl
  · rw [exec_readPriority free, readPriority_approaches h, hl]; rfl
  · rw [exec_readPriority free, readPriority_overlay h, hl]; rfl
  · rw [exec_readPriority free, readPriority_of_outside h]; rfl
  · rw [exec_readFaults free, readFaults_of_code h, hl]; rfl
  · rw [exec_readFaults free, readFaults_of_outside h]; rfl

end Sys2Proof.Machine

/-! ## The loops of the tram approaches (R105 to R110, R118)

`TramAlike s t` says that an operation leaves what the tram approaches read: the records of the approaches, and of the
priority list all but what a walk decides. -/

namespace Sys2Proof.Machine

structure TramAlike (s t : State) : Prop where
  entries : t.pu.list.map Entry.core = s.pu.list.map Entry.core
  pu : t.pu = { s.pu with list := t.pu.list, overlay := t.pu.overlay, inhibitUntil := t.pu.inhibitUntil }
  cs : t.cs = s.cs
  clock : jnow t = jnow s
  dclock : dnow t = dnow s
  mode : t.mfs.mode = s.mfs.mode

namespace TramAlike

theorem refl (s : State) : TramAlike s s := ⟨rfl, rfl, rfl, rfl, rfl, rfl⟩

theorem trans {s t u : State} (h : TramAlike s t) (k : TramAlike t u) : TramAlike s u :=
  ⟨k.entries.trans h.entries, by rw [k.pu, h.pu], k.cs.trans h.cs, k.clock.trans h.clock, k.dclock.trans h.dclock,
    k.mode.trans h.mode⟩

theorem of_ite {p : Prop} [Decidable p] {s t : State} (h : p → TramAlike s t) : TramAlike s (if p then t else s) := by
  split
  · rename_i k; exact h k
  · exact .refl s

/-- An operation that leaves the priority unit alone. -/
theorem of_unit {s t : State} (pu : t.pu = s.pu) (cs : t.cs = s.cs) (clock : jnow t = jnow s) (dclock : dnow t = dnow s)
    (mode : t.mfs.mode = s.mfs.mode) : TramAlike s t :=
  ⟨by rw [pu], by rw [pu], cs, clock, dclock, mode⟩

variable {s t : State} (h : TramAlike s t)
include h

theorem apr (a : Approach) : apr t a = Machine.apr s a := by
  unfold Machine.apr
  rw [h.pu]

theorem nextEntry : t.pu.nextEntry = s.pu.nextEntry := by rw [h.pu]

theorem nextSeq : t.pu.nextSeq = s.pu.nextSeq := by rw [h.pu]

theorem length : t.pu.list.length = s.pu.list.length := by simpa using congrArg List.length h.entries

theorem cores_dropLast : t.pu.list.dropLast.map Entry.core = s.pu.list.dropLast.map Entry.core := by
  rw [List.map_dropLast, h.entries, ← List.map_dropLast]

/-- The last entry of either list is that of the other, but for what a walk decides. -/
theorem last {e : Entry} (he : s.pu.list.getLast? = some e) : ∃ x, t.pu.list.getLast? = some x ∧ x.core = e.core := by
  have last : t.pu.list.getLast?.map Entry.core = some e.core := by
    rw [← List.getLast?_map, h.entries, List.getLast?_map, he, Option.map_some]
  exact Option.map_eq_some_iff.1 last

end TramAlike

theorem Follows.tramAlike {own : Group → Bool} {s t : State} (h : Follows own s t) : TramAlike s t :=
  ⟨h.entries, h.pu, h.cs, h.now, congrArg Du.clock h.du, h.mode⟩

theorem post_tramAlike (e : Event) (s : State) : TramAlike s (post e s) :=
  .of_unit (by simp) (by simp) (by simp) (by simp) (by simp)

theorem postIf_tramAlike (b : Bool) (e : Event) (s : State) : TramAlike s (postIf b e s) := by
  cases b
  · exact .refl s
  · exact post_tramAlike e s

theorem setDet_tramAlike (s : State) (ch : Channel) (r : DetRec) : TramAlike s (setDet s ch r) :=
  .of_unit (by simp) (by simp) (by simp) (by simp) (by simp)

theorem setGroups_tramAlike (s : State) (f : Group → GroupRec) : TramAlike s (setGroups s f) :=
  .of_unit (by simp) (by simp) (by simp) (by simp) (by simp)

theorem latch_tramAlike (k : FaultKind) (d : BitVec 72) (s : State) : TramAlike s (latch k d s) := by
  unfold latch
  refine TramAlike.trans ?_ (postIf_tramAlike _ _ _)
  exact .of_unit (by simp) (by simp) (by simp) (by simp) (by simp)

theorem noteGapExit_tramAlike (gs : List Group) (s : State) : TramAlike s (noteGapExit gs s) := by
  obtain ⟨du, cs, sge, mfs, _⟩ := noteGapExit_frame gs s
  exact .of_unit (by simp only [noteGapExit]) cs (congrArg Sge.clock sge) (congrArg Du.clock du) (congrArg Mfs.mode mfs)

theorem forcedDemand_tramAlike (ch : Channel) (forced : Bool) (s : State) : TramAlike s (forcedDemand ch forced s) :=
  .of_ite fun _ => .of_ite fun _ => (setGroups_tramAlike s _).trans (postDemand_follows _ _ s).tramAlike

theorem handToSequencer_tramAlike (ch : Channel) (old : DetRec) (exit : Bool) (s : State) :
    TramAlike s (handToSequencer ch old exit s) := by
  have noted (b : Bool) : TramAlike s (if b then noteGapExit (extendedGroups s.cs.image ch) s else s) :=
    .of_ite fun _ => noteGapExit_tramAlike _ s
  unfold handToSequencer
  dsimp only
  split
  · exact .refl s
  · split
    · exact (noted _).trans (settleStage_follows _).tramAlike
    · exact noted _

/-! ### A check-in made by the loops (R109 to R111, R113, R116, R122) -/

/-- The entry that a check-in of the loops makes, before its number and its place. -/
def loopEntry (a : Approach) (eta : Nat) (clamped single : Bool) (s : State) : Entry :=
  newEntry s.cs.image .loop none none a (max (loopRank s.cs.image a) 1) (jnow s) (max 1 (min 6000 eta)) clamped single

theorem clampEta_eq (n : Nat) : clampEta n = max 1 (min 6000 n) := by
  unfold clampEta clamp
  split
  · omega
  · split <;> omega

theorem newEntry_eq_loopEntry (a : Approach) (eta : Nat) (clamped single : Bool) (s : State) :
    newEntry s.cs.image .loop none none a (loopEntryRank s.cs.image a) (jnow s) (clampEta eta) clamped single =
      loopEntry a eta clamped single s := by
  unfold loopEntry loopEntryRank
  rw [clampEta_eq]

section
variable {a : Approach} {eta : Nat} {clamped single : Bool} {s : State}

theorem loopCheckIn_of_admitted {t : State} (mode : s.mfs.mode = .startUp ∨ s.mfs.mode = .normal)
    (admits : admitEntry (loopEntry a eta clamped single s) s = some t) :
    loopCheckIn a eta clamped single s = walkArrival s t := by
  unfold loopCheckIn
  simp only [newEntry_eq_loopEntry, if_pos ((checkInMode_iff _).2 mode), admits]

theorem loopCheckIn_of_mode (mode : s.mfs.mode ≠ .startUp ∧ s.mfs.mode ≠ .normal) :
    loopCheckIn a eta clamped single s = dropLoopCheckIn a s := by
  exact if_neg (by simp [checkInMode, mode])

theorem loopCheckIn_of_refused (refused : admitEntry (loopEntry a eta clamped single s) s = none) :
    loopCheckIn a eta clamped single s = dropLoopCheckIn a s := by
  unfold loopCheckIn
  simp only [newEntry_eq_loopEntry, refused, ite_self]

end

theorem apr_setApr_self (s : State) (a : Approach) (r : ApproachRec) : apr (setApr s a r) a = r := by
  rw [apr_setApr, if_pos rfl]

theorem apr_of_approaches {s t : State} (h : t.pu.approaches = s.pu.approaches) (a : Approach) : apr t a = apr s a := by
  unfold apr
  rw [h]

/-- A check-in of the loops leaves the arming as it finds it. -/
theorem loopCheckIn_checkedIn (a : Approach) (eta : Nat) (clamped single : Bool) (s : State) :
    LoopCheckedIn a eta clamped single (apr s a).armedA s (loopCheckIn a eta clamped single s) where
  admitted mode room n hn := by
    have walked := (placeEntry_admitted (loopEntry a eta clamped single s) s).follows (walkArrival_follows s _)
    rw [loopCheckIn_of_admitted mode (admitEntry_of_room room), hn]
    exact ⟨walked.nextEntry, apr_of_approaches walked.approaches a, walked.placed⟩
  displaced mode full n last hlast rank hn := by
    have follows := walkArrival_follows s (placeEntry (loopEntry a eta clamped single s) (displace last s))
    have walked := (placeEntry_displace_admitted (loopEntry a eta clamped single s) last s).follows follows
    rw [loopCheckIn_of_admitted mode (admitEntry_of_stronger full hlast rank), hn]
    exact ⟨walked.nextEntry, apr_of_approaches walked.approaches a, fun j => follows.pends (displace_pends last s j),
      walked.placed⟩
  refused h := by
    have dropped : loopCheckIn a eta clamped single s = dropLoopCheckIn a s := by
      rcases h with mode | ⟨full, weak⟩
      · exact loopCheckIn_of_mode mode
      · have nonempty : s.pu.list ≠ [] := List.ne_nil_of_length_pos (by omega)
        have last := List.getLast?_eq_some_getLast nonempty
        exact loopCheckIn_of_refused (admitEntry_of_weaker full last (weak _ last))
    rw [dropped]
    exact ⟨rfl, rfl, apr_setApr_self _ _ _⟩

theorem loopCheckIn_others {a x : Approach} (ne : x ≠ a) (eta : Nat) (clamped single : Bool) (s : State) :
    apr (loopCheckIn a eta clamped single s) x = apr s x := by
  have dropped : apr (dropLoopCheckIn a s) x = apr s x := by rw [dropLoopCheckIn, apr_setApr, if_neg ne.symm]
  unfold loopCheckIn
  dsimp only
  split
  · split
    · rename_i t admits
      have approaches : t.pu.approaches = s.pu.approaches := admitEntry_approaches admits
      exact ((walkArrival_follows s t).tramAlike.apr x).trans (apr_of_approaches approaches x)
    · exact dropped
  · exact dropped

namespace LoopCheckedIn

variable {a : Approach} {eta : Nat} {clamped single : Bool} {armed : Option Time} {s t u : State}

/-- What follows the check-in leaves it as it is. -/
theorem followed (h : LoopCheckedIn a eta clamped single armed s t) (k : TramAlike t u)
    (events : ∀ (i : Station) (b : Nat), (t.mfs.pending[i]).getLsbD b = true → (u.mfs.pending[i]).getLsbD b = true) :
    LoopCheckedIn a eta clamped single armed s u where
  admitted mode room n hn := by
    obtain ⟨next, record, placed⟩ := h.admitted mode room n hn
    exact ⟨k.nextEntry.trans next, (k.apr a).trans record, placed.of_core rfl k.entries⟩
  displaced mode full n last hlast rank hn := by
    obtain ⟨next, record, posted, placed⟩ := h.displaced mode full n last hlast rank hn
    exact ⟨k.nextEntry.trans next, (k.apr a).trans record, fun j => events j _ (posted j), placed.of_core rfl k.entries⟩
  refused weak := by
    obtain ⟨list, next, record⟩ := h.refused weak
    exact ⟨k.entries.trans list, k.nextEntry.trans next, (k.apr a).trans record⟩

/-- What comes before the check-in leaves what it reads. -/
theorem since (k : TramAlike s t) (h : LoopCheckedIn a eta clamped single armed t u) :
    LoopCheckedIn a eta clamped single armed s u where
  admitted mode room n hn := by
    rw [← k.mode] at mode
    rw [← k.length] at room
    rw [← freeNumber_congr _ k.entries, ← k.nextEntry] at hn
    obtain ⟨next, record, placed⟩ := h.admitted mode room n hn
    rw [k.apr] at record
    rw [k.cs, k.clock, k.nextSeq] at placed
    exact ⟨next, record, placed.of_core k.entries.symm rfl⟩
  displaced mode full n last hlast rank hn := by
    obtain ⟨x, hx, core⟩ := k.last hlast
    have rankSame := rank_of_core core
    rw [← k.mode] at mode
    rw [← k.length] at full
    rw [← rankSame, ← k.cs] at rank
    rw [← freeNumber_congr _ k.cores_dropLast, ← k.nextEntry] at hn
    obtain ⟨next, record, posted, placed⟩ := h.displaced mode full n x hx rank hn
    rw [k.apr] at record
    rw [k.cs, k.clock, k.nextSeq] at placed
    exact ⟨next, record, posted, placed.of_core k.cores_dropLast.symm rfl⟩
  refused weak := by
    have weak' : (t.mfs.mode ≠ .startUp ∧ t.mfs.mode ≠ .normal) ∨ (8 ≤ t.pu.list.length ∧
        ∀ last, t.pu.list.getLast? = some last → last.rank ≤ max (loopRank t.cs.image a) 1) := by
      rw [k.mode, k.length, k.cs]
      refine weak.imp_right fun ⟨full, weak⟩ => ⟨full, fun x hx => ?_⟩
      have nonempty : s.pu.list ≠ [] := List.ne_nil_of_length_pos (by omega)
      have last := List.getLast?_eq_some_getLast nonempty
      obtain ⟨y, hy, core⟩ := k.last last
      cases hx.symm.trans hy
      rw [rank_of_core core]
      exact weak _ last
    obtain ⟨list, next, record⟩ := h.refused weak'
    rw [k.apr] at record
    exact ⟨list.trans k.entries, next.trans k.nextEntry, record⟩

/-- R107, R108: the arming is cleared before the check-in. -/
theorem of_disarmed (h : LoopCheckedIn a eta clamped single armed (disarm a s) t) :
    LoopCheckedIn a eta clamped single armed s t := by
  have record : apr (disarm a s) a = { apr s a with armedA := none } := apr_setApr_self _ _ _
  obtain ⟨admitted, displaced, refused⟩ := h
  rw [record] at admitted displaced refused
  exact ⟨admitted, displaced, refused⟩

end LoopCheckedIn

theorem loopCheckIn_disarm_checkedIn (a : Approach) (eta : Nat) (clamped single : Bool) (s : State) :
    LoopCheckedIn a eta clamped single none s (loopCheckIn a eta clamped single (disarm a s)) := by
  have checked := loopCheckIn_checkedIn a eta clamped single (disarm a s)
  rw [disarm, apr_setApr_self] at checked
  exact checked.of_disarmed

end Sys2Proof.Machine

namespace Sys2Proof.Machine

/-! ### What a change of a channel brings before the approaches take it (R97 to R100) -/

/-- The state in which the approaches find a change of record. -/
def changeHanded (ch : Channel) (old new : DetRec) (entry exit : Bool) (s : State) : State :=
  handToSequencer ch old exit (forcedDemand ch entry
    (postIf (reportedChange old.state new.state) .detectorChanged (setDet s ch new)))

section
variable (ch : Channel) (old new : DetRec) (entry exit : Bool) (s : State)

theorem changeHanded_tramAlike : TramAlike s (changeHanded ch old new entry exit s) :=
  (((setDet_tramAlike s ch new).trans (postIf_tramAlike _ _ _)).trans (forcedDemand_tramAlike ch entry _)).trans
    (handToSequencer_tramAlike ch old exit _)

theorem det_changeHanded (c : Channel) :
    det (changeHanded ch old new entry exit s) c = if ch = c then new else det s c := by
  have du : (changeHanded ch old new entry exit s).du = (setDet s ch new).du :=
    (handToSequencer_spec ch old exit _).du.trans ((forcedDemand_posts ch entry _).du.trans (postIf_du _ _ _))
  rw [det_congr du, det_setDet]

end

/-- R97, R105: an entry of a loop reaches the approaches that name it. -/
theorem handChange_of_entry {ch : Channel} {old new : DetRec} {s : State} (kind : channelKind s.cs.image ch = .loop)
    (occupied : new.state = .occupied) :
    handChange ch old new true false s = loopEntered ch (changeHanded ch old new true false s) := by
  have stays (u : State) : (if channelKind s.cs.image ch = .loop ∧ old.state ≠ new.state then
      loopStateChanged ch new.state u else u) = u := by
    rw [occupied]
    exact ite_self _
  have unfolded : handChange ch old new true false s =
      if true = true ∧ channelKind s.cs.image ch = .loop then
        loopEntered ch (if channelKind s.cs.image ch = .loop ∧ old.state ≠ new.state then
          loopStateChanged ch new.state (changeHanded ch old new true false s) else
            changeHanded ch old new true false s)
      else if channelKind s.cs.image ch = .loop ∧ old.state ≠ new.state then
        loopStateChanged ch new.state (changeHanded ch old new true false s)
      else changeHanded ch old new true false s := rfl
  rw [unfolded, if_pos ⟨rfl, kind⟩, stays]

/-- R105, R108: so does a change of its state. -/
theorem handChange_of_change {ch : Channel} {old new : DetRec} {s : State} (kind : channelKind s.cs.image ch = .loop)
    (change : old.state ≠ new.state) : handChange ch old new false false s =
      loopStateChanged ch new.state (changeHanded ch old new false false s) := by
  have unfolded : handChange ch old new false false s =
      if channelKind s.cs.image ch = .loop ∧ old.state ≠ new.state then
        loopStateChanged ch new.state (changeHanded ch old new false false s)
      else changeHanded ch old new false false s := rfl
  rw [unfolded, if_pos ⟨kind, change⟩]

/-! ### A channel without a role (R79) -/

theorem forcedDemand_of_roleless {ch : Channel} {s : State} (role : channelRole s.cs.image ch = .none) (forced : Bool) :
    forcedDemand ch forced s = s := by
  unfold forcedDemand postChannelDemand
  rw [role]
  exact ite_self _

theorem handToSequencer_of_roleless {ch : Channel} {s : State} (role : channelRole s.cs.image ch = .none) (old : DetRec)
    (exit : Bool) : handToSequencer ch old exit s = s := by
  have extends_none : extendedGroups s.cs.image ch = [] :=
    List.filter_eq_nil_iff.2 fun g _ => by simp [isExtensionDetector, role, Role.isExtend]
  simp [handToSequencer, extends_none]

/-- R100: an entry is no change that is reported, so that a channel without a role hands on nothing but its record. -/
theorem changeHanded_of_roleless {ch : Channel} {old new : DetRec} {s : State}
    (role : channelRole s.cs.image ch = .none) (vacant : old.state = .vacant) (occupied : new.state = .occupied) :
    changeHanded ch old new true false s = setDet s ch new := by
  have silent : reportedChange old.state new.state = false := by rw [vacant, occupied]; rfl
  have role : channelRole (setDet s ch new).cs.image ch = .none := role
  rw [changeHanded, silent, postIf_false, forcedDemand_of_roleless role, handToSequencer_of_roleless role]

/-! ### The approach that names the channel (R103, R105) -/

theorem foldl_of_idle {f : State → Approach → State} {cs : Cs} {l : List Approach}
    (idle : ∀ x ∈ l, ∀ t : State, t.cs = cs → f t x = t) {t : State} (ht : t.cs = cs) : l.foldl f t = t := by
  induction l with
  | nil => rfl
  | cons x l ih =>
    rw [List.foldl_cons, idle x List.mem_cons_self t ht]
    exact ih fun y hy => idle y (List.mem_cons_of_mem x hy)

/-- A pass over the approaches that reaches one of them alone. -/
theorem foldl_approaches_of_one {f : State → Approach → State} {a : Approach} {s : State}
    (idle : ∀ x, x ≠ a → ∀ t : State, t.cs = s.cs → f t x = t) (keeps : (f s a).cs = s.cs) :
    (List.finRange 8).foldl f s = f s a := by
  obtain ⟨front, back, split⟩ := List.append_of_mem (List.mem_finRange a)
  have distinct := split ▸ List.nodup_finRange 8
  obtain ⟨inFront, inBack⟩ : a ∉ front ∧ a ∉ back := by
    have apart := (List.nodup_middle.1 distinct)
    have outside := (List.nodup_cons.1 apart).1
    exact ⟨fun h => outside (List.mem_append_left _ h), fun h => outside (List.mem_append_right _ h)⟩
  rw [split, List.foldl_append, List.foldl_cons,
    foldl_of_idle (fun x hx => idle x (ne_of_mem_of_not_mem hx inFront)) rfl,
    foldl_of_idle (fun x hx => idle x (ne_of_mem_of_not_mem hx inBack)) keeps]

theorem loopEntered_of_one {ch : Channel} {a : Approach} {stamp : Time} {s : State}
    (entered : (det s ch).lastEntry = some stamp) (others : ∀ x, x ≠ a →
      loopA s.cs.image x ≠ some ch ∧ loopB s.cs.image x ≠ some ch ∧ loopOut s.cs.image x ≠ some ch) :
    loopEntered ch s = entryAtApproach ch stamp a s := by
  unfold loopEntered
  rw [entered]
  refine foldl_approaches_of_one (fun x ne t cs => ?_) (entryAtApproach_detectorAlike ch stamp a s).cs
  obtain ⟨notA, notB, notOut⟩ := others x ne
  rw [← cs] at notA notB notOut
  simp only [entryAtApproach, if_neg notA, if_neg notB, if_neg notOut]

theorem loseAtApproach_cs (ch : Channel) (a : Approach) (s : State) : (loseAtApproach ch a s).cs = s.cs := by
  have disarmed (u : State) : (disarm a u).cs = u.cs := setApr_cs _ _ _
  have lost (u : State) : (loseB a u).cs = u.cs := by
    unfold loseB
    split
    · exact (loopCheckIn_detectorAlike _ _ _ _ _).cs.trans (disarmed u)
    · rfl
  unfold loseAtApproach
  dsimp only
  split <;> split <;> simp only [lost, disarmed]

theorem loopStateChanged_of_one {ch : Channel} {a : Approach} {st : DetState} {s : State}
    (lost : st.availableState = false)
    (others : ∀ x, x ≠ a → loopA s.cs.image x ≠ some ch ∧ loopB s.cs.image x ≠ some ch) :
    loopStateChanged ch st s = loseAtApproach ch a s := by
  rw [loopStateChanged, lost, if_neg Bool.false_ne_true]
  refine foldl_approaches_of_one (fun x ne t cs => ?_) (loseAtApproach_cs ch a s)
  obtain ⟨notA, notB⟩ := others x ne
  rw [← cs] at notA notB
  simp only [loseAtApproach, if_neg notA, if_neg notB]

/-! ### The samples that reach an approach -/

/-- R85, R97: the record of a sample that completes an entry. -/
theorem loopRecord_of_entry {ch : Channel} {p b : Nat} {s : State} (vacant : (det s ch).state = .vacant)
    (run : 1 ≤ (det s ch).aboveRun) (lo : 16000 ≤ p) (hi : p ≤ 110000) (base : (det s ch).baseline = some b)
    (above : (onThreshold s.cs.image ch : Int) ≤ deviation b p) :
    (loopRecord s ch (some p)).state = .occupied ∧ (loopRecord s ch (some p)).lastEntry = some (dnow s) := by
  have made : validRecord s ch p = enteredRecord (dnow s) (validStage1 p (det s ch)) :=
    validStage2_enters (r := validStage1 p (det s ch)) vacant (by rw [classified_validStage1 base]; exact above) run
  rw [loopRecord_of_valid lo hi, made]
  exact ⟨rfl, rfl⟩

theorem loopSample_of_entry {ch : Channel} {p : Option Nat} {s : State} (kind : channelKind s.cs.image ch = .loop)
    (due : s.du.sampleIn = 0) (fresh : (det s ch).sampled = false) (vacant : (det s ch).state = .vacant)
    (occupied : (loopRecord s ch p).state = .occupied) : ∃ forced, loopSample p ch s =
      forcedDemand ch forced
        (loopEntered ch (changeHanded ch (det s ch) (loopRecord s ch p) true false s)) := by
  have entry : isEntry (det s ch) (loopRecord s ch p) = true := by simp [isEntry, vacant, occupied]
  have exit : isExit (det s ch) (loopRecord s ch p) = false := by simp [isExit, vacant]
  have raised : raiseAtSample ch (det s ch) (loopRecord s ch p) s = s := by simp [raiseAtSample, occupied]
  refine ⟨(det s ch).forced || (loopRecord s ch p).forced, ?_⟩
  rw [loopSample, if_pos ⟨kind, sampleDue_of due fresh⟩, takeLoopSample, entry, exit, raised,
    handChange_of_entry kind occupied]

/-- R89, R108. -/
theorem loopSample_of_loss {ch : Channel} {p : Option Nat} {s : State} (kind : channelKind s.cs.image ch = .loop)
    (due : s.du.sampleIn = 0) (fresh : (det s ch).sampled = false) (before : (det s ch).state ≠ .fault)
    (fault : (loopRecord s ch p).state = .fault) : ∃ forced, loopSample p ch s =
      forcedDemand ch forced (loopStateChanged ch .fault
        (changeHanded ch (det s ch) (loopRecord s ch p) false false
          (latch .detectorFault (detailItem (number ch)) s))) := by
  have entry : isEntry (det s ch) (loopRecord s ch p) = false := by simp [isEntry, fault]
  have exit : isExit (det s ch) (loopRecord s ch p) = false := by simp [isExit, fault]
  have raised : raiseAtSample ch (det s ch) (loopRecord s ch p) s = latch .detectorFault (detailItem (number ch)) s :=
    if_pos ⟨before, fault⟩
  have image : channelKind (latch .detectorFault (detailItem (number ch)) s).cs.image ch = .loop := by
    rw [(latch_tramAlike _ _ s).cs, kind]
  refine ⟨(det s ch).forced || (loopRecord s ch p).forced, ?_⟩
  rw [loopSample, if_pos ⟨kind, sampleDue_of due fresh⟩, takeLoopSample, entry, exit, raised,
    handChange_of_change image (by rw [fault]; exact before), fault]

end Sys2Proof.Machine

namespace Sys2Proof.Machine

/-! ### Availability and the arming (R105 to R108) -/

theorem availableState_iff (st : DetState) : st.availableState = true ↔ st = .vacant ∨ st = .occupied := by
  cases st <;> simp [DetState.availableState]

theorem loopAvailable_some (s : State) (c : Channel) :
    loopAvailable s (some c) = true ↔ (det s c).state = .vacant ∨ (det s c).state = .occupied := availableState_iff _

/-- The change of a channel leaves the availability of the other loops. -/
theorem loopAvailable_changeHanded {ch : Channel} {old new : DetRec} {entry exit : Bool} {s : State}
    {o : Option Channel} (other : o ≠ some ch) :
    loopAvailable (changeHanded ch old new entry exit s) o = loopAvailable s o := by
  cases o with
  | none => rfl
  | some c =>
    unfold loopAvailable
    dsimp only
    rw [det_changeHanded, if_neg fun same : ch = c => other (congrArg some same.symm)]

section
variable {a : Approach} {stamp : Time} {s : State}

theorem entryOnA_of_available (available : loopAvailable s (loopB s.cs.image a) = true) :
    (entryOnA a stamp s).pu.list = s.pu.list ∧
      apr (entryOnA a stamp s) a = { apr s a with armedA := some ((apr s a).armedA.getD stamp) } := by
  rw [entryOnA, if_pos available]
  rcases Option.eq_none_or_eq_some (apr s a).armedA with armed | ⟨x, armed⟩
  · rw [armed]
    exact ⟨by simp, apr_setApr_self _ _ _⟩
  · have kept : apr s a = { apr s a with armedA := some x } := by rw [← armed]
    rw [armed]
    exact ⟨rfl, kept⟩

theorem entryOnA_of_unavailable (lost : loopAvailable s (loopB s.cs.image a) = false) :
    entryOnA a stamp s = loopCheckIn a (etaFromA s.cs.image a + dwell s.cs.image a) false true s := by
  rw [entryOnA, lost, if_neg Bool.false_ne_true]

theorem pairInterval_of_paired {x : Time} (armed : (apr s a).armedA = some x)
    (available : loopAvailable s (loopA s.cs.image a) = true) (short : elapsed stamp x ≤ 10000) :
    pairInterval s a stamp = some (elapsed stamp x) := by
  simp [pairInterval, armed, available, short]

theorem pairInterval_of_single (single : ∀ x, (apr s a).armedA = some x →
    loopAvailable s (loopA s.cs.image a) = false ∨ 10000 < elapsed stamp x) : pairInterval s a stamp = none := by
  unfold pairInterval
  split
  · rename_i x armed
    refine if_neg ?_
    rw [Bool.and_eq_true, decide_eq_true_iff, not_and_or, Bool.not_eq_true, not_le]
    exact single x armed
  · rfl

/-- R107: a paired check-in. -/
theorem entryOnB_of_paired {d : Nat} (paired : pairInterval s a stamp = some d) :
    LoopCheckedIn a (pairedEta s.cs.image a d) (pairClamped s.cs.image a d != d) false none s
      (entryOnB a stamp s) := by
  rw [entryOnB, paired]
  exact loopCheckIn_disarm_checkedIn _ _ _ _ _

theorem entryOnB_of_single (single : pairInterval s a stamp = none) :
    LoopCheckedIn a (etaFromB s.cs.image a + dwell s.cs.image a) false true none s (entryOnB a stamp s) := by
  rw [entryOnB, single]
  exact loopCheckIn_disarm_checkedIn _ _ _ _ _

theorem loseB_of_unarmed (armed : (apr s a).armedA = none) : loseB a s = s := by rw [loseB, armed]

/-- R108: the B loop is lost while the approach is armed. -/
theorem loseB_of_armed {x : Time} (armed : (apr s a).armedA = some x) :
    LoopCheckedIn a (etaFromA s.cs.image a + dwell s.cs.image a - elapsed (dnow s) x / 100) false true none s
      (loseB a s) := by
  rw [loseB, armed]
  exact loopCheckIn_disarm_checkedIn _ _ _ _ _

/-! ### Each loop writes the record of its own approach alone (R104) -/

variable {x : Approach} (ne : x ≠ a)
include ne

theorem apr_setApr_other (r : ApproachRec) : apr (setApr s a r) x = apr s x := by rw [apr_setApr, if_neg ne.symm]

theorem entryOnA_others (stamp : Time) (s : State) : apr (entryOnA a stamp s) x = apr s x := by
  unfold entryOnA
  split
  · split
    · exact apr_setApr_other ne _
    · rfl
  · exact loopCheckIn_others ne _ _ _ s

theorem entryOnB_others (stamp : Time) (s : State) : apr (entryOnB a stamp s) x = apr s x := by
  unfold entryOnB
  dsimp only
  split <;> exact (loopCheckIn_others ne _ _ _ _).trans (apr_setApr_other ne _)

theorem loopCheckOut_others (s : State) : apr (loopCheckOut a s) x = apr s x := by
  unfold loopCheckOut
  split
  · exact apr_of_approaches (removal_removed _ _ s).approaches x
  · exact apr_setApr_other ne _

theorem entryAtApproach_others (ch : Channel) (stamp : Time) (s : State) :
    apr (entryAtApproach ch stamp a s) x = apr s x := by
  have onA : apr (if loopA s.cs.image a = some ch then entryOnA a stamp s else s) x = apr s x := by
    split
    · exact entryOnA_others ne stamp s
    · rfl
  have onB (u : State) : apr (if loopB s.cs.image a = some ch then entryOnB a stamp u else u) x = apr u x := by
    split
    · exact entryOnB_others ne stamp u
    · rfl
  have out (u : State) : apr (if loopOut s.cs.image a = some ch then loopCheckOut a u else u) x = apr u x := by
    split
    · exact loopCheckOut_others ne u
    · rfl
  exact (out _).trans ((onB _).trans onA)

theorem loseAtApproach_others (ch : Channel) (s : State) : apr (loseAtApproach ch a s) x = apr s x := by
  have disarmed : apr (if loopA s.cs.image a = some ch then disarm a s else s) x = apr s x := by
    split
    · exact apr_setApr_other ne _
    · rfl
  have lost (u : State) : apr (if loopB s.cs.image a = some ch then loseB a u else u) x = apr u x := by
    split
    · unfold loseB
      split
      · exact (loopCheckIn_others ne _ _ _ _).trans (apr_setApr_other ne _)
      · rfl
    · rfl
  exact (lost _).trans disarmed

end

/-! ### The check-out loop (R118) -/

theorem oldest_eq_none {p : Entry → Bool} {l : List Entry} (h : ∀ e ∈ l, p e = false) : oldest p l = none := by
  have empty : l.filter p = [] := List.filter_eq_nil_iff.2 fun e he => by simp [h e he]
  rw [oldest, empty]
  rfl

theorem older_eq_some {acc : Option Entry} {x y : Entry} (h : older acc x = some y) : y = x ∨ acc = some y := by
  unfold older at h
  split at h
  · cases h; exact .inl rfl
  · split at h
    · cases h; exact .inl rfl
    · exact .inr h

theorem older_of_later {e x : Entry} (later : x = e ∨ e.seq < x.seq) : older (some e) x = some e := by
  rcases later with rfl | later
  · exact ite_self _
  · exact if_neg (by omega)

theorem older_of_first {acc : Option Entry} {e : Entry} (first : ∀ y, acc = some y → y = e ∨ e.seq < y.seq) :
    older acc e = some e := by
  cases acc with
  | none => rfl
  | some y =>
    rcases first y rfl with rfl | later
    · exact ite_self _
    · exact if_pos later

theorem foldl_older_eq {e : Entry} {l : List Entry} (rest : ∀ x ∈ l, x = e ∨ e.seq < x.seq) {acc : Option Entry}
    (first : ∀ y, acc = some y → y = e ∨ e.seq < y.seq) (among : acc = some e ∨ e ∈ l) :
    l.foldl older acc = some e := by
  induction l generalizing acc with
  | nil => exact among.resolve_right List.not_mem_nil
  | cons x l ih =>
    have now := rest x List.mem_cons_self
    refine ih (fun y hy => rest y (List.mem_cons_of_mem x hy)) (fun y hy => ?_) ?_
    · exact (older_eq_some hy).elim (fun same => same ▸ now) (first y)
    · rcases among with rfl | among
      · exact .inl (older_of_later now)
      · rcases List.mem_cons.1 among with rfl | among
        · exact .inl (older_of_first first)
        · exact .inr among

/-- The entry before all others in creation order of those that `p` holds of. -/
theorem oldest_eq_some {p : Entry → Bool} {l : List Entry} {e : Entry} (mem : e ∈ l) (he : p e = true)
    (first : ∀ x ∈ l, p x = true → x = e ∨ e.seq < x.seq) : oldest p l = some e :=
  foldl_older_eq (fun x hx => first x (List.mem_of_mem_filter hx) (List.mem_filter.1 hx).2) (by simp)
    (.inr (List.mem_filter.2 ⟨mem, he⟩))

theorem hadItsGroup_iff (e : Entry) :
    hadItsGroup e = true ↔ e.state = some .extending ∨ e.state = some .serving ∨ e.state = some .released := by
  simp [hadItsGroup, or_assoc]

theorem hadItsGroup_eq_false_iff (e : Entry) :
    hadItsGroup e = false ↔ e.state ≠ some .extending ∧ e.state ≠ some .serving ∧ e.state ≠ some .released := by
  rw [← Bool.not_eq_true, hadItsGroup_iff, not_or, not_or]

section
variable {a : Approach} {s : State}

theorem loopCheckOutEntry_of_none (none : ∀ e ∈ s.pu.list, e.approach = a →
    hadItsGroup e = false ∧ isDue (jnow s) e = false) : loopCheckOutEntry s a = Option.none := by
  have passed (p : Entry → Bool) (h : ∀ e ∈ s.pu.list, e.approach = a → p e = false) :
      oldest (fun e => decide (e.approach = a) && p e) s.pu.list = Option.none := oldest_eq_none fun e he => by
    by_cases on : e.approach = a
    · rw [h e he on, Bool.and_false]
    · rw [decide_eq_false on, Bool.false_and]
  rw [loopCheckOutEntry, passed hadItsGroup fun e he on => (none e he on).1]
  exact passed (isDue (jnow s)) fun e he on => (none e he on).2

/-- R118: the oldest of those that have had their group, or, where none has, of those that are due. -/
theorem loopCheckOutEntry_of_first {q : Entry → Prop} {e : Entry}
    (q_iff : (∀ x, q x ↔ x.approach = a ∧ hadItsGroup x = true) ∨
      (∀ x, q x ↔ x.approach = a ∧ isDue (jnow s) x = true) ∧
        ∀ x ∈ s.pu.list, x.approach = a → hadItsGroup x = false)
    (mem : e ∈ s.pu.list) (he : q e) (first : ∀ x ∈ s.pu.list, q x → x = e ∨ e.seq < x.seq) :
    loopCheckOutEntry s a = some e := by
  have chosen {p : Entry → Bool} (reads : ∀ x, q x ↔ x.approach = a ∧ p x = true) :
      oldest (fun x => decide (x.approach = a) && p x) s.pu.list = some e := by
    have same (x : Entry) : (decide (x.approach = a) && p x) = true ↔ q x := by
      rw [reads, Bool.and_eq_true, decide_eq_true_iff]
    exact oldest_eq_some mem ((same e).2 he) fun x hx hp => first x hx ((same x).1 hp)
  rcases q_iff with had | ⟨due, waiting⟩
  · rw [loopCheckOutEntry, chosen had]
  · have none : oldest (fun x => decide (x.approach = a) && hadItsGroup x) s.pu.list = Option.none :=
      oldest_eq_none fun x hx => by
        by_cases on : x.approach = a
        · rw [waiting x hx on, Bool.and_false]
        · rw [decide_eq_false on, Bool.false_and]
    rw [loopCheckOutEntry, none]
    exact chosen due

theorem loopCheckOut_of_none (none : loopCheckOutEntry s a = Option.none) :
    loopCheckOut a s = setApr s a { apr s a with unmatched := saturate16 (apr s a).unmatched } := by
  rw [loopCheckOut, none]

theorem loopCheckOut_of_some {e : Entry} (found : loopCheckOutEntry s a = some e) :
    Removed (fun x => decide (x = e)) .served s (loopCheckOut a s) := by
  rw [loopCheckOut, found]
  exact removal_removed _ _ s

end

/-! ### The role of the channel at its approach -/

section
variable {ch : Channel} {a : Approach} {stamp : Time} {s : State}

theorem entryAtApproach_of_A (atA : loopA s.cs.image a = some ch) (notB : loopB s.cs.image a ≠ some ch)
    (notOut : loopOut s.cs.image a ≠ some ch) : entryAtApproach ch stamp a s = entryOnA a stamp s := by
  simp only [entryAtApproach, if_pos atA, if_neg notB, if_neg notOut]

theorem entryAtApproach_of_B (atB : loopB s.cs.image a = some ch) (notA : loopA s.cs.image a ≠ some ch)
    (notOut : loopOut s.cs.image a ≠ some ch) : entryAtApproach ch stamp a s = entryOnB a stamp s := by
  simp only [entryAtApproach, if_pos atB, if_neg notA, if_neg notOut]

theorem entryAtApproach_of_out (atOut : loopOut s.cs.image a = some ch) (notA : loopA s.cs.image a ≠ some ch)
    (notB : loopB s.cs.image a ≠ some ch) : entryAtApproach ch stamp a s = loopCheckOut a s := by
  simp only [entryAtApproach, if_pos atOut, if_neg notA, if_neg notB]

/-- R108: the lost loop is no check-in B loop, or finds no arming. -/
theorem loseAtApproach_of_disarming (clear : loopB s.cs.image a ≠ some ch ∨ (apr s a).armedA = none) :
    (loseAtApproach ch a s).pu.list = s.pu.list ∧ apr (loseAtApproach ch a s) a =
      { apr s a with armedA := if loopA s.cs.image a = some ch then none else (apr s a).armedA } := by
  have atA : ∃ t, (if loopA s.cs.image a = some ch then disarm a s else s) = t ∧ t.pu.list = s.pu.list ∧
      apr t a = { apr s a with armedA := if loopA s.cs.image a = some ch then none else (apr s a).armedA } := by
    split
    · exact ⟨_, rfl, by simp [disarm], apr_setApr_self _ _ _⟩
    · exact ⟨_, rfl, rfl, rfl⟩
  obtain ⟨t, made, list, record⟩ := atA
  have lost : loseAtApproach ch a s = t := by
    unfold loseAtApproach
    dsimp only
    rw [made]
    rcases clear with notB | unarmed
    · exact if_neg notB
    · have still : (apr t a).armedA = none := by
        rw [record, unarmed]
        exact ite_self _
      rw [loseB_of_unarmed still]
      exact ite_self _
  rw [lost]
  exact ⟨list, record⟩

theorem loseAtApproach_of_B (atB : loopB s.cs.image a = some ch) (notA : loopA s.cs.image a ≠ some ch) :
    loseAtApproach ch a s = loseB a s := by
  simp only [loseAtApproach, if_pos atB, if_neg notA]

end

end Sys2Proof.Machine

namespace Sys2Proof.Machine

/-! ### A sample as an arrival at the approach -/

/-- R105: the sample hands its change on, the approach takes the entry, and forced demand comes last. -/
theorem loopSample_enters {ch : Channel} {a : Approach} {p b : Nat} {s : State}
    (kind : channelKind s.cs.image ch = .loop) (due : s.du.sampleIn = 0) (fresh : (det s ch).sampled = false)
    (vacant : (det s ch).state = .vacant) (run : 1 ≤ (det s ch).aboveRun) (lo : 16000 ≤ p) (hi : p ≤ 110000)
    (base : (det s ch).baseline = some b) (above : (onThreshold s.cs.image ch : Int) ≤ deviation b p)
    (others : ∀ x, x ≠ a → loopA s.cs.image x ≠ some ch ∧ loopB s.cs.image x ≠ some ch ∧
      loopOut s.cs.image x ≠ some ch) :
    ∃ new forced, new.state = .occupied ∧ loopSample (some p) ch s =
      forcedDemand ch forced (entryAtApproach ch (dnow s) a (changeHanded ch (det s ch) new true false s)) := by
  obtain ⟨occupied, stamp⟩ := loopRecord_of_entry vacant run lo hi base above
  obtain ⟨forced, made⟩ := loopSample_of_entry kind due fresh vacant occupied
  refine ⟨loopRecord s ch (some p), forced, occupied, ?_⟩
  rw [made]
  generalize loopRecord s ch (some p) = new at stamp ⊢
  have entered : (det (changeHanded ch (det s ch) new true false s) ch).lastEntry = some (dnow s) := by
    rw [det_changeHanded, if_pos rfl, stamp]
  have alike := changeHanded_tramAlike ch (det s ch) new true false s
  rw [loopEntered_of_one entered (by rw [alike.cs]; exact others)]

/-- R108: the sample raises its fault, hands its change on, and the approach loses the loop. -/
theorem loopSample_loses {ch : Channel} {a : Approach} {p : Option Nat} {s : State}
    (kind : channelKind s.cs.image ch = .loop) (due : s.du.sampleIn = 0) (fresh : (det s ch).sampled = false)
    (state : (det s ch).state = .vacant ∨ (det s ch).state = .occupied) (run : (det s ch).invalidRun = 7)
    (outside : ∀ q, p = some q → q < 16000 ∨ 110000 < q)
    (others : ∀ x, x ≠ a → loopA s.cs.image x ≠ some ch ∧ loopB s.cs.image x ≠ some ch) :
    ∃ u forced, TramAlike s u ∧ loopSample p ch s = forcedDemand ch forced (loseAtApproach ch a u) := by
  have before : (det s ch).state ≠ .fault := by rcases state with h | h <;> rw [h] <;> decide
  have fault : (loopRecord s ch p).state = .fault := by
    rw [loopRecord_of_invalid outside, invalidRecord_faults before run]
    rfl
  obtain ⟨forced, made⟩ := loopSample_of_loss kind due fresh before fault
  have alike := (latch_tramAlike .detectorFault (detailItem (number ch)) s).trans
    (changeHanded_tramAlike ch (det s ch) (loopRecord s ch p) false false _)
  exact ⟨_, forced, alike, made.trans (congrArg _ (loopStateChanged_of_one rfl (by rw [alike.cs]; exact others)))⟩

section
variable {ch : Channel} {a : Approach} {stamp : Time} {s u : State}

/-- R106, R119: the approach is armed, or stays so. -/
theorem armed_of_tramAlike {t v : State} {x : Time} (before : TramAlike s u) (after : TramAlike t v)
    (list : t.pu.list = u.pu.list)
    (record : apr t a = { apr u a with armedA := some ((apr u a).armedA.getD x) }) :
    v.pu.list.map Entry.core = s.pu.list.map Entry.core ∧
      apr v a = { apr s a with armedA := some ((apr s a).armedA.getD x) } := by
  rw [before.apr] at record
  exact ⟨after.entries.trans (list ▸ before.entries), (after.apr a).trans record⟩

theorem LoopCheckedIn.around {eta : Nat} {clamped single : Bool} {armed : Option Time} {t : State}
    (h : LoopCheckedIn a eta clamped single armed u t) (before : TramAlike s u) (forced : Bool) :
    LoopCheckedIn a eta clamped single armed s (forcedDemand ch forced t) :=
  (LoopCheckedIn.since before h).followed (forcedDemand_tramAlike ch forced t) (forcedDemand_posts ch forced t).events

end

/-! ### Entries by role -/

section
variable {ch : Channel} {a : Approach} {new : DetRec} {forced : Bool} {s t : State}
  (ht : t = forcedDemand ch forced (entryAtApproach ch (dnow s) a (changeHanded ch (det s ch) new true false s)))
include ht

/-- R106, R109. -/
theorem entry_at_A (atA : loopA s.cs.image a = some ch) (notB : loopB s.cs.image a ≠ some ch)
    (notOut : loopOut s.cs.image a ≠ some ch) :
    (loopAvailable s (loopB s.cs.image a) = true → t.pu.list.map Entry.core = s.pu.list.map Entry.core ∧
      apr t a = { apr s a with armedA := some ((apr s a).armedA.getD (dnow s)) }) ∧
    (loopAvailable s (loopB s.cs.image a) = false →
      LoopCheckedIn a (etaFromA s.cs.image a + dwell s.cs.image a) false true (apr s a).armedA s t) := by
  have before := changeHanded_tramAlike ch (det s ch) new true false s
  have availability := loopAvailable_changeHanded (old := det s ch) (new := new) (entry := true) (exit := false)
    (s := s) notB
  generalize changeHanded ch (det s ch) new true false s = u at ht before availability
  rw [← before.cs] at atA notB notOut availability ⊢
  rw [entryAtApproach_of_A atA notB notOut] at ht
  rw [ht, ← availability]
  refine ⟨fun available => ?_, fun lost => ?_⟩
  · obtain ⟨list, record⟩ := entryOnA_of_available (stamp := dnow s) available
    exact armed_of_tramAlike before (forcedDemand_tramAlike ch forced _) list record
  · rw [entryOnA_of_unavailable lost, ← before.apr]
    exact (loopCheckIn_checkedIn a _ false true u).around before forced

/-- R107, R109, R110. -/
theorem entry_at_B (atB : loopB s.cs.image a = some ch) (notA : loopA s.cs.image a ≠ some ch)
    (notOut : loopOut s.cs.image a ≠ some ch) :
    (∀ d, pairInterval s a (dnow s) = some d →
      LoopCheckedIn a (pairedEta s.cs.image a d) (pairClamped s.cs.image a d != d) false none s t) ∧
    (pairInterval s a (dnow s) = none →
      LoopCheckedIn a (etaFromB s.cs.image a + dwell s.cs.image a) false true none s t) := by
  have before := changeHanded_tramAlike ch (det s ch) new true false s
  have availability := loopAvailable_changeHanded (old := det s ch) (new := new) (entry := true) (exit := false)
    (s := s) notA
  generalize changeHanded ch (det s ch) new true false s = u at ht before availability
  have pairs : pairInterval u a (dnow s) = pairInterval s a (dnow s) := by
    rw [pairInterval, pairInterval, before.apr, before.cs, availability]
  rw [← before.cs] at atB notA notOut ⊢
  rw [entryAtApproach_of_B atB notA notOut] at ht
  rw [ht, ← pairs]
  exact ⟨fun d paired => (entryOnB_of_paired paired).around before forced,
    fun single => (entryOnB_of_single single).around before forced⟩

/-- R118: the check-out loop. -/
theorem entry_at_out (atOut : loopOut s.cs.image a = some ch) (notA : loopA s.cs.image a ≠ some ch)
    (notB : loopB s.cs.image a ≠ some ch) : ∃ u, TramAlike s u ∧ t = forcedDemand ch forced (loopCheckOut a u) := by
  have before := changeHanded_tramAlike ch (det s ch) new true false s
  generalize changeHanded ch (det s ch) new true false s = u at ht before
  rw [← before.cs] at atOut notA notB
  rw [entryAtApproach_of_out atOut notA notB] at ht
  exact ⟨u, before, ht⟩

/-- A channel without a role brings the check-out alone. -/
theorem entry_at_out_of_roleless (atOut : loopOut s.cs.image a = some ch) (notA : loopA s.cs.image a ≠ some ch)
    (notB : loopB s.cs.image a ≠ some ch) (role : channelRole s.cs.image ch = .none)
    (vacant : (det s ch).state = .vacant) (occupied : new.state = .occupied) :
    t = loopCheckOut a (setDet s ch new) := by
  rw [changeHanded_of_roleless role vacant occupied,
    entryAtApproach_of_out (s := setDet s ch new) atOut notA notB] at ht
  rw [ht]
  refine forcedDemand_of_roleless ?_ forced
  rw [(loopCheckOut_detectorAlike a _).cs]
  exact role

end

/-- R118: a check-out that finds no entry is counted. -/
theorem loopCheckOut_unmatched {a : Approach} {s u : State} (before : TramAlike s u)
    (none : ∀ e ∈ u.pu.list, e.approach = a → hadItsGroup e = false ∧ isDue (jnow u) e = false) :
    (loopCheckOut a u).pu.list = u.pu.list ∧ apr (loopCheckOut a u) a =
      { apr s a with unmatched := if (apr s a).unmatched = 0xFFFF#16 then (apr s a).unmatched
        else (apr s a).unmatched + 1 } := by
  rw [loopCheckOut_of_none (loopCheckOutEntry_of_none none), ← before.apr]
  exact ⟨setApr_pu_list _ _ _, apr_setApr_self _ _ _⟩

theorem isDue_iff (now : Time) (e : Entry) : isDue now e = true ↔ (now - e.ea).toNat < 2 ^ 31 := decide_eq_true_iff

/-- Settles O34, role by role: what comes before the approach takes the sample leaves what it reads, and what follows
leaves what it has written. -/
theorem loopEntriesArmCheckInAndCheckOut : Obligations.LoopEntriesArmCheckInAndCheckOut := by
  unfold Obligations.LoopEntriesArmCheckInAndCheckOut
  refine ⟨fun ch a p b s kind due fresh vacant run lo hi base above others => ?entry,
    fun ch a p s kind due fresh state run outside others => ?loss⟩
  case entry =>
    refine ⟨_, exec_loopSample ch (some p) s, ?_⟩
    obtain ⟨new, forced, occupied, made⟩ := loopSample_enters kind due fresh vacant run lo hi base above others
    have before := changeHanded_tramAlike ch (det s ch) new true false s
    refine ⟨fun x ne => ?others, fun atA notB notOut => ?A, fun atB notA notOut => ?B, fun atOut notA notB => ?out⟩
    case others =>
      rw [made, (forcedDemand_tramAlike ch forced _).apr, entryAtApproach_others ne, before.apr]
    case A =>
      obtain ⟨arms, checksIn⟩ := entry_at_A made atA notB notOut
      refine ⟨fun c hc state => arms ?_, fun lost => checksIn ?_⟩
      · rw [hc]
        exact (loopAvailable_some s c).2 state
      · rw [← Bool.not_eq_true]
        intro available
        cases hc : loopB s.cs.image a with
        | none =>
          rw [hc] at available
          cases available
        | some c =>
          rw [hc] at available
          exact ((loopAvailable_some s c).1 available).elim (lost c hc).1 (lost c hc).2
    case B =>
      obtain ⟨pairs, singles⟩ := entry_at_B made atB notA notOut
      refine ⟨fun c x d least most hc state armed short hleast hmost hd => ?_, fun lost => singles ?_⟩
      · have available : loopAvailable s (loopA s.cs.image a) = true := by
          rw [hc]
          exact (loopAvailable_some s c).2 state
        have clamped : d = pairClamped s.cs.image a (elapsed (dnow s) x) := by
          rw [hd, hleast, hmost]
          rfl
        rw [clamped]
        exact pairs _ (pairInterval_of_paired armed available short)
      · refine pairInterval_of_single fun x armed => ?_
        cases hc : loopA s.cs.image a with
        | none => exact .inl rfl
        | some c =>
          refine (lost c x hc armed).imp_left fun ⟨vacant, occupied⟩ => ?_
          rw [← Bool.not_eq_true, loopAvailable_some, not_or]
          exact ⟨vacant, occupied⟩
    case out =>
      refine ⟨fun none => ?absent, fun role => ?_⟩
      case absent =>
        obtain ⟨u, alike, ht⟩ := entry_at_out made atOut notA notB
        have absent : ∀ e ∈ u.pu.list, e.approach ≠ a := fun e he => by
          obtain ⟨x, hx, core⟩ := List.mem_map.1 (alike.entries ▸ List.mem_map_of_mem (f := Entry.core) he)
          exact approach_of_core core ▸ none x hx
        obtain ⟨list, record⟩ := loopCheckOut_unmatched alike fun e he on => absurd on (absent e he)
        have after := forcedDemand_tramAlike ch forced (loopCheckOut a u)
        rw [ht, after.apr, record, after.entries, list]
        exact ⟨alike.entries, rfl⟩
      have ht := entry_at_out_of_roleless made atOut notA notB role vacant occupied
      have alike := setDet_tramAlike s ch new
      rw [ht]
      refine ⟨fun none => ?unmatched, fun e he q reads hq first => ?matched⟩
      case unmatched =>
        refine loopCheckOut_unmatched alike fun e he on => ?_
        obtain ⟨extending, serving, released, later⟩ := none e he on
        exact ⟨(hadItsGroup_eq_false_iff e).2 ⟨extending, serving, released⟩, decide_eq_false (not_lt.2 later)⟩
      case matched =>
        have found : loopCheckOutEntry (setDet s ch new) a = some e := by
          refine loopCheckOutEntry_of_first (q := q) ?_ he hq first
          simp only [hadItsGroup_iff, hadItsGroup_eq_false_iff, isDue_iff]
          exact reads
        have removed := loopCheckOut_of_some found
        refine ⟨?_, removed.cause, (apr_of_approaches removed.approaches a).trans (alike.apr a), removed.posted⟩
        simp only [decide_not]
        exact removed.entries
  case loss =>
    refine ⟨_, exec_loopSample ch p s, ?_⟩
    obtain ⟨u, forced, before, made⟩ := loopSample_loses kind due fresh state run outside others
    have after := forcedDemand_tramAlike ch forced (loseAtApproach ch a u)
    refine ⟨fun x ne => ?others, fun clear => ?disarming, fun x atB notA armed => ?checkIn⟩
    case others => rw [made, after.apr, loseAtApproach_others ne, before.apr]
    case disarming =>
      obtain ⟨list, record⟩ := loseAtApproach_of_disarming (ch := ch) (a := a) (s := u)
        (by rw [before.cs, before.apr]; exact clear)
      rw [made, after.apr, record, after.entries, list, before.apr, before.cs]
      exact ⟨before.entries, rfl⟩
    case checkIn =>
      rw [← before.cs] at atB notA ⊢
      rw [← before.apr] at armed
      rw [← before.dclock, made, loseAtApproach_of_B atB notA]
      exact (loseB_of_armed armed).around before forced

end Sys2Proof.Machine

/-! ## What the later walks of an arrival leave of the priority unit (R126, R132) -/

namespace Sys2Proof.Machine

/-! ### The operations of a round -/

/-- What every walk keeps of the priority unit's records, whatever the overlay. -/
structure WalksKeep (P : Pu → Prop) : Prop where
  walks : ∀ (leave : Bool) (s : State), P s.pu → P (walkWith leave s).pu
  overlays : ∀ (p : Pu) (o : Vector Overlay 24), P p → P { p with overlay := o }

/-- R132: a recall goes into service at an entry to PROCEED_MIN alone. -/
theorem puOnChange_of_past_min {s : State} {g : Group} (h : (grp s g).state ≠ .proceedMin) :
    puOnChange s g = walk s ∨ puOnChange s g = reformOverlay s ∨ puOnChange s g = s := by
  unfold puOnChange
  rw [if_neg h]
  dsimp only
  split
  · exact .inl rfl
  · split
    · exact .inr (.inl rfl)
    · exact .inr (.inr rfl)

theorem Follows.past_min {own : Group → Bool} {s t : State} (h : Follows own s t) {g : Group}
    (past : (grp s g).state ≠ .proceedMin) : (grp t g).state ≠ .proceedMin := by
  rcases (h.groups g).state with kept | ⟨_, clearance⟩
  · rwa [kept]
  · simp [clearance]

namespace WalksKeep
variable {P : Pu → Prop}

theorem puOnChange {s : State} {g : Group} (k : WalksKeep P) (past : (grp s g).state ≠ .proceedMin) (h : P s.pu) :
    P (puOnChange s g).pu := by
  rcases puOnChange_of_past_min past with walked | formed | same
  · rw [walked]; exact k.walks false s h
  · rw [formed]; exact k.overlays s.pu _ h
  · rw [same]; exact h

theorem foldl_puOnChange (k : WalksKeep P) {gs : List Group} {s : State}
    (past : ∀ g ∈ gs, (grp s g).state ≠ .proceedMin) (h : P s.pu) : P (gs.foldl Machine.puOnChange s).pu := by
  induction gs generalizing s with
  | nil => exact h
  | cons g gs ih =>
    have follows := puOnChange_follows s g
    exact ih (fun c mem => follows.past_min (past c (List.mem_cons_of_mem _ mem)))
      (k.puOnChange (past g List.mem_cons_self) h)

/-- R13: the groups that a round hands to the priority unit are in CLEARANCE. -/
theorem engineRound (k : WalksKeep P) {s : State} (h : P s.pu) : P (engineRound s).pu := by
  refine k.foldl_puOnChange (fun g mem => ?_) (by simpa [endProceeds] using h)
  rw [grp_endRound]
  rcases afterEvaluation_state s g with ⟨_, clearance, _⟩ | ⟨stays, _⟩
  · simp [clearance]
  · rw [mem_terminating, stays] at mem; cases mem

theorem overlayArrival (k : WalksKeep P) (before : State) {s : State} (h : P s.pu) :
    P (overlayArrival before s).pu := by
  unfold Machine.overlayArrival
  split
  · exact h
  · refine settleRounds_keeps (P := fun u => P u.pu) (fun u hu => ?_) (fun u hu => ?_) (fun _ => k.engineRound) 80 true _ h
    · rwa [evalReached_pu]
    · rwa [evalStage_pu]

end WalksKeep

/-! ### One walk, read backwards -/

theorem exists_of_walkedList_at {leave : Bool} {m : State} {k : Nat} {f : Entry} (hf : (walkedList leave m)[k]? = some f) :
    ∃ e, m.pu.list[k]? = some e := by
  obtain ⟨inside, _⟩ := List.getElem?_eq_some_iff.1 hf
  rw [walkedList_length] at inside
  exact ⟨_, List.getElem?_eq_getElem inside⟩

theorem walkWith_enabled (leave : Bool) (m : State) : (walkWith leave m).pu.enabled = m.pu.enabled := by
  rw [(walkWith_follows leave m).pu]

/-- R128 to R130: the second pass brings no entry into service. -/
theorem secondPassEntry_serving {m : State} {i : Option Time} {taken : List Group} {e : Entry}
    (h : (secondPassEntry m i taken e).1.state = some .serving) : e.state = some .serving := by
  by_cases stands : committed m e = true ∨ e.state = some .released
  · rwa [secondPassEntry_stands stands] at h
  · unfold secondPassEntry at h
    rw [if_neg (by simpa using stands)] at h
    repeat' split at h
    all_goals exact absurd h nofun

/-- R127: the first pass brings no entry into service. -/
theorem firstPassed_serving {leave : Bool} {m : State} {e : Entry}
    (h : (firstPassed m leave e).state = some .serving) : e.state = some .serving := by
  unfold firstPassed at h
  cases firstPassEntry_cases m leave none e with
  | uncommitted _ result => rwa [result] at h
  | noted _ _ result => rw [result] at h; cases h
  | gated _ _ _ _ result => rw [result] at h; cases h
  | stands _ _ result => rwa [result] at h
  | released _ result => rw [result] at h; cases h

/-- A SERVING entry after a walk is one after its first pass. -/
theorem walkedList_serving {leave : Bool} {m : State} {f : Entry} (mem : f ∈ walkedList leave m)
    (serving : f.state = some .serving) : ∃ e ∈ m.pu.list, (firstPassed m leave e).state = some .serving := by
  obtain ⟨k, hf⟩ := List.mem_iff_getElem?.1 mem
  obtain ⟨e, he⟩ := exists_of_walkedList_at hf
  obtain ⟨_, decided, _⟩ := secondPass_at (e := firstPassed m leave e) (by simp [he]) hf
  rw [decided] at serving
  exact ⟨e, List.mem_of_getElem? he, secondPassEntry_serving serving⟩

/-! ### Three things that the later walks keep -/

/-- R126: the entries that were RELEASED in the list `l` stand at their places. -/
def ReleasedStand (l : List Entry) (p : Pu) : Prop :=
  ∀ (k : Nat) (e : Entry), l[k]? = some e → e.state = some .released → p.list[k]? = some e

theorem releasedStand_walksKeep (l : List Entry) : WalksKeep (ReleasedStand l) where
  walks := fun leave s stand k e he state => by
    have at_ := stand k e he state
    obtain ⟨f, hf⟩ := exists_walkedList_at leave at_
    rw [walkWith_list, hf, (walkedList_decides at_ hf).skipped state]
  overlays := fun _ _ stand => stand

/-- R134: no entry is SERVING and the inhibit-until is `i`, which only a SERVING entry raises. -/
def NoneServes (i : Option Time) (p : Pu) : Prop :=
  (∀ e ∈ p.list, e.state ≠ some .serving) ∧ p.inhibitUntil = i

/-- A walk whose first pass leaves no SERVING entry. -/
theorem walkWith_noneServes {leave : Bool} {m : State}
    (h : ∀ e ∈ m.pu.list, (firstPassed m leave e).state ≠ some .serving) :
    NoneServes (walkedInhibit leave m) (walkWith leave m).pu := by
  refine ⟨fun f mem serving => ?_, walkWith_inhibitUntil leave m⟩
  rw [walkWith_list] at mem
  obtain ⟨e, he, serves⟩ := walkedList_serving mem serving
  exact h e he serves

theorem noneServes_walksKeep (i : Option Time) : WalksKeep (NoneServes i) where
  walks := fun leave s h => by
    obtain ⟨none, inhibit⟩ := h
    have stands : walkedInhibit leave s = i :=
      (firstPass_inhibit fun e mem serving => absurd serving (none e mem)).trans inhibit
    rw [← stands]
    exact walkWith_noneServes fun e mem serving => none e mem (firstPassed_serving serving)
  overlays := fun _ _ h => h

/-- R140: the enable is off and no entry acts. -/
def DisabledIdle (p : Pu) : Prop :=
  p.enabled = false ∧ ∀ e ∈ p.list, ∀ st, e.state = some st → st.acting = false

/-- R127, R128: with the enable off the gate is shut to every entry. -/
theorem walkWith_disabledIdle (leave : Bool) {m : State} (off : m.pu.enabled = false) :
    DisabledIdle (walkWith leave m).pu := by
  refine ⟨(walkWith_enabled leave m).trans off, fun f mem st state => ?_⟩
  rw [walkWith_list] at mem
  obtain ⟨k, hf⟩ := List.mem_iff_getElem?.1 mem
  obtain ⟨e, he⟩ := exists_of_walkedList_at hf
  have decides := walkedList_decides he hf
  have shut : ¬GateOpen m e := fun ⟨_, on, _⟩ => by rw [off] at on; cases on
  by_cases released : e.state = some .released
  · rw [decides.skipped released, released] at state
    cases state; rfl
  · by_cases rank : e.rank = 3
    · rw [decides.rank3 released rank] at state
      cases state; rfl
    · rw [decides.gated released rank shut] at state
      cases state; rfl

theorem disabledIdle_walksKeep : WalksKeep DisabledIdle where
  walks := fun leave _ ⟨off, _⟩ => walkWith_disabledIdle leave off
  overlays := fun _ _ h => h

/-! ### Rounds that end nothing -/

/-- R13, R72: with nothing to terminate and the sequencer at rest, an arrival runs no walk of its own. -/
theorem settleRounds_pu_of_quiet {n : Nat} {sel fbs : Bool} {s : State} (rests : fbsActs s = false)
    (quiet : terminating s = []) : (settleRounds n sel fbs s).pu = s.pu := by
  induction n generalizing sel fbs s with
  | zero => rfl
  | succ n ih =>
    have reported : (if sel then evalReached s else s).pu = s.pu ∧ fbsActs (if sel then evalReached s else s) = false ∧
        terminating (if sel then evalReached s else s) = [] := by
      split
      · exact ⟨evalReached_pu s, (evalReached_follows s).acts.trans rests, (terminating_evalReached s).trans quiet⟩
      · exact ⟨rfl, rests, quiet⟩
    unfold settleRounds
    rw [if_pos quiet]
    generalize (if sel then evalReached s else s) = u at reported ⊢
    obtain ⟨pu, acts, none⟩ := reported
    dsimp only
    rw [evalStage_of_not_acts acts, ← pu]
    split
    · exact ih acts none
    · rfl

theorem overlayArrival_pu_of_quiet {before s : State} (rests : fbsActs s = false) (quiet : terminating s = []) :
    (overlayArrival before s).pu = s.pu := by
  unfold overlayArrival
  split
  · rfl
  · exact settleRounds_pu_of_quiet rests quiet

end Sys2Proof.Machine

/-! ## HOLD_END, RECALL_INHIBIT_END and EXPIRY (R133, R134, R136, R137) -/

namespace Sys2Proof.Machine

/-- R133: a hold end is one walk. -/
theorem exec_holdEnd_of_due {s : State} (due : ∃ e ∈ s.pu.list, holdDue s e = true) :
    exec .holdEnd s = .next (overlayArrival s (walkWith false (endHolds s))) :=
  congrArg Host.Outcome.next (if_pos (List.any_eq_true.2 due))

theorem expired_eq_true_iff {s : State} {e : Entry} : expired s e = true ↔ isAfter (jnow s) e.expiry = false :=
  by
  rw [expired, Bool.not_eq_true']

theorem expire_of_expired {s : State} (due : ∃ e ∈ s.pu.list, isAfter (jnow s) e.expiry = false) :
    expire s = walkArrival s (removeEntries (expired s) .expired s) := by
  obtain ⟨e, mem, past⟩ := due
  exact if_pos (List.any_eq_true.2 ⟨e, mem, expired_eq_true_iff.2 past⟩)

/-- R133: a due hold that has been ended stands as RELEASED in the list that the walk takes. -/
theorem endHolds_at {s : State} {k : Nat} {e : Entry} (he : s.pu.list[k]? = some e) (due : holdDue s e = true) :
    (endHolds s).pu.list[k]? = some (released e) := by
  unfold endHolds
  simp [he, due]

/-- R126: an entry RELEASED before a walk's arrival stands through it. -/
theorem overlayArrival_walkWith_released {leave : Bool} {s m : State} {k : Nat} {e : Entry}
    (he : m.pu.list[k]? = some e) (state : e.state = some .released) :
    (overlayArrival s (walkWith leave m)).pu.list[k]? = some e := by
  have keeps := releasedStand_walksKeep m.pu.list
  have start : ReleasedStand m.pu.list m.pu := fun _ _ at_ _ => at_
  exact keeps.overlayArrival s (keeps.walks leave m start) k e he state

/-- R134: the inhibit-until of the arrival is the one that the first pass of its walk carries on, where that pass leaves
no SERVING entry to raise it again, or no later walk comes. -/
theorem overlayArrival_walkWith_inhibit {leave : Bool} {s m : State}
    (h : (∀ e ∈ (firstPass m leave m.pu.inhibitUntil m.pu.list).1, e.state ≠ some .serving) ∨
      fbsActs m = false ∧ terminating (walkWith leave m) = []) :
    (overlayArrival s (walkWith leave m)).pu.inhibitUntil =
      (firstPass m leave m.pu.inhibitUntil m.pu.list).2 := by
  rcases h with none | ⟨rests, quiet⟩
  · rw [firstPass_list] at none
    have walked := walkWith_noneServes (m := m) fun e mem => none _ (List.mem_map_of_mem mem)
    exact ((noneServes_walksKeep _).overlayArrival s walked).2
  · rw [overlayArrival_pu_of_quiet ((walkWith_follows leave m).acts.trans rests) quiet]
    exact walkWith_inhibitUntil leave m

/-- Settles O12: either end is one walk at `m`, after which RELEASED entries stand and only a SERVING entry raises the
inhibit; the expiry is a removal from the list. -/
theorem priorityTimesEndHoldsAndEntries : Obligations.PriorityTimesEndHoldsAndEntries := by
  unfold Obligations.PriorityTimesEndHoldsAndEntries
  refine ⟨fun c s m arrival => ?ends, fun s due => ?expiry⟩
  case ends =>
    obtain ⟨ran, acts, due⟩ : exec c s = .next (overlayArrival s (walkWith (decide (c = .recallInhibitEnd)) m)) ∧
        fbsActs m = fbsActs s ∧ (∀ (k : Nat) (e : Entry), c = .holdEnd → s.pu.list[k]? = some e → holdDue s e = true →
          m.pu.list[k]? = some (released e)) := by
      rcases arrival with ⟨rfl, due, rfl⟩ | ⟨rfl, ⟨u, until_, reached⟩, rfl⟩
      · rw [decide_eq_false (p := Instr.holdEnd = .recallInhibitEnd) nofun]
        exact ⟨exec_holdEnd_of_due due, rfl, fun _ _ _ => endHolds_at⟩
      · rw [decide_eq_true rfl, ← recallInhibitEnd_of_reached until_ reached]
        exact ⟨rfl, rfl, fun _ _ other => absurd other nofun⟩
    refine ⟨_, ran, (walkWith_follows _ m).trans (overlayArrival_follows s _), fun k e hc he hold => ?_, ?_⟩
    · exact overlayArrival_walkWith_released (due k e hc he hold) rfl
    · rintro l i _ rfl pass calm
      obtain ⟨rfl, rfl⟩ := Prod.mk.inj pass
      rw [← acts] at calm
      exact overlayArrival_walkWith_inhibit calm
  case expiry =>
    have removed := removal_removed (expired s) .expired s
    refine ⟨_, congrArg Host.Outcome.next (expire_of_expired due), removed.cause, removed.posted, ?_, removed.groups,
      removed.cs, removed.du, removed.clp, removed.mode, ?_⟩
    · simpa [expired] using removed.entries
    · rw [(walkArrival_follows s _).owner]
      simp [removeEntries, postRemoved]

end Sys2Proof.Machine

/-! ## SET_DIM and ENABLE_PRIORITY (R140, R150) -/

namespace Sys2Proof.Machine

/-- R192: the requests of stations 1 and 4 reach their blocks while none is in flight. -/
theorem exec_setDim {i : Station} {b : Byte} {s : State} (free : inFlight s = false) (role : i = 0 ∨ i = 3) :
    exec (.setDim (number i) b) s = .next (setDim b i s) := by
  have allowed : RequestKind.setDim.allows i = true := by rcases role with rfl | rfl <;> rfl
  exact congrArg Host.Outcome.next (asked_number .setDim i (setDim b) s free allowed)

/-- R150: the pending state as written, and the reply with the active and the pending state. -/
theorem setDim_of_byte (d : Dim) (i : Station) (s : State) : setDim d.byte i s =
    answer .setDim .done [s.lou.dim.byte, 1, d.byte] (setPendingDim d s) := by
  cases d <;> rfl

theorem setDim_of_large {b : Byte} (large : 1 < b.toNat) (i : Station) (s : State) :
    setDim b i s = answer .setDim .refusedInvalid (dimFields s) s := by
  have ne_zero : b ≠ 0 := by rintro rfl; simp at large
  have ne_one : b ≠ 1 := by rintro rfl; simp at large
  rw [setDim, if_neg ne_zero, if_neg ne_one]

theorem flagByte_of_flag {b : Byte} (flag : b.toNat ≤ 1) : flagByte (decide (b = 1)) = b := by
  unfold flagByte
  by_cases one : b = 1
  · simp [one]
  · rw [if_neg (by simpa using one)]
    bv_omega

theorem exec_enablePriority {i : Station} {b : Byte} {s : State} (free : inFlight s = false) (role : i = 0 ∨ i = 3) :
    exec (.enablePriority (number i) b) s = .next (enablePriority b i s) := by
  have allowed : RequestKind.enablePriority.allows i = true := by rcases role with rfl | rfl <;> rfl
  exact congrArg Host.Outcome.next (asked_number .enablePriority i (enablePriority b) s free allowed)

/-- R140: a request that leaves the enable as it stands. -/
theorem exec_enablePriority_same {i : Station} {b : Byte} {s : State} (free : inFlight s = false)
    (role : i = 0 ∨ i = 3) (flag : b.toNat ≤ 1) (same : s.pu.enabled = decide (b = 1)) :
    exec (.enablePriority (number i) b) s = .next (answer .enablePriority .done [b] s) := by
  have stands : setEnable (decide (b = 1)) s = s := if_pos same
  rw [exec_enablePriority free role, enablePriority, if_neg (by omega), stands, flagByte_of_flag flag]

/-- Settles O50: SET_DIM writes one field; ENABLE_PRIORITY answers beside one walk, which with the enable off leaves no
entry acting, and no later walk of the arrival makes one act. -/
theorem setDimAndEnablePriority : Obligations.SetDimAndEnablePriority := by
  unfold Obligations.SetDimAndEnablePriority
  refine ⟨fun i b d s free role => ⟨fun hb => ?dim, fun large => ?refused⟩,
    fun i b s m free role flag hm => ⟨fun same => ?same, fun change => ?change⟩⟩
  case dim =>
    rw [exec_setDim free role, hb, setDim_of_byte]
    rfl
  case refused =>
    rw [exec_setDim free role, setDim_of_large large]
    rfl
  case same =>
    rw [exec_enablePriority_same free role flag same]
    rfl
  case change =>
    subst hm
    refine ⟨_, exec_enablePriority_change free role flag change, ?follows, fun states => ?walked, fun off => ?idle⟩
    case follows =>
      rw [flagByte_of_flag flag]
      have follows := (walkWith_follows false { s with pu := { s.pu with enabled := decide (b = 1) } }).trans
        (overlayArrival_follows s _)
      have reply := congrArg (answered .enablePriority .done [b]) follows.clp
      rw [answer_eq, reply]
      exact follows.with_clp _
    case walked => exact (AfterWalk.overlayArrival (leave := false) states).pu
    case idle =>
      have disabled : decide (b = 1) = false := by rw [off]; rfl
      exact (disabledIdle_walksKeep.overlayArrival s (walkWith_disabledIdle false disabled)).2

end Sys2Proof.Machine

/-! ## The lamp commands of every step (R148)

`CommandLaw` is taken through every operation. Detections, red-outs and what follows an arrival keep it by `Shuts` and
`Follows`; a change of mode commands every lamp anew, a group's move the group's own. -/

namespace Sys2Proof.Machine

/-- The law reads the lamps' commands, the mode record, the groups' kinds and the groups' states. -/
theorem CommandLaw.of_alike {s t : State} (h : CommandLaw s) (lamps : ∀ ch, (lamp t ch).command = (lamp s ch).command)
    (mode : t.mfs.mode = s.mfs.mode) (sub : t.mfs.sub = s.mfs.sub)
    (kinds : ∀ g, groupKind t.cs.image g = groupKind s.cs.image g) (states : ∀ g, (grp t g).state = (grp s g).state) :
    CommandLaw t := fun ch => by rw [lamps, h ch, derivedCommand, derivedCommand, mode, sub, kinds, states]

/-- A state that agrees in the parts that the law reads. -/
theorem CommandLaw.of_parts {s t : State} (h : CommandLaw s) (sge : t.sge.groups = s.sge.groups)
    (lou : t.lou.channels = s.lou.channels) (mfs : t.mfs.mode = s.mfs.mode ∧ t.mfs.sub = s.mfs.sub)
    (image : t.cs.image = s.cs.image) : CommandLaw t :=
  h.of_alike (fun ch => by unfold lamp; rw [lou]) mfs.1 mfs.2 (fun g => by rw [image]) fun g => by unfold grp; rw [sge]

theorem CommandLaw.ite {p : Prop} [Decidable p] {s t : State} (h : CommandLaw s) (k : CommandLaw t) :
    CommandLaw (if p then s else t) := by
  split
  · exact h
  · exact k

theorem CommandLaw.foldl {α : Type} {f : State → α → State} (step : ∀ s a, CommandLaw s → CommandLaw (f s a))
    (l : List α) {s : State} (h : CommandLaw s) : CommandLaw (l.foldl f s) := by
  induction l generalizing s with
  | nil => exact h
  | cons a l ih => exact ih (step s a h)

theorem CommandLaw.eachItem {n : Nat} {f : Fin n → State → State} (step : ∀ i {s}, CommandLaw s → CommandLaw (f i s))
    {s : State} (h : CommandLaw s) : CommandLaw (eachItem f s) := h.foldl (fun _ i => step i) _

/-- R148: what follows an arrival commands the arrival's own groups anew, and leaves the other lamps right. -/
theorem Follows.commandLaw_own {own : Group → Bool} {s t : State} (f : Follows own s t)
    (others : ∀ ch, own (lampGroup ch) = false → (lamp s ch).command = derivedCommand s ch) : CommandLaw t := by
  intro ch
  cases hown : own (lampGroup ch) with
  | true => rw [f.ownLamps ch hown]
  | false =>
    rw [f.lamps ch hown]
    split
    · rename_i same
      rw [others ch hown, derivedCommand_congr f.mode f.sub f.cs same]
    · exact recommand_command _ _ _

theorem Follows.commandLaw {own : Group → Bool} {s t : State} (f : Follows own s t) (h : CommandLaw s) : CommandLaw t :=
  f.commandLaw_own fun ch _ => h ch

/-! ### The writers -/

theorem setGroups_commandLaw {s : State} {f : Group → GroupRec} (h : CommandLaw s)
    (states : ∀ g, (f g).state = (grp s g).state) : CommandLaw (setGroups s f) :=
  h.of_alike (fun _ => by simp) (by simp) (by simp) (fun _ => by simp) fun g => by simp [states]

theorem setLamp_commandLaw {s : State} {c : Lamp} {r : LampRec} (h : CommandLaw s)
    (command : r.command = (lamp s c).command) : CommandLaw (setLamp s c r) := by
  refine h.of_alike (fun ch => ?_) rfl rfl (fun _ => rfl) fun _ => rfl
  rw [lamp_setLamp]
  split
  · rename_i same; rw [← same, command]
  · rfl

theorem setLamps_commandLaw {s : State} {f : Lamp → LampRec} (h : CommandLaw s)
    (commands : ∀ ch, (f ch).command = (lamp s ch).command) : CommandLaw (setLamps s f) :=
  h.of_alike (fun ch => by simp [commands]) (by simp) (by simp) (fun _ => by simp) fun _ => by simp

theorem setApr_commandLaw {s : State} {a : Approach} {r : ApproachRec} (h : CommandLaw s) : CommandLaw (setApr s a r) :=
  h.of_parts rfl rfl ⟨rfl, rfl⟩ rfl

theorem setDet_commandLaw {s : State} {ch : Channel} {r : DetRec} (h : CommandLaw s) : CommandLaw (setDet s ch r) :=
  h.of_parts rfl rfl ⟨rfl, rfl⟩ rfl

theorem setStation_commandLaw {s : State} {i : Station} {r : StationRec} (h : CommandLaw s) :
    CommandLaw (setStation s i r) := h.of_parts rfl rfl ⟨rfl, rfl⟩ rfl

theorem setPu_commandLaw {s : State} {p : Pu} (h : CommandLaw s) : CommandLaw { s with pu := p } :=
  h.of_parts rfl rfl ⟨rfl, rfl⟩ rfl

theorem setCs_commandLaw {s : State} {c : Cs} (image : c.image = s.cs.image) (h : CommandLaw s) :
    CommandLaw { s with cs := c } := h.of_parts rfl rfl ⟨rfl, rfl⟩ image

theorem setClp_commandLaw {s : State} {c : Clp} (h : CommandLaw s) : CommandLaw { s with clp := c } :=
  h.of_parts rfl rfl ⟨rfl, rfl⟩ rfl

theorem post_commandLaw {e : Event} {s : State} (h : CommandLaw s) : CommandLaw (post e s) :=
  (post_shuts e s).commands h

theorem postIf_commandLaw {b : Bool} {e : Event} {s : State} (h : CommandLaw s) : CommandLaw (postIf b e s) :=
  (postIf_shuts b e s).commands h

theorem detect_commandLaw {k : FaultKind} {d : BitVec 72} {s : State} (h : CommandLaw s) : CommandLaw (detect k d s) :=
  (detect_shuts k d s).commands h

theorem foldl_becomeRedOut_commandLaw {gs : List Group} {s : State} (h : CommandLaw s) :
    CommandLaw (gs.foldl (fun t g => becomeRedOut g t) s) := (foldl_becomeRedOut_shuts gs s).commands h

theorem removeEntries_commandLaw {p : Entry → Bool} {c : RemovalCause} {s : State} (h : CommandLaw s) :
    CommandLaw (removeEntries p c s) := by
  refine h.of_parts ?_ ?_ ⟨?_, ?_⟩ ?_ <;> simp [removeEntries, postRemoved]

theorem admitEntry_commandLaw {e : Entry} {s t : State} (admitted : admitEntry e s = some t) (h : CommandLaw s) :
    CommandLaw t := by
  obtain ⟨rest, mfs, _⟩ := admitEntry_frame e s t admitted
  exact h.of_parts (by rw [rest]) (by rw [rest]) ⟨by rw [mfs], by rw [mfs]⟩ (by rw [rest])

theorem walkArrival_commandLaw {before s : State} (h : CommandLaw s) : CommandLaw (walkArrival before s) :=
  (walkArrival_follows before s).commandLaw h

/-! ### The selector and the sequencer -/

/-- R58, R62. -/
theorem setTarget_commandLaw {w : GroupSet} {s : State} (h : CommandLaw s) : CommandLaw (setTarget w s) := by
  refine (setTarget_follows_written w s).commandLaw (setGroups_commandLaw ?_ fun _ => rfl)
  exact h.of_parts rfl rfl ⟨rfl, rfl⟩ rfl

/-- R68. -/
theorem takeover_commandLaw {s : State} (h : CommandLaw s) : CommandLaw (takeover s) :=
  setTarget_commandLaw (h.of_parts rfl rfl ⟨rfl, rfl⟩ rfl)

/-- R48. -/
theorem changeOwner_commandLaw {o : Owner} {r : Rank} {s : State} (h : CommandLaw s) :
    CommandLaw (changeOwner o r s) := by
  by_cases same : s.sel.owner = o ∧ s.sel.rank = r
  · rw [changeOwner_same o r s same]
    exact h
  · exact (changeOwner_follows o r s same).commandLaw (post_commandLaw (h.of_parts rfl rfl ⟨rfl, rfl⟩ rfl))

/-- R53, R199. -/
theorem silenceExpiry_commandLaw (i : Station) {s : State} (h : CommandLaw s) : CommandLaw (silenceExpiry i s) := by
  have silent := post_commandLaw (e := .stationSilent) (detect_commandLaw (k := .stationSilent)
    (d := detailItem (number i)) (setStation_commandLaw (i := i) (r := { station s i with silent := true }) h))
  exact .ite (.ite (changeOwner_commandLaw silent) silent) h

theorem fbsEvaluate_commandLaw {s : State} (h : CommandLaw s) : CommandLaw (fbsEvaluate s) :=
  (settleStage_follows _).commandLaw (h.of_parts rfl rfl ⟨rfl, rfl⟩ rfl)

theorem gapOut_commandLaw (g : Group) {s : State} (h : CommandLaw s) : CommandLaw (gapOut g s) :=
  .ite (fbsEvaluate_commandLaw h) h

theorem advanceStage_commandLaw {s : State} (h : CommandLaw s) : CommandLaw (advanceStage s) :=
  .ite (fbsEvaluate_commandLaw h) h

/-! ### The groups -/

/-- The lamps of every group but `g` show the command derived for them. -/
def CommandsBut (g : Group) (s : State) : Prop := ∀ ch, lampGroup ch ≠ g → (lamp s ch).command = derivedCommand s ch

theorem CommandsBut.setGrp {g : Group} {s : State} (h : CommandsBut g s) (r : GroupRec) :
    CommandsBut g (setGrp s g r) := by
  intro ch other
  have states : grp (Machine.setGrp s g r) (lampGroup ch) = grp s (lampGroup ch) := by
    rw [grp_setGrp, if_neg other.symm]
  rw [setGrp_lamp, h ch other]
  exact (derivedCommand_congr (s := s) (t := Machine.setGrp s g r) rfl rfl rfl (congrArg GroupRec.state states)).symm

theorem CommandLaw.setGrp {s : State} (h : CommandLaw s) (g : Group) (r : GroupRec) :
    CommandsBut g (Machine.setGrp s g r) := CommandsBut.setGrp (fun ch _ => h ch) r

theorem CommandsBut.evaluateGroup {g : Group} {s : State} (h : CommandsBut g s) :
    CommandsBut g (Machine.evaluateGroup g s) := fun ch other => by
  simpa [Machine.evaluateGroup] using h.setGrp (afterEvaluation s g) ch other

/-- R7, R148: a group's move commands the group's lamps anew. -/
theorem groupMoved_commandLaw {g : Group} {s : State} (h : CommandsBut g s) : CommandLaw (groupMoved g s) :=
  (groupMoved_follows g s).commandLaw_own fun ch other => h ch (by simpa using other)

theorem startGroup_commandLaw (g : Group) {s : State} (h : CommandLaw s) : CommandLaw (startGroup g s) :=
  .ite (groupMoved_commandLaw (h.setGrp g _)) h

theorem endPrepare_commandLaw (g : Group) {s : State} (h : CommandLaw s) : CommandLaw (endPrepare g s) :=
  .ite (groupMoved_commandLaw (h.setGrp g _)) h

theorem endMinProceed_commandLaw (g : Group) {s : State} (h : CommandLaw s) : CommandLaw (endMinProceed g s) :=
  .ite (groupMoved_commandLaw (h.setGrp g _).evaluateGroup) h

theorem maxOut_commandLaw (g : Group) {s : State} (h : CommandLaw s) : CommandLaw (maxOut g s) :=
  .ite (groupMoved_commandLaw (CommandsBut.evaluateGroup fun ch _ => h ch)) h

/-- R148: the commands in CLOSING are those by group state in either sub-phase. -/
theorem checkClosing_commandLaw {s : State} (h : CommandLaw s) : CommandLaw (checkClosing s) := by
  unfold checkClosing
  split
  · rename_i closing
    intro ch
    have derived : derivedCommand (setMode .closing (some .clAllred) s.mfs.goal s) ch = derivedCommand s ch := by
      simp [derivedCommand, setMode_mfs, commandFor, closing.1, grp]
    rw [derived, ← h ch, lamp, setMode_lou, lamp]
  · exact h

theorem endClearance_commandLaw (g : Group) {s : State} (h : CommandLaw s) : CommandLaw (endClearance g s) :=
  .ite (checkClosing_commandLaw (foldl_becomeRedOut_commandLaw (groupMoved_commandLaw (h.setGrp g _)))) h

/-! ### The priority unit's times -/

theorem holdEnd_commandLaw {s : State} (h : CommandLaw s) : CommandLaw (holdEnd s) :=
  .ite (walkArrival_commandLaw (setPu_commandLaw h)) h

theorem recallInhibitEnd_commandLaw {s : State} (h : CommandLaw s) : CommandLaw (recallInhibitEnd s) :=
  .ite ((overlayArrival_follows s _).commandLaw ((walkWith_follows true _).commandLaw (setPu_commandLaw h))) h

theorem expire_commandLaw {s : State} (h : CommandLaw s) : CommandLaw (expire s) :=
  .ite (walkArrival_commandLaw (removeEntries_commandLaw h)) h

/-! ### The modes: every lamp is commanded anew -/

/-- R163: an entry to FLASH or DARK. -/
theorem enterResting_commandLaw (g : Goal) (s : State) : CommandLaw (enterResting g s) :=
  (enterResting_spec g s).commanded

/-- R26. -/
theorem beginAllRed_commandLaw (s : State) : CommandLaw (beginAllRed s) :=
  foldl_becomeRedOut_commandLaw (lampsFollow_commands _)

/-- R165. -/
theorem enterStartUp_commandLaw (s : State) : CommandLaw (enterStartUp s) :=
  .ite (beginAllRed_commandLaw _) (lampsFollow_commands _)

/-- R166. -/
theorem enterNormal_commandLaw (s : State) : CommandLaw (enterNormal s) :=
  (settleSince_follows s _).commandLaw (lampsFollow_commands _)

/-- R168. -/
theorem enterClosing_commandLaw (g : Goal) (s : State) : CommandLaw (enterClosing g s) :=
  checkClosing_commandLaw ((settle_follows _).commandLaw (lampsFollow_commands _))

theorem suFlashEnd_commandLaw {s : State} (h : CommandLaw s) : CommandLaw (suFlashEnd s) :=
  .ite (beginAllRed_commandLaw _) h

theorem suAllredEnd_commandLaw {s : State} (h : CommandLaw s) : CommandLaw (suAllredEnd s) :=
  .ite (.ite ((raiseMultiple_shuts s).commands h) (enterNormal_commandLaw s)) h

theorem clAllredEnd_commandLaw {s : State} (h : CommandLaw s) : CommandLaw (clAllredEnd s) := by
  refine .ite ?_ h
  split
  · exact enterResting_commandLaw _ s
  · exact h

/-- R23, R29, R56. -/
theorem loadWorkingCopies_commandLaw {s : State} (h : CommandLaw s) : CommandLaw (loadWorkingCopies s) := by
  unfold loadWorkingCopies
  exact (reportRedOut_shuts _).commands (h.of_parts rfl rfl ⟨rfl, rfl⟩ rfl)

/-- R164, R206. -/
theorem powerUpCheck_commandLaw {s : State} (h : CommandLaw s) : CommandLaw (powerUpCheck s) :=
  .ite (.ite (.ite (enterResting_commandLaw _ _) (enterStartUp_commandLaw _)) (enterResting_commandLaw _ _)) h

/-! ### The lamp unit and the junction clock -/

theorem overcurrentTrip_commandLaw (ch : Lamp) {s : State} (h : CommandLaw s) : CommandLaw (overcurrentTrip ch s) := by
  have raised := detect_commandLaw (k := .overcurrent) (d := detailItem (number ch))
    (setLamp_commandLaw (c := ch) (r := tripped (jnow s) (lamp s ch)) h rfl)
  exact .ite (.ite ((becomeRedOut_shuts _ _).commands raised) raised) h

theorem tripRetry_commandLaw (ch : Lamp) {s : State} (h : CommandLaw s) : CommandLaw (tripRetry ch s) :=
  .ite (setLamp_commandLaw h rfl) h

theorem tripCounterReset_commandLaw (ch : Lamp) {s : State} (h : CommandLaw s) : CommandLaw (tripCounterReset ch s) :=
  .ite (setLamp_commandLaw h rfl) h

theorem dimBoundary_commandLaw {s : State} (h : CommandLaw s) : CommandLaw (dimBoundary s) := by
  refine .ite ?_ h
  split <;> exact h.of_parts rfl rfl ⟨rfl, rfl⟩ rfl

theorem flashToggle_commandLaw {s : State} (h : CommandLaw s) : CommandLaw (flashToggle s) :=
  setLamps_commandLaw h fun ch => by
    unfold toggled
    split <;> rfl

theorem liftLocks_commandLaw {s : State} (h : CommandLaw s) : CommandLaw (liftLocks s) :=
  setLamps_commandLaw h fun ch => by
    unfold unlocked
    split <;> rfl

theorem takeStarts_commandLaw (n : Nat) {s : State} (h : CommandLaw s) : CommandLaw (takeStarts n s) := by
  induction n generalizing s with
  | zero => exact h
  | succ n ih =>
    unfold takeStarts
    split
    · exact h
    · exact ih (startGroup_commandLaw _ h)

theorem evaluateChannel_command (current nominal percent : Nat) (r : LampRec) :
    (evaluateChannel current nominal percent r).record.command = r.command := by
  unfold evaluateChannel judged
  dsimp only
  split
  · rfl
  · split <;> rfl

/-- R151: an evaluation commands no channel. -/
theorem evaluatedRecord_command (s : State) (currents : List Nat) (ch : Lamp) :
    (evaluatedRecord s currents ch).command = (lamp s ch).command := by
  unfold evaluatedRecord evaluateLamp
  by_cases used : usedLamp s.cs.image ch = true
  · rw [if_pos used]
    exact evaluateChannel_command _ _ _ _
  · rw [if_neg used]

theorem takeDueLamps_commandLaw {s : State} (h : CommandLaw s) : CommandLaw (takeDueLamps s) :=
  flashToggle_commandLaw
    (dimBoundary_commandLaw ((h.eachItem tripRetry_commandLaw).eachItem tripCounterReset_commandLaw))

theorem takeDuePhases_commandLaw {s : State} (h : CommandLaw s) : CommandLaw (takeDuePhases s) :=
  (clAllredEnd_commandLaw (suAllredEnd_commandLaw (suFlashEnd_commandLaw h))).eachItem silenceExpiry_commandLaw

theorem takeDueGroups_commandLaw {s : State} (h : CommandLaw s) : CommandLaw (takeDueGroups s) :=
  recallInhibitEnd_commandLaw (expire_commandLaw (holdEnd_commandLaw
    (((h.eachItem endPrepare_commandLaw).eachItem endMinProceed_commandLaw).eachItem endClearance_commandLaw)))

theorem takeDueEvaluations_commandLaw {s : State} (h : CommandLaw s) : CommandLaw (takeDueEvaluations s) := by
  have settled := (settle_follows s).commandLaw h
  exact takeStarts_commandLaw 24 (.ite (fbsEvaluate_commandLaw settled) settled)

/-- R1: the timed steps of the old count. -/
theorem takeDue_commandLaw {s : State} (h : CommandLaw s) : CommandLaw (takeDue s) :=
  takeDueEvaluations_commandLaw (takeDueGroups_commandLaw (takeDuePhases_commandLaw (takeDueLamps_commandLaw h)))

theorem advanceCount_commandLaw {s : State} (h : CommandLaw s) : CommandLaw (advanceCount s) :=
  h.of_alike (fun _ => rfl) rfl rfl (fun _ => rfl) fun g => by rw [grp_advanceCount]; rfl

theorem evaluateLamps_commandLaw {currents : List Nat} {s : State} (h : CommandLaw s) :
    CommandLaw (evaluateLamps currents s) :=
  (evaluateLamps_detects currents s).shuts.commands (setLamps_commandLaw h (evaluatedRecord_command s currents))

theorem junctionAdvance_commandLaw (currents : List Nat) {s : State} (h : CommandLaw s) :
    CommandLaw (junctionAdvance currents s) :=
  advanceStage_commandLaw (evaluateLamps_commandLaw (advanceCount_commandLaw (takeDue_commandLaw h)))

end Sys2Proof.Machine

namespace Sys2Proof.Machine

/-! ### The tram approaches -/

theorem loopCheckIn_commandLaw {a : Approach} {eta : Nat} {clamped single : Bool} {s : State} (h : CommandLaw s) :
    CommandLaw (loopCheckIn a eta clamped single s) := by
  refine .ite ?_ (setApr_commandLaw h)
  split
  · rename_i admitted
    exact walkArrival_commandLaw (admitEntry_commandLaw admitted h)
  · exact setApr_commandLaw h

theorem entryOnA_commandLaw {a : Approach} {stamp : Time} {s : State} (h : CommandLaw s) :
    CommandLaw (entryOnA a stamp s) := by
  refine .ite ?_ (loopCheckIn_commandLaw h)
  split
  · exact setApr_commandLaw h
  · exact h

theorem entryOnB_commandLaw {a : Approach} {stamp : Time} {s : State} (h : CommandLaw s) :
    CommandLaw (entryOnB a stamp s) := by
  unfold entryOnB
  dsimp only
  split <;> exact loopCheckIn_commandLaw (setApr_commandLaw h)

theorem removeEntry_commandLaw {x : Entry} {c : RemovalCause} {s : State} (h : CommandLaw s) :
    CommandLaw (removeEntry x c s) := walkArrival_commandLaw (removeEntries_commandLaw h)

theorem loopCheckOut_commandLaw {a : Approach} {s : State} (h : CommandLaw s) : CommandLaw (loopCheckOut a s) := by
  unfold loopCheckOut
  split
  · exact removeEntry_commandLaw h
  · exact setApr_commandLaw h

theorem loopEntered_commandLaw {ch : Channel} {s : State} (h : CommandLaw s) : CommandLaw (loopEntered ch s) := by
  have entered (stamp : Time) (t : State) (a : Approach) (h : CommandLaw t) :
      CommandLaw (entryAtApproach ch stamp a t) := by
    have onA := CommandLaw.ite (p := loopA t.cs.image a = some ch) (entryOnA_commandLaw (a := a) (stamp := stamp) h) h
    have onB :=
      CommandLaw.ite (p := loopB t.cs.image a = some ch) (entryOnB_commandLaw (a := a) (stamp := stamp) onA) onA
    exact .ite (loopCheckOut_commandLaw onB) onB
  unfold loopEntered
  split
  · exact h.foldl (entered _) _
  · exact h

theorem loseB_commandLaw {a : Approach} {s : State} (h : CommandLaw s) : CommandLaw (loseB a s) := by
  unfold loseB
  split
  · exact loopCheckIn_commandLaw (setApr_commandLaw h)
  · exact h

theorem loopStateChanged_commandLaw {ch : Channel} {st : DetState} {s : State} (h : CommandLaw s) :
    CommandLaw (loopStateChanged ch st s) := by
  have lost (t : State) (a : Approach) (h : CommandLaw t) : CommandLaw (loseAtApproach ch a t) := by
    have lostA : CommandLaw (if loopA t.cs.image a = some ch then disarm a t else t) := .ite (setApr_commandLaw h) h
    exact .ite (loseB_commandLaw lostA) lostA
  exact .ite h (h.foldl lost _)

theorem armingLapse_commandLaw {s : State} (h : CommandLaw s) : CommandLaw (armingLapse s) :=
  .ite (setPu_commandLaw h) h

/-! ### The detector unit -/

theorem noteGapExit_commandLaw {gs : List Group} {s : State} (h : CommandLaw s) : CommandLaw (noteGapExit gs s) := by
  unfold noteGapExit
  exact h.of_parts rfl rfl ⟨rfl, rfl⟩ rfl

theorem postDemand_commandLaw {fromLoop : Bool} {gs : List Group} {s : State} (h : CommandLaw s) :
    CommandLaw (postDemand fromLoop gs s) :=
  (postDemand_follows fromLoop gs s).commandLaw (setGroups_commandLaw h fun g => by split <;> rfl)

theorem postChannelDemand_commandLaw {ch : Channel} {s : State} (h : CommandLaw s) :
    CommandLaw (postChannelDemand ch s) := .ite (postDemand_commandLaw h) h

theorem forcedDemand_commandLaw {ch : Channel} {b : Bool} {s : State} (h : CommandLaw s) :
    CommandLaw (forcedDemand ch b s) := .ite (postChannelDemand_commandLaw h) h

theorem handToSequencer_commandLaw {ch : Channel} {old : DetRec} {exit : Bool} {s : State} (h : CommandLaw s) :
    CommandLaw (handToSequencer ch old exit s) := by
  have noted (b : Bool) : CommandLaw (if b then noteGapExit (extendedGroups s.cs.image ch) s else s) :=
    .ite (noteGapExit_commandLaw h) h
  exact .ite h (.ite ((settleStage_follows _).commandLaw (noted _)) (noted _))

/-- R97 to R100: what a channel hands on. -/
theorem handChange_commandLaw {ch : Channel} {old new : DetRec} {entry exit : Bool} {s : State} (h : CommandLaw s) :
    CommandLaw (handChange ch old new entry exit s) := by
  have event := postIf_commandLaw (b := reportedChange old.state new.state) (e := .detectorChanged)
    (setDet_commandLaw (ch := ch) (r := new) h)
  have handed := handToSequencer_commandLaw (ch := ch) (old := old) (exit := exit)
    (CommandLaw.ite (p := entry = true) (postChannelDemand_commandLaw (ch := ch) event) event)
  have changed := CommandLaw.ite (p := channelKind s.cs.image ch = .loop ∧ old.state ≠ new.state)
    (loopStateChanged_commandLaw (ch := ch) (st := new.state) handed) handed
  exact .ite (loopEntered_commandLaw changed) changed

theorem loopLongPresence_commandLaw (ch : Channel) {s : State} (h : CommandLaw s) :
    CommandLaw (loopLongPresence ch s) :=
  .ite (forcedDemand_commandLaw (handChange_commandLaw h)) h

theorem contactLongPresence_commandLaw (ch : Channel) {s : State} (h : CommandLaw s) :
    CommandLaw (contactLongPresence ch s) := .ite (forcedDemand_commandLaw (handChange_commandLaw h)) h

theorem windowClose_commandLaw (ch : Channel) {s : State} (h : CommandLaw s) : CommandLaw (windowClose ch s) := by
  have raised {old : DetRec} {u : State} (h : CommandLaw u) : CommandLaw (raiseAtClose ch old u) :=
    .ite (detect_commandLaw h) (.ite (detect_commandLaw h) h)
  exact .ite (raised (handChange_commandLaw (loopLongPresence_commandLaw ch h))) h

theorem loopSample_commandLaw (p : Option Nat) (ch : Channel) {s : State} (h : CommandLaw s) :
    CommandLaw (loopSample p ch s) :=
  .ite (forcedDemand_commandLaw (handChange_commandLaw ((raiseAtSample_shuts _ _ _ _).commands h))) h

theorem contactSample_commandLaw (pressed : Bool) (ch : Channel) {s : State} (h : CommandLaw s) :
    CommandLaw (contactSample pressed ch s) := .ite (forcedDemand_commandLaw (handChange_commandLaw h)) h

theorem sampleLeft_commandLaw (ch : Channel) {s : State} (h : CommandLaw s) : CommandLaw (sampleLeft ch s) :=
  contactLongPresence_commandLaw ch (windowClose_commandLaw ch (loopLongPresence_commandLaw ch h))

theorem externalFault_commandLaw {s : State} (h : CommandLaw s) : CommandLaw (externalFault s) :=
  .ite (detect_commandLaw h) h

theorem advanceDetectors_commandLaw {low : Bool} {s : State} (h : CommandLaw s) :
    CommandLaw (advanceDetectors low s) := h.of_parts rfl rfl ⟨rfl, rfl⟩ rfl

theorem detectorAdvance_commandLaw (low : Bool) {s : State} (h : CommandLaw s) : CommandLaw (detectorAdvance low s) :=
  advanceDetectors_commandLaw (externalFault_commandLaw (armingLapse_commandLaw (((h.eachItem
    loopLongPresence_commandLaw).eachItem windowClose_commandLaw).eachItem contactLongPresence_commandLaw)))

end Sys2Proof.Machine

namespace Sys2Proof.Machine

/-! ### The requests -/

theorem answer_commandLaw {k : RequestKind} {v : Verdict} {l : List Byte} {s : State} (h : CommandLaw s) :
    CommandLaw (answer k v l s) := setClp_commandLaw h

/-- R112 to R116. -/
theorem takeReport_commandLaw {a : Approach} {r : Report} {s : State} (h : CommandLaw s) :
    CommandLaw (takeReport a r s) := by
  unfold takeReport
  split
  · exact answer_commandLaw (walkArrival_commandLaw (setPu_commandLaw h))
  · split
    · exact answer_commandLaw (walkArrival_commandLaw (setPu_commandLaw h))
    · split
      · rename_i admitted
        exact answer_commandLaw (walkArrival_commandLaw (admitEntry_commandLaw admitted h))
      · exact answer_commandLaw h

theorem checkIn_commandLaw {r : Report} {approach : Byte} {i : Station} {s : State} (h : CommandLaw s) :
    CommandLaw (checkIn r approach i s) := by
  refine .ite (answer_commandLaw h) ?_
  split
  · exact takeReport_commandLaw h
  · exact answer_commandLaw h

theorem checkOut_commandLaw {ident : BitVec 16} {approach : Byte} {i : Station} {s : State} (h : CommandLaw s) :
    CommandLaw (checkOut ident approach i s) := by
  unfold checkOut
  split
  · exact answer_commandLaw h
  · split
    · exact answer_commandLaw (removeEntry_commandLaw h)
    · exact answer_commandLaw h

theorem cancelEntries_commandLaw {p : Entry → Bool} {s : State} (h : CommandLaw s) : CommandLaw (cancelEntries p s) :=
  .ite (answer_commandLaw (walkArrival_commandLaw (removeEntries_commandLaw h))) (answer_commandLaw h)

theorem cancelByNumber_commandLaw {value : BitVec 16} {i : Station} {s : State} (h : CommandLaw s) :
    CommandLaw (cancelByNumber value i s) := .ite (answer_commandLaw h) (cancelEntries_commandLaw h)

theorem enablePriority_commandLaw {b : Byte} {i : Station} {s : State} (h : CommandLaw s) :
    CommandLaw (enablePriority b i s) := by
  have enabled (on : Bool) : CommandLaw (setEnable on s) := .ite h (walkArrival_commandLaw (setPu_commandLaw h))
  exact .ite (answer_commandLaw h) (answer_commandLaw (enabled _))

theorem takeSelector_commandLaw {r : Byte} {i : Station} {s : State} (h : CommandLaw s) :
    CommandLaw (takeSelector r i s) := answer_commandLaw (.ite (changeOwner_commandLaw h) h)

theorem releaseSelector_commandLaw {i : Station} {s : State} (h : CommandLaw s) : CommandLaw (releaseSelector i s) :=
  .ite (answer_commandLaw (changeOwner_commandLaw h)) (answer_commandLaw h)

theorem acceptTarget_commandLaw {w : GroupSet} {s : State} (h : CommandLaw s) : CommandLaw (acceptTarget w s) :=
  (settle_follows _).commandLaw (setTarget_commandLaw h)

theorem setStage_commandLaw {w : GroupSet} {i : Station} {s : State} (h : CommandLaw s) : CommandLaw (setStage w i s) :=
  answer_commandLaw (.ite (acceptTarget_commandLaw h) h)

theorem selectStage_commandLaw {b : Byte} {i : Station} {s : State} (h : CommandLaw s) :
    CommandLaw (selectStage b i s) :=
  answer_commandLaw (.ite (acceptTarget_commandLaw h) h)

theorem callGroups_commandLaw {w : GroupSet} {i : Station} {s : State} (h : CommandLaw s) :
    CommandLaw (callGroups w i s) :=
  answer_commandLaw (postDemand_commandLaw h)

/-- R152: a re-arming keeps the command. -/
theorem rearm_command (kinds : BitVec 16) (ch : Lamp) (r : LampRec) : (rearm kinds ch r).command = r.command := by
  unfold rearm
  split
  · split <;> rfl
  · rfl

/-- R177. -/
theorem clearFaults_commandLaw {kinds : BitVec 16} {given : Bool} {mask : BitVec 16} {i : Station} {s : State}
    (h : CommandLaw s) : CommandLaw (clearFaults kinds given mask i s) := by
  have cleared (m : Option (BitVec 16)) : CommandLaw (clearFaultKinds kinds m s) := by
    have table : CommandLaw { s with mfs := { s.mfs with faults := clearTable kinds m s.mfs.faults } } :=
      h.of_parts rfl rfl ⟨rfl, rfl⟩ rfl
    have rearmed := setLamps_commandLaw table fun ch => rearm_command kinds ch _
    exact .ite (liftLocks_commandLaw rearmed) rearmed
  exact .ite (answer_commandLaw h) (answer_commandLaw (.ite (cleared _) h))

theorem clearEvents_commandLaw {kinds : BitVec 16} {given : Bool} {mask : BitVec 16} {i : Station} {s : State}
    (h : CommandLaw s) : CommandLaw (clearEvents kinds given mask i s) :=
  .ite (answer_commandLaw h) (answer_commandLaw (h.of_parts rfl rfl ⟨rfl, rfl⟩ rfl))

theorem setDim_commandLaw {b : Byte} {i : Station} {s : State} (h : CommandLaw s) : CommandLaw (setDim b i s) := by
  have pending (d : Dim) : CommandLaw (setPendingDim d s) := h.of_parts rfl rfl ⟨rfl, rfl⟩ rfl
  exact .ite (answer_commandLaw (pending _)) (.ite (answer_commandLaw (pending _)) (answer_commandLaw h))

theorem answerRead_commandLaw {k : RequestKind} {fields : Option (List Byte)} {s : State} (h : CommandLaw s) :
    CommandLaw (answerRead k fields s) := by
  unfold answerRead
  split <;> exact answer_commandLaw h

theorem readPriority_commandLaw {b : Byte} {i : Station} {s : State} (h : CommandLaw s) :
    CommandLaw (readPriority b i s) := by
  unfold readPriority
  dsimp only
  repeat' split
  all_goals exact answer_commandLaw h

theorem readConfig_commandLaw {block index : Byte} {i : Station} {s : State} (h : CommandLaw s) :
    CommandLaw (readConfig block index i s) := by
  unfold readConfig
  repeat' split
  all_goals exact answer_commandLaw h

/-! ### The supervisor's requests -/

/-- R167. -/
theorem modeRequestGoal_commandLaw {g : Goal} {i : Station} {s : State} (h : CommandLaw s) :
    CommandLaw (modeRequestGoal g i s) := by
  refine answer_commandLaw ?_
  unfold requestGoal
  split
  · exact h
  · exact enterResting_commandLaw g s
  · exact enterClosing_commandLaw g s
  · exact .ite h (post_commandLaw (h.of_parts rfl rfl ⟨rfl, rfl⟩ rfl))
  · exact .ite (enterResting_commandLaw .dark s) h
  · exact .ite (enterResting_commandLaw .flash s) h

theorem resumeAccepted_commandLaw (s : State) : CommandLaw (resumeAccepted s) :=
  answer_commandLaw (enterStartUp_commandLaw _)

theorem modeRequestResume_commandLaw {i : Station} {s : State} (h : CommandLaw s) :
    CommandLaw (modeRequestResume i s) :=
  .ite (answer_commandLaw h) (.ite (answer_commandLaw h)
    (.ite (setClp_commandLaw (setCs_commandLaw rfl h)) (resumeAccepted_commandLaw s)))

/-- R209. -/
theorem validationCompletion_commandLaw {s : State} (h : CommandLaw s) : CommandLaw (validationCompletion s) := by
  have passed {u : State} (h : CommandLaw u) : CommandLaw (validated u) :=
    loadWorkingCopies_commandLaw (setCs_commandLaw rfl h)
  have completed {u : State} (h : CommandLaw u) : CommandLaw (completeValidation u) := by
    unfold completeValidation
    split
    · exact answer_commandLaw h
    · exact .ite (answer_commandLaw (passed h)) (resumeAccepted_commandLaw _)
  exact .ite (completed (setCs_commandLaw rfl h)) h

theorem copyCompletion_commandLaw {s : State} (h : CommandLaw s) : CommandLaw (copyCompletion s) := by
  unfold copyCompletion
  split
  · exact answer_commandLaw (setCs_commandLaw rfl h)
  · exact h

/-! ### The configuration store

A record's bytes hold no other group's kind, so that only a GROUP record touches derived commands, those of its own
group. The image's canonical form is needed here: a read after a write rests on it. -/

theorem withRecord_command {p : Place} {bs : List Byte} {s : State} {ch : Lamp} (length : bs.length = p.size)
    (wf : imageWf s.cs.image = true) (other : p ≠ .group (lampGroup ch))
    (h : (lamp s ch).command = derivedCommand s ch) :
    (lamp (withRecord p bs s) ch).command = derivedCommand (withRecord p bs s) ch := by
  have kind := groupKind_agrees (writtenImage_agrees length wf) (lampGroup ch) other
  refine h.trans ?_
  unfold derivedCommand
  rw [withRecord_image, kind]
  rfl

theorem withRecord_commandLaw {p : Place} {bs : List Byte} {s : State} (length : bs.length = p.size)
    (wf : imageWf s.cs.image = true) (other : ∀ g, p ≠ .group g) (h : CommandLaw s) : CommandLaw (withRecord p bs s) :=
  fun ch => withRecord_command length wf (other _) (h ch)

/-- R5, R161: the write of a GROUP record commands the group's lamps anew. -/
theorem groupWritten_commandLaw {old : Image} {g : Group} {s : State} (h : CommandsBut g s) :
    CommandLaw (groupWritten old g s) := by
  obtain ⟨cs, mfs, _⟩ := groupRecorded_frame old g s
  have recorded : CommandLaw (groupRecorded old g s) := fun ch => by
    have written := lamp_groupRecorded old g s ch
    split at written
    · exact written.command
    · rename_i other
      rw [written, h ch other]
      exact (derivedCommand_congr (by rw [mfs]) (by rw [mfs]) cs (groupRecorded_state _ _ _ _)).symm
  exact .ite ((leaveRedOut_shuts g _).commands recorded) recorded

theorem stationWritten_commandLaw {i : Station} {s : State} (h : CommandLaw s) : CommandLaw (stationWritten i s) := by
  have raised {u : State} (h : CommandLaw u) : CommandLaw (authorityWritten i u) := .ite (changeOwner_commandLaw h) h
  exact raised (postIf_commandLaw (setStation_commandLaw h))

theorem detectorWritten_commandLaw {old : Image} {ch : Channel} {s : State} (h : CommandLaw s) :
    CommandLaw (detectorWritten old ch s) := by
  have noted {r : DetRec} {u : State} (h : CommandLaw u) : CommandLaw (writeToSequencer old ch r u) :=
    .ite (noteGapExit_commandLaw h) h
  have written := noted (r := det s ch) (postIf_commandLaw
    (b := decide ((det s ch).state ≠ (writtenChannel s.cs.image ch (dnow s) (det s ch)).state)) (e := .detectorChanged)
    (setDet_commandLaw (ch := ch) (r := writtenChannel s.cs.image ch (dnow s) (det s ch)) h))
  exact .ite (loopStateChanged_commandLaw written) written

/-- R204: the effects of an accepted record. -/
theorem storeRecord_commandLaw {p : Place} {bs : List Byte} {s : State} (length : bs.length = p.size)
    (wf : imageWf s.cs.image = true) (h : CommandLaw s) : CommandLaw (storeRecord p bs s) := by
  cases p with
  | device => exact (withRecord_commandLaw length wf nofun h).of_parts rfl rfl ⟨rfl, rfl⟩ rfl
  | station i => exact stationWritten_commandLaw (withRecord_commandLaw length wf nofun h)
  | group g =>
    exact groupWritten_commandLaw fun ch other => withRecord_command length wf (by simpa using other.symm) (h ch)
  | matrix c => exact withRecord_commandLaw length wf nofun h
  | stage n => exact withRecord_commandLaw length wf nofun h
  | detector ch =>
    rw [storeRecord_detector]
    exact detectorWritten_commandLaw (withRecord_commandLaw length ((sampleLeft_calm ch s).keeps.image wf) nofun
      (sampleLeft_commandLaw ch h))
  | approach a => exact setApr_commandLaw (withRecord_commandLaw length wf nofun h)

theorem writeConfig_commandLaw {block index : Byte} {bs : List Byte} {i : Station} {s : State}
    (wf : imageWf s.cs.image = true) (h : CommandLaw s) : CommandLaw (writeConfig block index bs i s) := by
  refine .ite (answer_commandLaw h) ?_
  split
  · exact answer_commandLaw h
  · split
    · rename_i done
      rw [acceptRecord_eq]
      exact (storeRecord_commandLaw (recordVerdict_length done) wf h).of_parts rfl rfl ⟨rfl, rfl⟩ rfl
    · exact answer_commandLaw h

/-! ### The link port -/

theorem serveClear_commandLaw {k : RequestKind} {f : BitVec 16 → Bool → BitVec 16 → Station → State → State}
    {a b given c d : Byte} {i : Station} {s : State} (block : ∀ x y z, CommandLaw (f x y z i s)) (h : CommandLaw s) :
    CommandLaw (serveClear k f a b given c d i s) := by
  unfold serveClear
  split
  · exact block _ _ _
  · exact answer_commandLaw h

theorem serveMode_commandLaw {g : Byte} {i : Station} {s : State} (h : CommandLaw s) : CommandLaw (serveMode g i s) :=
  .ite (modeRequestGoal_commandLaw h) (.ite (modeRequestGoal_commandLaw h)
    (.ite (modeRequestResume_commandLaw h) (answer_commandLaw h)))

theorem serveCancel_commandLaw {b : Byte} {v : BitVec 16} {i : Station} {s : State} (h : CommandLaw s) :
    CommandLaw (serveCancel b v i s) :=
  .ite (cancelByNumber_commandLaw h) (.ite (cancelEntries_commandLaw h) (answer_commandLaw h))

theorem serveCheckIn_commandLaw {ident : BitVec 16} {route approach : Byte} {lateness : BitVec 16} {special dp : Byte}
    {d : BitVec 24} {vp : Byte} {v : BitVec 16} {i : Station} {s : State} (h : CommandLaw s) :
    CommandLaw (serveCheckIn ident route approach lateness special dp d vp v i s) := by
  unfold serveCheckIn
  split
  · exact checkIn_commandLaw h
  · exact answer_commandLaw h

/-- R192: the blocks' part of a request whose payload has its kind's length. -/
theorem serve_commandLaw (k : RequestKind) (payload : List Byte) (i : Station) {s : State}
    (len : k.lengthOk payload.length = true) (wf : imageWf s.cs.image = true) (h : CommandLaw s) :
    CommandLaw (serve k payload i s) := by
  have exactly (fixed : k ≠ .writeConfig) : payload.length = k.payload := by
    rw [RequestKind.lengthOk, if_neg fixed, decide_eq_true_eq] at len
    exact len
  cases k
  case writeConfig =>
    match payload, of_decide_eq_true len with
    | _ :: _ :: _, _ => exact writeConfig_commandLaw (i := i) wf h
  case readStatus => match payload, exactly nofun with | [], _ => exact answer_commandLaw h
  case readGroups => match payload, exactly nofun with | [_], _ => exact answerRead_commandLaw h
  case readDetectors => match payload, exactly nofun with | [_], _ => exact answerRead_commandLaw h
  case readPriority => match payload, exactly nofun with | [_], _ => exact readPriority_commandLaw (i := i) h
  case readFaults => match payload, exactly nofun with | [_], _ => exact answerRead_commandLaw h
  case readEvents => match payload, exactly nofun with | [], _ => exact answer_commandLaw h
  case clearEvents =>
    match payload, exactly nofun with
    | [_, _, _, _, _], _ => exact serveClear_commandLaw (fun _ _ _ => clearEvents_commandLaw h) h
  case takeSelector => match payload, exactly nofun with | [_], _ => exact takeSelector_commandLaw h
  case releaseSelector => match payload, exactly nofun with | [], _ => exact releaseSelector_commandLaw h
  case setStage => match payload, exactly nofun with | [_, _, _], _ => exact setStage_commandLaw h
  case selectStage => match payload, exactly nofun with | [_], _ => exact selectStage_commandLaw h
  case callGroups => match payload, exactly nofun with | [_, _, _], _ => exact callGroups_commandLaw (i := i) h
  case modeRequest => match payload, exactly nofun with | [_], _ => exact serveMode_commandLaw h
  case clearFaults =>
    match payload, exactly nofun with
    | [_, _, _, _, _], _ => exact serveClear_commandLaw (fun _ _ _ => clearFaults_commandLaw h) h
  case setDim => match payload, exactly nofun with | [_], _ => exact setDim_commandLaw (i := i) h
  case enablePriority => match payload, exactly nofun with | [_], _ => exact enablePriority_commandLaw (i := i) h
  case readConfig => match payload, exactly nofun with | [_, _], _ => exact readConfig_commandLaw (i := i) h
  case checkIn =>
    match payload, exactly nofun with
    | [_, _, _, _, _, _, _, _, _, _, _, _, _, _], _ => exact serveCheckIn_commandLaw h
  case checkOut => match payload, exactly nofun with | [_, _, _], _ => exact checkOut_commandLaw (i := i) h
  case cancelPriority => match payload, exactly nofun with | [_, _, _], _ => exact serveCancel_commandLaw h

theorem takeRequest_commandLaw {kind : Byte} {payload : List Byte} {i : Station} {s : State}
    (wf : imageWf s.cs.image = true) (h : CommandLaw s) : CommandLaw (takeRequest kind payload i s) := by
  unfold takeRequest
  split
  · exact setClp_commandLaw h
  · refine .ite (answer_commandLaw h) ?_
    split
    · exact answer_commandLaw h
    · rename_i len
      exact serve_commandLaw _ payload i (by simpa using len) wf h

/-- R186, R191: a completed frame, judged; the station is heard before its request is taken. -/
theorem judgeFrame_commandLaw {buf : List Byte} {s : State} (wf : imageWf s.cs.image = true) (h : CommandLaw s) :
    CommandLaw (judgeFrame buf s) := by
  refine .ite (setClp_commandLaw h) (.ite (setClp_commandLaw h) ?_)
  split
  · exact setClp_commandLaw h
  · exact takeRequest_commandLaw ((hear_calm _ s).keeps.image wf) (postIf_commandLaw (setStation_commandLaw h))

theorem storeByte_commandLaw {b : Byte} {s : State} (wf : imageWf s.cs.image = true) (h : CommandLaw s) :
    CommandLaw (storeByte b s) :=
  .ite (setClp_commandLaw h) (.ite (judgeFrame_commandLaw wf h) (setClp_commandLaw h))

/-- R185, R187: a byte by the receiver's state. -/
theorem takeByte_commandLaw {b : Byte} {framingError : Bool} {s : State} (wf : imageWf s.cs.image = true)
    (h : CommandLaw s) : CommandLaw (takeByte b framingError s) := by
  have stored : CommandLaw (if framingError then discard (addressed s.clp) .skip s else storeByte b s) :=
    .ite (setClp_commandLaw h) (storeByte_commandLaw wf h)
  unfold takeByte
  split
  case h_1 => exact .ite (setClp_commandLaw h) h
  case h_2 | h_3 | h_4 => exact stored
  case h_5 => exact h
  case h_6 => exact .ite (.ite h (setClp_commandLaw h)) h

theorem receiveByte_commandLaw {b : Byte} {framingError : Bool} {s : State} (wf : imageWf s.cs.image = true)
    (h : CommandLaw s) : CommandLaw (receiveByte b framingError s) :=
  takeByte_commandLaw (s := noteByte s) wf (setClp_commandLaw h)

theorem silenceTimeout_commandLaw {s : State} (h : CommandLaw s) : CommandLaw (silenceTimeout s) := by
  unfold silenceTimeout discard
  split
  · exact h
  all_goals exact setClp_commandLaw h

/-! ### Every command -/

theorem reset_commandLaw (m : Image) (crc : BitVec 32) (addr : BitVec 4) (rate : BitVec 2) (s : State) :
    CommandLaw (resetWith m crc addr rate s) := fun ch => by
  have off : (lamp (resetWith m crc addr rate s) ch).command = .off := by
    simp [lamp, resetWith, Lou.reset, LampRec.reset]
  rw [off]
  rfl

theorem withItem_commandLaw {n : Nat} {f : Fin n → State → State} {k : Nat} {s : State}
    (step : ∀ i {s}, CommandLaw s → CommandLaw (f i s)) (h : CommandLaw s) : CommandLaw (withItem k f s) :=
  withItem_cases k f s _ h fun i => step i h

theorem asked_commandLaw {f : Station → State → State} {k : RequestKind} {n : Nat} {s : State} (h : CommandLaw s)
    (block : ∀ i, CommandLaw (f i s)) : CommandLaw (asked k n f s) :=
  asked_cases k n f s _ h (fun _ => answer_commandLaw h) fun i _ _ => block i

theorem exec_commandLaw {c : Instr} {s t : State} (ran : exec c s = .next t) (wf : imageWf s.cs.image = true)
    (h : CommandLaw s) : CommandLaw t := by
  have kept {u : State} (next : Host.Outcome.next u = (Host.Outcome.next t : Host.Outcome State Fault Refusal))
      (law : CommandLaw u) : CommandLaw t := by cases next; exact law
  cases c
  case reset => exact kept ran (reset_commandLaw _ _ _ _ s)
  case powerUpCheckCompletion => exact kept ran (powerUpCheck_commandLaw h)
  case junctionClockAdvance => exact kept ran (junctionAdvance_commandLaw _ h)
  case dimBoundary => exact kept ran (dimBoundary_commandLaw h)
  case flashToggle => exact kept ran (flashToggle_commandLaw h)
  case groupStart => exact kept ran (withItem_commandLaw startGroup_commandLaw h)
  case prepareEnd => exact kept ran (withItem_commandLaw endPrepare_commandLaw h)
  case minProceedEnd => exact kept ran (withItem_commandLaw endMinProceed_commandLaw h)
  case maxOut => exact kept ran (withItem_commandLaw maxOut_commandLaw h)
  case clearanceEnd => exact kept ran (withItem_commandLaw endClearance_commandLaw h)
  case holdEnd => exact kept ran (holdEnd_commandLaw h)
  case recallInhibitEnd => exact kept ran (recallInhibitEnd_commandLaw h)
  case expiry => exact kept ran (expire_commandLaw h)
  case gapOut => exact kept ran (withItem_commandLaw gapOut_commandLaw h)
  case silenceExpiry => exact kept ran (withItem_commandLaw silenceExpiry_commandLaw h)
  case suFlashEnd => exact kept ran (suFlashEnd_commandLaw h)
  case suAllredEnd => exact kept ran (suAllredEnd_commandLaw h)
  case clAllredEnd => exact kept ran (clAllredEnd_commandLaw h)
  case overcurrentTrip => exact kept ran (withItem_commandLaw overcurrentTrip_commandLaw h)
  case tripRetry => exact kept ran (withItem_commandLaw tripRetry_commandLaw h)
  case tripCounterReset => exact kept ran (withItem_commandLaw tripCounterReset_commandLaw h)
  case detectorClockAdvance => exact kept ran (detectorAdvance_commandLaw _ h)
  case externalFault => exact kept ran (externalFault_commandLaw h)
  case loopSample => exact kept ran (withItem_commandLaw (loopSample_commandLaw _) h)
  case loopLongPresence => exact kept ran (withItem_commandLaw loopLongPresence_commandLaw h)
  case contactSample => exact kept ran (withItem_commandLaw (contactSample_commandLaw _) h)
  case contactLongPresence => exact kept ran (withItem_commandLaw contactLongPresence_commandLaw h)
  case windowClose => exact kept ran (withItem_commandLaw windowClose_commandLaw h)
  case armingLapse => exact kept ran (armingLapse_commandLaw h)
  case byteReceived => exact kept ran (receiveByte_commandLaw wf h)
  case frameReceived => exact kept ran (.ite (receiveByte_commandLaw wf h) h)
  case frameOverrun => exact kept ran (.ite (receiveByte_commandLaw wf h) h)
  case linkSilenceTimeout => exact kept ran (silenceTimeout_commandLaw h)
  case replySent => exact kept ran (.ite (setClp_commandLaw h) h)
  case readStatus => exact kept ran (asked_commandLaw h fun _ => answer_commandLaw h)
  case readGroups => exact kept ran (asked_commandLaw h fun _ => answerRead_commandLaw h)
  case readDetectors => exact kept ran (asked_commandLaw h fun _ => answerRead_commandLaw h)
  case readPriority => exact kept ran (asked_commandLaw h fun _ => readPriority_commandLaw h)
  case readFaults => exact kept ran (asked_commandLaw h fun _ => answerRead_commandLaw h)
  case readEvents => exact kept ran (asked_commandLaw h fun _ => answer_commandLaw h)
  case clearEvents => exact kept ran (asked_commandLaw h fun _ => clearEvents_commandLaw h)
  case takeSelector => exact kept ran (asked_commandLaw h fun _ => takeSelector_commandLaw h)
  case releaseSelector => exact kept ran (asked_commandLaw h fun _ => releaseSelector_commandLaw h)
  case setStage => exact kept ran (asked_commandLaw h fun _ => setStage_commandLaw h)
  case selectStage => exact kept ran (asked_commandLaw h fun _ => selectStage_commandLaw h)
  case callGroups => exact kept ran (asked_commandLaw h fun _ => callGroups_commandLaw h)
  case modeRequestFlash => exact kept ran (asked_commandLaw h fun _ => modeRequestGoal_commandLaw h)
  case modeRequestDark => exact kept ran (asked_commandLaw h fun _ => modeRequestGoal_commandLaw h)
  case modeRequestResume => exact kept ran (asked_commandLaw h fun _ => modeRequestResume_commandLaw h)
  case validationCompletion => exact kept ran (validationCompletion_commandLaw h)
  case clearFaults => exact kept ran (asked_commandLaw h fun _ => clearFaults_commandLaw h)
  case setDim => exact kept ran (asked_commandLaw h fun _ => setDim_commandLaw h)
  case enablePriority => exact kept ran (asked_commandLaw h fun _ => enablePriority_commandLaw h)
  case readConfig => exact kept ran (asked_commandLaw h fun _ => readConfig_commandLaw h)
  case writeConfig => exact kept ran (asked_commandLaw h fun _ => writeConfig_commandLaw wf h)
  case nonvolatileCopyCompletion => exact kept ran (copyCompletion_commandLaw h)
  case checkIn => exact kept ran (asked_commandLaw h fun _ => checkIn_commandLaw h)
  case checkOut => exact kept ran (asked_commandLaw h fun _ => checkOut_commandLaw h)
  case cancelPriorityByNumber => exact kept ran (asked_commandLaw h fun _ => cancelByNumber_commandLaw h)
  case cancelPriorityByIdent => exact kept ran (asked_commandLaw h fun _ => cancelEntries_commandLaw h)

/-- Settles O57: the image and ATTN by the laws that every command upholds, the lamp commands command by command. -/
theorem stepKeepsImageAttentionAndLampCommands : Obligations.StepKeepsImageAttentionAndLampCommands := by
  unfold Obligations.StepKeepsImageAttentionAndLampCommands
  refine ⟨fun s t wf h => ?image, fun s t law h => ?attention, fun s t wf law h => ?commands⟩ <;>
    obtain rfl | ⟨c, rest, ran⟩ := step_cases h
  case image.inl => exact wf
  case image.inr => exact (exec_upholds c _ t ran).keeps.image wf
  case attention.inl => exact law
  case attention.inr => exact (exec_upholds c _ t ran).keeps.attn law
  case commands.inl => exact law
  case commands.inr => exact exec_commandLaw ran wf law

end Sys2Proof.Machine

/-! ## The end of the start-up all-red -/

namespace Sys2Proof.Machine

/-- R166, R25, R67: the normal entry's evaluation of the target and, where the default owner has the selection, its
takeover. -/
theorem normalTakeover_follows {s : State} (normal : s.mfs.mode = .normal) :
    Follows noGroup s (if (evalReached s).sel.owner = .fallback then takeover (evalReached s) else evalReached s) := by
  have reached := evalReached_follows s
  split
  next owner =>
    have acts : fbsActs (evalReached s) = true := by simp [fbsActs, owner, reached.mode, normal]
    exact reached.trans (takeover_follows _ acts)
  next => exact reached

/-- R166: past the mode change, the normal entry lets the arrival's own rules act and every lamp follows its group. -/
theorem enterNormal_follows (s : State) : Follows everyGroup (setMode .normal none none s) (enterNormal s) :=
  (((normalTakeover_follows rfl).trans (walk_follows _)).then_lampsFollow everyGroup).trans (settleSince_follows s _)

/-- R158: with two groups red-out, RED_OUT_MULTIPLE is detected with the red-out set as its detail. -/
theorem raiseMultiple_of_two {s : State} (two : 2 ≤ setSize s.lou.redOut) :
    raiseMultiple s = detect .redOutMultiple (s.lou.redOut.setWidth 72) s := if_pos two

/-- R175: a critical fault detected in a mode that faults enter takes the part to its fault aspect. -/
theorem detect_faultTaken {k : FaultKind} {s : State} (critical : k.critical = true)
    (enters : s.mfs.mode.faultEnters = true) (d : BitVec 72) : FaultTaken s.cs.image (detect k d s) :=
  (detect_shuts k d s).faultTaken enters ((detect_raises k d s).critical critical).2

/-- R176: the record of the detected kind. -/
theorem detect_record (k : FaultKind) (d : BitVec 72) (s : State) :
    (detect k d s).mfs.faults[k.code] = detected (jnow s) d (s.mfs.faults[k.code]) := by
  rw [detect_faults, latch_faults, if_pos rfl]

/-- Settles O19, by the number of groups red-out as the start-up all-red runs out. -/
theorem startUpAllRedEndEntersNormal : Obligations.StartUpAllRedEndEntersNormal := by
  unfold Obligations.StartUpAllRedEndEntersNormal
  intro s mode sub run
  have row : exec .suAllredEnd s =
      .next (if 2 ≤ setSize s.lou.redOut then raiseMultiple s else enterNormal s) :=
    congrArg Host.Outcome.next (if_pos (phaseRun_of sub run))
  refine ⟨_, row, fun few => ?_, fun two => ?_⟩
  · rw [if_neg (by omega)]
    exact enterNormal_follows s
  · rw [if_pos two, raiseMultiple_of_two two]
    have taken := detect_faultTaken (k := .redOutMultiple) (s := s) rfl (by rw [mode]; rfl) (s.lou.redOut.setWidth 72)
    have record := detect_record .redOutMultiple (s.lou.redOut.setWidth 72) s
    exact ⟨taken.mode, taken.sub, taken.driven, taken.list, by rw [record]; rfl, by rw [record]; rfl, taken.stopped⟩

end Sys2Proof.Machine

/-! ## The overcurrent trip -/

namespace Sys2Proof.Machine

/-! ### A channel that cannot be driven stays off -/

/-- R149, R155: a channel that cannot be driven, its output off and its bulb settling. -/
structure Undriven (r : LampRec) : Prop where
  drive : r.drive ≠ .enabled
  output : r.output = false
  settling : r.settling = true

theorem outputFor_of_not_enabled {d : DriveState} (h : d ≠ .enabled) (now : Time) (c : LampCommand) :
    outputFor now d c = false := by
  cases d with
  | enabled => exact absurd rfl h
  | tripped => rfl
  | lockedOff => rfl

/-- R149: a new command reaches no output of a channel that cannot be driven. -/
theorem Undriven.recommand {r : LampRec} (h : Undriven r) (now : Time) (c : LampCommand) :
    Undriven (recommand now c r) := by
  unfold Machine.recommand
  split
  · exact h
  · exact ⟨h.drive, outputFor_of_not_enabled h.drive now c, by simp [h.settling]⟩

/-- From `s` to `t`, every channel that could not be driven stays off. -/
def StaysOff (s t : State) : Prop := ∀ ch, Undriven (lamp s ch) → Undriven (lamp t ch)

theorem StaysOff.trans {s t u : State} (h : StaysOff s t) (k : StaysOff t u) : StaysOff s u :=
  fun ch off => k ch (h ch off)

theorem StaysOff.of_lou {s t : State} (h : t.lou = s.lou) : StaysOff s t := fun ch off => by
  have same : lamp t ch = lamp s ch := by rw [lamp, lamp, h]
  rwa [same]

theorem Follows.staysOff {s t : State} (h : Follows noGroup s t) : StaysOff s t := fun ch off => by
  rw [h.lamps ch rfl]
  split
  · exact off
  · exact off.recommand _ _

theorem latch_staysOff (k : FaultKind) (d : BitVec 72) (s : State) : StaysOff s (latch k d s) :=
  .of_lou (by simp [latch, setFault])

theorem faultEntry_staysOff (s : State) : StaysOff s (faultEntry s) := fun ch off => by
  rw [faultEntry, (enterResting_spec _ _).lamps ch, setGroups_lamp]
  exact off.recommand _ _

theorem detect_staysOff (k : FaultKind) (d : BitVec 72) (s : State) : StaysOff s (detect k d s) := by
  have latched := latch_staysOff k d s
  unfold detect
  dsimp only
  split
  · have driven := latched.trans (.of_lou (t := driveFlt (latch k d s)) rfl)
    split
    · exact driven.trans (faultEntry_staysOff _)
    · exact driven
  · exact latched

theorem reportRedOut_staysOff (s : State) : StaysOff s (reportRedOut s) :=
  StaysOff.trans (.of_lou (recomputeInhibits_lou s)) (settleSince_follows s _).staysOff

theorem raiseMultiple_staysOff (s : State) : StaysOff s (raiseMultiple s) := by
  unfold raiseMultiple
  split
  · exact detect_staysOff _ _ s
  · exact .of_lou rfl

/-- R158: the marking of a group as red-out touches no drive, output or settling of its stop channel. -/
theorem markedRedOut_staysOff (g : Group) (s : State) : StaysOff s (markedRedOut g s) := fun ch off => by
  have unlit : lamp (markedRedOut g s) ch =
      if stopLamp g = ch then { lamp s (stopLamp g) with litCount := 0 } else lamp s ch :=
    lamp_setLamp (s := s) (stopLamp g) ch { lamp s (stopLamp g) with litCount := 0 }
  rw [unlit]
  split
  next own => exact ⟨own ▸ off.drive, own ▸ off.output, own ▸ off.settling⟩
  next => exact off

theorem becomeRedOut_staysOff (g : Group) (s : State) : StaysOff s (becomeRedOut g s) := by
  rw [becomeRedOut_eq]
  split
  · exact .of_lou rfl
  · exact (((markedRedOut_staysOff g s).trans (detect_staysOff _ _ _)).trans (reportRedOut_staysOff _)).trans
      (raiseMultiple_staysOff _)

/-! ### A red-out raises its own kinds only -/

/-- R176: the record of another kind stands where a kind is detected. -/
theorem detect_record_of_ne {k : FaultKind} {l : Fin 12} (other : k.code ≠ l) (d : BitVec 72) (s : State) :
    (detect k d s).mfs.faults[l] = s.mfs.faults[l] := by
  rw [detect_faults, latch_faults, if_neg other]

theorem reportRedOut_faults (s : State) : (reportRedOut s).mfs.faults = s.mfs.faults := by
  rw [reportRedOut, (settleSince_follows s _).faults, recomputeInhibits_mfs]

/-- R158: a red-out raises RED_OUT and RED_OUT_MULTIPLE only. -/
theorem becomeRedOut_record_of_ne {l : Fin 12} (one : FaultKind.redOut.code ≠ l)
    (two : FaultKind.redOutMultiple.code ≠ l)
    (g : Group) (s : State) : (becomeRedOut g s).mfs.faults[l] = s.mfs.faults[l] := by
  have raised (t : State) : (raiseMultiple t).mfs.faults[l] = t.mfs.faults[l] := by
    unfold raiseMultiple
    split
    · exact detect_record_of_ne two _ t
    · rfl
  rw [becomeRedOut_eq]
  split
  · rfl
  · rw [raised, reportRedOut_faults, detect_record_of_ne one]
    rfl

/-! ### The trip -/

/-- R155, R156: the record of a tripped channel; the fifth trip locks it. -/
theorem tripped_eq (now : Time) (r : LampRec) : tripped now r =
    { r with
      drive := if 4 ≤ r.trips then .lockedOff else .tripped
      output := false, settling := true
      trips := if r.trips < 5 then r.trips + 1 else 5
      lastTrip := some now
      retry := if 4 ≤ r.trips then none else some (now + 20) } := by
  have fifth : saturate 5 r.trips = 5 ↔ 4 ≤ r.trips := by
    unfold saturate
    split <;> omega
  simp only [tripped, fifth]
  rfl

theorem tripped_undriven (now : Time) (r : LampRec) : Undriven (tripped now r) := by
  refine ⟨?_, rfl, rfl⟩
  rw [tripped_eq]
  dsimp only
  split <;> simp

/-- The arrival after the trip and its detection: the group of a stop channel commanded ON becomes red-out. -/
theorem overcurrentTrip_of_enabled {ch : Lamp} {s : State} (enabled : (lamp s ch).drive = .enabled) :
    overcurrentTrip ch s = if lampPos ch = 0 ∧ (lamp s ch).command = .on then
        becomeRedOut (lampGroup ch)
          (detect .overcurrent (1#72 <<< ch.val) (setLamp s ch (tripped (jnow s) (lamp s ch))))
      else detect .overcurrent (1#72 <<< ch.val) (setLamp s ch (tripped (jnow s) (lamp s ch))) := if_pos enabled

/-- R155: what an overcurrent report comes to on an enabled channel, past the trip itself. -/
structure OvercurrentTaken (ch : Lamp) (s t : State) : Prop where
  shuts : Shuts (latch .overcurrent (1#72 <<< ch.val) s) t
  staysOff : StaysOff s t
  record : t.mfs.faults[FaultKind.overcurrent.code] =
    detected (jnow s) (1#72 <<< ch.val) (s.mfs.faults[FaultKind.overcurrent.code])

theorem detect_overcurrentTaken (ch : Lamp) (s : State) :
    OvercurrentTaken ch s (detect .overcurrent (1#72 <<< ch.val) s) :=
  ⟨latch_detect_shuts _ _ s, detect_staysOff _ _ s, detect_record _ _ s⟩

theorem OvercurrentTaken.redOut {ch : Lamp} {s t : State} (h : OvercurrentTaken ch s t) (g : Group) :
    OvercurrentTaken ch s (becomeRedOut g t) :=
  ⟨h.shuts.trans (becomeRedOut_shuts g t), h.staysOff.trans (becomeRedOut_staysOff g t),
    (becomeRedOut_record_of_ne (by decide) (by decide) g t).trans h.record⟩

theorem overcurrentTrip_taken {ch : Lamp} {s : State} (enabled : (lamp s ch).drive = .enabled) :
    OvercurrentTaken ch (setLamp s ch (tripped (jnow s) (lamp s ch))) (overcurrentTrip ch s) := by
  have detection := detect_overcurrentTaken ch (setLamp s ch (tripped (jnow s) (lamp s ch)))
  rw [overcurrentTrip_of_enabled enabled]
  split
  · exact detection.redOut _
  · exact detection

/-- R158: the trip of a stop channel commanded ON makes its group red-out. -/
theorem overcurrentTrip_redOut {ch : Lamp} {s : State} (enabled : (lamp s ch).drive = .enabled) (stop : lampPos ch = 0)
    (on : (lamp s ch).command = .on) : inSet (overcurrentTrip ch s).lou.redOut (lampGroup ch) = true := by
  rw [overcurrentTrip_of_enabled enabled, if_pos ⟨stop, on⟩, (becomeRedOut_spec _ _).member]
  simp

/-- Settles O20, by the drive state of the channel. -/
theorem overcurrentTripsChannel : Obligations.OvercurrentTripsChannel := by
  unfold Obligations.OvercurrentTripsChannel
  intro ch s
  have row : exec (.overcurrentTrip (number ch)) s = .next (overcurrentTrip ch s) :=
    congrArg Host.Outcome.next (withItem_number ch overcurrentTrip s)
  refine ⟨fun enabled => ?_, fun off => row.trans (congrArg Host.Outcome.next (if_neg off))⟩
  have taken := overcurrentTrip_taken enabled
  have off := taken.staysOff ch (by rw [lamp_setLamp_self]; exact tripped_undriven _ _)
  refine ⟨_, row, ?_, off.output, off.settling, ?_, fun stop on => overcurrentTrip_redOut enabled stop on⟩
  · rw [← tripped_eq]
    exact taken.shuts
  · exact taken.record

end Sys2Proof.Machine

/-! ## The retry, the trip forgiveness, the dim boundary and the flash toggle -/

namespace Sys2Proof.Machine

/-- R149: an enabled channel's output, by its command and the flash phase. -/
theorem outputFor_enabled (now : Time) (c : LampCommand) :
    outputFor now .enabled c = (decide (c = .on) || (decide (c = .flash) && decide (now.toNat % 10 < 5))) := by
  cases c <;> simp [outputFor, flashOnHalf]

/-- R150: a flashing channel's output is the phase where the channel is enabled, and off elsewhere. -/
theorem outputFor_of_flash {c : LampCommand} (flashes : c = .flash) (now : Time) (d : DriveState) :
    outputFor now d c = (decide (d = .enabled) && decide (now.toNat % 10 < 5)) := by
  subst flashes
  cases d <;> simp [outputFor, flashOnHalf]

/-- R156: a due retry re-enables the channel, its output following its command. -/
theorem tripRetry_of_due {ch : Lamp} {s : State} {u : Time} (drive : (lamp s ch).drive = .tripped)
    (retry : (lamp s ch).retry = some u) (reached : isAfter (jnow s) u = false) :
    tripRetry ch s = setLamp s ch { redrive (jnow s) .enabled (lamp s ch) with retry := none } :=
  if_pos (by simp [retryDue, drive, retry, reached])

/-- R156: 100 ds after its last trip a channel that is not locked has its trips forgiven. -/
theorem tripCounterReset_of_due {ch : Lamp} {s : State} {u : Time} (drive : (lamp s ch).drive ≠ .lockedOff)
    (trips : 0 < (lamp s ch).trips) (last : (lamp s ch).lastTrip = some u) (run : 100 ≤ elapsed (jnow s) u) :
    tripCounterReset ch s = setLamp s ch { lamp s ch with trips := 0 } :=
  if_pos (by simp [tripsForgiven, drive, trips, last, run])

/-- R150: the dim boundary makes a pending dim state the active one. -/
theorem dimBoundary_of_due {s : State} (due : s.lou.boundaryDue = true) : dimBoundary s =
    { s with lou := { s.lou with
        dim := s.lou.pendingDim.getD s.lou.dim, pendingDim := none, boundaryDue := false } } := by
  unfold dimBoundary
  rw [if_pos due]
  cases pending : s.lou.pendingDim <;> simp [pending]

/-- R149: the flash toggle drives a flashing channel with the phase and leaves every other channel as it stands. -/
theorem lamp_flashToggle (s : State) (ch : Lamp) : lamp (flashToggle s) ch =
    if (lamp s ch).command = .flash then
      { lamp s ch with output := decide ((lamp s ch).drive = .enabled) && decide ((jnow s).toNat % 10 < 5) }
    else lamp s ch := by
  rw [flashToggle, lamp_setLamps]
  exact ite_congr rfl (fun flashes => by rw [outputFor_of_flash flashes]) fun _ => rfl

/-- Settles O21, by the rule of each timed row. -/
theorem lampTimedStepsSwitchChannels : Obligations.LampTimedStepsSwitchChannels := by
  unfold Obligations.LampTimedStepsSwitchChannels
  refine ⟨fun ch s => ⟨?retry, ?forgiven⟩,
    fun s => ⟨?boundary, ?noBoundary, flashToggle s, rfl, rfl, lamp_flashToggle s⟩⟩
  case retry =>
    rintro u drive retry reached o rfl
    refine congrArg Host.Outcome.next ((withItem_number ch tripRetry s).trans ?_)
    rw [tripRetry_of_due drive retry reached, redrive, outputFor_enabled]
  case forgiven =>
    intro u drive trips last run
    exact congrArg Host.Outcome.next
      ((withItem_number ch tripCounterReset s).trans (tripCounterReset_of_due drive trips last run))
  case boundary => exact fun due => congrArg Host.Outcome.next (dimBoundary_of_due due)
  case noBoundary => exact fun idle => congrArg Host.Outcome.next (if_neg (by simp [idle]))

end Sys2Proof.Machine

/-! ## The clearing of faults -/

namespace Sys2Proof.Machine

/-! ### The two checked sets -/

theorem and_eq_zero_iff_getLsbD {w m : BitVec 16} :
    w &&& m = 0 ↔ ∀ n < 16, m.getLsbD n = true → w.getLsbD n = false := by
  constructor
  · intro none n _ on
    have bit := congrArg (BitVec.getLsbD · n) none
    simpa [on] using bit
  · intro clear
    refine BitVec.eq_of_getLsbD_eq fun n lt => ?_
    cases on : m.getLsbD n with
    | false => simp [on]
    | true => simp [clear n lt on]

/-- R194: a fault set passes the check where it lists no kind above the twelve. -/
theorem faultSetOk_iff {w : BitVec 16} : faultSetOk w = true ↔ ∀ n, 12 ≤ n → w.getLsbD n = false := by
  have reserved : ∀ n < 16, (0xF000#16).getLsbD n = decide (12 ≤ n) := by decide
  rw [faultSetOk, decide_eq_true_iff, and_eq_zero_iff_getLsbD]
  constructor
  · intro clear n high
    by_cases lt : n < 16
    · exact clear n lt (by rw [reserved n lt, decide_eq_true high])
    · exact BitVec.getLsbD_of_ge w n (by omega)
  · exact fun clear n lt on => clear n (of_decide_eq_true ((reserved n lt).symm.trans on))

/-- R175: a fault set meets the critical mask where it lists a critical kind. -/
theorem listsCritical_iff {w : BitVec 16} :
    w &&& criticalMask ≠ 0 ↔ ∃ k : Fin 12, w.getLsbD k.val = true ∧ criticalCode k = true := by
  have critical : ∀ k : Fin 12, criticalMask.getLsbD k.val = criticalCode k := by decide
  have low : ∀ n < 16, criticalMask.getLsbD n = true → n < 12 := by decide
  rw [ne_eq, and_eq_zero_iff_getLsbD]
  constructor
  · intro listed
    by_contra none
    refine listed fun n lt on => ?_
    by_contra bit
    exact none ⟨⟨n, low n lt on⟩, by simpa using bit, (critical ⟨n, low n lt on⟩).symm.trans on⟩
  · rintro ⟨k, bit, on⟩ clear
    rw [clear k.val (by omega) ((critical k).trans on)] at bit
    cases bit

/-! ### The verdict -/

/-- R177: outside FLASH and DARK a critical kind is refused. -/
theorem clearFaultsVerdict_refused {kinds : BitVec 16} {s : State} (flash : s.mfs.mode ≠ .flash)
    (dark : s.mfs.mode ≠ .dark) (listed : ∃ k : Fin 12, kinds.getLsbD k.val = true ∧ criticalCode k = true) :
    clearFaultsVerdict kinds s = .refusedMode := by
  have runs : s.mfs.mode.resting = false := by
    rw [Bool.eq_false_iff, ne_eq, resting_iff]
    exact fun rests => rests.elim flash dark
  have critical := decide_eq_true (listsCritical_iff.mpr listed)
  exact if_pos (by rw [runs, critical]; rfl)

theorem clearFaultsVerdict_done {kinds : BitVec 16} {s : State} (free : s.mfs.mode = .flash ∨ s.mfs.mode = .dark ∨
    ∀ k : Fin 12, kinds.getLsbD k.val = true → criticalCode k = false) : clearFaultsVerdict kinds s = .done := by
  refine if_neg fun refused => ?_
  obtain ⟨runs, listed⟩ := Bool.and_eq_true_iff.mp refused
  obtain ⟨k, bit, critical⟩ := listsCritical_iff.mp (of_decide_eq_true listed)
  rcases free with flash | dark | uncritical
  · rw [flash] at runs
    cases runs
  · rw [dark] at runs
    cases runs
  · rw [uncritical k bit] at critical
    cases critical

/-- R194: a set with a kind above the twelve is refused, whether or not a mask is said to be given. -/
theorem clearFaults_of_invalid {kinds mask : BitVec 16}
    (high : ∃ n, 12 ≤ n ∧ (kinds.getLsbD n = true ∨ mask.getLsbD n = true))
    (given : Bool) (i : Station) (s : State) :
    clearFaults kinds given mask i s = answer .clearFaults .refusedInvalid [] s := by
  obtain ⟨n, above, bit⟩ := high
  refine if_pos ?_
  rw [Bool.not_eq_true', Bool.eq_false_iff, ne_eq, Bool.and_eq_true_iff, faultSetOk_iff, faultSetOk_iff]
  rintro ⟨kindsOk, maskOk⟩
  rcases bit with bit | bit
  · simp [kindsOk n above] at bit
  · simp [maskOk n above] at bit

theorem clearFaults_of_valid {kinds mask : BitVec 16}
    (low : ∀ n, 12 ≤ n → kinds.getLsbD n = false ∧ mask.getLsbD n = false) (given : Bool) (i : Station) (s : State) :
    clearFaults kinds given mask i s =
      let t := if clearFaultsVerdict kinds s = .done then
        clearFaultKinds kinds (if given then some mask else none) s else s
      answer .clearFaults (clearFaultsVerdict kinds s) (natBytes 2 (latchedKinds t).toNat) t := by
  have kindsOk : faultSetOk kinds = true := faultSetOk_iff.mpr fun n above => (low n above).1
  have maskOk : faultSetOk mask = true := faultSetOk_iff.mpr fun n above => (low n above).2
  exact if_neg (by simp [kindsOk, maskOk])

theorem clearFaults_of_refused {kinds mask : BitVec 16} {s : State}
    (low : ∀ n, 12 ≤ n → kinds.getLsbD n = false ∧ mask.getLsbD n = false)
    (refused : clearFaultsVerdict kinds s = .refusedMode) (given : Bool) (i : Station) :
    clearFaults kinds given mask i s = answer .clearFaults .refusedMode (natBytes 2 (latchedKinds s).toNat) s := by
  rw [clearFaults_of_valid low, refused]
  rfl

theorem clearFaults_of_done {kinds mask : BitVec 16} {s : State}
    (low : ∀ n, 12 ≤ n → kinds.getLsbD n = false ∧ mask.getLsbD n = false)
    (done : clearFaultsVerdict kinds s = .done) (given : Bool) (i : Station) :
    clearFaults kinds given mask i s = answer .clearFaults .done
      (natBytes 2 (latchedKinds (clearFaultKinds kinds (if given then some mask else none) s)).toNat)
      (clearFaultKinds kinds (if given then some mask else none) s) := by
  rw [clearFaults_of_valid low, done]
  rfl

/-! ### The clearing -/

/-- R177: a listed record is cleared and keeps its count; a mask that is given is written. -/
theorem getElem_clearTable (kinds mask : BitVec 16) (given : Bool) (table : Vector FaultRec 12) (k : Fin 12) :
    (clearTable kinds (if given then some mask else none) table)[k] =
      { table[k] with
        latched := (table[k]).latched && !kinds.getLsbD k.val
        firstSet := if kinds.getLsbD k.val then none else (table[k]).firstSet
        detail := if kinds.getLsbD k.val then 0 else (table[k]).detail
        masked := if given then mask.getLsbD k.val else (table[k]).masked } := by
  cases given <;> cases listed : kinds.getLsbD k.val <;> simp [clearTable, clearedFault, listed]

/-- R152, R153, R177: whether a channel's run counts as re-armed once `kinds` are cleared. -/
def rearmedBy (kinds : BitVec 16) (ch : Lamp) (r : LampRec) : Bool :=
  match r.run with
  | some m => r.rearmed || (decide (threshold m ≤ r.mismatches) && kinds.getLsbD (raisedKind ch m).code.val)
  | none => r.rearmed

theorem rearmedBy_of_run {kinds : BitVec 16} {ch : Lamp} {r : LampRec} {m : Mismatch} (run : r.run = some m) :
    rearmedBy kinds ch r =
      (r.rearmed || (decide (threshold m ≤ r.mismatches) && kinds.getLsbD (raisedKind ch m).code.val)) := by
  simp only [rearmedBy, run]

theorem rearmedBy_of_no_run {kinds : BitVec 16} {ch : Lamp} {r : LampRec} (run : r.run = none) :
    rearmedBy kinds ch r = r.rearmed := by
  simp only [rearmedBy, run]

/-- R151 to R153: an uncommanded run raises its own kind at the proceed lamp, LAMP_OUT elsewhere. -/
theorem raisedKind_uncommanded_code (ch : Lamp) :
    (raisedKind ch .uncommanded).code.val = if lampPos ch = 2 then 1 else 4 := by
  unfold raisedKind
  dsimp only
  split <;> rfl

theorem rearm_eq (kinds : BitVec 16) (ch : Lamp) (r : LampRec) :
    rearm kinds ch r = { r with rearmed := rearmedBy kinds ch r } := by
  unfold rearm
  split
  next m run =>
    rw [rearmedBy_of_run run]
    split
    next raised => rw [raised, Bool.or_true]
    next quiet => rw [Bool.eq_false_iff.mpr quiet, Bool.or_false]
  next run => rw [rearmedBy_of_no_run run]

/-- R177, R152, R153: the listed records cleared and the runs re-armed, before any lock is lifted. -/
def rearmedState (kinds : BitVec 16) (mask : Option (BitVec 16)) (s : State) : State :=
  setLamps { s with mfs := { s.mfs with faults := clearTable kinds mask s.mfs.faults } }
    fun ch => rearm kinds ch (lamp s ch)

theorem lamp_rearmedState (kinds : BitVec 16) (mask : Option (BitVec 16)) (s : State) (ch : Lamp) :
    lamp (rearmedState kinds mask s) ch = rearm kinds ch (lamp s ch) := by
  rw [rearmedState, lamp_setLamps]

theorem clearFaultKinds_eq (kinds : BitVec 16) (mask : Option (BitVec 16)) (s : State) :
    clearFaultKinds kinds mask s = if kinds.getLsbD 6 && s.mfs.mode.resting then liftLocks (rearmedState kinds mask s)
      else rearmedState kinds mask s := rfl

theorem lamp_clearFaultKinds (kinds : BitVec 16) (mask : Option (BitVec 16)) (s : State) (ch : Lamp) :
    lamp (clearFaultKinds kinds mask s) ch = if kinds.getLsbD 6 && s.mfs.mode.resting then
        unlocked (jnow s) (rearm kinds ch (lamp s ch)) else rearm kinds ch (lamp s ch) := by
  have now : jnow (rearmedState kinds mask s) = jnow s := by rw [rearmedState, setLamps_jnow]; rfl
  rw [clearFaultKinds_eq]
  split
  · rw [lamp_liftLocks, now, lamp_rearmedState]
  · exact lamp_rearmedState kinds mask s ch

/-- R157: in a resting mode, with OVERCURRENT listed, a locked channel is released. -/
theorem lamp_clearFaultKinds_of_locked {kinds : BitVec 16} {s : State} {ch : Lamp} (listed : kinds.getLsbD 6 = true)
    (rests : s.mfs.mode.resting = true) (locked : (lamp s ch).drive = .lockedOff) (mask : Option (BitVec 16)) :
    lamp (clearFaultKinds kinds mask s) ch =
      { lamp s ch with
        drive := .enabled, trips := 0, lastTrip := none, rearmed := rearmedBy kinds ch (lamp s ch)
        output := (lamp (clearFaultKinds kinds mask s) ch).output
        settling := (lamp s ch).settling ||
          ((lamp (clearFaultKinds kinds mask s) ch).output != (lamp s ch).output) } ∧
    (lamp (clearFaultKinds kinds mask s) ch).output = (decide ((lamp s ch).command = .on) ||
      (decide ((lamp s ch).command = .flash) && decide ((jnow s).toNat % 10 < 5))) := by
  have released : lamp (clearFaultKinds kinds mask s) ch =
      { redrive (jnow s) .enabled (lamp s ch) with
        trips := 0, lastTrip := none, rearmed := rearmedBy kinds ch (lamp s ch) } := by
    rw [lamp_clearFaultKinds, if_pos (by rw [listed, rests]; rfl), rearm_eq]
    exact if_pos locked
  rw [released]
  exact ⟨rfl, outputFor_enabled _ _⟩

/-- R157: every other channel is re-armed only. -/
theorem lamp_clearFaultKinds_of_kept {kinds : BitVec 16} {s : State} {ch : Lamp}
    (kept : kinds.getLsbD 6 = false ∨ s.mfs.mode.resting = false ∨ (lamp s ch).drive ≠ .lockedOff)
    (mask : Option (BitVec 16)) :
    lamp (clearFaultKinds kinds mask s) ch = { lamp s ch with rearmed := rearmedBy kinds ch (lamp s ch) } := by
  rw [lamp_clearFaultKinds, rearm_eq]
  split
  next lifts =>
    obtain ⟨listed, rests⟩ := Bool.and_eq_true_iff.mp lifts
    have free : (lamp s ch).drive ≠ .lockedOff := by
      rw [listed, rests] at kept
      simpa using kept
    exact unlocked_of_free _ free
  next => rfl

/-- R177: beyond the fault records and the lamp channels a clearing touches nothing. -/
theorem clearFaultKinds_frame (kinds : BitVec 16) (mask : Option (BitVec 16)) (s : State) :
    ∃ channels, clearFaultKinds kinds mask s =
      { s with mfs := { s.mfs with faults := clearTable kinds mask s.mfs.faults }
               lou := { s.lou with channels := channels } } := by
  rw [clearFaultKinds_eq]
  split
  · exact ⟨(liftLocks (rearmedState kinds mask s)).lou.channels, by simp only [liftLocks, rearmedState, setLamps]⟩
  · exact ⟨(rearmedState kinds mask s).lou.channels, by simp only [rearmedState, setLamps]⟩

/-- Settles O49, by the check of the two sets and the verdict. -/
theorem clearFaultsClearsListedKinds : Obligations.ClearFaultsClearsListedKinds := by
  unfold Obligations.ClearFaultsClearsListedKinds
  intro i kinds mask given s free other
  have row : exec (.clearFaults (number i) kinds given mask) s = .next (clearFaults kinds given mask i s) :=
    congrArg Host.Outcome.next (asked_number .clearFaults i _ s free (decide_eq_true other))
  rw [row]
  refine ⟨fun high => ?invalid, fun low => ⟨fun flash dark listed => ?refused, fun passes => ?done⟩⟩
  case invalid => rw [clearFaults_of_invalid high, answer_eq]
  case refused => rw [clearFaults_of_refused low (clearFaultsVerdict_refused flash dark listed), answer_eq]
  case done =>
    rw [clearFaults_of_done low (clearFaultsVerdict_done passes)]
    obtain ⟨channels, frame⟩ := clearFaultKinds_frame kinds (if given then some mask else none) s
    refine ⟨_, rfl, ?frame, fun k => ?record, fun ch rearmed same => ?lamps⟩
    case frame => rw [frame, answer_eq]; rfl
    case record =>
      rw [frame]
      exact getElem_clearTable kinds mask given s.mfs.faults k
    case lamps =>
      have counted : rearmed = rearmedBy kinds ch (lamp s ch) := by
        rw [same]
        cases run : (lamp s ch).run with
        | none => exact (rearmedBy_of_no_run run).symm
        | some m =>
          rw [rearmedBy_of_run run]
          cases m with
          | out => rfl
          | partly => rfl
          | uncommanded => rw [raisedKind_uncommanded_code]; rfl
      rw [counted, answer_eq]
      exact ⟨fun listed rests locked => lamp_clearFaultKinds_of_locked listed rests locked _,
        fun kept => lamp_clearFaultKinds_of_kept kept _⟩

end Sys2Proof.Machine

/-! ## The clearing of events (R182) -/

namespace Sys2Proof.Machine

/-- R194: an event set passes the check where it lists no kind above the eleven. -/
theorem eventSetOk_iff {w : BitVec 16} : eventSetOk w = true ↔ ∀ n, 11 ≤ n → w.getLsbD n = false := by
  have reserved : ∀ n < 16, (0xF800#16).getLsbD n = decide (11 ≤ n) := by decide
  rw [eventSetOk, decide_eq_true_iff, and_eq_zero_iff_getLsbD]
  constructor
  · intro clear n high
    by_cases lt : n < 16
    · exact clear n lt (by rw [reserved n lt, decide_eq_true high])
    · exact BitVec.getLsbD_of_ge w n (by omega)
  · exact fun clear n lt on => clear n (of_decide_eq_true ((reserved n lt).symm.trans on))

/-- R194: a set with a kind above the eleven is refused, whether or not a mask is said to be given. -/
theorem clearEvents_of_invalid {kinds mask : BitVec 16}
    (high : ∃ n, 11 ≤ n ∧ (kinds.getLsbD n = true ∨ mask.getLsbD n = true)) (given : Bool) (i : Station) (s : State) :
    clearEvents kinds given mask i s = answer .clearEvents .refusedInvalid [] s := by
  obtain ⟨n, above, bit⟩ := high
  refine if_pos ?_
  rw [Bool.not_eq_true', Bool.eq_false_iff, ne_eq, Bool.and_eq_true_iff, eventSetOk_iff, eventSetOk_iff]
  rintro ⟨kindsOk, maskOk⟩
  rcases bit with bit | bit
  · simp [kindsOk n above] at bit
  · simp [maskOk n above] at bit

/-- R182: the supervisor's record once station `i` has cleared `kinds` and, where it gives one, written its mask. -/
def eventsCleared (i : Station) (kinds mask : BitVec 16) (given : Bool) (m : Mfs) : Mfs :=
  clearStationEvents i (kinds.setWidth 11) (if given then some (mask.setWidth 11) else none) m

theorem clearEvents_of_valid {kinds mask : BitVec 16}
    (low : ∀ n, 11 ≤ n → kinds.getLsbD n = false ∧ mask.getLsbD n = false) (given : Bool) (i : Station) (s : State) :
    clearEvents kinds given mask i s =
      let m := eventsCleared i kinds mask given s.mfs
      { s with mfs := m
               clp := answered .clearEvents .done
                 (natBytes 2 (m.pending[i]).toNat ++ natBytes 2 (m.masks[i]).toNat) s.clp } := by
  have kindsOk : eventSetOk kinds = true := eventSetOk_iff.mpr fun n above => (low n above).1
  have maskOk : eventSetOk mask = true := eventSetOk_iff.mpr fun n above => (low n above).2
  exact if_neg (by simp [kindsOk, maskOk])

theorem eventsCleared_frame (i : Station) (kinds mask : BitVec 16) (given : Bool) (m : Mfs) :
    eventsCleared i kinds mask given m =
      { m with pending := (eventsCleared i kinds mask given m).pending
               masks := (eventsCleared i kinds mask given m).masks
               attnLow := (eventsCleared i kinds mask given m).attnLow } := rfl

/-- R182: the caller's pending set loses the listed kinds, the other sets stand. -/
theorem eventsCleared_pending (i j : Station) (kinds mask : BitVec 16) (given : Bool) (m : Mfs) :
    (eventsCleared i kinds mask given m).pending[j] =
      if j = i then m.pending[i] &&& ~~~(kinds.setWidth 11) else m.pending[j] := by
  simp only [eventsCleared, clearStationEvents, updateAttn_pending, Fin.getElem_fin, Vector.getElem_set, Fin.ext_iff,
    eq_comm (a := i.val)]

/-- R182: the caller's mask is written where one is given, the other masks stand. -/
theorem eventsCleared_masks (i j : Station) (kinds mask : BitVec 16) (given : Bool) (m : Mfs) :
    (eventsCleared i kinds mask given m).masks[j] =
      if j = i ∧ given = true then mask.setWidth 11 else m.masks[j] := by
  cases given with
  | false => simp [eventsCleared, clearStationEvents]
  | true =>
    simp only [eventsCleared, clearStationEvents, updateAttn_masks, if_true, and_true, Fin.getElem_fin,
      Vector.getElem_set, Fin.ext_iff, eq_comm (a := i.val)]

theorem exec_clearEvents (i : Station) (kinds mask : BitVec 16) (given : Bool) (s : State) (free : inFlight s = false) :
    exec (.clearEvents (number i) kinds given mask) s = .next (clearEvents kinds given mask i s) :=
  congrArg Host.Outcome.next (asked_number .clearEvents i _ s free rfl)

/-- R182: the summary byte says whether an unmasked kind is pending. -/
theorem flagByte_unmaskedSummary (m : Mfs) (i : Station) :
    flagByte (unmaskedSummary m i) = if m.pending[i] &&& ~~~m.masks[i] = 0 then 0 else 1 := by
  unfold unmaskedSummary
  split
  next none => rw [none]; rfl
  next some => rw [decide_eq_true some]; rfl

/-- Settles O41, by the check of the two sets; READ_EVENTS is one reply. -/
theorem clearEventsRemovesListedKinds : Obligations.ClearEventsRemovesListedKinds := by
  unfold Obligations.ClearEventsRemovesListedKinds
  intro i kinds mask given s free
  rw [exec_clearEvents i kinds mask given s free, exec_readEvents free]
  refine ⟨fun high => ?invalid, fun low => ?cleared, ?read⟩
  case invalid => rw [clearEvents_of_invalid high, answer_eq]
  case cleared =>
    rw [clearEvents_of_valid low]
    refine ⟨_, rfl, ?pending, ?mask, fun j other => ⟨?_, ?_⟩, rfl, ?frame⟩
    case pending => rw [eventsCleared_pending, if_pos rfl]
    case mask => rw [eventsCleared_masks]; simp only [true_and]
    · rw [eventsCleared_pending, if_neg other]
    · rw [eventsCleared_masks, if_neg fun both => other both.1]
    case frame => rw [← eventsCleared_frame]
  case read =>
    rw [readEvents, answer_eq, eventFields, flagByte_unmaskedSummary]
    cases s.mfs.lastRemoval <;> rfl

end Sys2Proof.Machine

/-! ## The power-up check (R164, R206) -/

namespace Sys2Proof.Machine

/-! ### The working copies loaded (R29, R56) -/

/-- R29, R56: the matrix and the stage list stand as the image stores them, with no flag computed again yet. -/
def copiesWritten (s : State) : State :=
  { s with
    igm := { entry := Vector.ofFn fun c => Vector.ofFn fun g => if c = g then none else storedEntry s.cs.image c g }
    sel := { s.sel with stages := Vector.ofFn (storedStage s.cs.image) } }

theorem copiesWritten_sge (s : State) : (copiesWritten s).sge = s.sge := by simp only [copiesWritten]
theorem copiesWritten_du (s : State) : (copiesWritten s).du = s.du := by simp only [copiesWritten]
theorem copiesWritten_lou (s : State) : (copiesWritten s).lou = s.lou := by simp only [copiesWritten]
theorem copiesWritten_mfs (s : State) : (copiesWritten s).mfs = s.mfs := by simp only [copiesWritten]
theorem copiesWritten_clp (s : State) : (copiesWritten s).clp = s.clp := by simp only [copiesWritten]
theorem copiesWritten_cs (s : State) : (copiesWritten s).cs = s.cs := by simp only [copiesWritten]

theorem copiesWritten_sel (s : State) :
    (copiesWritten s).sel = { s.sel with stages := Vector.ofFn (storedStage s.cs.image) } := by simp only [copiesWritten]

theorem intergreen_copiesWritten (s : State) (c g : Group) :
    intergreen (copiesWritten s) c g = if c = g then none else storedEntry s.cs.image c g := by
  simp [intergreen, copiesWritten]

theorem loadWorkingCopies_eq (s : State) : loadWorkingCopies s = reportRedOut (copiesWritten s) := by
  unfold loadWorkingCopies copiesWritten
  dsimp only

/-- R23: beyond writing the copies the loading only computes the inhibited flags and takes what follows from them. -/
theorem loadWorkingCopies_follows (s : State) :
    Follows noGroup (recomputeInhibits (copiesWritten s)) (loadWorkingCopies s) := by
  rw [loadWorkingCopies_eq]
  exact settleSince_follows _ _

theorem loadWorkingCopies_moves (s : State) : SelectorMoves (copiesWritten s) (loadWorkingCopies s) := by
  have reported := (loadWorkingCopies_follows s).selectorMoves
  unfold recomputeInhibits at reported
  exact (SelectorMoves.setGroups _ _).trans reported

/-- R29, R56: what the loading of the working copies leaves. -/
structure CopiesLoaded (s t : State) : Prop where
  matrix : ∀ c g, intergreen t c g = if c = g then none else storedEntry s.cs.image c g
  stages : ∀ n : Stage, t.sel.stages[n] = storedStage s.cs.image n
  /-- R67: the target and its generation stand unless the fallback sequencer acts. -/
  generation : fbsActs s = false → t.sel.generation = s.sel.generation
  clock : t.sge.clock = s.sge.clock
  du : t.du = s.du
  clp : t.clp = s.clp
  cs : t.cs = s.cs
  mfs : t.mfs = { s.mfs with pending := t.mfs.pending, attnLow := t.mfs.attnLow }
  redOut : t.lou.redOut = s.lou.redOut
  drive : ∀ ch, (lamp t ch).drive = (lamp s ch).drive

theorem loadWorkingCopies_loaded (s : State) : CopiesLoaded s (loadWorkingCopies s) := by
  have follows := loadWorkingCopies_follows s
  have moves := loadWorkingCopies_moves s
  exact {
    matrix := fun c g => by rw [intergreen, moves.igm, ← intergreen, intergreen_copiesWritten]
    stages := fun n => by rw [follows.sel, recomputeInhibits_sel, copiesWritten_sel]; simp
    generation := fun rests => by
      have acts : fbsActs (recomputeInhibits (copiesWritten s)) = false := by
        rw [fbsActs, recomputeInhibits_sel, recomputeInhibits_mfs, copiesWritten_sel, copiesWritten_mfs]
        exact rests
      obtain ⟨sel, _⟩ := follows.target acts
      rw [sel, recomputeInhibits_sel, copiesWritten_sel]
    clock := by rw [moves.clock, copiesWritten_sge]
    du := by rw [moves.du, copiesWritten_du]
    clp := by rw [moves.clp, copiesWritten_clp]
    cs := by rw [moves.cs, copiesWritten_cs]
    mfs := by rw [moves.mfs, copiesWritten_mfs]
    redOut := by rw [moves.redOut, copiesWritten_lou]
    drive := fun ch => by
      obtain ⟨drive, _⟩ := drive_of_core (moves.lamps ch)
      rw [drive, lamp, copiesWritten_lou, ← lamp] }

/-- R171: the latched critical flags depend on the fault records alone. -/
theorem latchedKinds_congr {s t : State} (faults : t.mfs.faults = s.mfs.faults) : latchedKinds t = latchedKinds s := by
  rw [latchedKinds, faults, ← latchedKinds]

theorem criticalLatched_congr {s t : State} (faults : t.mfs.faults = s.mfs.faults) :
    criticalLatched t = criticalLatched s := by rw [criticalLatched, latchedKinds_congr faults, ← criticalLatched]

/-! ### The selector's record at START_UP entry (R55) -/

/-- R64, R72: outside NORMAL what follows an arrival leaves the selector's record, its reported flag too. -/
theorem settleRounds_sel_of_mode {n : Nat} {sel fbs : Bool} {s : State} (mode : s.mfs.mode ≠ .normal) :
    (settleRounds n sel fbs s).sel = s.sel := by
  induction n generalizing sel fbs s with
  | zero => rfl
  | succ n ih =>
    have unreported : (if sel then evalReached s else s) = s := by rw [evalReached_of_mode mode, ite_self]
    have rests : fbsActs s = false := by simp [fbsActs, mode]
    unfold settleRounds
    rw [unreported]
    dsimp only
    rw [evalStage_of_not_acts rests]
    split
    · split
      · exact ih mode
      · rfl
    · rw [ih (by rwa [(engineRound_follows s).mode]), (engineRound_selKept s).sel]

/-- R48: outside NORMAL a change of the owner writes the owner, its rank and the time of the change alone. -/
theorem changeOwner_sel_of_mode {s : State} (mode : s.mfs.mode ≠ .normal) (o : Owner) (r : Rank) :
    (changeOwner o r s).sel =
      { s.sel with owner := o, rank := r, lastChange := (changeOwner o r s).sel.lastChange } := by
  by_cases same : s.sel.owner = o ∧ s.sel.rank = r
  · rw [changeOwner_same o r s same, ← same.1, ← same.2]
  · have walked : (walk (ownerWritten o r s)).mfs.mode ≠ .normal := by
      rwa [(walk_follows _).mode, ownerWritten_mode]
    have record : (changeOwner o r s).sel = (ownerWritten o r s).sel := by
      rw [changeOwner_of_stop same (.inr mode), settleSince, settleRounds_sel_of_mode (by rwa [fbsStop_mfs]),
        fbsStop_sel, (walk_selKept _).sel]
    rw [record, ownerWritten_sel]

/-- R55: the start-up default writes the owner with its rank and an empty target, which nothing has reached. -/
theorem startUpDefault_sel {s : State} (mode : s.mfs.mode ≠ .normal) :
    (startUpDefault s).sel = { s.sel with
      owner := (defaultOwner s none).1, rank := (defaultOwner s none).2
      lastChange := (startUpDefault s).sel.lastChange
      target := 0, generation := s.sel.generation + 1, reported := false } := by
  have cleared : (setTarget 0 s).sel =
      { s.sel with target := 0, generation := s.sel.generation + 1, reported := false } := by
    rw [setTarget_of_mode mode, clearMaxedOut_sel]
  have outside : (setTarget 0 s).mfs.mode ≠ .normal := by rw [setTarget_of_mode mode]; simpa using mode
  have passed := changeOwner_sel_of_mode outside (defaultOwner s none).1 (defaultOwner s none).2
  rw [cleared] at passed
  exact passed

/-- R165: START_UP entry, what comes after the walk being the lamps' following and the engine's times. -/
theorem enterStartUp_ordered {s : State}
    (enabled : startUpFlashTime s.cs.image = 0 → ∀ g, (lamp s (stopLamp g)).drive = .enabled) :
    ∃ p, SelectorMoves (startUpOrdered p s) (enterStartUp s) ∧ (enterStartUp s).sel = (startUpOrdered p s).sel := by
  by_cases flash : startUpFlashTime s.cs.image = 0
  · have enters : enterStartUp s = beginAllRed (startUpOrdered .suAllred s) := if_pos flash
    rw [enters, beginAllRed_of_enabled fun g => by rw [startUpOrdered_drive, enabled flash]]
    exact ⟨_, (SelectorMoves.setGroups _ _).trans (lampsFollow_follows _ _).selectorMoves, by simp⟩
  · have enters : enterStartUp s = lampsFollow (fun _ => true) (startUpOrdered .suFlash s) := if_neg flash
    rw [enters]
    exact ⟨_, (lampsFollow_follows _ _).selectorMoves, by simp⟩

theorem enterStartUp_selector {s : State}
    (enabled : startUpFlashTime s.cs.image = 0 → ∀ g, (lamp s (stopLamp g)).drive = .enabled) :
    (enterStartUp s).sel.stages = s.sel.stages ∧ (enterStartUp s).sel.reported = false ∧
      (enterStartUp s).sge.clock = s.sge.clock := by
  obtain ⟨p, moves, sel⟩ := enterStartUp_ordered enabled
  have record := startUpDefault_sel (s := setMode .startUp (some p) none s) (by simp [setMode_mfs])
  have ordered : (enterStartUp s).sel = (startUpDefault (setMode .startUp (some p) none s)).sel :=
    sel.trans (walk_selKept _).sel
  have all := (startUpOrdered_moves p s).trans moves
  exact ⟨by rw [ordered, record, setMode_sel], by rw [ordered, record], by rw [all.clock, setMode_sge]⟩

/-! ### What follows the check -/

theorem exec_powerUpCheck_of_match {s : State} (mode : s.mfs.mode = .powerUp)
    (same : imageCrc s.cs.image = s.cs.storedCrc) :
    exec .powerUpCheckCompletion s = .next (afterMatch (loadWorkingCopies s)) :=
  congrArg Host.Outcome.next ((if_pos mode).trans (if_pos (decide_eq_true same)))

theorem exec_powerUpCheck_of_mismatch {s : State} (mode : s.mfs.mode = .powerUp)
    (differs : imageCrc s.cs.image ≠ s.cs.storedCrc) : exec .powerUpCheckCompletion s = .next (afterMismatch s) :=
  congrArg Host.Outcome.next ((if_pos mode).trans (if_neg (by rw [crcMatches, decide_eq_true_iff]; exact differs)))

theorem afterMatch_of_run {s : State} (calm : criticalLatched s = false) (run : startMode s.cs.image = .run) :
    afterMatch s = enterStartUp s :=
  if_neg (by simp [calm, run])

theorem afterMatch_of_rest {s : State} (rests : criticalLatched s = true ∨ startMode s.cs.image = .hold) :
    afterMatch s = enterResting (faultAspect s.cs.image) s :=
  if_pos (by simpa using rests)

/-- Settles O6: the loading leaves all that START_UP entry reads, and the entry leaves the copies. -/
theorem powerUpMatchStartsUp : Obligations.PowerUpMatchStartsUp := by
  unfold Obligations.PowerUpMatchStartsUp
  intro s mode same calm run drivable
  have loaded := loadWorkingCopies_loaded s
  have idle : fbsActs s = false := by simp [fbsActs, mode]
  rw [exec_powerUpCheck_of_match mode same]
  generalize loadWorkingCopies s = u at loaded
  have faults : u.mfs.faults = s.mfs.faults := by rw [loaded.mfs]
  have start : startMode u.cs.image = .run := by rw [loaded.cs, run]
  rw [afterMatch_of_run ((criticalLatched_congr faults).trans calm) start]
  have enabled : startUpFlashTime u.cs.image = 0 → ∀ g, (lamp u (stopLamp g)).drive = .enabled := fun flash g => by
    rw [loaded.drive]
    exact drivable (by rwa [loaded.cs] at flash) g
  have entered := enterStartUp_enters enabled
  obtain ⟨stages, reported, clock⟩ := enterStartUp_selector enabled
  have sub := entered.sub
  have ownerRank := entered.ownerRank
  rw [loaded.cs] at sub ownerRank
  rw [station, loaded.clp, ← station] at ownerRank
  refine ⟨_, rfl, entered.mode, entered.goal, ?_, sub, fun c g => ?_, fun n => ?_, ownerRank, entered.target, ?_, reported,
    ?_, ?_, ?_, ?_, ?_, ?_, ?_⟩
  · rw [entered.phaseStart, jnow, loaded.clock, ← jnow]
  · rw [intergreen, entered.igm]
    exact loaded.matrix c g
  · rw [stages, loaded.stages]
  · rw [entered.generation, loaded.generation idle]
  · rw [entered.faults, faults]
  · rw [entered.fltDriven, loaded.mfs]
  · rw [entered.cs, loaded.cs]
  · rw [entered.du, loaded.du]
  · rw [entered.clp, loaded.clp]
  · rw [clock, loaded.clock]
  · rw [entered.redOut, loaded.redOut]

/-! ### A mismatch, and a part that holds -/

/-- R175: in a mode without fault entry a critical detection only latches its kind and drives FLT. -/
theorem detect_of_no_entry {k : FaultKind} {s : State} (critical : k.critical = true)
    (mode : s.mfs.mode.faultEnters = false) (d : BitVec 72) : detect k d s = driveFlt (latch k d s) := by
  rw [detect_critical k d s critical, if_neg (by rw [mode]; decide)]

/-- R206: the marker of a mismatch set. -/
def crcMarked (s : State) : State := { s with cs := { s.cs with mismatch := true } }

/-- R164, R206: a mismatch is an entry to DARK from the marker set, CONFIG_CRC latched and FLT driven. -/
theorem afterMismatch_enters {s : State} (mode : s.mfs.mode = .powerUp) :
    EntersResting .dark (driveFlt (latch .configCrc 0 (crcMarked s))) (afterMismatch s) := by
  rw [← detect_of_no_entry (k := .configCrc) rfl (by rw [crcMarked, mode]; rfl)]
  exact enterResting_spec .dark (detect .configCrc 0 (crcMarked s))

/-- R148: no lamp is lit in DARK. -/
theorem derivedCommand_dark {s : State} (dark : s.mfs.mode = .dark) (ch : Lamp) : derivedCommand s ch = .off := by
  rw [derivedCommand, dark]
  rfl

/-- Settles O7: a mismatch is one critical detection in POWER_UP with the marker set, and each case an entry to FLASH or
DARK. -/
theorem powerUpMismatchOrHoldRests : Obligations.PowerUpMismatchOrHoldRests := by
  unfold Obligations.PowerUpMismatchOrHoldRests
  refine ⟨fun s mode differs => ?mismatch, fun s mode same rests => ?hold⟩
  case mismatch =>
    have entered := afterMismatch_enters mode
    have faults (k : Fin 12) : (afterMismatch s).mfs.faults[k] =
        if FaultKind.configCrc.code = k then detected (jnow s) 0 s.mfs.faults[FaultKind.configCrc.code]
        else s.mfs.faults[k] := by
      rw [entered.mfs]
      exact latch_faults .configCrc 0 (crcMarked s) k
    rw [exec_powerUpCheck_of_mismatch mode differs]
    refine ⟨_, rfl, ?_, ?_, ?_, ?_, ?_, ?latched, fun k other => ?others, ?_, ?_, ?_, ?_, ?_, ?_, fun ch => ?lamps⟩
    case latched => rw [faults, if_pos rfl]; rfl
    case others => rw [faults, if_neg other.symm]
    case lamps =>
      rw [entered.commanded]
      exact derivedCommand_dark (by rw [entered.mfs]; rfl) ch
    · rw [entered.mfs]; rfl
    · rw [entered.mfs]
    · rw [entered.mfs]
    · rw [entered.mfs]; simp [jnow, latch, crcMarked]
    · rw [entered.mfs]; rfl
    · rw [entered.cs]; simp [latch, crcMarked]
    · rw [entered.igm]; simp [latch, crcMarked]
    · rw [entered.sel]; simp [latch, crcMarked]
    · rw [entered.sge]; simp [latch, crcMarked]
    · rw [entered.du]; simp [latch, crcMarked]
    · rw [entered.clp]; simp [latch, crcMarked]
  case hold =>
    have loaded := loadWorkingCopies_loaded s
    rw [exec_powerUpCheck_of_match mode same]
    generalize loadWorkingCopies s = u at loaded
    have faults : u.mfs.faults = s.mfs.faults := by rw [loaded.mfs]
    have stays : criticalLatched u = true ∨ startMode u.cs.image = .hold := by
      rwa [criticalLatched_congr faults, loaded.cs]
    rw [afterMatch_of_rest stays, loaded.cs]
    have entered := enterResting_spec (faultAspect s.cs.image) u
    refine ⟨_, rfl, ?_, ?_, ?_, ?_, ?_, ?_, fun c g => ?_, fun n => ?_, ?_, ?_, ?_, ?_⟩
    · rw [entered.mfs]
    · rw [entered.mfs]
    · rw [entered.mfs]
    · rw [entered.mfs, jnow, loaded.clock, ← jnow]
    · rw [entered.mfs, faults]
    · rw [entered.mfs, loaded.mfs]
    · rw [intergreen, entered.igm]
      exact loaded.matrix c g
    · rw [entered.sel, loaded.stages]
    · rw [entered.cs, loaded.cs]
    · rw [entered.du, loaded.du]
    · rw [entered.clp, loaded.clp]
    · rw [entered.sge, loaded.clock]

end Sys2Proof.Machine

/-! ## The completion of a validation (R207 to R209) -/

namespace Sys2Proof.Machine

/-- R209: the store once a validation has passed. The image's CRC is the variable `crc`, since the CRC of 8,192 bytes is not
for the kernel to evaluate. -/
def passedStore (crc : BitVec 32) (s : State) : State :=
  { s with cs := { s.cs with validating := false, storedCrc := crc, edited := false, mismatch := false } }

/-- R209: the completion, the validation being in flight no longer. -/
theorem exec_validationCompletion {s : State} (ordered : s.cs.validating = true) :
    exec .validationCompletion s = .next (completeValidation { s with cs := { s.cs with validating := false } }) :=
  congrArg Host.Outcome.next (if_pos ordered)

/-- R208: the first check that fails is answered by its number. -/
theorem exec_validationCompletion_of_failing {s : State} {n : Nat} (ordered : s.cs.validating = true)
    (fails : failingCheck s.cs.image = some n) : exec .validationCompletion s =
      .next { s with cs := { s.cs with validating := false }
                     clp := answered .modeRequest .configInvalid (modeFields n s) s.clp } := by
  rw [exec_validationCompletion ordered, completeValidation]
  dsimp only
  rw [fails]
  rfl

/-- R209, R171: with no check that fails, the working copies are loaded and then the RESUME is judged. -/
theorem exec_validationCompletion_of_passing {s : State} (ordered : s.cs.validating = true)
    (passes : failingCheck s.cs.image = none) {crc : BitVec 32} (right : imageCrc s.cs.image = crc) :
    exec .validationCompletion s =
      .next (let u := loadWorkingCopies (passedStore crc s)
             if criticalLatched u then refuseForFault u else resumeAccepted u) := by
  subst right
  rw [exec_validationCompletion ordered, completeValidation]
  dsimp only
  rw [passes]
  rfl

/-- R157: with no stop lamp TRIPPED every stop lamp can be driven once the locks are lifted. -/
theorem resumeReleased_enabled {s : State}
    (drivable : startUpFlashTime s.cs.image = 0 → ∀ g, (lamp s (stopLamp g)).drive ≠ .tripped) :
    startUpFlashTime (resumeReleased s).cs.image = 0 → ∀ g, (lamp (resumeReleased s) (stopLamp g)).drive = .enabled :=
  fun flash g => by
    rw [lamp_resumeReleased]
    exact unlocked_enabled _ (drivable (by simpa using flash) g)

/-- R172: the RESUME that succeeds leaves the stage list. -/
theorem startResume_stages {s : State}
    (drivable : startUpFlashTime s.cs.image = 0 → ∀ g, (lamp s (stopLamp g)).drive ≠ .tripped) :
    (startResume s).sel.stages = s.sel.stages := by
  obtain ⟨stages, _, _⟩ := enterStartUp_selector (resumeReleased_enabled drivable)
  exact stages.trans (by rw [resumeReleased_sel])

theorem refuseForFault_eq (s : State) : refuseForFault s =
    { s with clp := answered .modeRequest .refusedFault (modeFields (latchedKinds s &&& 0x0C0B#16).toNat s) s.clp } :=
  rfl

theorem resumeAccepted_eq (s : State) : resumeAccepted s =
    { startResume s with
      clp := answered .modeRequest .accepted (modeFields 0 (startResume s)) (startResume s).clp } := rfl

/-- R209, R171: what a validation that passes leaves, `crc` being the image's CRC: the RESUME is refused for a critical
flag or starts the junction. -/
structure ResumeJudged (crc : BitVec 32) (s t : State) : Prop where
  cs : t.cs = { s.cs with validating := false, storedCrc := crc, edited := false, mismatch := false }
  matrix : ∀ c g, intergreen t c g = if c = g then none else storedEntry s.cs.image c g
  stages : ∀ n : Stage, t.sel.stages[n] = storedStage s.cs.image n
  faults : t.mfs.faults = s.mfs.faults
  refused : criticalLatched s = true → t.mfs.mode = s.mfs.mode ∧ t.mfs.fltDriven = s.mfs.fltDriven ∧
    t.clp = answered .modeRequest .refusedFault (modeFields (latchedKinds s &&& 0x0C0B#16).toNat t) s.clp
  accepted : criticalLatched s = false → t.mfs.mode = .startUp ∧ t.mfs.phaseStart = jnow s ∧ t.mfs.fltDriven = false ∧
    t.sel.target = 0 ∧ t.clp = answered .modeRequest .accepted (modeFields 0 t) s.clp

theorem refuseForFault_judged {crc : BitVec 32} {s u : State} (loaded : CopiesLoaded (passedStore crc s) u)
    (latched : criticalLatched u = true) : ResumeJudged crc s (refuseForFault u) := by
  have faults : u.mfs.faults = s.mfs.faults := by rw [loaded.mfs]; rfl
  rw [refuseForFault_eq]
  refine ⟨loaded.cs, loaded.matrix, loaded.stages, faults, fun _ => ⟨?mode, ?flt, ?reply⟩, fun calm => ?accepted⟩
  case mode => rw [loaded.mfs]; rfl
  case flt => rw [loaded.mfs]; rfl
  case reply => rw [latchedKinds_congr faults, loaded.clp]; rfl
  case accepted =>
    rw [← criticalLatched_congr faults, latched] at calm
    cases calm

theorem resumeAccepted_judged {crc : BitVec 32} {s u : State} (loaded : CopiesLoaded (passedStore crc s) u)
    (calm : criticalLatched u = false)
    (drivable : startUpFlashTime s.cs.image = 0 → ∀ g, (lamp s (stopLamp g)).drive ≠ .tripped) :
    ResumeJudged crc s (resumeAccepted u) := by
  have faults : u.mfs.faults = s.mfs.faults := by rw [loaded.mfs]; rfl
  have drives : startUpFlashTime u.cs.image = 0 → ∀ g, (lamp u (stopLamp g)).drive ≠ .tripped := fun flash g => by
    rw [loaded.drive]
    exact drivable (by rwa [loaded.cs] at flash) g
  have entered := startResume_enters drives
  rw [resumeAccepted_eq]
  refine ⟨?cs, fun c g => ?matrix, fun n => ?stages, ?faults, fun latched => ?refused, fun _ =>
    ⟨entered.mode, ?phase, ?flt, entered.target, ?reply⟩⟩
  case cs => rw [entered.cs, resumeReleased_cs, loaded.cs]; rfl
  case matrix =>
    have igm : (startResume u).igm = u.igm := by rw [entered.igm, resumeReleased_igm]
    rw [intergreen, igm]
    exact loaded.matrix c g
  case stages => rw [startResume_stages drives]; exact loaded.stages n
  case faults => rw [entered.faults, resumeReleased_mfs, faults]
  case phase => rw [entered.phaseStart, resumeReleased_jnow, jnow, loaded.clock]; rfl
  case flt => rw [entered.fltDriven, resumeReleased_mfs]
  case reply => rw [entered.clp, resumeReleased_clp, loaded.clp]; rfl
  case refused =>
    rw [← criticalLatched_congr faults, calm] at latched
    cases latched

/-- Settles O48, by the first check that fails; a validation that passes loads the working copies, and then the RESUME is
judged. -/
theorem validationCompletionAnswersResume : Obligations.ValidationCompletionAnswersResume := by
  unfold Obligations.ValidationCompletionAnswersResume
  intro s ordered
  refine ⟨fun n fails first => ?failing, fun passes drivable => ?passing⟩
  case failing =>
    exact exec_validationCompletion_of_failing ordered ((failingCheck_some s.cs.image n).mpr ⟨fails, first⟩)
  case passing =>
    generalize right : imageCrc s.cs.image = crc
    rw [exec_validationCompletion_of_passing ordered ((failingCheck_none s.cs.image).mpr passes) right]
    have loaded := loadWorkingCopies_loaded (passedStore crc s)
    generalize loadWorkingCopies (passedStore crc s) = u at loaded
    have judged : ResumeJudged crc s (if criticalLatched u then refuseForFault u else resumeAccepted u) := by
      split
      next latched => exact refuseForFault_judged loaded latched
      next calm => exact resumeAccepted_judged loaded (Bool.eq_false_iff.mpr calm) drivable
    obtain ⟨cs, matrix, stages, faults, refused, accepted⟩ := judged
    exact ⟨_, rfl, cs, matrix, stages, faults, refused, accepted⟩

end Sys2Proof.Machine

/-! ## A valid frame (R186, R189, R191, R192) -/

namespace Sys2Proof.Machine

/-! ### The frame's bytes (R184, R186) -/

/-- R186: a buffer whose first byte carries the part address is a frame to the part. -/
theorem addressed_of_head {c : Clp} {buf : List Byte} (nonempty : buf ≠ [])
    (address : (buf.headD 0).setWidth 4 = c.partAddress) : addressed { c with buffer := buf } = true := by
  cases buf with
  | nil => exact absurd rfl nonempty
  | cons first rest => exact decide_eq_true address

/-- R186, R191: a frame with the right CRC, to the part and from a station: the station is heard and its request taken. -/
theorem judgeFrame_of_valid {buf : List Byte} {i : Station} {s : State} (right : crcRight buf = true) (nonempty : buf ≠ [])
    (address : (buf.headD 0).setWidth 4 = s.clp.partAddress) (source : (buf.headD 0).toNat / 16 = number i) :
    judgeFrame buf s = takeRequest (buf.getD 1 0) ((buf.drop 3).take (buf.getD 2 0).toNat) i (hear i s) := by
  have station : item? 4 (sourceOf buf) = some i := item?_eq_some i source
  rw [judgeFrame, right, addressed_of_head nonempty address, station]
  rfl

/-- R185: the byte that completes a frame has the frame judged. -/
theorem exec_frameReceived_of_complete {b : Byte} {s : State} (check : s.clp.receiver = .check)
    (long : 3 ≤ s.clp.buffer.length) (last : s.clp.buffer.length + 1 = 5 + (s.clp.buffer.getD 2 0).toNat) :
    exec (.frameReceived b) s = .next (judgeFrame (s.clp.buffer ++ [b]) (noteByte s)) := by
  have completes : frameCompletes s.clp = true := by simp [frameCompletes, frameLength, check, long, last]
  have length : frameLength (s.clp.buffer ++ [b]) = frameLength s.clp.buffer := by
    rw [frameLength, List.getD_append _ _ _ _ (by omega), ← frameLength]
  have stored : storeByte b (noteByte s) = judgeFrame (s.clp.buffer ++ [b]) (noteByte s) := by
    have buffer : (noteByte s).clp.buffer = s.clp.buffer := rfl
    unfold storeByte
    dsimp only
    rw [buffer, length, List.length_append, List.length_singleton, if_neg (by omega), if_pos ⟨by omega, last⟩]
  have taken : receiveByte b false s = storeByte b (noteByte s) := by
    have receiver : (noteByte s).clp.receiver = .check := check
    rw [receiveByte, takeByte, receiver]
    rfl
  exact congrArg Host.Outcome.next ((if_pos completes).trans (taken.trans stored))

/-- R185, R186, R191: the byte that completes a valid frame has its station heard and its request taken. -/
theorem exec_frameReceived_of_valid {b : Byte} {i : Station} {s : State} {buf : List Byte}
    (check : s.clp.receiver = .check) (long : 3 ≤ s.clp.buffer.length)
    (last : s.clp.buffer.length + 1 = 5 + (s.clp.buffer.getD 2 0).toNat) (whole : buf = s.clp.buffer ++ [b])
    (right : crcRight buf = true) (address : (buf.headD 0).setWidth 4 = s.clp.partAddress)
    (source : (buf.headD 0).toNat / 16 = number i) :
    exec (.frameReceived b) s =
      .next (takeRequest (buf.getD 1 0) ((buf.drop 3).take (buf.getD 2 0).toNat) i (hear i (noteByte s))) := by
  have nonempty : buf ≠ [] := by simp [whole]
  have noted : (buf.headD 0).setWidth 4 = (noteByte s).clp.partAddress := address
  rw [exec_frameReceived_of_complete check long last, ← whole, judgeFrame_of_valid right nonempty noted source]

/-! ### The checks of the request (R192) -/

section
variable {kind : Byte} {payload : List Byte} {i : Station} {u : State} {k : RequestKind}

theorem takeRequest_of_unknown (unknown : kindOf kind = none) :
    takeRequest kind payload i u = answerByte kind .unknownKind [] u := by
  rw [takeRequest, unknown]

theorem takeRequest_of_role (known : kindOf kind = some k) (barred : k.allows i = false) :
    takeRequest kind payload i u = answer k .refusedRole [] u := by
  rw [takeRequest, known]
  exact if_pos (by rw [barred]; rfl)

theorem takeRequest_of_length (known : kindOf kind = some k) (allowed : k.allows i = true)
    (short : k.lengthOk payload.length = false) : takeRequest kind payload i u = answer k .badLength [] u := by
  rw [takeRequest, known]
  exact (if_neg (by rw [allowed]; decide)).trans (if_pos (by rw [short]; rfl))

theorem takeRequest_served (known : kindOf kind = some k) (allowed : k.allows i = true)
    (fits : k.lengthOk payload.length = true) : takeRequest kind payload i u = serve k payload i u := by
  rw [takeRequest, known]
  exact (if_neg (by rw [allowed]; decide)).trans (if_neg (by rw [fits]; decide))

/-- R192: a payload of the kind's length comes to the role check and the block that the kind's request row comes to. -/
theorem takeRequest_asked (free : inFlight u = false) (known : kindOf kind = some k)
    (fits : k.lengthOk payload.length = true) :
    takeRequest kind payload i u = asked k (number i) (serve k payload) u := by
  cases allowed : k.allows i with
  | false => rw [takeRequest_of_role known allowed, asked_refused k i _ u free allowed]
  | true => rw [takeRequest_served known allowed fits, asked_number k i _ u free allowed]

end

/-! ### Flag and presence bytes (R189) -/

theorem flagOf_none {b : Byte} (above : 1 < b.toNat) : flagOf b = none := by
  have notZero : b ≠ 0 := by rintro rfl; exact absurd above (by decide)
  have notOne : b ≠ 1 := by rintro rfl; exact absurd above (by decide)
  rw [flagOf, if_neg notZero, if_neg notOne]

theorem optionalOf_none_of_presence {w : Nat} {p : Byte} (v : BitVec w) (above : 1 < p.toNat) :
    optionalOf p v = none := by
  rw [optionalOf, flagOf_none above]

/-- R189, as log entry 19 reads it: an absent field holds zeros. -/
theorem optionalOf_none_of_absent {w : Nat} {p : Byte} {v : BitVec w} (absent : p = 0) (filled : v ≠ 0) :
    optionalOf p v = none := by
  rw [absent]
  exact if_neg filled

theorem append_eq_zero {m n : Nat} {x : BitVec m} {y : BitVec n} (h : x ++ y = 0#(m + n)) : x = 0 ∧ y = 0 := by
  have both : x.toNat <<< n = 0 ∧ y.toNat = 0 := by
    rw [← Nat.or_eq_zero_iff, ← BitVec.toNat_append, h]
    rfl
  obtain ⟨high, low⟩ := both
  rw [Nat.shiftLeft_eq_zero_iff] at high
  exact ⟨BitVec.eq_of_toNat_eq high, BitVec.eq_of_toNat_eq low⟩

theorem word16_ne_zero {a b : Byte} (filled : a ≠ 0 ∨ b ≠ 0) : word16 a b ≠ 0 := fun zero => by
  obtain ⟨high, low⟩ := append_eq_zero zero
  exact filled.elim (absurd high) (absurd low)

theorem word24_ne_zero {a b c : Byte} (filled : a ≠ 0 ∨ b ≠ 0 ∨ c ≠ 0) : word24 a b c ≠ 0 := fun zero => by
  obtain ⟨upper, low⟩ := append_eq_zero zero
  obtain ⟨high, middle⟩ := append_eq_zero upper
  exact filled.elim (absurd high) fun rest => rest.elim (absurd middle) (absurd low)

section
variable {i : Station} {u : State}

theorem serveClear_of_flag {given : Byte} {g : Bool} (flag : flagOf given = some g) (k : RequestKind)
    (f : BitVec 16 → Bool → BitVec 16 → Station → State → State) (a b c d : Byte) :
    serveClear k f a b given c d i u = f (word16 a b) g (word16 c d) i u := by
  rw [serveClear, flag]

theorem serveClear_refused {given : Byte} (above : 1 < given.toNat) (k : RequestKind)
    (f : BitVec 16 → Bool → BitVec 16 → Station → State → State) (a b c d : Byte) :
    serveClear k f a b given c d i u = refuseEncoding k u := by
  rw [serveClear, flagOf_none above]

theorem serveCheckIn_of_fields {special dp vp : Byte} {d : BitVec 24} {v : BitVec 16} {f : Bool}
    {distance : Option (BitVec 24)} {speed : Option (BitVec 16)} (flag : flagOf special = some f)
    (first : optionalOf dp d = some distance) (second : optionalOf vp v = some speed) (ident : BitVec 16)
    (route approach : Byte) (lateness : BitVec 16) :
    serveCheckIn ident route approach lateness special dp d vp v i u =
      checkIn { ident, route, lateness, special := f, distance, speed } approach i u := by
  rw [serveCheckIn, flag, first, second]

theorem serveCheckIn_refused {special dp vp : Byte} {d : BitVec 24} {v : BitVec 16}
    (bad : flagOf special = none ∨ optionalOf dp d = none ∨ optionalOf vp v = none) (ident : BitVec 16)
    (route approach : Byte) (lateness : BitVec 16) :
    serveCheckIn ident route approach lateness special dp d vp v i u = refuseEncoding .checkIn u := by
  unfold serveCheckIn
  split
  next flag first second => simp [flag, first, second] at bad
  next => rfl

end

/-! ### The request that the bytes spell (R189, R194, R195) -/

section
variable {kind : Byte} {payload : List Byte} {i : Station} {u : State} {c : Instr}

/-- A row whose meaning is the role check and the block of the kind is what the frame carries out. -/
theorem carries {k : RequestKind} {d : Instr} (spelled : some d = some c) (free : inFlight u = false)
    (known : kindOf kind = some k) (fits : k.lengthOk payload.length = true)
    (row : exec d u = .next (asked k (number i) (serve k payload) u)) :
    exec c u = .next (takeRequest kind payload i u) := by
  cases spelled
  rw [row, takeRequest_asked free known fits]

theorem spells_nothing {P : Prop} (spelled : none = some c) : P := nomatch spelled

/-- R194: CLEAR_EVENTS and CLEAR_FAULTS, whose rows differ in the block `f` alone. -/
theorem carries_clear {k : RequestKind} {f : BitVec 16 → Bool → BitVec 16 → Station → State → State}
    {a b given x y : Byte} {row : Bool → Instr} (spelled : (flagOf given).map row = some c) (free : inFlight u = false)
    (known : kindOf kind = some k) (fits : k.lengthOk [a, b, given, x, y].length = true)
    (served : serve k [a, b, given, x, y] = serveClear k f a b given x y)
    (meaning : ∀ g, exec (row g) u = .next (asked k (number i) (f (word16 a b) g (word16 x y)) u)) :
    exec c u = .next (takeRequest kind [a, b, given, x, y] i u) := by
  obtain ⟨g, flag, rfl⟩ := Option.map_eq_some_iff.mp spelled
  have block : serve k [a, b, given, x, y] = f (word16 a b) g (word16 x y) :=
    served.trans (funext fun _ => funext fun _ => serveClear_of_flag flag k f a b x y)
  rw [meaning, takeRequest_asked free known fits, block]

/-- R167, R194. -/
theorem carries_mode {goal : Byte} (spelled : (if goal = 0 then some (.modeRequestFlash (number i))
      else if goal = 1 then some (.modeRequestDark (number i))
      else if goal = 2 then some (.modeRequestResume (number i)) else none) = some c)
    (free : inFlight u = false) (known : kindOf kind = some .modeRequest) :
    exec c u = .next (takeRequest kind [goal] i u) := by
  by_cases flash : goal = 0
  · subst flash
    exact carries spelled free known rfl rfl
  by_cases dark : goal = 1
  · subst dark
    exact carries spelled free known rfl rfl
  by_cases resume : goal = 2
  · subst resume
    exact carries spelled free known rfl rfl
  · rw [if_neg flash, if_neg dark, if_neg resume] at spelled
    exact spells_nothing spelled

/-- R195. -/
theorem carries_cancel {way v w : Byte} (spelled : (if way = 0 then some (.cancelPriorityByNumber (number i) (v ++ w))
      else if way = 1 then some (.cancelPriorityByIdent (number i) (v ++ w)) else none) = some c)
    (free : inFlight u = false) (known : kindOf kind = some .cancelPriority) :
    exec c u = .next (takeRequest kind [way, v, w] i u) := by
  by_cases byNumber : way = 0
  · subst byNumber
    exact carries spelled free known rfl rfl
  by_cases byIdent : way = 1
  · subst byIdent
    exact carries spelled free known rfl rfl
  · rw [if_neg byNumber, if_neg byIdent] at spelled
    exact spells_nothing spelled

end

theorem takeRequest_spelled {kind : Byte} {payload : List Byte} {i : Station} {u : State} {c : Instr}
    (free : inFlight u = false) (spelled : requestOf i kind payload = some c) :
    exec c u = .next (takeRequest kind payload i u) := by
  cases known : kindOf kind with
  | none =>
    unfold requestOf at spelled
    rw [known] at spelled
    exact spells_nothing spelled
  | some k =>
  unfold requestOf at spelled
  rw [known] at spelled
  cases k
  case readStatus =>
    rcases payload with _ | ⟨_, _⟩
    · exact carries spelled free known rfl rfl
    · exact spells_nothing spelled
  case readGroups =>
    rcases payload with _ | ⟨_, _ | ⟨_, _⟩⟩
    · exact spells_nothing spelled
    · exact carries spelled free known rfl rfl
    · exact spells_nothing spelled
  case readDetectors =>
    rcases payload with _ | ⟨_, _ | ⟨_, _⟩⟩
    · exact spells_nothing spelled
    · exact carries spelled free known rfl rfl
    · exact spells_nothing spelled
  case readPriority =>
    rcases payload with _ | ⟨_, _ | ⟨_, _⟩⟩
    · exact spells_nothing spelled
    · exact carries spelled free known rfl rfl
    · exact spells_nothing spelled
  case readFaults =>
    rcases payload with _ | ⟨_, _ | ⟨_, _⟩⟩
    · exact spells_nothing spelled
    · exact carries spelled free known rfl rfl
    · exact spells_nothing spelled
  case readEvents =>
    rcases payload with _ | ⟨_, _⟩
    · exact carries spelled free known rfl rfl
    · exact spells_nothing spelled
  case clearEvents =>
    rcases payload with _ | ⟨_, _ | ⟨_, _ | ⟨_, _ | ⟨_, _ | ⟨_, _ | ⟨_, _⟩⟩⟩⟩⟩⟩
    iterate 5 · exact spells_nothing spelled
    · exact carries_clear spelled free known rfl rfl fun _ => rfl
    · exact spells_nothing spelled
  case takeSelector =>
    rcases payload with _ | ⟨_, _ | ⟨_, _⟩⟩
    · exact spells_nothing spelled
    · exact carries spelled free known rfl rfl
    · exact spells_nothing spelled
  case releaseSelector =>
    rcases payload with _ | ⟨_, _⟩
    · exact carries spelled free known rfl rfl
    · exact spells_nothing spelled
  case setStage =>
    rcases payload with _ | ⟨_, _ | ⟨_, _ | ⟨_, _ | ⟨_, _⟩⟩⟩⟩
    iterate 3 · exact spells_nothing spelled
    · exact carries spelled free known rfl rfl
    · exact spells_nothing spelled
  case selectStage =>
    rcases payload with _ | ⟨_, _ | ⟨_, _⟩⟩
    · exact spells_nothing spelled
    · exact carries spelled free known rfl rfl
    · exact spells_nothing spelled
  case callGroups =>
    rcases payload with _ | ⟨_, _ | ⟨_, _ | ⟨_, _ | ⟨_, _⟩⟩⟩⟩
    iterate 3 · exact spells_nothing spelled
    · exact carries spelled free known rfl rfl
    · exact spells_nothing spelled
  case modeRequest =>
    rcases payload with _ | ⟨_, _ | ⟨_, _⟩⟩
    · exact spells_nothing spelled
    · exact carries_mode spelled free known
    · exact spells_nothing spelled
  case clearFaults =>
    rcases payload with _ | ⟨_, _ | ⟨_, _ | ⟨_, _ | ⟨_, _ | ⟨_, _ | ⟨_, _⟩⟩⟩⟩⟩⟩
    iterate 5 · exact spells_nothing spelled
    · exact carries_clear spelled free known rfl rfl fun _ => rfl
    · exact spells_nothing spelled
  case setDim =>
    rcases payload with _ | ⟨_, _ | ⟨_, _⟩⟩
    · exact spells_nothing spelled
    · exact carries spelled free known rfl rfl
    · exact spells_nothing spelled
  case enablePriority =>
    rcases payload with _ | ⟨_, _ | ⟨_, _⟩⟩
    · exact spells_nothing spelled
    · exact carries spelled free known rfl rfl
    · exact spells_nothing spelled
  case readConfig =>
    rcases payload with _ | ⟨_, _ | ⟨_, _ | ⟨_, _⟩⟩⟩
    iterate 2 · exact spells_nothing spelled
    · exact carries spelled free known rfl rfl
    · exact spells_nothing spelled
  case writeConfig =>
    rcases payload with _ | ⟨_, _ | ⟨_, _⟩⟩
    iterate 2 · exact spells_nothing spelled
    · exact carries spelled free known (by simp [RequestKind.lengthOk]) rfl
  case checkIn =>
    rcases payload with _ | ⟨_, _ | ⟨_, _ | ⟨_, _ | ⟨_, _ | ⟨_, _ | ⟨_, _ | ⟨_, _ | ⟨_, _ | ⟨_, _ | ⟨_, _ | ⟨_, _ | ⟨_, _ | ⟨_, _ | ⟨_, _ | ⟨_, _⟩⟩⟩⟩⟩⟩⟩⟩⟩⟩⟩⟩⟩⟩⟩
    iterate 14 · exact spells_nothing spelled
    · rename_i i1 i2 route approach l1 l2 special dp d1 d2 d3 vp v1 v2
      dsimp only at spelled
      split at spelled
      next f distance speed flag first second =>
        have served : serve .checkIn [i1, i2, route, approach, l1, l2, special, dp, d1, d2, d3, vp, v1, v2] =
            checkIn { ident := word16 i1 i2, route, lateness := word16 l1 l2, special := f, distance, speed } approach :=
          funext fun _ => funext fun _ => serveCheckIn_of_fields flag first second _ route approach _
        exact carries spelled free known rfl (by rw [served]; rfl)
      next => exact spells_nothing spelled
    · exact spells_nothing spelled
  case checkOut =>
    rcases payload with _ | ⟨_, _ | ⟨_, _ | ⟨_, _ | ⟨_, _⟩⟩⟩⟩
    iterate 3 · exact spells_nothing spelled
    · exact carries spelled free known rfl rfl
    · exact spells_nothing spelled
  case cancelPriority =>
    rcases payload with _ | ⟨_, _ | ⟨_, _ | ⟨_, _ | ⟨_, _⟩⟩⟩⟩
    iterate 3 · exact spells_nothing spelled
    · exact carries_cancel spelled free known
    · exact spells_nothing spelled

/-! ### Bytes that a block or the link port refuses (R192 step 4, R194, R195) -/

section
variable {payload : List Byte} {i : Station} {u : State}

/-- R192: the payload of a kind other than WRITE_CONFIG has the kind's own length. -/
theorem length_of_fits {k : RequestKind} (fits : k.lengthOk payload.length = true) (fixed : k ≠ .writeConfig) :
    payload.length = k.payload := by
  rw [RequestKind.lengthOk, if_neg fixed, decide_eq_true_eq] at fits
  exact fits

theorem serve_clear_refused {k : RequestKind} (clears : k = .clearEvents ∨ k = .clearFaults)
    (fits : k.lengthOk payload.length = true) (above : 1 < (payload.getD 2 0).toNat) :
    serve k payload i u = refuseEncoding k u := by
  rcases clears with rfl | rfl
  · match payload, length_of_fits fits (by decide), above with
    | [a, b, given, c, d], _, above => exact serveClear_refused above .clearEvents clearEvents a b c d
  · match payload, length_of_fits fits (by decide), above with
    | [a, b, given, c, d], _, above => exact serveClear_refused above .clearFaults clearFaults a b c d

/-- R189, R195: a flag or presence byte of CHECK_IN is neither 0 nor 1, or an absent field is not all zeros. -/
def CheckInMisspelled (payload : List Byte) : Prop :=
  1 < (payload.getD 6 0).toNat ∨ 1 < (payload.getD 7 0).toNat ∨ 1 < (payload.getD 11 0).toNat ∨
    (payload.getD 7 0 = 0 ∧ ∃ n, 8 ≤ n ∧ n ≤ 10 ∧ payload.getD n 0 ≠ 0) ∨
    (payload.getD 11 0 = 0 ∧ ∃ n, 12 ≤ n ∧ n ≤ 13 ∧ payload.getD n 0 ≠ 0)

theorem serve_checkIn_refused (fits : RequestKind.checkIn.lengthOk payload.length = true)
    (bad : CheckInMisspelled payload) : serve .checkIn payload i u = refuseEncoding .checkIn u := by
  match payload, length_of_fits fits (by decide), bad with
  | [i1, i2, route, approach, l1, l2, special, dp, d1, d2, d3, vp, v1, v2], _, bad =>
    refine serveCheckIn_refused ?_ _ route approach _
    rcases bad with flag | first | second | ⟨absent, n, low, high, filled⟩ | ⟨absent, n, low, high, filled⟩
    · exact .inl (flagOf_none flag)
    · exact .inr (.inl (optionalOf_none_of_presence _ first))
    · exact .inr (.inr (optionalOf_none_of_presence _ second))
    · refine .inr (.inl (optionalOf_none_of_absent absent (word24_ne_zero ?_)))
      obtain rfl | rfl | rfl : n = 8 ∨ n = 9 ∨ n = 10 := by omega
      · exact .inl filled
      · exact .inr (.inl filled)
      · exact .inr (.inr filled)
    · refine .inr (.inr (optionalOf_none_of_absent absent (word16_ne_zero ?_)))
      obtain rfl | rfl : n = 12 ∨ n = 13 := by omega
      · exact .inl filled
      · exact .inr filled

theorem ne_of_below {b : Byte} {n : Nat} (above : n < b.toNat) {m : Byte} (below : m.toNat ≤ n) : b ≠ m := by
  rintro rfl
  omega

/-- R167: a goal above 2 names no request. -/
theorem serve_mode_refused (fits : RequestKind.modeRequest.lengthOk payload.length = true)
    (above : 2 < (payload.getD 0 0).toNat) :
    serve .modeRequest payload i u = answer .modeRequest .refusedInvalid (modeFields 0 u) u := by
  match payload, length_of_fits fits (by decide), above with
  | [g], _, above =>
    exact (if_neg (ne_of_below above (by decide))).trans ((if_neg (ne_of_below above (by decide))).trans
      (if_neg (ne_of_below above (by decide))))

/-- R195: a first byte above 1 names no way to cancel. -/
theorem serve_cancel_refused (fits : RequestKind.cancelPriority.lengthOk payload.length = true)
    (above : 1 < (payload.getD 0 0).toNat) :
    serve .cancelPriority payload i u = answer .cancelPriority .refusedInvalid [0] u := by
  match payload, length_of_fits fits (by decide), above with
  | [way, v, w], _, above =>
    exact (if_neg (ne_of_below above (by decide))).trans (if_neg (ne_of_below above (by decide)))

end

theorem heard_free {i : Station} {s : State} (free : inFlight s = false) : inFlight (hear i (noteByte s)) = false := by
  rw [(hear_calm i (noteByte s)).inFlight_eq]
  exact free

/-- Settles O36: the frame is its request, taken once the station has been heard, and the request is answered check by
check. -/
theorem validFrameCarriesRequest : Obligations.ValidFrameCarriesRequest := by
  unfold Obligations.ValidFrameCarriesRequest
  intro b i s u buf payload check long last free whole right address source bytes heard
  have same : u = hear i (noteByte s) := heard
  have quiet : inFlight u = false := by rw [same]; exact heard_free free
  rw [exec_frameReceived_of_valid check long last whole right address source, ← bytes, ← same]
  generalize buf.getD 1 0 = kind
  refine ⟨fun c spelled => (takeRequest_spelled quiet spelled).symm, fun unknown => ?unknown, fun k known =>
    ⟨fun barred => ?role, fun allowed short => ?length, fun allowed fits => ⟨?encoding, ?goal, ?way⟩⟩⟩
  case unknown => rw [takeRequest_of_unknown unknown]; rfl
  case role => rw [takeRequest_of_role known barred, answer_eq]
  case length => rw [takeRequest_of_length known allowed short, answer_eq]
  case encoding =>
    rintro (⟨clears, above⟩ | ⟨rfl, bad⟩)
    · rw [takeRequest_served known allowed fits, serve_clear_refused clears fits above, refuseEncoding, answer_eq]
    · rw [takeRequest_served known allowed fits, serve_checkIn_refused fits bad, refuseEncoding, answer_eq]
  case goal =>
    rintro rfl above
    rw [takeRequest_served known allowed fits, serve_mode_refused fits above, answer_eq]
  case way =>
    rintro rfl above
    rw [takeRequest_served known allowed fits, serve_cancel_refused fits above, answer_eq]

end Sys2Proof.Machine

/-! ## Frames that are not valid, and the receiver's states (R185 to R188) -/

namespace Sys2Proof.Machine

/-! ### Discards (R186) -/

/-- R186: the counter of discarded frames saturates. -/
theorem countDiscard_eq (counted : Bool) (n : BitVec 16) :
    (if counted then saturate16 n else n) = if counted = true ∧ n ≠ 0xFFFF#16 then n + 1 else n := by
  cases counted with
  | false => rfl
  | true =>
    by_cases full : n = 0xFFFF#16
    · simp [saturate16, full]
    · simp [saturate16, full]

theorem discard_eq (counted : Bool) (next : Receiver) (s : State) : discard counted next s = { s with clp := { s.clp with
    receiver := next, buffer := []
    discarded := if counted = true ∧ s.clp.discarded ≠ 0xFFFF#16 then s.clp.discarded + 1 else s.clp.discarded } } := by
  rw [discard, countDiscard_eq]

theorem addressed_iff (c : Clp) :
    addressed c = true ↔ c.buffer ≠ [] ∧ (c.buffer.headD 0).setWidth 4 = c.partAddress := by
  unfold addressed
  cases c.buffer with
  | nil => simp
  | cons first rest => simp

/-- R186: a discard that counts a frame to the part's address. -/
theorem discard_addressed (c : Clp) (next : Receiver) (s : State) :
    discard (addressed c) next s = { s with clp := { s.clp with
      receiver := next, buffer := []
      discarded := if c.buffer ≠ [] ∧ (c.buffer.headD 0).setWidth 4 = c.partAddress ∧ s.clp.discarded ≠ 0xFFFF#16 then
        s.clp.discarded + 1 else s.clp.discarded } } := by
  simp only [discard_eq, addressed_iff, and_assoc]

/-! ### A completed frame that is not valid (R186) -/

section
variable {buf : List Byte} {s : State}

theorem judgeFrame_of_wrongCrc (wrong : crcRight buf = false) :
    judgeFrame buf s = discard (addressed { s.clp with buffer := buf }) .hunt s := by
  rw [judgeFrame, wrong]
  rfl

theorem judgeFrame_of_otherPart (right : crcRight buf = true) (other : (buf.headD 0).setWidth 4 ≠ s.clp.partAddress) :
    judgeFrame buf s = discard false .hunt s := by
  have missed : addressed { s.clp with buffer := buf } = false :=
    Bool.eq_false_iff.mpr fun taken => other ((addressed_iff _).mp taken).2
  rw [judgeFrame, right, missed]
  rfl

theorem judgeFrame_of_noStation (right : crcRight buf = true) (nonempty : buf ≠ [])
    (address : (buf.headD 0).setWidth 4 = s.clp.partAddress)
    (source : (buf.headD 0).toNat / 16 = 0 ∨ 4 < (buf.headD 0).toNat / 16) : judgeFrame buf s = discard true .hunt s := by
  have station : item? 4 (sourceOf buf) = none := item?_eq_none source
  rw [judgeFrame, right, addressed_of_head nonempty address, station]
  rfl

end

/-- Settles O35: the completed frame is judged, and the first check that it fails says how it is discarded. -/
theorem invalidFrameIsDiscarded : Obligations.InvalidFrameIsDiscarded := by
  unfold Obligations.InvalidFrameIsDiscarded
  intro b s buf check long last whole
  have nonempty : buf ≠ [] := by simp [whole]
  rw [exec_frameReceived_of_complete check long last, ← whole]
  refine ⟨fun wrong => ?crc, fun right other => ?part, fun right address source => ?station⟩
  case crc =>
    rw [judgeFrame_of_wrongCrc wrong, discard_addressed]
    simp only [nonempty, ne_eq, not_false_eq_true, true_and]
    rfl
  case part =>
    rw [judgeFrame_of_otherPart (s := noteByte s) right other]
    rfl
  case station =>
    rw [judgeFrame_of_noStation (s := noteByte s) right nonempty address source]
    rfl

/-! ### One byte (R185) -/

/-- R185: a length byte above 200 discards the frame. -/
theorem storeByte_of_tooLong {b : Byte} {s : State} (length : s.clp.buffer.length = 2) (above : 200 < b.toNat) :
    storeByte b s = discard (addressed s.clp) .skip s := by
  unfold storeByte
  dsimp only
  rw [List.length_append, List.length_singleton, if_pos ⟨by omega, above⟩]

/-- R185: a byte that neither discards nor completes the frame is stored. -/
theorem storeByte_of_within {b : Byte} {s : State} (fits : s.clp.buffer.length = 2 → b.toNat ≤ 200)
    (within : 3 ≤ s.clp.buffer.length + 1 → s.clp.buffer.length + 1 ≠ 5 + frameLength (s.clp.buffer ++ [b])) :
    storeByte b s = { s with clp := { s.clp with
      receiver := receiverFor (s.clp.buffer ++ [b]), buffer := s.clp.buffer ++ [b] } } := by
  unfold storeByte
  dsimp only
  rw [List.length_append, List.length_singleton,
    if_neg fun long => absurd (fits (by omega)) (Nat.not_le.mpr long.2), if_neg fun done => within done.1 done.2]

theorem frameLength_append_of_long {buf : List Byte} (long : 3 ≤ buf.length) (b : Byte) :
    frameLength (buf ++ [b]) = (buf.getD 2 0).toNat := by
  rw [frameLength, List.getD_append _ _ _ _ (by omega)]

/-- R184: the third byte of a frame is its length. -/
theorem frameLength_append_of_two {buf : List Byte} (two : buf.length = 2) (b : Byte) :
    frameLength (buf ++ [b]) = b.toNat := by
  rw [frameLength, List.getD_append_right _ _ _ _ (by omega), two]
  rfl

theorem receiverFor_of_short {buf : List Byte} (short : buf.length < 3) : receiverFor buf = .header := if_pos short

theorem receiverFor_of_long {buf : List Byte} (long : 3 ≤ buf.length) :
    receiverFor buf = if buf.length < 3 + frameLength buf then .payload else .check := if_neg (by omega)

/-- R185: a frame is being received. -/
def Receiver.inFrame (r : Receiver) : Prop := r = .header ∨ r = .payload ∨ r = .check

theorem takeByte_inFrame {b : Byte} {framingError : Bool} {s : State} (within : s.clp.receiver.inFrame) :
    takeByte b framingError s = if framingError then discard (addressed s.clp) .skip s else storeByte b s := by
  unfold takeByte
  rcases within with state | state | state <;> rw [state]

section
variable {b : Byte} {s : State}

theorem takeByte_hunt {framingError : Bool} (state : s.clp.receiver = .hunt) : takeByte b framingError s =
    if b = 0xA6 ∧ framingError = false then { s with clp := { s.clp with receiver := .header, buffer := [] } } else s := by
  rw [takeByte, state]

theorem takeByte_skip {framingError : Bool} (state : s.clp.receiver = .skip) : takeByte b framingError s = s := by
  rw [takeByte, state]

theorem takeByte_busy {framingError : Bool} (state : s.clp.receiver = .busy) :
    takeByte b framingError s = if b = 0xA6 ∧ framingError = false then overrun s else s := by
  rw [takeByte, state]

/-- R185: an address or kind byte. -/
theorem takeByte_header (state : s.clp.receiver = .header) (short : s.clp.buffer.length < 2) : takeByte b false s =
    { s with clp := { s.clp with receiver := .header, buffer := s.clp.buffer ++ [b] } } := by
  rw [takeByte_inFrame (.inl state)]
  exact (storeByte_of_within (by omega) (by omega)).trans (by
    rw [receiverFor_of_short (by rw [List.length_append, List.length_singleton]; omega)])

/-- R185: the length byte. -/
theorem takeByte_length (state : s.clp.receiver = .header) (two : s.clp.buffer.length = 2) (fits : b.toNat ≤ 200) :
    takeByte b false s = { s with clp := { s.clp with
      receiver := if b = 0 then .check else .payload, buffer := s.clp.buffer ++ [b] } } := by
  have next : receiverFor (s.clp.buffer ++ [b]) = if b = 0 then .check else .payload := by
    rw [receiverFor_of_long (by simp [two]), frameLength_append_of_two two, List.length_append, two]
    by_cases none : b = 0
    · simp [none]
    · have some : 0 < b.toNat := Nat.pos_of_ne_zero fun zero => none (BitVec.eq_of_toNat_eq zero)
      rw [if_neg none, if_pos (by rw [List.length_singleton]; omega)]
  rw [takeByte_inFrame (.inl state)]
  exact (storeByte_of_within (fun _ => fits) (by rw [frameLength_append_of_two two]; omega)).trans (by rw [next])

/-- R185: a byte of the payload or of the CRC that does not complete the frame. -/
theorem takeByte_payload {n : Nat} (within : s.clp.receiver.inFrame) (long : 3 ≤ s.clp.buffer.length)
    (length : n = (s.clp.buffer.getD 2 0).toNat) (goesOn : s.clp.buffer.length + 1 ≠ 5 + n) :
    takeByte b false s = { s with clp := { s.clp with
      receiver := if s.clp.buffer.length + 1 < 3 + n then .payload else .check, buffer := s.clp.buffer ++ [b] } } := by
  have size := (frameLength_append_of_long long b).trans length.symm
  rw [takeByte_inFrame within]
  refine (storeByte_of_within (by omega) (by rw [size]; exact fun _ => goesOn)).trans ?_
  rw [receiverFor_of_long (by rw [List.length_append]; omega), size, List.length_append, List.length_singleton]

/-- R185, R186: a framing error or a length byte above 200 ends the frame. -/
theorem takeByte_discards {framingError : Bool} (within : s.clp.receiver.inFrame)
    (bad : framingError = true ∨ s.clp.buffer.length = 2 ∧ 200 < b.toNat) :
    takeByte b framingError s = discard (addressed s.clp) .skip s := by
  rw [takeByte_inFrame within]
  cases framingError with
  | true => rfl
  | false =>
    obtain ⟨two, above⟩ := bad.resolve_left Bool.false_ne_true
    exact storeByte_of_tooLong two above

end

/-- Settles O37, by the receiver's state; `u` is the state with the byte's time noted. -/
theorem byteReceivedMovesReceiver : Obligations.ByteReceivedMovesReceiver := by
  unfold Obligations.ByteReceivedMovesReceiver
  rintro b framingError s u rfl
  have taken : exec (.byteReceived b framingError) s = .next (takeByte b framingError (noteByte s)) := rfl
  rw [taken]
  refine ⟨fun hunt => ?hunt, fun skip => ?skip, fun busy other => ?busy, fun header clean short => ?header,
    fun header clean two fits => ?length, fun n state clean long length goesOn => ?payload, fun within bad => ?discard⟩
  case hunt => rw [takeByte_hunt (s := noteByte s) hunt]; rfl
  case skip => rw [takeByte_skip (s := noteByte s) skip]; rfl
  case busy => rw [takeByte_busy (s := noteByte s) busy, if_neg fun start => other start.1]; rfl
  case header => rw [clean, takeByte_header (s := noteByte s) header short]; rfl
  case length => rw [clean, takeByte_length (s := noteByte s) header two fits]; rfl
  case payload => rw [clean, takeByte_payload (s := noteByte s) (.inr state) long length goesOn]; rfl
  case discard => rw [takeByte_discards (s := noteByte s) within bad, discard_addressed]; rfl

/-! ### Silence, overrun and the end of a reply (R185, R187, R188) -/

theorem overrun_eq (s : State) : overrun s = { s with clp := { s.clp with
    ignoring := true
    discarded := if s.clp.ignoring = false ∧ s.clp.discarded ≠ 0xFFFF#16 then s.clp.discarded + 1
      else s.clp.discarded } } := by
  unfold overrun
  cases ignoring : s.clp.ignoring with
  | true =>
    have same : s.clp = { s.clp with ignoring := true } := by rw [← ignoring]
    simpa using congrArg (fun c : Clp => { s with clp := c }) same
  | false => simp [saturate16, ite_not]

/-- R187: a start byte in BUSY. -/
theorem frameOverrun_of_busy {s : State} (busy : s.clp.receiver = .busy) : frameOverrun s = overrun (noteByte s) := by
  rw [frameOverrun, if_pos busy, receiveByte, takeByte_busy (s := noteByte s) busy, if_pos ⟨rfl, rfl⟩]

theorem silenceTimeout_inFrame {s : State} (within : s.clp.receiver.inFrame) :
    silenceTimeout s = discard (addressed s.clp) .hunt s := by
  unfold silenceTimeout
  rcases within with state | state | state <;> rw [state]

/-- Settles O38, event by event and by the receiver's state. -/
theorem silenceOverrunAndReplyEndFrames : Obligations.SilenceOverrunAndReplyEndFrames := by
  unfold Obligations.SilenceOverrunAndReplyEndFrames
  have silence (s : State) : exec .linkSilenceTimeout s = .next (silenceTimeout s) := rfl
  have start (s : State) : exec .frameOverrun s = .next (frameOverrun s) := rfl
  have sent (s : State) : exec .replySent s = .next (replySent s) := rfl
  refine ⟨fun s => ⟨fun hunt => ?hunt, fun skip => ?skip, fun busy => ?ignored, fun within => ?frame, fun busy => ?overrun⟩,
    fun r s busy reply => ?reply⟩
  case hunt => rw [silence, silenceTimeout, hunt]
  case skip => rw [silence, silenceTimeout, skip]
  case ignored => rw [silence, silenceTimeout, busy]
  case frame => rw [silence, silenceTimeout_inFrame within, discard_addressed]
  case overrun => rw [start, frameOverrun_of_busy busy, overrun_eq]; rfl
  case reply => rw [sent, replySent, if_pos ⟨busy, by rw [reply]; rfl⟩]

end Sys2Proof.Machine

/-! ## Requests that reach no block (R192) -/

namespace Sys2Proof.Machine

/-- R192: a request row is the role check and a block. -/
theorem exec_requestRow {c : Instr} {n : Nat} {k : RequestKind} (row : requestRow c = some (n, k)) :
    ∃ block, ∀ s, exec c s = .next (asked k n block s) := by
  cases c
  case readStatus | readGroups | readDetectors | readPriority | readFaults | readEvents | clearEvents | takeSelector
      | releaseSelector | setStage | selectStage | callGroups | modeRequestFlash | modeRequestDark | modeRequestResume
      | clearFaults | setDim | enablePriority | readConfig | writeConfig | checkIn | checkOut | cancelPriorityByNumber
      | cancelPriorityByIdent =>
    cases row
    exact ⟨_, fun _ => rfl⟩
  all_goals nomatch row

/-- Settles O39: every request row comes to the role check first. -/
theorem requestsTurnedAway : Obligations.RequestsTurnedAway := by
  unfold Obligations.RequestsTurnedAway
  intro i c k s row
  obtain ⟨block, ran⟩ := exec_requestRow row
  refine ⟨fun free barred => ?_, fun busy => ?_⟩
  · rw [ran, asked_refused k i block s free barred, answer_eq]
  · rw [ran, asked_inFlight k (number i) block s busy]

end Sys2Proof.Machine

/-! ## WRITE_CONFIG (R202 to R204) -/

namespace Sys2Proof.Machine

/-! ### The refusals (R202) -/

section
variable {block index : Byte} {bs : List Byte} {p : Place} {i : Station} {s : State}

theorem writeConfig_of_mode (mode : s.mfs.mode.resting = false) :
    writeConfig block index bs i s = answer .writeConfig .refusedMode [0] s := by
  rw [writeConfig, mode]
  rfl

theorem writeConfig_of_noPlace (mode : s.mfs.mode.resting = true) (none : placeOf block index = none) :
    writeConfig block index bs i s = answer .writeConfig .refusedInvalid [0] s := by
  rw [writeConfig, mode, none]
  rfl

theorem writeConfig_of_verdict {v : Verdict} (mode : s.mfs.mode.resting = true) (place : placeOf block index = some p)
    (verdict : recordVerdict p bs = v) (fails : v ≠ .done) :
    writeConfig block index bs i s = answer .writeConfig v [0] s := by
  simp only [writeConfig, mode, place, verdict, if_neg fails]
  rfl

theorem recordVerdict_of_length (length : bs.length ≠ p.size) : recordVerdict p bs = .badLength := if_pos length

/-- R202 steps 4 and 5: a flag, presence byte or code that its field may not hold. -/
theorem recordVerdict_of_field (length : bs.length = p.size)
    (bad : ∃ f ∈ recordFields p bs, f.1.encodingOk f.2 = false ∨ f.1.codeOk f.2 = false) :
    recordVerdict p bs = .refusedInvalid := by
  obtain ⟨f, mem, bad⟩ := bad
  rw [recordVerdict, if_neg (not_not.mpr length)]
  rcases bad with encoding | code
  · have some_bad : ((recordFields p bs).all fun f => f.1.encodingOk f.2) = false :=
      List.all_eq_false.mpr ⟨f, mem, by simp [encoding]⟩
    rw [some_bad]
    rfl
  · have some_bad : ((recordFields p bs).all fun f => f.1.codeOk f.2) = false :=
      List.all_eq_false.mpr ⟨f, mem, by simp [code]⟩
    rw [some_bad]
    exact ite_self _

end

/-! ### The image with the record (R203, R204) -/

theorem imageByte_writtenImage {p : Place} {bs : List Byte} {m : Image} (wf : imageWf m = true)
    (length : bs.length = p.size) {k : Nat} (within : k < p.size) :
    imageByte (writtenImage p bs m) (p.base + k) = (clampedRecord p bs).getD k 0 := by
  have bound : k < (clampedRecord p bs).length := by rwa [clampedRecord_length p bs length]
  rw [writtenImage, imageByte_writeBytes m _ _ _ wf, dif_pos ⟨Nat.le_add_right _ _, by rwa [Nat.add_sub_cancel_left]⟩,
    List.getD_eq_getElem _ _ bound]
  simp only [Nat.add_sub_cancel_left]

theorem groupWritten_cs (old : Image) (g : Group) (s : State) : (groupWritten old g s).cs = s.cs := by
  obtain ⟨cs, _⟩ := groupRecorded_frame old g s
  rw [groupWritten_eq]
  split
  · exact (leaveRedOut_shuts g _).cs.trans cs
  · exact cs

/-- R204: of the store's own records a write changes the record's bytes and the indicator, whatever its effects at the
other blocks. -/
theorem storeRecord_cs (p : Place) (bs : List Byte) (s : State) :
    (storeRecord p bs s).cs = { s.cs with image := writtenImage p bs s.cs.image, edited := true } := by
  cases p with
  | device => rfl
  | station i => exact (stationStored i bs s).cs
  | group g => exact groupWritten_cs s.cs.image g (withRecord (.group g) bs s)
  | matrix c => rfl
  | stage n => rfl
  | detector ch =>
    have written : (withRecord (.detector ch) bs (sampleLeft ch s)).cs = { (sampleLeft ch s).cs with
        image := writtenImage (.detector ch) bs (sampleLeft ch s).cs.image, edited := true } := rfl
    rw [(detectorStored ch bs s rfl).cs, written, (sampleLeft_frame ch s).cs]
  | approach a => rfl

/-! ### What a write may bring at the groups

Beside `Calm`, which says that the mode and the matrix stand, a write leaves the stage list and moves no group but from
PROCEED_EXT to CLEARANCE. -/

structure OnlyEnds (s t : State) : Prop where
  stages : t.sel.stages = s.sel.stages
  groups : ∀ g, (grp t g).state = (grp s g).state ∨ (grp s g).state = .proceedExt ∧ (grp t g).state = .clearance

namespace OnlyEnds

theorem of_states {s t : State} (sel : t.sel = s.sel) (states : ∀ g, (grp t g).state = (grp s g).state) : OnlyEnds s t :=
  ⟨congrArg Sel.stages sel, fun g => .inl (states g)⟩

theorem refl (s : State) : OnlyEnds s s := .of_states rfl fun _ => rfl

theorem trans {s t u : State} (h : OnlyEnds s t) (k : OnlyEnds t u) : OnlyEnds s u where
  stages := k.stages.trans h.stages
  groups g := by
    rcases h.groups g with stands | ⟨ext, clearance⟩
    · rw [← stands]
      exact k.groups g
    · have stays := (k.groups g).resolve_right fun ended => by rw [clearance] at ended; cases ended.1
      exact .inr ⟨ext, stays.trans clearance⟩

theorem of_ite {p : Prop} [Decidable p] {s t : State} (h : p → OnlyEnds s t) : OnlyEnds s (if p then t else s) := by
  split
  · rename_i holds; exact h holds
  · exact .refl s

theorem of_foldl {α : Type} {f : State → α → State} (h : ∀ s a, OnlyEnds s (f s a)) (l : List α) (s : State) :
    OnlyEnds s (l.foldl f s) := by
  induction l generalizing s with
  | nil => exact .refl s
  | cons a l ih => exact (h s a).trans (ih _)

end OnlyEnds

theorem Follows.onlyEnds {own : Group → Bool} {s t : State} (h : Follows own s t) : OnlyEnds s t :=
  ⟨by rw [h.sel], fun g => (h.groups g).state⟩

theorem postIf_onlyEnds (b : Bool) (e : Event) (s : State) : OnlyEnds s (postIf b e s) :=
  .of_states (by simp) fun _ => by simp

theorem setApr_onlyEnds (s : State) (a : Approach) (r : ApproachRec) : OnlyEnds s (setApr s a r) :=
  .of_states (by simp) fun _ => by simp

theorem setDet_onlyEnds (s : State) (ch : Channel) (r : DetRec) : OnlyEnds s (setDet s ch r) :=
  .of_states (by simp) fun _ => by simp

theorem setStation_onlyEnds (s : State) (i : Station) (r : StationRec) : OnlyEnds s (setStation s i r) :=
  .of_states (by simp) fun _ => by simp

theorem withRecord_onlyEnds (p : Place) (bs : List Byte) (s : State) : OnlyEnds s (withRecord p bs s) :=
  .of_states rfl fun _ => rfl

/-- Group records that differ in no state. -/
theorem setGroups_onlyEnds {s : State} {f : Group → GroupRec} (states : ∀ g, (f g).state = (grp s g).state) :
    OnlyEnds s (setGroups s f) := .of_states (by simp) fun g => by rw [grp_setGroups, states]

/-! ### A sample that a DETECTOR write finds (R88, R91, R95, R101, R108) -/

theorem loopCheckIn_onlyEnds (a : Approach) (eta : Nat) (clamped single : Bool) (s : State) :
    OnlyEnds s (loopCheckIn a eta clamped single s) := by
  unfold loopCheckIn
  dsimp only
  split
  · split
    · rename_i t admitted
      obtain ⟨rest, _⟩ := admitEntry_frame _ s t admitted
      refine OnlyEnds.trans (.of_states ?_ fun g => ?_) (walkArrival_follows s t).onlyEnds <;> rw [rest]
      rfl
    · exact setApr_onlyEnds _ _ _
  · exact setApr_onlyEnds _ _ _

theorem loseB_onlyEnds (a : Approach) (s : State) : OnlyEnds s (loseB a s) := by
  unfold loseB
  split
  · exact (setApr_onlyEnds s a _).trans (loopCheckIn_onlyEnds _ _ _ _ _)
  · exact .refl s

theorem loopStateChanged_onlyEnds (ch : Channel) (st : DetState) (s : State) : OnlyEnds s (loopStateChanged ch st s) := by
  have lost (u : State) (a : Approach) : OnlyEnds u (loseAtApproach ch a u) :=
    OnlyEnds.trans (.of_ite (p := loopA u.cs.image a = some ch) fun _ => setApr_onlyEnds u a _)
      (.of_ite fun _ => loseB_onlyEnds a _)
  unfold loopStateChanged
  split
  · exact .refl s
  · exact .of_foldl lost _ s

theorem noteGapExit_onlyEnds (gs : List Group) (s : State) : OnlyEnds s (noteGapExit gs s) :=
  .of_states (by simp only [noteGapExit]) fun _ => by simp only [noteGapExit, grp]

theorem handToSequencer_onlyEnds (ch : Channel) (old : DetRec) (exit : Bool) (s : State) :
    OnlyEnds s (handToSequencer ch old exit s) := by
  have noted (b : Bool) : OnlyEnds s (if b then noteGapExit (extendedGroups s.cs.image ch) s else s) :=
    .of_ite fun _ => noteGapExit_onlyEnds _ s
  unfold handToSequencer
  dsimp only
  split
  · exact .refl s
  · exact (noted _).trans (.of_ite fun _ => (settleStage_follows _).onlyEnds)

theorem forcedDemand_onlyEnds (ch : Channel) (forced : Bool) (s : State) : OnlyEnds s (forcedDemand ch forced s) := by
  have posted (fromLoop : Bool) (gs : List Group) : OnlyEnds s (postDemand fromLoop gs s) :=
    OnlyEnds.trans (setGroups_onlyEnds fun g => by split <;> rfl) (postDemand_follows fromLoop gs s).onlyEnds
  exact .of_ite fun _ => .of_ite fun _ => posted _ _

/-- R98 to R100: what a channel hands on that posts no entry. -/
theorem handChange_onlyEnds (ch : Channel) (old new : DetRec) (exit : Bool) (s : State) :
    OnlyEnds s (handChange ch old new false exit s) :=
  (((setDet_onlyEnds s ch new).trans (postIf_onlyEnds _ _ _)).trans (handToSequencer_onlyEnds ch old exit _)).trans
    (.of_ite (p := channelKind s.cs.image ch = .loop ∧ old.state ≠ new.state) fun _ => loopStateChanged_onlyEnds ch _ _)

theorem latch_onlyEnds (k : FaultKind) (d : BitVec 72) (s : State) : OnlyEnds s (latch k d s) :=
  .of_states (by simp [latch]) fun _ => by simp [latch]

/-- R173: neither fault of a channel is critical. -/
theorem raiseAtClose_onlyEnds (ch : Channel) (old : DetRec) (s : State) : OnlyEnds s (raiseAtClose ch old s) := by
  unfold raiseAtClose
  split
  · rw [detect_of_uncritical rfl]
    exact latch_onlyEnds _ _ s
  · refine .of_ite fun _ => ?_
    rw [detect_of_uncritical rfl]
    exact latch_onlyEnds _ _ s

theorem loopLongPresence_onlyEnds (ch : Channel) (s : State) : OnlyEnds s (loopLongPresence ch s) :=
  .of_ite fun _ => (handChange_onlyEnds ch _ _ _ s).trans (forcedDemand_onlyEnds ch true _)

theorem contactLongPresence_onlyEnds (ch : Channel) (s : State) : OnlyEnds s (contactLongPresence ch s) :=
  .of_ite fun _ => (handChange_onlyEnds ch _ _ _ s).trans (forcedDemand_onlyEnds ch true _)

theorem windowClose_onlyEnds (ch : Channel) (s : State) : OnlyEnds s (windowClose ch s) :=
  .of_ite fun _ => ((loopLongPresence_onlyEnds ch s).trans (handChange_onlyEnds ch _ _ _ _)).trans
    (raiseAtClose_onlyEnds ch _ _)

theorem sampleLeft_onlyEnds (ch : Channel) (s : State) : OnlyEnds s (sampleLeft ch s) :=
  ((loopLongPresence_onlyEnds ch s).trans (windowClose_onlyEnds ch _)).trans (contactLongPresence_onlyEnds ch _)

/-! ### The effects of a write (R204) -/

theorem detectorWritten_onlyEnds (old : Image) (ch : Channel) (s : State) : OnlyEnds s (detectorWritten old ch s) := by
  have event := (setDet_onlyEnds s ch (writtenChannel s.cs.image ch (dnow s) (det s ch))).trans (postIf_onlyEnds
    (decide ((det s ch).state ≠ (writtenChannel s.cs.image ch (dnow s) (det s ch)).state)) .detectorChanged _)
  have sequencer (u : State) : OnlyEnds u (writeToSequencer old ch (det s ch) u) :=
    .of_ite fun _ => noteGapExit_onlyEnds _ u
  exact (event.trans (sequencer _)).trans (.of_ite fun _ => loopStateChanged_onlyEnds ch _ _)

theorem changeOwner_onlyEnds (o : Owner) (r : Rank) (s : State) : OnlyEnds s (changeOwner o r s) := by
  by_cases same : s.sel.owner = o ∧ s.sel.rank = r
  · rw [changeOwner_same o r s same]
    exact .refl s
  · refine OnlyEnds.trans ⟨?_, fun g => .inl ?_⟩ (changeOwner_follows o r s same).onlyEnds
    · simp [ownerWritten]
    · simp [ownerWritten, grp]

theorem stationWritten_onlyEnds (i : Station) (s : State) : OnlyEnds s (stationWritten i s) :=
  ((setStation_onlyEnds s i _).trans (postIf_onlyEnds _ _ _)).trans (.of_ite fun _ => changeOwner_onlyEnds _ _ _)

/-- R160: the inhibits are computed again, and what follows from that is taken. -/
theorem leaveRedOut_onlyEnds (g : Group) (s : State) : OnlyEnds s (leaveRedOut g s) := by
  have reported (u : State) : OnlyEnds u (reportRedOut u) :=
    OnlyEnds.trans (.of_states (by simp) fun c => by simp [recomputeInhibits])
      (settleSince_follows u (recomputeInhibits u)).onlyEnds
  have left (w : GroupSet) : OnlyEnds s { s with lou := { s.lou with redOut := w } } := .of_states rfl fun _ => rfl
  exact .of_ite fun _ => (left _).trans (reported _)

theorem groupWritten_onlyEnds (old : Image) (g : Group) (s : State) : OnlyEnds s (groupWritten old g s) := by
  obtain ⟨_, _, sel, _⟩ := groupRecorded_frame old g s
  have recorded : OnlyEnds s (groupRecorded old g s) := .of_states sel fun c => groupRecorded_state old g c s
  rw [groupWritten_eq]
  exact recorded.trans (.of_ite fun _ => leaveRedOut_onlyEnds g _)

theorem storeRecord_onlyEnds (p : Place) (bs : List Byte) (s : State) : OnlyEnds s (storeRecord p bs s) := by
  cases p with
  | device => exact .of_states rfl fun _ => rfl
  | station i => exact (withRecord_onlyEnds (.station i) bs s).trans (stationWritten_onlyEnds i _)
  | group g => exact (withRecord_onlyEnds (.group g) bs s).trans (groupWritten_onlyEnds s.cs.image g _)
  | matrix c => exact withRecord_onlyEnds (.matrix c) bs s
  | stage n => exact withRecord_onlyEnds (.stage n) bs s
  | detector ch =>
    rw [storeRecord_detector]
    exact ((sampleLeft_onlyEnds ch s).trans (withRecord_onlyEnds _ _ _)).trans (detectorWritten_onlyEnds _ ch _)
  | approach a => exact (withRecord_onlyEnds (.approach a) bs s).trans (setApr_onlyEnds _ a _)

/-! ### The copy (R204, R187) -/

theorem clampedFields_eq (l : List Nat) : clampedFields l = BitVec.ofNat 8 l.length :: l.map (BitVec.ofNat 8) := by
  have positions : l.flatMap oneByte = l.map (BitVec.ofNat 8) := List.map_eq_flatMap.symm
  rw [clampedFields, positions]
  rfl

theorem copyCompletion_of_copy {k : Copy} {s : State} (copy : s.cs.copy = some k) :
    copyCompletion s = { s with
      cs := { s.cs with copy := none }
      clp := answered .writeConfig .done
        (BitVec.ofNat 8 k.clamped.length :: k.clamped.map (BitVec.ofNat 8)) s.clp } := by
  rw [copyCompletion, copy, ← clampedFields_eq]
  rfl

/-- Settles O52: the refusals check by check; of an accepted record the store's part is `storeRecord_cs`, and its effects
at the other blocks are calm and end proceeds at most. -/
theorem writeConfigStoresClampedRecord : Obligations.WriteConfigStoresClampedRecord := by
  unfold Obligations.WriteConfigStoresClampedRecord
  refine ⟨fun i block index bs s free station wf => ?written, fun k s copy => ?copied⟩
  case copied => exact congrArg Host.Outcome.next (copyCompletion_of_copy copy)
  case written =>
  rw [exec_writeConfig i block index bs s free station]
  refine ⟨fun flash dark => ?mode, fun mode => ?taken⟩
  case mode =>
    have busy : s.mfs.mode.resting = false := Bool.eq_false_iff.mpr fun rest =>
      ((resting_iff _).mp rest).elim flash dark
    rw [writeConfig_of_mode busy, answer_eq]
  case taken =>
  have rest := (resting_iff _).mpr mode
  refine ⟨fun none => ?place, fun p place => ⟨fun length => ?length, fun length bad => ?field, fun length codes => ?accepted⟩⟩
  case place => rw [writeConfig_of_noPlace rest none, answer_eq]
  case length =>
    rw [writeConfig_of_verdict rest place (recordVerdict_of_length length) (by decide), answer_eq]
  case field =>
    rw [writeConfig_of_verdict rest place (recordVerdict_of_field length bad) (by decide), answer_eq]
  case accepted =>
    refine ⟨_, congrArg Host.Outcome.next (writeConfig_accepts mode place length codes i), ?_⟩
    have cs := storeRecord_cs p bs s
    have calm := storeRecord_calm p bs length s
    have ends := storeRecord_onlyEnds p bs s
    have stands := (calm.mode_eq (resting_no_faultEntry rest)).1
    rw [acceptRecord_eq]
    generalize storeRecord p bs s = t at cs calm ends stands
    obtain ⟨stages, groups⟩ := ends
    dsimp only
    rw [cs]
    exact ⟨fun k within => imageByte_writtenImage wf length within, fun a outside => writtenImage_agrees length wf a outside,
      rfl, rfl, rfl, rfl, rfl, rfl, stands, calm.igm, stages, groups⟩

end Sys2Proof.Machine

/-! ## READ_CONFIG (R205) -/

namespace Sys2Proof.Machine

/-! ### The record that a block code and an index name (R200) -/

section
variable {block index : Byte}

theorem placeOf_of_code (code : 6 < block.toNat) : placeOf block index = none := by
  unfold placeOf
  split
  case h_8 => rfl
  all_goals omega

theorem placeOf_device (code : block = 0) : placeOf block index = if index = 0 then some .device else none := by
  rw [placeOf, code]
  rfl

/-- R200: outside DEVICE the index is the number of an item of the block's kind, and the records lie one after the other,
all of one size. -/
theorem placeOf_numbered (known : 0 < block.toNat ∧ block.toNat ≤ 6) :
    ∃ record : Fin ([1, 4, 24, 24, 8, 32, 8].getD block.toNat 0) → Place,
      placeOf block index = (item? _ index.toNat).map record ∧
      ∀ k, (record k).size = [11, 3, 19, 24, 3, 11, 33].getD block.toNat 0 ∧
        (record k).base = [0, 11, 23, 479, 1055, 1079, 1431].getD block.toNat 0 + (record k).size * k.val := by
  obtain ⟨positive, known⟩ := known
  interval_cases code : block.toNat <;> rw [placeOf, code]
  · exact ⟨.station, rfl, fun _ => ⟨rfl, rfl⟩⟩
  · exact ⟨.group, rfl, fun _ => ⟨rfl, rfl⟩⟩
  · exact ⟨.matrix, rfl, fun _ => ⟨rfl, rfl⟩⟩
  · exact ⟨.stage, rfl, fun _ => ⟨rfl, rfl⟩⟩
  · exact ⟨.detector, rfl, fun _ => ⟨rfl, rfl⟩⟩
  · exact ⟨.approach, rfl, fun _ => ⟨rfl, rfl⟩⟩

theorem placeOf_outside (outside : 6 < block.toNat ∨ (block = 0 ∧ index ≠ 0) ∨
      (block ≠ 0 ∧ (index = 0 ∨ [1, 4, 24, 24, 8, 32, 8].getD block.toNat 0 < index.toNat))) :
    placeOf block index = none := by
  rcases outside with unknown | ⟨device, other⟩ | ⟨numbered, beside⟩
  · exact placeOf_of_code unknown
  · rw [placeOf_device device, if_neg other]
  · by_cases known : block.toNat ≤ 6
    · obtain ⟨record, place, -⟩ := placeOf_numbered (index := index) ⟨by bv_omega, known⟩
      rw [place, item?_eq_none (beside.imp_left fun zero => by rw [zero]; rfl)]
      rfl
    · exact placeOf_of_code (not_le.mp known)

theorem placeOf_within {n : Nat} (within : (block = 0 ∧ index = 0 ∧ n = 0) ∨
      (0 < block.toNat ∧ block.toNat ≤ 6 ∧ index.toNat = n + 1 ∧ n < [1, 4, 24, 24, 8, 32, 8].getD block.toNat 0)) :
    ∃ p, placeOf block index = some p ∧ p.size = [11, 3, 19, 24, 3, 11, 33].getD block.toNat 0 ∧
      p.base = [0, 11, 23, 479, 1055, 1079, 1431].getD block.toNat 0 + p.size * n := by
  rcases within with ⟨rfl, rfl, rfl⟩ | ⟨positive, known, named, bound⟩
  · exact ⟨.device, rfl, rfl, rfl⟩
  · obtain ⟨record, place, lies⟩ := placeOf_numbered (index := index) ⟨positive, known⟩
    exact ⟨record ⟨n, bound⟩, by rw [place, item?_eq_some ⟨n, bound⟩ named]; rfl, lies ⟨n, bound⟩⟩

end

/-! ### The answers -/

section
variable {block index : Byte} {i : Station} {s : State}

/-- R192: the requests of stations 1 and 4 reach the store while none is in flight. -/
theorem exec_readConfig (free : inFlight s = false) (role : i = 0 ∨ i = 3) :
    exec (.readConfig (number i) block index) s = .next (readConfig block index i s) := by
  have allowed : RequestKind.readConfig.allows i = true := by rcases role with rfl | rfl <;> rfl
  exact congrArg Host.Outcome.next (asked_number .readConfig i (readConfig block index) s free allowed)

theorem readConfig_of_mode (mode : s.mfs.mode.resting = false) :
    readConfig block index i s = answer .readConfig .refusedMode [] s := by
  rw [readConfig, mode]
  rfl

theorem readConfig_of_noPlace (mode : s.mfs.mode.resting = true) (unnamed : placeOf block index = none) :
    readConfig block index i s = answer .readConfig .refusedInvalid [] s := by
  rw [readConfig, mode, unnamed]
  rfl

theorem readConfig_of_place {p : Place} (mode : s.mfs.mode.resting = true) (place : placeOf block index = some p) :
    readConfig block index i s =
      answer .readConfig .done (flagByte s.cs.edited :: recordBytes s.cs.image p) s := by
  rw [readConfig, mode, place]
  rfl

end

/-- Settles O51: the answers are those of `readConfig` by mode and by record; where the record stands is
`placeOf_within`. -/
theorem readConfigReturnsRecord : Obligations.ReadConfigReturnsRecord := by
  unfold Obligations.ReadConfigReturnsRecord
  intro i block index s free station
  rw [exec_readConfig free station]
  refine ⟨fun flash dark => ?mode, fun mode => ⟨fun outside => ?place, ?record⟩⟩
  case mode =>
    have busy : s.mfs.mode.resting = false := Bool.eq_false_iff.mpr fun rest =>
      ((resting_iff _).mp rest).elim flash dark
    rw [readConfig_of_mode busy, answer_eq]
  all_goals have rest := (resting_iff _).mpr mode
  case place => rw [readConfig_of_noPlace rest (placeOf_outside outside), answer_eq]
  case record =>
    rintro n base size within rfl rfl l rfl
    obtain ⟨p, place, size, base⟩ := placeOf_within within
    rw [readConfig_of_place rest place, answer_eq, recordBytes, base, size]
    rfl

end Sys2Proof.Machine

/-! ## A reset during a copy (R204) -/

namespace Sys2Proof.Machine

theorem getElem_imageBytes {m : Image} {a w k : Nat} (within : k < (imageBytes m a w).length) :
    (imageBytes m a w)[k] = imageByte m (a + k) := by
  induction w generalizing a k with
  | zero => cases within
  | succ w ih =>
    cases k with
    | zero => rfl
    | succ k =>
      simp only [imageBytes, List.getElem_cons_succ, ih]
      congr 1
      omega

/-- R204: the old bytes of a record, written back over an image that differs nowhere else, give the old image. -/
theorem imageByte_writeBack {p : Place} {m m' : Image} (wf : imageWf m' = true) (agree : AgreeBut p m m') (a : Nat) :
    imageByte (imageWriteBytes m' p.base (recordBytes m p)) a = imageByte m a := by
  have length : (recordBytes m p).length = p.size := imageBytes_length m p.base p.size
  rw [imageByte_writeBytes m' _ a _ wf]
  split
  · rename_i within
    exact (getElem_imageBytes within.2).trans (congrArg (imageByte m) (Nat.add_sub_cancel' within.1))
  · rename_i outside
    exact agree a (by omega)

/-- R202: a WRITE_CONFIG leaves the store, or its record is accepted with no other request in flight. -/
theorem asked_writeConfig_cases (n : Nat) (block index : Byte) (bs : List Byte) (s : State) :
    (asked .writeConfig n (writeConfig block index bs) s).cs = s.cs ∨
    inFlight s = false ∧ ∃ p, bs.length = p.size ∧
      asked .writeConfig n (writeConfig block index bs) s = acceptRecord p bs s := by
  refine asked_cases _ _ _ s
    (fun t => t.cs = s.cs ∨ inFlight s = false ∧ ∃ p, bs.length = p.size ∧ t = acceptRecord p bs s)
    (.inl rfl) (fun _ => .inl rfl) fun i free _ => ?_
  unfold writeConfig
  split
  · exact .inl rfl
  split
  · exact .inl rfl
  split
  · rename_i verdict
    exact .inr ⟨free, _, recordVerdict_length verdict, rfl⟩
  · exact .inl rfl

/-- R204: the store once a record is accepted. -/
theorem acceptRecord_cs (p : Place) (bs : List Byte) (s : State) : (acceptRecord p bs s).cs = { s.cs with
    image := writtenImage p bs s.cs.image
    edited := true
    copy := some { address := p.base, old := recordBytes s.cs.image p, clamped := clampedPositions p bs } } := by
  rw [acceptRecord_eq, storeRecord_cs]

/-- R209: without a validation in flight a reset leaves the stored CRC. -/
theorem storedCrcAfterReset_of_idle {s : State} (idle : s.cs.validating = false) :
    storedCrcAfterReset s = s.cs.storedCrc := by
  rw [storedCrcAfterReset, idle]
  rfl

/-- Settles O5: the copy holds the record's old bytes, and the image differs from the old one in that record alone; a
write is accepted only while no validation is in flight, so the stored CRC stands. -/
theorem resetDuringCopyKeepsOldOrNewRecord : Obligations.ResetDuringCopyKeepsOldOrNewRecord := by
  unfold Obligations.ResetDuringCopyKeepsOldOrNewRecord
  intro n block index bs addr rate s t u wf idle written copying reset
  obtain rfl := Host.Outcome.next.inj written
  obtain rfl := Host.Outcome.next.inj reset
  rcases asked_writeConfig_cases n block index bs s with stands | ⟨free, p, length, accepted⟩
  · rw [stands, idle] at copying
    cases copying
  rw [accepted]
  have cs := acceptRecord_cs p bs s
  generalize acceptRecord p bs s = t at cs
  have validating : t.cs.validating = false := by rw [cs]; exact (Bool.or_eq_false_iff.mp free).2
  have storedCrc : storedCrcAfterReset t = s.cs.storedCrc := by rw [storedCrcAfterReset_of_idle validating, cs]
  have image : imageAfterReset t = t.cs.image ∨
      imageAfterReset t = imageWriteBytes (writtenImage p bs s.cs.image) p.base (recordBytes s.cs.image p) := by
    rw [imageAfterReset, cs]
    exact ite_eq_or_eq _ _ _
  refine ⟨storedCrc, ?_⟩
  rcases image with new | old
  · exact .inr fun a => congrArg (imageByte · a) new
  · exact .inl fun a => (congrArg (imageByte · a) old).trans
      (imageByte_writeBack (imageWriteBytes_wf _ _ _ wf) (writtenImage_agrees length wf) a)

end Sys2Proof.Machine

/-! ## The step and the queue -/

namespace Sys2Proof.Machine

/-- A waiting command is taken off the queue and run. -/
theorem step_of_pending_cons {c : Instr} {rest : List Instr} {s : State} (queue : s.pending = c :: rest) :
    step s = exec c { s with pending := rest } := by
  simp only [step, queue]

/-- Log entry 1: with no command waiting the part idles. -/
theorem step_of_pending_nil {s : State} (empty : s.pending = []) : step s = .next s := by
  simp only [step, empty]

/-- Settles O2: every command has a next state, and that the queue stands is one of the laws that every command keeps. -/
theorem commandsCompleteAndLeaveQueue : Obligations.CommandsCompleteAndLeaveQueue := by
  unfold Obligations.CommandsCompleteAndLeaveQueue
  intro c s
  obtain ⟨t, ran, upholds⟩ := exec_next_upholds c s
  exact ⟨t, ran, upholds.keeps.pending⟩

/-- Settles O1, by the two equations of `step`. -/
theorem stepRunsFrontCommandOrIdles : Obligations.StepRunsFrontCommandOrIdles := by
  unfold Obligations.StepRunsFrontCommandOrIdles
  exact ⟨fun _ _ => step_of_pending_cons rfl, fun _ => step_of_pending_nil⟩

end Sys2Proof.Machine
